-- ==== Sys2Proof/Word.lean ====
section
/-! DEFINITION. The machine words of the Esoxon 2496: bytes, register words, stamps. -/
namespace Sys2Proof

/-- One byte of a frame, a bank or the Insole (R11). -/
abbrev Byte := BitVec 8
/-- A half word of 16 bits. -/
abbrev Half := BitVec 16
/-- A 32-bit register value or Awl register (R11, R304). -/
abbrev Word := BitVec 32
/-- A 64-bit value: a port counter (R133), a VLAN entry (R169). -/
abbrev Dword := BitVec 64
/-- A stamp: FRC in [52:5], fine part in [4:0], in units of 125 ps (R189). -/
abbrev Stamp := BitVec 53
/-- A destination map, one bit per endpoint code 0-42 (R152). -/
abbrev DestMap := BitVec 43

end Sys2Proof
end

