-- ==== Sys2Proof/Syntax.lean ====
section
/-! DEFINITION. The commands of the device: one constructor of `Instr` per row of the opcode table, with the
operands its sender supplies. A command that is an event of hardware carries what the outside world decides in it
(received bytes, a partner's answer, an elapsed count); everything else is read from the state. -/
namespace Sys2Proof

/-- An agent that writes registers (R57, Table 2-11). -/
inductive Principal where
  | ha
  | hb
  | sup
  | pe (n : Fin 18)
deriving DecidableEq, Repr

/-- Ports and lanes P0-P23, L0-L23 (Table 0-8). -/
abbrev PortIx := Fin 24
/-- Where a queue's head frame leaves: ports P0-P23, or 24, the host. -/
abbrev TxIx := Fin 25
/-- Protocol engines PE0-PE17. -/
abbrev EngIx := Fin 18
/-- Memory banks B0-B191. -/
abbrev BankIx := Fin 192
/-- Tread generators and hardware timebases 0, 1, 2 (R227). -/
abbrev GenIx := Fin 3
/-- Event units, capture units, wave channels, DMA channels: eight each. -/
abbrev OctIx := Fin 8
/-- Views V0-V31. -/
abbrev ViewIx := Fin 32
/-- Shank channels, Lace mailboxes, doorbells: 64 each. -/
abbrev ChanIx := Fin 64
/-- Eyelet engines Y0-Y15; PROT staging entries. -/
abbrev HexIx := Fin 16
/-- Welt ports W0, W1. -/
abbrev WeltIx := Fin 2
/-- Frame sources by endpoint code: 24 ports, 18 engines, the host (R152). -/
abbrev SrcIx := Fin 43
/-- A 5-bit register field of an Awl instruction (Table 9-1). -/
abbrev RegF := BitVec 5

/-- What the external flash holds: stretches of bytes, each at its flash offset; it reads 0xFF elsewhere. -/
abbrev Flash := List (Nat × List Byte)

/-- What the hardware finds in a boot step (R92): TPLL lock at step 5 (R187), and what the flash holds (R517, R521). -/
structure BootReport where
  tpllLock : Bool
  flash : Flash
deriving DecidableEq, Repr

/-- A Host B frame behind its command byte, as received: its bytes, and the CRC-16 that ends it (R509). -/
structure HbBytes where
  bytes : List Byte
  crc : Half
deriving DecidableEq, Repr

/-- What a block's start sequence finds: the Shank lanes that fail their self-test (R391), whether an engine fails its own
(Table 3-8), the banks that fail self-test and the spare columns used (R475). -/
structure StartReport where
  lanesFailed : BitVec 3
  engineFailed : Bool
  banksFailed : List BankIx
  soft : List (BankIx × BitVec 4)
deriving DecidableEq, Repr

/-- What the stamp sampler finds of a frame's SFD strobe (R35, R136): the T cycles since it was sampled, its phase in that
T cycle, and the bit count of the SFD from the word boundary. -/
structure Strobe where
  ago : Nat
  fine : BitVec 5
  bits : Nat
deriving DecidableEq, Repr

/-- A received frame at its end (R116-R118, R122): the bytes of preamble ahead of the SFD and of idle ahead of those, the
bytes on the line from the destination address to the FCS, the error code-groups inside it, loss of link, and its strobe. -/
structure RxEnd where
  gap : Nat
  preamble : Nat
  line : List Byte
  codeErrs : Nat
  linkLost : Bool
  stamp : Strobe
deriving DecidableEq, Repr

/-- A PAUSE frame of 64 bytes as the port receives it (R123): source address, quanta and strobe. -/
structure PauseRx where
  sa : BitVec 48
  quanta : Half
  stamp : Strobe
deriving DecidableEq, Repr

/-- Byte times since a port last sent, and of them the last ones in which each queue had frames waiting (R126). -/
structure TxTime where
  byteTimes : Nat
  waited : List Nat
deriving DecidableEq, Repr

/-- Bytes of a frame arriving at a lane, `byteTimes` byte times of its egress port after its last command (R272, R278). -/
structure LaneRx where
  bytes : List Byte
  byteTimes : Nat
deriving DecidableEq, Repr

/-- What the RX MAC finds at the end of a lane frame beside its bytes (R120), and the byte times of the egress port since the
lane's last command. -/
structure LaneEnd where
  codeErrs : Nat
  linkLost : Bool
  byteTimes : Nat
deriving DecidableEq, Repr

/-- What cuts a lane frame (Table 8-5): a full hold buffer, or an uncorrectable error in the receive window or in the hold
buffer. -/
inductive HoldCause
  | full
  | window
  | buffer
deriving DecidableEq, Repr

/-- A cut of a lane frame. -/
structure HoldCut where
  lane : PortIx
  cause : HoldCause
deriving DecidableEq, Repr

/-- A received Welt frame as its lane sees it (Table 12-1): its delimiters and error codes, its header, payload and CRC as
little-endian numbers of their bytes in wire order, and its start stamp (R397, R398). -/
structure WeltRx where
  chanB : Bool
  lane : PortIx
  delimited : Bool
  codeError : Bool
  header : BitVec 64
  payload : List Byte
  crc : Word
  stamp : Stamp
  /-- What the lane received from the start instant on, which a hub repeats undecoded: 66-bit blocks, or 10-bit symbols in
  the low bits (R37). -/
  words : List (BitVec 66) := []
  /-- Other lanes of the hub on which a frame starts in the same W cycle (R419). -/
  tied : List PortIx := []
deriving DecidableEq, Repr

/-- Outcome of the comparison of the two active Shank lanes at a job's end (R389). -/
inductive LaneVerdict where
  | agree
  | rerunAgrees
  | spareAgrees (withSecond : Bool)
  | unresolved
deriving DecidableEq, Repr

/-- A source of an interrupt request to IRQA: a register page (R53) or a doorbell (R498). -/
inductive IrqSource where
  | page (n : Fin 320)
  | doorbell (d : Fin 64)
deriving DecidableEq, Repr

/-- What JTAG halts, steps and reads while DEBUG = 1, and the IDCODE register, which it always reads (R520). -/
inductive JtagTarget where
  | engine (n : Fin 18)
  | eyelet (n : Fin 16)
  | supervisor
  | idcode
deriving DecidableEq, Repr

/-- A DMA descriptor as the channel reads it from host memory (Table 16-2); `word6` and `word7` are zero by its rules. -/
structure DmaDesc where
  hostAddr : Dword
  devAddr : Word
  length : Nat
  toDevice : Bool
  irq : Bool
  own : Bool
  word6 : Word := 0
  word7 : Word := 0
deriving DecidableEq, Repr

/-- A register read: the address of its first byte and its width in bytes (R40). -/
structure ReadAt where
  addr : BitVec 24
  bytes : Nat
deriving DecidableEq, Repr

/-- The commands, in the order of the opcode table. -/
inductive Instr where
  | powerOnReset (porPin revert refclk : Bool)
  | refclkLost
  | refclkPresent
  | deviceReset (p : Principal) (v : Word)
  | hostALinkReset
  | perstNRelease
  | pcieHotReset
  | powerFail (inOrder : Bool)
  | bootStepComplete (r : BootReport)
  | enWrite (p : Principal) (page : Fin 320) (v : Word)
  | softReset (p : Principal) (page : Fin 320) (v : Word)
  | firstConsistentPoint (page : Fin 320) (r : StartReport)
  | stopComplete (page : Fin 320)
  | startTimeout (page : Fin 320)
  | stopTimeout (page : Fin 320)
  | registerWrite (p : Principal) (addr : BitVec 24) (bytes : Nat) (v : Dword)
  | unmappedAccess (p : Principal) (addr : BitVec 24)
  | rcRead (p : Principal) (r : ReadAt)
  | errClr (p : Principal) (page : Fin 320) (v : Word)
  | irqSet (p : Principal) (page : Fin 320) (v : Word)
  | msixMessage (src : IrqSource)
  | vecEoi (p : Principal) (high : Bool) (v : Word)
  | proposal (p : Principal) (addr : BitVec 24) (v : Word)
  | approveAddr (p : Principal) (v : Word)
  | approveCrc (p : Principal) (v : Word)
  | approvalEvaluation
  | windowExpiry (j : HexIx)
  | commit (p : Principal) (v : Word)
  | commitComplete (verified : Bool)
  | revert (p : Principal) (v : Word)
  | revertComplete (verified : Bool)
  | laneModeWrite (p : Principal) (n : PortIx) (v : Word)
  | laneAligned (n : PortIx)
  | linkUp (n : PortIx)
  | linkDown (n : PortIx)
  | sgmiiControlWord (n : PortIx) (link : Bool) (speed : Fin 3) (fullDuplex : Bool)
  | autonegComplete (n : PortIx) (fullDuplex pause : Bool)
  | remoteFault (n : PortIx) (present : Bool)
  | rxFrameEnd (n : PortIx) (f : RxEnd)
  | pauseFrame (n : PortIx) (f : PauseRx)
  | pauseExpiry (n : PortIx)
  | txSelect (n : TxIx) (t : TxTime)
  | launchInstant (n : PortIx) (q : OctIx)
  | txFrameEnd (n : PortIx) (byteTimes : Nat) (waited : List Nat) (stamp : Strobe)
  | txtsHiRead (p : Principal) (n : PortIx)
  | cntLoRead (p : Principal) (n : PortIx) (i : Fin 42)
  | cntHiRead (p : Principal) (n : PortIx) (i : Fin 42)
  | statSnap (p : Principal) (n : PortIx) (v : Word)
  | mdioRead (p : Principal) (n : PortIx)
  | mdioWrite (p : Principal) (n : PortIx)
  | mdioReadInc (p : Principal) (n : PortIx)
  | mdioDone (bus1 : Bool) (answered : Bool) (data : Half)
  | phyProbe (n : PortIx) (aCycles : Nat)
  | frameLookup (src : SrcIx) (hdr : List Word) (bytes : List Byte)
  | frameCommit (src : SrcIx) (sCycles : Nat)
  | learn
  | fdbAgeSweep
  | fdbInsert (p : Principal)
  | fdbDelete (p : Principal)
  | fdbSearch (p : Principal)
  | fdbFlush (p : Principal) (flushBy : Fin 4)
  | fdbRead (p : Principal)
  | fdbCmdDone
  | swcTblRead (p : Principal)
  | swcTblWrite (p : Principal)
  | strmRead (p : Principal)
  | strmWrite (p : Principal)
  | meterRefill
  | genBarrierArm (p : Principal) (v : Word)
  | eventFire (n : OctIx)
  | eventPulseEnd (n : OctIx)
  | evArm (p : Principal) (n : OctIx)
  | evDisarm (p : Principal) (n : OctIx)
  | evAlignDone (n : OctIx)
  | evWaitRelease (n : OctIx)
  | leapChange
  | viewArm (p : Principal) (n : ViewIx) (v : Word)
  | viewSwitch (n : ViewIx)
  | viewTrackLoad (n : ViewIx)
  | viewConvert (p : Principal) (v : Word)
  | viewConvertDone (p : Principal)
  | viewAged (n : ViewIx)
  | frcLoRead (p : Principal) (htb : Option GenIx)
  | captureEdge (n : OctIx) (rising : Bool) (fine : BitVec 5)
  | captureSw (p : Principal) (n : OctIx)
  | captureRead (p : Principal) (n : OctIx)
  | ocxValueWrite (p : Principal) (v : Word)
  | ocxFrame
  | treadSample (g : GenIx) (v : Word)
  | servoOutput (g : GenIx) (v : Word)
  | treadRun (p : Principal) (g : GenIx)
  | stopTable (p : Principal) (g : GenIx)
  | segmentEnd (g : GenIx)
  | reacquire (p : Principal) (g : GenIx)
  | accClr (p : Principal) (g : GenIx)
  | treadSrcWrite (p : Principal) (g : GenIx) (v : Word)
  | refValidWrite (p : Principal) (g : GenIx) (v : Word)
  | refQualified (g : GenIx)
  | refLost (g : GenIx)
  | sampleTimeout (g : GenIx)
  | chatterWindowEnd (g : GenIx)
  | seekOfsWrite (p : Principal) (g : GenIx) (v : Word)
  | followActiveWrite (p : Principal) (v : Word)
  | autoSwitch
  | bindWrite (p : Principal) (e : EngIx) (v : Word)
  | laneCfgWrite (p : Principal) (k : PortIx) (v : Word)
  | spareMaskWrite (p : Principal) (v : Word)
  | warmPreload (e : EngIx)
  | laneFrame (k : PortIx) (starts : Option Strobe) (f : LaneRx)
  | laneUnderrun (k : PortIx)
  | holdBufferCut (c : HoldCut)
  | laneEndStatus (k : PortIx) (f : LaneEnd)
  | skipComplete (e : EngIx) (pair : Fin 2)
  | dduAnswer
  | dduForget (i : Fin 16384)
  | dduFlush (p : Principal) (v : Word)
  | dduFlushDone
  | ckptDone (e : EngIx)
  | watchdogExpiry (e : EngIx) (d : Nat)
  | lockstepMismatch (e : EngIx) (sp : Fin 4)
  | takeoverComplete (e : EngIx) (ns : Nat)
  | farLoadArrival (e : EngIx) (tag : OctIx)
  | farStorePerformed (e : EngIx)
  | nop (e : EngIx) (d : Nat)
  | halt (e : EngIx) (d : Nat)
  | sync (e : EngIx) (d : Nat)
  | trap (e : EngIx) (d : Nat) (c : BitVec 5)
  | ckpt (e : EngIx) (d : Nat)
  | waitf (e : EngIx) (d : Nat) (mask : BitVec 10)
  | ret (e : EngIx) (d : Nat)
  | lpop (e : EngIx) (d : Nat)
  | mfs (e : EngIx) (d : Nat) (rd : RegF) (n : BitVec 4)
  | mts (e : EngIx) (d : Nat) (n : BitVec 4) (ra : RegF)
  | tsr (e : EngIx) (d : Nat) (rd : RegF)
  | add (e : EngIx) (d : Nat) (rd ra rb : RegF)
  | sub (e : EngIx) (d : Nat) (rd ra rb : RegF)
  | and (e : EngIx) (d : Nat) (rd ra rb : RegF)
  | or (e : EngIx) (d : Nat) (rd ra rb : RegF)
  | xor (e : EngIx) (d : Nat) (rd ra rb : RegF)
  | nor (e : EngIx) (d : Nat) (rd ra rb : RegF)
  | slt (e : EngIx) (d : Nat) (rd ra rb : RegF)
  | sltu (e : EngIx) (d : Nat) (rd ra rb : RegF)
  | shl (e : EngIx) (d : Nat) (rd ra rb : RegF)
  | shr (e : EngIx) (d : Nat) (rd ra rb : RegF)
  | sar (e : EngIx) (d : Nat) (rd ra rb : RegF)
  | shli (e : EngIx) (d : Nat) (rd ra : RegF) (sh : BitVec 5)
  | shri (e : EngIx) (d : Nat) (rd ra : RegF) (sh : BitVec 5)
  | sari (e : EngIx) (d : Nat) (rd ra : RegF) (sh : BitVec 5)
  | min (e : EngIx) (d : Nat) (rd ra rb : RegF)
  | max (e : EngIx) (d : Nat) (rd ra rb : RegF)
  | mul (e : EngIx) (d : Nat) (rd ra rb : RegF)
  | mulh (e : EngIx) (d : Nat) (rd ra rb : RegF)
  | mulhu (e : EngIx) (d : Nat) (rd ra rb : RegF)
  | ext (e : EngIx) (d : Nat) (rd ra : RegF) (pos len1 : BitVec 5)
  | exts (e : EngIx) (d : Nat) (rd ra : RegF) (pos len1 : BitVec 5)
  | ins (e : EngIx) (d : Nat) (rd ra : RegF) (pos len1 : BitVec 5)
  | clz (e : EngIx) (d : Nat) (rd ra : RegF)
  | popc (e : EngIx) (d : Nat) (rd ra : RegF)
  | bswap (e : EngIx) (d : Nat) (rd ra : RegF)
  | bswaph (e : EngIx) (d : Nat) (rd ra : RegF)
  | crc (e : EngIx) (d : Nat) (rd ra : RegF) (n : BitVec 5) (poly : BitVec 3)
  | hash (e : EngIx) (d : Nat) (rd ra rb : RegF)
  | cams (e : EngIx) (d : Nat) (rd ra rb : RegF)
  | camw (e : EngIx) (d : Nat) (ra rb : RegF)
  | camr (e : EngIx) (d : Nat) (ra rb : RegF)
  | ddq (e : EngIx) (d : Nat) (rd ra rb : RegF) (tag : OctIx) (path : BitVec 2)
  | addi (e : EngIx) (d : Nat) (rd ra : RegF) (imm : Half)
  | andi (e : EngIx) (d : Nat) (rd ra : RegF) (imm : Half)
  | ori (e : EngIx) (d : Nat) (rd ra : RegF) (imm : Half)
  | xori (e : EngIx) (d : Nat) (rd ra : RegF) (imm : Half)
  | lui (e : EngIx) (d : Nat) (rd : RegF) (imm : Half)
  | slti (e : EngIx) (d : Nat) (rd ra : RegF) (imm : Half)
  | sltiu (e : EngIx) (d : Nat) (rd ra : RegF) (imm : Half)
  | ldb (e : EngIx) (d : Nat) (rd ra : RegF) (imm : Half)
  | ldbs (e : EngIx) (d : Nat) (rd ra : RegF) (imm : Half)
  | ldh (e : EngIx) (d : Nat) (rd ra : RegF) (imm : Half)
  | ldhs (e : EngIx) (d : Nat) (rd ra : RegF) (imm : Half)
  | ld (e : EngIx) (d : Nat) (rd ra : RegF) (imm : Half)
  | stb (e : EngIx) (d : Nat) (rs ra : RegF) (imm : Half)
  | sth (e : EngIx) (d : Nat) (rs ra : RegF) (imm : Half)
  | st (e : EngIx) (d : Nat) (rs ra : RegF) (imm : Half)
  | ldd (e : EngIx) (d : Nat) (rd : RegF) (imm : Half)
  | std (e : EngIx) (d : Nat) (rs : RegF) (imm : Half)
  | fld (e : EngIx) (d : Nat) (rd ra : RegF) (tag : OctIx) (size : BitVec 2) (off : BitVec 11)
  | fst (e : EngIx) (d : Nat) (rs ra : RegF) (tag : OctIx) (size : BitVec 2) (off : BitVec 11)
  | rld (e : EngIx) (d : Nat) (rd ra : RegF) (tag : OctIx) (size : BitVec 2) (off : BitVec 11)
  | rst (e : EngIx) (d : Nat) (rs ra : RegF) (tag : OctIx) (size : BitVec 2) (off : BitVec 11)
  | bCond (e : EngIx) (d : Nat) (ra rb : RegF) (cond : BitVec 3) (target : BitVec 13)
  | call (e : EngIx) (d : Nat) (target : BitVec 13)
  | jr (e : EngIx) (d : Nat) (ra : RegF)
  | loop (e : EngIx) (d : Nat) (len : BitVec 10) (count : Half)
  | loopr (e : EngIx) (d : Nat) (len : BitVec 10) (ra : RegF)
  | lpost (e : EngIx) (d : Nat) (rd ra : RegF) (m : ChanIx) (side : Bool) (last : Bool)
  | lread (e : EngIx) (d : Nat) (rd : RegF) (m : ChanIx) (side : Bool)
  | dbr (e : EngIx) (d : Nat) (ra : RegF) (db : ChanIx)
  | srd (e : EngIx) (d : Nat) (r : RegF) (pair : Fin 2) (be : Bool) (n : BitVec 11)
  | speek (e : EngIx) (d : Nat) (r : RegF) (pair : Fin 2) (be : Bool) (n : BitVec 11)
  | swr (e : EngIx) (d : Nat) (r : RegF) (pair : Fin 2) (be : Bool) (n : BitVec 11) (endMark kill : Bool)
  | sins (e : EngIx) (d : Nat) (r : RegF) (pair : Fin 2) (be : Bool) (n : BitVec 11) (endMark kill : Bool)
  | sdel (e : EngIx) (d : Nat) (ra : RegF) (pair : Fin 2) (rn : Bool) (n : BitVec 11) (endMark kill : Bool)
  | sskip (e : EngIx) (d : Nat) (ra : RegF) (pair : Fin 2) (rn : Bool) (n : BitVec 11) (endMark kill : Bool)
  | seof (e : EngIx) (d : Nat) (r : RegF) (pair : Fin 2)
  | snxt (e : EngIx) (d : Nat) (pair : Fin 2)
  | shankPost (p : Principal) (c : ChanIx) (s : Fin 4) (v : Word)
  | postEntry
  | shankTrigWrite (p : Principal) (high : Bool) (v : Word)
  | channelTrigger (c : ChanIx)
  | jobDispatch
  | jobEnd (r : LaneVerdict)
  | shankOutput
  | laneTest (p : Principal) (v : Word)
  | laneSelftestDone (lane : GenIx) (passed : Bool)
  | setWrite (p : Principal) (v : Word)
  | groupCfgWrite (p : Principal) (g : OctIx) (v : Word)
  | cycleEnd (n : WeltIx)
  | patApply (p : Principal) (n : WeltIx) (v : Word)
  | weltFrameRx (n : WeltIx) (f : WeltRx)
  | windowClose (n : WeltIx) (chanB : Bool) (entry : Fin 512)
  | txLatch (n : WeltIx) (chanB : Bool) (entry : Fin 512)
  | weltTx (n : WeltIx) (chanB : Bool) (entry : Fin 512)
  | publish (p : Principal) (n : WeltIx) (v : Word)
  | listenTimeout (n : WeltIx)
  | syncLoss (n : WeltIx) (chanOnly : Option Bool)
  | passiveHoldEnd (n : WeltIx)
  | csHoldExpiry (n : WeltIx) (chanB : Bool)
  | laneRealign (n : WeltIx) (lane : PortIx)
  | eyeletStep (n : HexIx) (pins : Dword)
  | none (n : HexIx)
  | sin (n : HexIx) (arg : Byte) (in0 : Bool) (pins : Dword)
  | sout (n : HexIx) (arg : Byte)
  | flush (n : HexIx)
  | load (n : HexIx)
  | dec0 (n : HexIx)
  | dec1 (n : HexIx)
  | set0 (n : HexIx)
  | set1 (n : HexIx)
  | wait (n : HexIx) (arg : Byte)
  | irq (n : HexIx) (arg : Byte)
  | stamp (n : HexIx) (arg : Byte)
  | waitEnd (n : HexIx)
  | stallEnd (n : HexIx)
  | rxhDeliver (n : HexIx)
  | txhFill (n : HexIx)
  | eventLatch (n : HexIx) (i : Fin 16)
  | circuitWrite (p : Principal) (n : HexIx) (v : Word)
  | rowCommit (p : Principal) (n : HexIx) (v : Word)
  | once (p : Principal) (n : HexIx) (v : Word)
  | runStop (p : Principal) (n : HexIx) (v : Word)
  | runResume (p : Principal) (n : HexIx) (v : Word)
  | eyepStart (p : Principal) (mask : Half)
  | eyepStartRestart (p : Principal) (mask : Half)
  | bootSyncStart
  | sampleFiring (disarmed : Bool)
  | wcapWord (c : OctIx)
  | reportPost
  | trigSw (p : Principal) (v : Word)
  | release (p : Principal) (v : Word)
  | exportRec (p : Principal) (v : Word)
  | exportDone
  | handoverPending (p : Principal) (bank : Byte) (next : Byte)
  | handoverBlock (p : Principal) (bank : Byte) (next : Byte)
  | bankRelease (p : Principal) (bank : Byte)
  | handoverCancel (p : Principal) (bank : Byte) (next : Byte)
  | accept (p : Principal) (bank : Byte)
  | scrubHoDone (b : BankIx)
  | scrub
  | ceWriteback (granule : BitVec 29)
  | bankAccess (p : Principal) (addr : Word) (len : Nat) (write : Option (List Byte))
  | retentionEntry (b : BankIx)
  | retentionWake (b : BankIx)
  | tx (p : Principal) (m : ChanIx) (dir : Bool) (w : Word)
  | txlast (p : Principal) (m : ChanIx) (dir : Bool) (w : Word)
  | rx (p : Principal) (m : ChanIx) (dir : Bool)
  | mutualWait (m : ChanIx)
  | dbSet (p : Principal) (d : ChanIx) (v : Word)
  | dbClear (p : Principal) (d : ChanIx) (v : Word)
  | bar2Read (off : BitVec 28) (len : Nat)
  | bar2Write (off : BitVec 28) (bytes : List Byte)
  | dmaTail (p : Principal) (c : OctIx) (v : Word)
  | dmaDescriptor (c : OctIx) (desc : DmaDesc) (host : List Byte) (hostErr : Bool)
  | dmaDescriptorDone (c : OctIx)
  | write (addr : Word) (words : List Word) (crc : Half)
  | read (addr : Word) (n : Nat) (crc : Half) (ready : Bool)
  | fetch (crc : Half) (ready : Bool)
  | hostbAbort
  | install (p : Principal)
  | remove (p : Principal)
  | svcFetch (p : Principal) (flash : Option Flash)
  | compact (p : Principal)
  | svnAdvance (p : Principal)
  | eyeletApply (p : Principal)
  | svcDone
  | supWatchdog
  | supRestartDone (firmware : Bool)
  | supLost (reason : Fin 3)
  | cmdGo (p : Principal) (v : Word)
  | flashCmdDone (data : List Byte)
  | jtagHalt (t : JtagTarget)
  | jtagStep (t : JtagTarget)
  | jtagMemory (t : JtagTarget) (addr : Word) (len : Nat) (write : Option (List Byte))
  | injGo (p : Principal) (v : Word)
  | injectionAct
  | clear (p : Principal) (v : Word)
  | faultnForce (p : Principal) (v : Word)
  | htbTick
  | pcieLinkUp (speed width : BitVec 3)
  | msiXEnable
  | dmaEnWrite (p : Principal) (c : OctIx) (v : Word)
  | fdbUnknownOp (p : Principal) (op : BitVec 3)
  | badCmdFrame (command : Byte) (frame : HbBytes)
deriving DecidableEq, Repr

end Sys2Proof
end

