-- ==== Sys2Proof/Decode.lean ====
section
/-! DEFINITION. The command a word spells by the table's bits, and the Awl instruction an instruction memory word encodes
(Tables 10-1, 10-2, R336-R338, R341-R354, R356). -/
namespace Sys2Proof

/-- No row of the table gives bits, so no word spells a command. -/
def decodeTableWord (_nbits _w : Nat) : Option Instr := none

/-! ## Awl words -/

/-- Fields of an Awl word (Table 10-1). -/
def awlOp (w : Word) : Nat := (w.extractLsb' 26 6).toNat
def awlRd (w : Word) : RegF := w.extractLsb' 21 5
def awlRa (w : Word) : RegF := w.extractLsb' 16 5
def awlRb (w : Word) : RegF := w.extractLsb' 11 5
def awlSh (w : Word) : BitVec 5 := w.extractLsb' 6 5
def awlFn (w : Word) : Nat := (w.extractLsb' 0 6).toNat
def awlImm (w : Word) : Half := w.extractLsb' 0 16
def awlTag (w : Word) (lo : Nat) : OctIx := ⟨(w.extractLsb' lo 3).toNat, (w.extractLsb' lo 3).isLt⟩
def awlMd (w : Word) : ChanIx := ⟨(w.extractLsb' 10 6).toNat, (w.extractLsb' 10 6).isLt⟩
def awlPair (w : Word) : Fin 2 := ⟨(w.extractLsb' 15 1).toNat, (w.extractLsb' 15 1).isLt⟩
def awlN (w : Word) : BitVec 11 := w.extractLsb' 0 11

/-- `n` bits from `lo` up are zero. -/
def awlZero (w : Word) (lo n : Nat) : Bool := w.extractLsb' lo n == 0

/-- An instruction whose fields stated as zero are zero (R337). -/
def awlIf (ok : Bool) (i : Instr) : Option Instr := if ok then some i else none

/-- Opcode 0x00 (Table 10-7, R349). -/
def awlSystem (e : EngIx) (d : Nat) (w : Word) : Option Instr :=
  let bare := awlZero w 6 20
  match awlFn w with
  | 0 => awlIf bare (.nop e d)
  | 1 => awlIf bare (.halt e d)
  | 2 => awlIf bare (.sync e d)
  | 3 => awlIf (awlZero w 11 15) (.trap e d (awlSh w))
  | 4 => awlIf bare (.ckpt e d)
  | 5 => awlIf (awlZero w 16 10) (.waitf e d (w.extractLsb' 6 10))
  | 6 => awlIf bare (.ret e d)
  | 7 => awlIf bare (.lpop e d)
  | 8 => awlIf (awlZero w 10 11) (.mfs e d (awlRd w) (w.extractLsb' 6 4))
  | 9 => awlIf (awlZero w 21 5 && awlZero w 10 6) (.mts e d (w.extractLsb' 6 4) (awlRa w))
  | 10 => awlIf (awlZero w 6 15) (.tsr e d (awlRd w))
  | _ => none

/-- Opcode 0x01 (Table 10-3, R341). -/
def awlAlu (e : EngIx) (d : Nat) (w : Word) : Option Instr :=
  let (rd, ra, rb, sh) := (awlRd w, awlRa w, awlRb w, awlSh w)
  let r := awlZero w 6 5
  let i := awlZero w 11 5
  match awlFn w with
  | 0 => awlIf r (.add e d rd ra rb)
  | 1 => awlIf r (.sub e d rd ra rb)
  | 2 => awlIf r (.and e d rd ra rb)
  | 3 => awlIf r (.or e d rd ra rb)
  | 4 => awlIf r (.xor e d rd ra rb)
  | 5 => awlIf r (.nor e d rd ra rb)
  | 6 => awlIf r (.slt e d rd ra rb)
  | 7 => awlIf r (.sltu e d rd ra rb)
  | 8 => awlIf r (.shl e d rd ra rb)
  | 9 => awlIf r (.shr e d rd ra rb)
  | 10 => awlIf r (.sar e d rd ra rb)
  | 11 => awlIf i (.shli e d rd ra sh)
  | 12 => awlIf i (.shri e d rd ra sh)
  | 13 => awlIf i (.sari e d rd ra sh)
  | 14 => awlIf r (.min e d rd ra rb)
  | 15 => awlIf r (.max e d rd ra rb)
  | _ => none

/-- Opcodes 0x02 and 0x03: multiplies and bit fields (R341, R342). -/
def awlMul (e : EngIx) (d : Nat) (w : Word) : Option Instr :=
  let r := awlZero w 6 5
  match awlFn w with
  | 0 => awlIf r (.mul e d (awlRd w) (awlRa w) (awlRb w))
  | 1 => awlIf r (.mulh e d (awlRd w) (awlRa w) (awlRb w))
  | 2 => awlIf r (.mulhu e d (awlRd w) (awlRa w) (awlRb w))
  | _ => none
def awlBits (e : EngIx) (d : Nat) (w : Word) : Option Instr :=
  let one := awlZero w 6 10
  match awlFn w with
  | 0 => some (.ext e d (awlRd w) (awlRa w) (awlRb w) (awlSh w))
  | 1 => some (.exts e d (awlRd w) (awlRa w) (awlRb w) (awlSh w))
  | 2 => some (.ins e d (awlRd w) (awlRa w) (awlRb w) (awlSh w))
  | 3 => awlIf one (.clz e d (awlRd w) (awlRa w))
  | 4 => awlIf one (.popc e d (awlRd w) (awlRa w))
  | 5 => awlIf one (.bswap e d (awlRd w) (awlRa w))
  | 6 => awlIf one (.bswaph e d (awlRd w) (awlRa w))
  | _ => none

/-- Opcode 0x06: the CAM (R353). -/
def awlCam (e : EngIx) (d : Nat) (w : Word) : Option Instr :=
  let r := awlZero w 6 5
  match awlFn w with
  | 0 => awlIf r (.cams e d (awlRd w) (awlRa w) (awlRb w))
  | 1 => awlIf (r && awlZero w 21 5) (.camw e d (awlRa w) (awlRb w))
  | 2 => awlIf (r && awlZero w 21 5) (.camr e d (awlRa w) (awlRb w))
  | _ => none

/-- Opcodes 0x30 to 0x37: streams (Table 10-11, R356). A field that an instruction's row does not name is zero.
DEDUCED, assumption row 157. -/
def awlStream (e : EngIx) (d : Nat) (w : Word) : Option Instr :=
  let (r, p, be, n) := (awlRd w, awlPair w, w.getLsbD 11, awlN w)
  let (rn, em, k) := (w.getLsbD 14, w.getLsbD 13, w.getLsbD 12)
  let noRa := awlZero w 16 5 && !rn
  match awlOp w with
  | 0x30 => awlIf (noRa && !em && !k) (.srd e d r p be n)
  | 0x31 => awlIf (noRa && !em && !k) (.speek e d r p be n)
  | 0x32 => awlIf noRa (.swr e d r p be n em k)
  | 0x33 => awlIf noRa (.sins e d r p be n em k)
  | 0x34 => awlIf (awlZero w 21 5 && !be) (.sdel e d (awlRa w) p rn n em k)
  | 0x35 => awlIf (awlZero w 21 5 && !be) (.sskip e d (awlRa w) p rn n em k)
  | 0x36 => awlIf (awlZero w 0 15 && awlZero w 16 5) (.seof e d r p)
  | 0x37 => awlIf (awlZero w 0 15 && awlZero w 16 10) (.snxt e d p)
  | _ => none

/-- The instruction that a word of instruction memory encodes for engine e, `d` E cycles after its previous issue; none for
a word that R337 makes illegal by its opcode, its FN, or a field stated as zero. -/
def awlDecode (e : EngIx) (d : Nat) (w : Word) : Option Instr :=
  let (rd, ra, rb, imm) := (awlRd w, awlRa w, awlRb w, awlImm w)
  let (tag, size, off) := (awlTag w 13, w.extractLsb' 11 2, w.extractLsb' 0 11)
  match awlOp w with
  | 0x00 => awlSystem e d w
  | 0x01 => awlAlu e d w
  | 0x02 => awlMul e d w
  | 0x03 => awlBits e d w
  | 0x04 => awlIf (awlZero w 11 5 && awlZero w 3 3) (.crc e d rd ra (awlSh w) (w.extractLsb' 0 3))
  | 0x05 => awlIf (awlZero w 0 11) (.hash e d rd ra rb)
  | 0x06 => awlCam e d w
  | 0x07 => awlIf (awlZero w 0 6) (.ddq e d rd ra rb (awlTag w 8) (w.extractLsb' 6 2))
  | 0x08 => some (.addi e d rd ra imm)
  | 0x09 => some (.andi e d rd ra imm)
  | 0x0A => some (.ori e d rd ra imm)
  | 0x0B => some (.xori e d rd ra imm)
  | 0x0C => awlIf (awlZero w 16 5) (.lui e d rd imm)
  | 0x0D => some (.slti e d rd ra imm)
  | 0x0E => some (.sltiu e d rd ra imm)
  | 0x10 => some (.ldb e d rd ra imm)
  | 0x11 => some (.ldbs e d rd ra imm)
  | 0x12 => some (.ldh e d rd ra imm)
  | 0x13 => some (.ldhs e d rd ra imm)
  | 0x14 => some (.ld e d rd ra imm)
  | 0x15 => some (.stb e d rd ra imm)
  | 0x16 => some (.sth e d rd ra imm)
  | 0x17 => some (.st e d rd ra imm)
  | 0x18 => awlIf (awlZero w 16 5) (.ldd e d rd imm)
  | 0x19 => awlIf (awlZero w 16 5) (.std e d rd imm)
  | 0x1C => some (.fld e d rd ra tag size off)
  | 0x1D => some (.fst e d rd ra tag size off)
  | 0x1E => some (.rld e d rd ra tag size off)
  | 0x1F => some (.rst e d rd ra tag size off)
  | 0x20 => some (.bCond e d rd ra (w.extractLsb' 13 3) (w.extractLsb' 0 13))
  | 0x21 => awlIf (awlZero w 13 13) (.call e d (w.extractLsb' 0 13))
  | 0x22 => awlIf (awlZero w 0 21) (.jr e d rd)
  | 0x24 => some (.loop e d (w.extractLsb' 16 10) imm)
  | 0x25 => awlIf (awlZero w 0 11) (.loopr e d (w.extractLsb' 16 10) rb)
  | 0x28 => awlIf (awlZero w 0 8) (.lpost e d rd ra (awlMd w) (w.getLsbD 9) (w.getLsbD 8))
  | 0x29 => awlIf (awlZero w 0 8 && awlZero w 16 5) (.lread e d rd (awlMd w) (w.getLsbD 9))
  | 0x2A => awlIf (awlZero w 0 8 && awlZero w 21 5) (.dbr e d ra (awlMd w))
  | _ => awlStream e d w

/-- A word encodes an instruction (R337). -/
def awlWordOk (w : Word) : Bool := (awlDecode 0 1 w).isSome

end Sys2Proof
end

