-- ==== Sys2Proof/Config.lean ====
section
/-! DEFINITION. What one implementation fixes and the values the spec leaves open. Every constant here is without a
body, so that no proof can rest on a value of it (assumption rows 3, 4, 188). -/
namespace Sys2Proof.Config

/-- A free value: the value of site `site` the `n`-th time a free value is drawn. Sites: 1 an Awl register read inside a
hazard or made undefined (R306, R313), 2 a special register read within its distance (Table 9-3), 3 a restored return
stack entry below the stack (R308), 4 a value of an instruction or event whose result the spec leaves undefined, 5 bytes
of a checkpoint's fixed state whose layout the spec does not give, 6 how many FCS bytes an aborted frame inverts, 7 the
reason of an injected SUP_LOST record, 8 STATUS of a Host B FETCH with nothing pending, 9 a byte of the
supervisor core's memory, 10 the place of the E-domain copy of the FRC at a load (R191), 11 how many TLPs
of a transfer move before EN = 0 ends it (R507), 12 how far the nearest granule of a Welt lane lies from the instant of a
frame (R397), 13 which words of a latched Welt buffer the copy read before a later write (R409), 14 whether a write through port B falls in
the E cycle of a port A write to its word (R472), 15 which word of the descriptor SRAM a frame takes (R537).
DESIGN CHOICE, assumption row 4. -/
opaque free (site n : Nat) : BitVec 32

/-- VER.DESIGN of a page (Table 2-1), fixed by design. DESIGN CHOICE, assumption row 3. -/
opaque design (page : Nat) : BitVec 16
/-- DEV.PART.GRADE is 0x2 when true, else 0x1 (Table 3-9, R4). -/
opaque gradeXk : Bool
/-- DEV.PART.STEPPING (Table 3-9). -/
opaque stepping : BitVec 8
/-- MAC.STAMP_DESIGN of a port in a lane mode: receive and transmit latency in ps (R136). -/
opaque stampDesign (mode : Nat) : BitVec 16 × BitVec 16
/-- Input design delay of the capture pins, half a unit included, in units of 125 ps (R190, R214). DESIGN CHOICE, assumption
row 3. -/
opaque captureDesign : Int
/-- Key slots fused, and revoke fuses burned at manufacture (Table 16-8). -/
opaque keyFused : BitVec 4
opaque keyRevoked : BitVec 4
/-- SHA-384 digest of the public key fused in a slot (R516). -/
opaque keyDigest (slot : Nat) : List (BitVec 8)
/-- Fused value of an SVN counter (R518). -/
opaque svnFused (k : Nat) : BitVec 7
/-- IDCODE of the JTAG port (R520). DESIGN CHOICE, assumption row 196. -/
opaque idcode : BitVec 32
/-- Spare columns of a bank used by fuse (Table 15-7). -/
opaque bankFused (n : Nat) : BitVec 4

/-- Form of the pipelines' 16-bit LFSRs: the spec names the polynomial, not the direction of the shift nor where the taps
stand (R177). DESIGN CHOICE, assumption row 188. -/
opaque lfsrForm : Fin 4
/-- Set of a DDU entry (R282): the spec gives the number of sets and ways, not the index function.
DESIGN CHOICE, assumption row 188. -/
opaque dduSet (group : BitVec 4) (sa : BitVec 48) (seq : BitVec 16) : Nat

end Sys2Proof.Config
end

