-- ==== Sys2Proof/Machine/State.lean ====
section
/-! DEFINITION. The state of the device as plain data, its outcome types and the state right after reset.
Registers live in one sparse map keyed by register address; what a register does not show lives in named fields. -/
namespace Sys2Proof.Machine

/-- Sparse data by key: keys strictly rising, no entry equal to what an unlisted key reads as. -/
abbrev Sparse (α : Type) := List (Nat × α)

/-- A field of a register: the register's key, the field's lowest bit and its width. -/
structure Field where
  key : Nat
  lo : Nat
  width : Nat
deriving DecidableEq, Repr

/-- One row of a register table: offset of the first copy, up to three strides with their counts, the bits of each
access code (Table 2-3), the retained bits (suffix /T) and the constant part of the value after reset. -/
structure RegRow where
  off : Nat
  s1 : Nat
  n1 : Nat
  s2 : Nat
  n2 : Nat
  s3 : Nat
  n3 : Nat
  rw : Word
  w1c : Word
  rc : Word
  wo : Word
  rws : Word
  ro : Word
  ret : Word
  rst : Word
deriving DecidableEq, Repr

/-- The block kinds of Table 2-10. -/
inductive Blk where
  | dev | clk | rst | insole | prot | irqa | flt
  | mac | lane | swc | fdb | strm | swq
  | tb | htb | view | evt | tread | ptpa
  | pe | fab | ddu | shank | shch | welt | pat
  | eye | eyep | wcap | bank | lace | pcie | hostb | sup | flash
deriving DecidableEq, Repr

/-- A block or symbol as a hub sends it on: as received, the stomp of a cut, or idle (R37, R411, R412). -/
inductive Repeated where
  | asReceived (w : BitVec 66)
  | stomp
  | idle
deriving DecidableEq, Repr

/-- Something the device drives out of itself: what an observer outside sees. The list of these is the model's own.
DESIGN CHOICE, assumption row 6. -/
inductive OutEvent where
  /-- A frame left port `port` with its preamble and SFD, each byte sent `copies` times (R111, R122); `stomped` with an
  inverted FCS, `aborted` by loss of link (R115). -/
  | frame (port copies : Nat) (bytes : List Byte) (stomped aborted : Bool)
  /-- A frame of host queue `queue` delivered, behind its delivery header (R153). -/
  | hostFrame (queue : Nat) (bytes : List Byte)
  /-- MSI-X message of a vector (R54). -/
  | msix (vector : Nat)
  /-- An edge of output TEn placed at a phase of 125 ps in its tick (R203). -/
  | edge (unit : Nat) (level : Bool) (phase : Int)
  /-- A frame to the oscillator's DAC: the bits sent, most significant first (R219). -/
  | ocx (bits : List Bool)
  /-- A Welt frame sent on lanes of channel A or B (R396, R397), scheduled at a position of the port's cycle in 125 ps. -/
  | welt (port : Nat) (chanB : Bool) (lanes : List Nat) (pos : Int) (header payload crc : List Byte)
  /-- A Welt hub passed what lane `lane` received to other lanes, cut at the window's close or not (R37, R411, R412). -/
  | weltRepeat (port : Nat) (chanB : Bool) (lane : Nat) (lanes : List Nat) (cut : Bool) (words : List Repeated)
  /-- A management frame on an MDIO bus (R141, R142): its preamble sent, its clause, PHY address, operation (0 read, 1 write,
  2 read with post-increment, 3 address), register in Clause 22 or device in Clause 45, and the data on the wire. -/
  | mdio (bus : Nat) (preamble clause45 : Bool) (phy op reg data : Nat)
  /-- Data written to host memory by a DMA channel (R507). -/
  | hostMem (addr : Nat) (bytes : List Byte)
  /-- A DMA channel reads a descriptor of 32 bytes from host memory (R505). -/
  | dmaRead (channel addr : Nat)
  /-- A DMA descriptor written back: channel, the bus address of its word 3, and words 3 with OWN cleared, 4 and 5: RESULT
  and DONE_BYTES (R505). -/
  | dmaWriteBack (channel addr : Nat) (words : List Word)
  /-- Completion of a Host A BAR2 read; poisoned at an uncorrectable error (R502). -/
  | bar2 (bytes : List Byte) (poisoned : Bool)
  /-- What Host B reads back: STATUS, and after a READ or FETCH the words and the CRC-16 of both (R509). -/
  | hostB (status : Nat) (words : List Word) (crc : Option Half)
  /-- A flash command issued on the flash pins (R522): opcode, address if one is sent, bytes to read or write, the bytes
  written, and FLASH.CFG as it drives the pins (R521). -/
  | flash (op : Nat) (addr : Option Nat) (len : Nat) (write : Option (List Byte)) (cfg : Word)
  /-- Bytes read over JTAG (R520). -/
  | jtag (bytes : List Byte)
  /-- The device begins or ends driving TE pin `unit` (R212). -/
  | teDrive (unit : Nat) (on : Bool)
  /-- A MAC starts or ends sending remote fault in answer to a local fault, or the far-end fault of 100BASE-FX (R113,
  R114). -/
  | linkFault (port : Nat) (send : Bool)
  /-- A MAC begins auto-negotiation: it advertises full duplex, and symmetric PAUSE or not (R112). -/
  | advertise (port : Nat) (pause : Bool)
deriving DecidableEq, Repr

/-- The always-on logic and the conditions of the whole device (R73, R77, R102). -/
structure Chip where
  /-- Supplies within range and POR_N released. -/
  powered : Bool := true
  /-- REFCLK_25 declared lost (R77); every domain but T is held in reset. -/
  clockLost : Bool := false
  /-- PERST_N asserted (R76). -/
  perst : Bool := false
  /-- REVERT sampled high at POR_N release of a power-on reset (R102). -/
  revertPin : Bool := false
  /-- This boot kept the T domain (R93, R226); the start of the time base is still owed where no boot had reached it. -/
  keptTime : Bool := false
  timeOwed : Bool := false
  /-- ACLK cycles counted (R64, PROT LOG TIME). -/
  aclk : Nat := 0
  /-- Restored CTRL.EN of each page, applied at its block's boot step (R94). -/
  bootEn : Sparse Bool := []
  /-- Soft resets held until the running sequence ends (R51), by page. -/
  heldSrst : Sparse Bool := []
  /-- Registers whose restored value contradicts an earlier one: the value they keep and read, while the block acts on the
  factory value in `regs` (R104, Table 3-8). -/
  kept : Sparse (Option Word) := []
  /-- What the Last of this boot is: slot, sequence number; none if there is no Last (R85). -/
  last : Option (Bool × Word) := none
  /-- Levels of the pads YP0-YP63 as last seen from outside (R449). -/
  pads : Dword := 0
  /-- Cause of the fault level on FAULT_N from reset to the end of boot step 1 (R532). -/
  inReset : Bool := true
deriving DecidableEq, Repr

/-- An approval waiting for PROT (R66). -/
structure Approval where
  who : Principal
  addr : BitVec 24
  crc : Half
deriving DecidableEq, Repr

/-- What PROT holds besides its registers (R65, R69). -/
structure Prot where
  approvals : List Approval := []
  /-- Held entries in the order of their approvals, each with its approver (R69). -/
  held : List (Fin 16 × Principal) := []
deriving DecidableEq, Repr

/-- What IRQA holds besides its registers (R54, R498). -/
structure Irq where
  /-- Sources whose present request IRQA has delivered: page p at key p, doorbell d at key 0x1000 + d. -/
  seen : Sparse Bool := []
  /-- MSI-X enabled by Host A in configuration space (R76). -/
  msixOn : Bool := false
deriving DecidableEq, Repr

/-- A commit or revert in progress (R86-R88, R103). -/
structure CommitJob where
  slot : Bool
  seq : Word
  words : List Word
  records : Nat
  pages : List Nat
  factory : Bool
deriving DecidableEq, Repr

/-- An MDIO operation in a bus queue (R142): clause and PHY address it was queued with. `probe` marks a read of an
identifier register by the MAC itself (R143). -/
structure MdioOp where
  port : Nat
  clause45 : Bool
  phy : Nat
  op : Nat
  reg : Nat
  devad : Nat
  data : Half
  probe : Bool
deriving DecidableEq, Repr

/-- A descriptor of a queued frame (Table 5-1). -/
structure Desc where
  cells : List Nat
  length : Nat
  src : Nat
  cls : Nat
  colour : Nat
  gen : Half
  filter : Option Nat
  /-- Egress edit: none for DIRECT frames and mirror copies, else VID, PCP, DEI and whether the stored frame is tagged. -/
  edit : Option (Nat × Nat × Nat × Bool)
  /-- UNTAG of the frame's VLAN at lookup, bit p for port Pp (R160, R178). -/
  untag : Nat
  fcsPresent : Bool
  stamp : Stamp
  launch : Option Nat
  txts : Option Half
  mirror : Bool
  /-- Injected by an engine or the host (R232). -/
  injected : Bool
  /-- Number of this frame among committed frames: descriptors of one frame share it and its cells (R151). -/
  fid : Nat
  /-- Index of the descriptor word, where one of its copies holds an injected uncorrectable error (R537). -/
  bad : Option Nat := none
deriving DecidableEq, Repr

/-- A frame in transmission at a port (R122). -/
structure TxFrame where
  desc : Desc
  queue : Nat
  bytes : List Byte
  stomp : Bool
  launched : Bool
deriving DecidableEq, Repr

/-- An egress stamp in TXTS (R139). -/
structure TxTs where
  tag : Half
  stamp : Stamp
deriving DecidableEq, Repr

/-- A port: what MAC and LANE hold besides their registers. -/
structure Port where
  /-- Credit of each queue in bits times kb/s (R128). -/
  credit : Sparse Int := []
  /-- Queues whose head frame's launch instant has been reached (R130). -/
  launched : Sparse Bool := []
  tx : Option TxFrame := none
  txts : List TxTs := []
  /-- High-word latch of each principal: counter index and word (R134). -/
  latch : Sparse (Nat × Word) := []
  /-- Clause 37 has completed with a full-duplex partner (R112). -/
  anDone : Bool := false
  /-- SGMII control word reports link up in full duplex (R111). -/
  sgmiiUp : Bool := false
  /-- Speed the SGMII control word reports, as LINK.SPEED codes it (R111). -/
  sgmiiSpeed : Nat := 0
  /-- The MAC sends remote fault, or the far-end fault, for a local fault its receiver reports (R113, R114). -/
  localFault : Bool := false
  /-- A pause is in force (R123). -/
  paused : Bool := false
  /-- Reception has ended at a frame boundary of the stop sequence (R144). -/
  rxOver : Bool := false
  /-- The PHY has been probed since the MAC's start, and whether it has answered so far (R143). -/
  probed : Bool := false
  phyAnswered : Bool := true
  /-- Latest stamp in each direction, of lane frames too (R35). -/
  stampRx : Stamp := 0
  stampTx : Stamp := 0
  /-- Writes of a trim field (0 receive, 1 transmit, 2 asymmetry), newest first: the T cycle of the write and the value it
  replaced (R137). -/
  trims : Sparse (List (Nat × Int)) := []
  /-- Head of a frame prefetched into the egress staging: its source and first bytes (R31). -/
  staged : Option (Nat × List Byte) := none
deriving DecidableEq, Repr

/-- The fixed result of lookup (R178). -/
structure Lookup where
  /-- Destination endpoints; engine-queue redirects name the queue in `queueSel`. -/
  map : DestMap
  queueSel : Option Nat
  cls : Nat
  colour : Nat
  vid : Nat
  pcp : Nat
  dei : Nat
  tagged : Bool
  untag : Nat
  filter : Option Nat
  /-- Meter the filter hit names (R171). -/
  meter : Option Nat
  /-- Mirror sessions that select the frame (R173). -/
  mirrors : List Nat
  gen : Half
  direct : Bool
  /-- The SWC counter a discard at lookup increments, none when the frame passed (R156). -/
  discard : Option Nat
deriving DecidableEq, Repr

/-- A frame from one source between its lookup and its commit. -/
structure Ingress where
  src : Nat
  hdr : List Word
  bytes : List Byte
  look : Option Lookup
  /-- End of the frame: good, with its stamp. -/
  ended : Option (Bool × Stamp)
deriving DecidableEq, Repr

/-- An FDB entry (R162). -/
structure FdbEntry where
  vid : BitVec 12
  mac : BitVec 48
  dest : BitVec 12
  group : Bool
  static : Bool
  age : BitVec 2
deriving DecidableEq, Repr

/-- A learn waiting in the learn FIFO (R164). -/
structure Learn where
  vid : BitVec 12
  mac : BitVec 48
  dest : BitVec 12
deriving DecidableEq, Repr

/-- The sweep of a FLUSH (R168): what it removes (CMD.FLUSH_BY, a DEST, a VID) and the index it has come to. -/
structure FdbSweep where
  flushBy : Nat
  dest : Nat
  vid : Nat
  pos : Nat
deriving DecidableEq, Repr

/-- An FDB command (R168): the learns that arrived before it and are still to be served, the result it will publish once it
has been served, and the sweep it makes. -/
structure FdbJob where
  op : Nat
  flushBy : Nat
  ahead : Nat
  result : Option Nat := none
  data : Option (FdbEntry × Nat) := none
  sweep : Option FdbSweep := none
deriving DecidableEq, Repr

/-- A meter: its entry words and buckets in units of 1/312,500 byte (R171, R172). -/
structure Meter where
  w0 : Word := 0
  w1 : Word := 0
  w2 : Word := 0
  w3 : Word := 0
  c : Nat := 0
  p : Nat := 0
  green : Nat := 0
  yellow : Nat := 0
  red : Nat := 0
  redDrop : Nat := 0
deriving DecidableEq, Repr

/-- The switch core (R146-R185). -/
structure Swc where
  ingress : List Ingress := []
  queues : Sparse (List Desc) := []
  /-- Cells never yet taken start here; freed cells queue behind them (R149). -/
  freshCell : Nat := 0
  freed : List Nat := []
  /-- Banks that hold cells since SWC's start, ascending (R149). -/
  cellBanks : List Nat := []
  descFree : Nat := 65536
  nextFid : Nat := 0
  lfsr : Sparse Half := []
  fdb : Sparse (Option FdbEntry) := []
  learns : List Learn := []
  fdbJob : Option FdbJob := none
  vlan : Sparse Dword := []
  group : Sparse DestMap := []
  /-- Stream filter words, filter f word w at 8f + w (Table 5-7). -/
  filter : Sparse Word := []
  meter : Sparse Meter := []
  barrier : Bool := false
  /-- Link words, by cell, and free descriptor words of which one copy holds an injected uncorrectable error (R537). -/
  badLinks : List Nat := []
  badDescs : List Nat := []
  /-- Ports whose frame in reception as SWC's stop began has ended (R183). -/
  pastEnd : Sparse Bool := []
deriving DecidableEq, Repr

/-- A run of ticks of an HTB: at FRC value `frc` it held `v`, and each tick since has added `e` (R198). -/
structure HtbRun where
  frc : BitVec 48
  v : BitVec 96
  e : Int
deriving DecidableEq, Repr

/-- A hardware timebase, values in 2^-32 ns modulo 2^96 (R198). The last tick went from `prev` to `v` by `e`; `base` is
the value before it and before a step between the two ticks, and `pre` the value before a step that no tick has followed
yet (R201, R205). -/
structure Htb where
  v : BitVec 96 := 0
  prev : BitVec 96 := 0
  base : BitVec 96 := 0
  pre : Option (BitVec 96) := none
  e : Int := 0
  /-- ADJ after the limit of R198. -/
  adj : Int := 0
  /-- Its ticks of the latest 2^22 T, newest run first (R215, R235). -/
  past : List HtbRun := []
deriving DecidableEq, Repr

/-- A view's coefficient set (R192): OFFSET in 2^-16 ns, ANCHOR, RADJ. -/
structure ViewSet where
  offset : Nat
  anchor : Stamp
  radj : BitVec 40
deriving DecidableEq, Repr

/-- A view (R193, R194): PREV, CUR, PEND with its ACT_AT, the SWITCH stamp, who wrote the staging registers since the
last ARM, and whether its AGED has been reported (R197). -/
structure View where
  prev : Option ViewSet := none
  cur : Option ViewSet := none
  pend : Option (ViewSet × BitVec 48) := none
  switch : Stamp := 0
  writers : List Principal := []
  aged : Bool := false
deriving DecidableEq, Repr

/-- A conversion in progress for one principal (R196). -/
structure Conv where
  view : Nat
  stamp : Stamp
deriving DecidableEq, Repr

/-- An event unit besides its registers (R202-R213). Targets and pulse ends are in 2^-32 ns modulo 2^72. -/
structure Ev where
  /-- The first target of an aligned unit is being computed, from the HTB value held here (R208). -/
  aligning : Option (BitVec 96) := none
  /-- Ticks compared since arming, 2 standing for more (R204). -/
  age : Nat := 0
  tgt : BitVec 72 := 0
  /-- Target of the latest firing and whether it was LATE. -/
  fired : Option (BitVec 72 × Bool) := none
  /-- The latest firing was in the present tick, at this phase (R203, R212). -/
  now : Option Nat := none
  active : Bool := false
  pulseEnd : BitVec 72 := 0
  /-- Disarmed by its last firing, whose pulse has not ended (R211). -/
  ending : Bool := false
  count : Nat := 0
deriving DecidableEq, Repr

/-- A capture record: flags, stamp and the three HTB values in 2^-16 ns (R215). -/
structure CapRec where
  rising : Bool
  sw : Bool
  stamp : Stamp
  h0 : Nat
  h1 : Nat
  ha : Nat
deriving DecidableEq, Repr

/-- A read of a conversion result that the VIEW page holds until the conversion completes (R196). -/
structure HeldRead where
  who : Principal
  addr : Nat
  bytes : Nat
deriving DecidableEq, Repr

/-- The T domain (R186-R226). -/
structure TimeBase where
  frc : BitVec 48 := 0
  /-- T cycles since reset, FRC counting or not. -/
  ticks : Nat := 0
  /-- The FRC counts (R188, R224). -/
  runs : Bool := false
  /-- EVT has been ON since the T domain was reset, so that TE pins with OUT_EN are driven (R545). -/
  teUp : Bool := false
  htb : Sparse Htb := []
  view : Sparse View := []
  conv : Sparse (Option Conv) := []
  held : List HeldRead := []
  ev : Sparse Ev := []
  cap : Sparse (List CapRec) := []
  /-- Capture units that recorded an edge in this T cycle (R214). -/
  capBusy : Sparse Bool := []
  /-- A DAC code waits to be sent, and the FRC value at the start of the last frame (R219, R220). -/
  ocxPending : Bool := false
  ocxLast : Option (BitVec 48) := none
deriving DecidableEq, Repr

/-- A Tread generator besides its registers (R246-R261). `f`, `ft` and the table's targets are in 2^-64 ns (per tick),
ACC in 2^-32 ns; the counts named Ticks are in T cycles. -/
structure Gen where
  f : Int := 0
  ft : Int := 0
  acc : Int := 0
  /-- Targets the segment table has in force: phase, none without one, and frequency (R250). -/
  tab : Option (Option Int × Int) := none
  segTicks : Nat := 0
  /-- Consecutive samples that meet the condition of the stage (Table 7-4). -/
  good : Nat := 0
  /-- The last PHASE_ERR value and the FRC of its arrival (R258). -/
  lastErr : Option (Int × BitVec 48) := none
  sampleTicks : Nat := 0
  qualTicks : Nat := 0
  validTicks : Nat := 0
  dropTicks : Nat := 0
  chatTicks : Nat := 0
  chatCount : Nat := 0
  holdTicks : Nat := 0
  /-- EST_ERR at entry to HOLDOVER (R263). -/
  holdE0 : Nat := 0
  autoTicks : Nat := 0
  preferTicks : Nat := 0
  /-- Writes of CTRL since the generator's last tick: SRC before the write, and the word. They act at its next tick
  (R247, R250, R265). -/
  due : List (Nat × Word) := []
  /-- Copies of posts, and servo outputs, on their way to the generator (R240, R241). -/
  samples : List Word := []
  outs : List Word := []
deriving DecidableEq, Repr

/-- A result not yet readable, or a register made undefined (R306, R312, R313). `left` counts E cycles; a far-load
destination stays unreadable while `tag` is pending. -/
structure Hazard where
  reg : Nat
  left : Nat
  tag : Option Nat
  /-- A second write to the register was in flight with this one (R306). -/
  clash : Bool
deriving DecidableEq, Repr

/-- A loop stack entry (R324). -/
structure LoopEntry where
  start : BitVec 13
  stop : BitVec 13
  ibank : BitVec 3
  count : Nat
deriving DecidableEq, Repr

/-- A far load outstanding under a tag (R320): kind 0 device space, 1 a register read (R317), 2 a DDU query (R346).
`seq` orders the far accesses of an engine by issue (R322). -/
structure FarLoad where
  tag : Nat
  dst : List Nat
  addr : Nat
  size : Nat
  kind : Nat
  /-- The error found when the access entered the arbiter (R316, R483); 0 none. -/
  err : Nat
  seq : Nat
deriving DecidableEq, Repr

/-- A far store in the store queue (R321). -/
structure FarStore where
  addr : Nat
  data : List Byte
  isReg : Bool
  err : Nat
  seq : Nat
deriving DecidableEq, Repr

/-- A CAM entry (R285). -/
structure CamEntry where
  valid : Bool := false
  key : Dword := 0
  mask : Dword := 0
  data : Word := 0
deriving DecidableEq, Repr

/-- A skip or deletion carried out by hardware (R359): its count (none: to the data end), the input position it starts at,
and the bytes passed so far. -/
structure Skip where
  count : Option Nat
  start : Nat
  passed : Nat
  deleting : Bool
  endMark : Bool
  /-- K was set: the end mark orders a stomp, or abandons the injection (R360). -/
  kill : Bool
deriving DecidableEq, Repr

/-- A frame at a receive stream port: the bytes received, its end status once known (bad or good), whether its output
ended in an underrun before it became the current frame, the ingress stamp the MAC presents of a lane frame (R36), and the
number of a frame read from an engine queue, which holds it until it has been read. -/
structure RxFrame where
  bytes : List Byte
  ended : Option Bool
  lost : Bool
  stamp : Option Stamp
  fid : Option Nat
deriving DecidableEq, Repr

/-- One stream pair of an engine: the received frames, the current one first, its read position, the counts of R357, the
frame bits of Table 10-13, and the injection being written. -/
structure Stream where
  frames : List RxFrame := []
  pos : Nat := 0
  /-- An end mark has been issued for the frame. -/
  declared : Bool := false
  /-- The input position the end mark names, once it is reached; none for the received data end. -/
  endAt : Option Nat := none
  /-- The declared data end has been reached in the output. -/
  outEnd : Bool := false
  insRefused : Bool := false
  stomped : Bool := false
  /-- The output of the current frame is finished: further bytes of it go nowhere. -/
  outDone : Bool := false
  /-- Skips and deletions not yet complete, in order, and the input position the hardware has reached in them. -/
  skips : List Skip := []
  hw : Nat := 0
  taken : Nat := 0
  given : Nat := 0
  insd : Nat := 0
  /-- Bytes of the injection written so far (R270). -/
  inj : List Byte := []
deriving DecidableEq, Repr

/-- Delay slots in progress (R310): slots left, the target if control transfers, the window move at the target (1 call, 15
return, 0 none; R307) and the IBANK a return restores. -/
structure Transfer where
  target : Option (BitVec 13)
  slots : Nat
  slide : Nat
  ibank : Option (BitVec 3)
deriving DecidableEq, Repr

/-- A protocol engine (R302-R332). Registers K0-K7 at keys 0-7, W0-W255 at keys 8-263. -/
structure Pe where
  regs : Sparse Word := []
  hazards : List Hazard := []
  /-- Registers written by the latest issue (Table 9-3, LOOPR). -/
  justW : List Nat := []
  /-- Special register written by the latest issue, with the value it held (Table 9-3). -/
  spHaz : Option (Nat × Word) := none
  /-- The same of the issue one E cycle before the latest, while the latest acts: empty at any other distance (R303). -/
  prevW : List Nat := []
  spPrev : Option (Nat × Word) := none
  /-- The instruction that waits, with its gap left out: no later one issues before it (R302, R340). -/
  waiting : Option Instr := none
  wbase : BitVec 4 := 0
  /-- Return stack entries; none for one that nothing has written. -/
  rstack : Sparse (Option Half) := []
  sp : BitVec 4 := 0
  depth : Nat := 0
  loops : List LoopEntry := []
  pc : BitVec 13 := 0
  xfer : Option Transfer := none
  ibank : BitVec 3 := 0
  rsopt : Bool := false
  farTrap : Bool := false
  dbank : BitVec 4 := 0
  fbank : Half := 0
  rpage : BitVec 12 := 0
  fflag : Byte := 0xFF
  ferrTag : Byte := 0
  storeErr : Bool := false
  ferrCause : BitVec 3 := 0
  ferrAddr : Word := 0
  tvec : BitVec 13 := 0
  eclass : BitVec 4 := 0
  tactive : Bool := false
  /-- Stack entries from the one pushed at trap entry up; 17 once that entry has been overwritten (R328). -/
  trapUp : Nat := 0
  epc : Half := 0
  resumed : Bool := false
  cycle : Word := 0
  halted : Bool := false
  /-- E cycles of issues since the watchdog was restarted (R291). -/
  wdog : Nat := 0
  far : List FarLoad := []
  stq : List FarStore := []
  /-- Number of the next far access. -/
  seq : Nat := 0
  /-- The latest reading of the E-domain copy of the FRC: FRC and engine cycle at it, and the stamp read (R191). -/
  tsr : Option (Nat × BitVec 48 × Word × Stamp) := none
  /-- A FAR trap waits for the first instruction in no delay slot and no loop END (R329). -/
  farPending : Bool := false
  cam : Sparse CamEntry := []
  s0 : Stream := {}
  s1 : Stream := {}
  /-- Head of a redirected frame prefetched into the engine's delivery queue: its source and first bytes (R34). -/
  staged : Option (Nat × List Byte) := none
  jtagHalt : Bool := false
  jtagSteps : Nat := 0
  /-- Image held: name and version; none if nothing is loaded. -/
  image : Option (Word × Half) := none
  /-- Its SVN_INDEX and SVN (R518). -/
  svn : Nat × Nat := (0, 0)
  /-- What its header says of the entry: PC, RSOPT, FAR_TRAP, TVEC (Table 16-5). -/
  entry : BitVec 13 × Bool × Bool × BitVec 13 := (0, false, false, 0)
deriving DecidableEq, Repr

/-- A lane frame on its way out (R274-R280): the bytes given so far, how many of them the TX MAC has taken, whether its
data end has been reached, whether it is stomped, whether that became known after the data end (R280), whether the bytes
carry their received FCS (R294), and whether the hold buffer reached 12,224 bytes with it (R278). -/
structure LaneOut where
  bytes : List Byte
  sent : Nat := 0
  fin : Bool := false
  stomp : Bool := false
  late : Bool := false
  raw : Bool := false
  full : Bool := false
deriving DecidableEq, Repr

/-- A through-lane (R272-R281, R294). -/
structure Lane where
  out : List LaneOut := []
  /-- A frame is arriving. -/
  arriving : Bool := false
  /-- The arriving frame passes under bypass, forwarded raw or discarded (R294). -/
  bypass : Bool := false
  /-- Copies of bytes of the arriving frame that the line has brought (R111). -/
  line : Nat := 0
  /-- The frame that the port receives has entered the lane. -/
  entered : Bool := false
deriving DecidableEq, Repr

/-- A DDU entry (R282). -/
structure DduEntry where
  group : BitVec 4
  sa : BitVec 48
  seq : Half
  paths : BitVec 4
  /-- Number it was created under, and the FRC at its creation (R283). -/
  born : Nat
  made : BitVec 48
deriving DecidableEq, Repr

/-- A DDU query in order of arrival (R284). -/
structure DduQuery where
  engine : Nat
  tag : Nat
  group : BitVec 4
  sa : BitVec 48
  seq : Half
  path : Nat
deriving DecidableEq, Repr

/-- What a checkpoint half holds of an engine apart from its header (Table 8-7): the engine state taken, image name and
version, and the local data ranges, in the order of CKPT_RANGE with their addresses. -/
structure Ckpt where
  pe : Pe
  name : Word
  ver : Half
  ranges : List (Nat × List Byte)
  /-- Bytes of the fixed state as written; none yet while the copy goes on. -/
  fixed : List Byte := []
deriving DecidableEq, Repr

/-- A takeover in progress (R292): the spare, whether it is warm, and the cause (TKO_LAST.CAUSE). -/
structure Takeover where
  spare : Nat
  warm : Bool
  cause : Nat
deriving DecidableEq, Repr

/-- The engine fabric (R268-R301). -/
structure Fab where
  pe : Sparse Pe := []
  lane : Sparse Lane := []
  ddu : Sparse (Option DduEntry) := []
  dduQ : List DduQuery := []
  /-- Number of the next DDU entry created: orders entries by age. -/
  dduNext : Nat := 0
  /-- A flush in progress: group (none: all) and the entries it takes, those created before this number (R284). -/
  dduFlush : Option (Option (BitVec 4) × Nat) := none
  /-- Image a spare holds warm (R292). -/
  warm : Sparse (Option (Word × Half)) := []
  /-- Takeover in progress of an engine. -/
  takeover : Sparse (Option Takeover) := []
  /-- Fixed state in half h of slot n at 2n + h, and the copy in progress of an engine. -/
  ckpt : Sparse (Option Ckpt) := []
  ckptCopy : Sparse (Option Ckpt) := []
  /-- Images authenticated in this boot (R292). -/
  authentic : List (Word × Half) := []
deriving DecidableEq, Repr

/-- An exact value m times 2^x. -/
structure Dy where
  m : Int
  x : Int
deriving DecidableEq, Repr

/-- A post on its way to a channel (R370). -/
structure Post where
  chan : Nat
  slot : Nat
  raw : Word
  srcAge : BitVec 6
  test : Bool
  invalid : Bool
deriving DecidableEq, Repr

/-- A Shank channel's state (R363-R383). -/
structure Chan where
  pv : Dy := ⟨0, -150⟩
  sp : Dy := ⟨0, -150⟩
  ff : Dy := ⟨0, -150⟩
  e : Dy := ⟨0, -150⟩
  xPrev : Dy := ⟨0, -150⟩
  p : Dy := ⟨0, -150⟩
  i : Dy := ⟨0, -166⟩
  d : Dy := ⟨0, -150⟩
  v : Dy := ⟨0, -150⟩
  y : Dy := ⟨0, -150⟩
  /-- Section states z1 and z2 of sections 0 to 3. -/
  z1 : List Dy := [⟨0, -150⟩, ⟨0, -150⟩, ⟨0, -150⟩, ⟨0, -150⟩]
  z2 : List Dy := [⟨0, -150⟩, ⟨0, -150⟩, ⟨0, -150⟩, ⟨0, -150⟩]
  /-- Latest post of slots 0-2 and its tags. -/
  posts : Sparse Post := []
  /-- T cycle of the last PV arrival since the channel left OFF. -/
  arrived : Option Nat := none
  /-- Raw value of the last PV arrival and how many in a row carried it. -/
  lastRaw : Word := 0
  sameRaw : Nat := 0
  clean : Nat := 0
  lost : Bool := false
  /-- The latest evaluation acted as HOLD or SAFE. -/
  heldAct : Bool := false
  /-- The next evaluation initialises from MAN (R378). -/
  fresh : Bool := true
  /-- MODE has changed from MANUAL to AUTO since the latest evaluation was dispatched (R378). -/
  wasMan : Bool := false
  swapPend : Bool := false
  /-- Group output of the previous job (R377). -/
  groupOut : Dy := ⟨0, -150⟩
  /-- An uncorrectable error of the state word has been injected: 1 one copy, 2 both (R388, R536). -/
  stateErr : Nat := 0
deriving DecidableEq, Repr

/-- A result word in the Shank output DCQ (R385). -/
structure ShOut where
  chan : Nat
  raw : Word
  lost : Bool
  manual : Bool
  atLimit : Bool
  /-- OUT_DEST and OUT_DB as the job read them at dispatch (R372). -/
  dest : Word
  db : Word
deriving DecidableEq, Repr

/-- What one evaluation gives: the channel's state after it and what it would write (R363-R384). -/
structure ShEval where
  chan : Nat
  st : Chan
  /-- Stage exponents: input, error, P, I, D, sum, output. -/
  exps : List Nat
  /-- Bits it sets in STAT among COEF_SWAP_CLAMPED, PRESET_CLAMPED, NUM_OVF, and the loss causes AGED to FROZEN. -/
  coefClamp : Bool
  presetClamp : Bool
  numOvf : Bool
  causes : Nat
  /-- The set it used, whether it made a swap, its mode, and AGE_US. -/
  set : Nat
  swapped : Bool
  auto : Bool
  ageUs : Nat
  /-- OUT word, and the tag bits of its output word (R385). -/
  raw : Word
  atLimit : Bool
  tracking : Bool
  /-- MAN_TRACK, OUT_DEST and OUT_DB as read at dispatch (R372). -/
  manTrack : Bool
  dest : Word
  db : Word
deriving DecidableEq, Repr

/-- A job: its evaluations, kept until the lanes are compared (R389), its group and winner, and its K cycles (R386). -/
structure ShJob where
  evals : List ShEval
  trigger : Nat
  group : Option Nat
  winner : Nat
  raw : Word
  cost : Nat
deriving DecidableEq, Repr

/-- Shank (R363-R393). -/
structure Shank where
  chan : Sparse Chan := []
  /-- Newest post held for each channel and slot while the DCQ has no credit (R371). -/
  held : List Post := []
  dcq : List Post := []
  /-- Triggers of Table 11-3's event sources on their way to their channels (R373). -/
  arriving : List Nat := []
  /-- Pending channels in order of trigger (R374). -/
  pend : List Nat := []
  job : Option ShJob := none
  outQ : List ShOut := []
  outHeld : List ShOut := []
  /-- Outputs that wait for a full Eyelet FIFO out (R385). -/
  outWait : List ShOut := []
  /-- Lanes of an active pair under self-test in order, and those that have passed (R390). -/
  testing : List Nat := []
  passed : List Nat := []
  /-- The lane under self-test alone: a removed lane, or the spare that LANE_TEST names (R389, R390). -/
  spareTest : Option Nat := none
  /-- Lanes marked FAILED whose loss no record has stated yet (R390). -/
  failing : List Nat := []
  /-- Jobs of the last millisecond: FRC at the end and K cycles (R386). -/
  busy : List (Nat × Nat) := []
  injLane : Option (Nat × Bool) := none
deriving DecidableEq, Repr

/-- A transmit copy latched for an entry (R409): the payload at the latch, and the half that the copy still reads. -/
structure WeltStage where
  chanB : Bool
  entry : Nat
  payload : List Byte
  half : Option Nat
deriving DecidableEq, Repr

/-- A Welt lane of a GUARDED hub in isolation (R423): whole or part cycles since, and whether this side won. -/
structure Isolated where
  lane : Nat
  chanB : Bool
  age : Nat
  won : Bool
deriving DecidableEq, Repr

/-- A Welt port (R394-R426). Positions are in 125 ps units unless a name says otherwise. -/
structure Welt where
  /-- Valid SYNC and COLDSTART frames of this cycle (R415): owner, channel, deviation. -/
  vals : List (Nat × Bool × Int) := []
  sentSync : Bool := false
  /-- A frame of another CYCLE arrived in this cycle (Table 12-6). -/
  foreign : Bool := false
  /-- Valid arrivals of this cycle: channel and entry. -/
  got : List (Bool × Nat) := []
  /-- Mirrored copies written in this cycle: buffer, channel, and start position (R406). -/
  wrote : List (Nat × Bool × Int) := []
  /-- Frame starts seen inside the window of an entry in this cycle. -/
  seen : List (Bool × Nat) := []
  /-- Owners whose COLDSTART arrived in this cycle, with the channel (R420). -/
  csGot : List (Nat × Bool) := []
  quiet : Nat := 0
  lossCount : Nat := 0
  passCount : Nat := 0
  /-- Cycle ends since INTEGRATING was entered. -/
  integ : Nat := 0
  chanLoss : Sparse Nat := []
  /-- Channels reported lost (R424). -/
  lostChan : List Bool := []
  /-- Correction in 2^-32 ns, rate term as a fraction, and length of the present cycle in 2^-32 ns (R416). -/
  corr : Int := 0
  rateNum : Int := 0
  rateDen : Nat := 1
  len : Int := 0
  /-- Start of the present cycle: an FRC value, the ns after it in units of 2^-32, and HTBA there in 2^-32 ns (R399, R417). -/
  cycFrc : Nat := 0
  cycSub : Int := 0
  htbaAt : Nat := 0
  /-- Verdicts of this cycle and the one before, by 2 × entry + channel (R413). -/
  verdicts : Sparse Nat := []
  prevVerdicts : Sparse Nat := []
  /-- Contention window of a channel: the stamp it began at; lane of the coldstarter in CS_LOCK; cycles without a frame on
  it (R419). -/
  csWin : Sparse (Option Nat) := []
  csLane : Sparse (Option Nat) := []
  csQuiet : Sparse Nat := []
  isolated : List Isolated := []
  /-- Cycle ends since the hub decided to rejoin (R423). -/
  rejoin : Option Nat := none
  cliqueOwners : List Nat := []
  prevClique : List Nat := []
  stage : List WeltStage := []
  /-- Injected: frames left with an inverted CRC per channel, ns of shift per cycle and in all (R536). -/
  injCrc : Sparse Nat := []
  injShift : Nat := 0
  shifted : Nat := 0
deriving DecidableEq, Repr

/-- An Eyelet engine (R427-R454). -/
structure Eye where
  state : BitVec 5 := 0
  row : List Word := []
  out : BitVec 4 := 0
  rxs : Word := 0
  rxn : Nat := 0
  rxh : Option Word := none
  txs : Word := 0
  /-- Bits sent from TXS; `txEmpty` says that no word has been loaded into it since the start (R435). -/
  txn : Nat := 0
  txEmpty : Bool := true
  txh : Option Word := none
  cnt0 : Half := 0
  cnt1 : Half := 0
  latches : Half := 0
  stamps : List Stamp := []
  fin : List Word := []
  fout : List Word := []
  once : Option Word := none
  /-- The staged FIRST and LAST (R440). -/
  staged : Option (BitVec 5 × BitVec 5) := none
  stepped : Bool := false
  /-- The arc latched by a stall or WAIT (R437), its kind (STALL_ACT) and the Y cycles of WAIT left. -/
  stall : Option Word := none
  stallAct : Nat := 0
  waitLeft : Nat := 0
  /-- A SIN or FLUSH that stalls has its word complete in RXS (R435). -/
  wordReady : Option Word := none
  /-- Triggers and rises of doorbell inputs on their way to their event latches: EV0-EV7, then inputs from 8 (R432). -/
  arriving : List Nat := []
  /-- A stamp that waits for its place in the FIFO in (R447). -/
  stampHeld : Option Stamp := none
  /-- Y cycles since the divider was last aligned, and the output bits as they stood before the present one (R433). -/
  cycles : Nat := 0
  outWas : BitVec 4 := 0
  /-- Number of the restart that last aligned the engine's divider; 0 for none since its start (R428). -/
  group : Nat := 0
  waitsBootSync : Bool := false
  jtagHalt : Bool := false
  jtagSteps : Nat := 0
deriving DecidableEq, Repr

/-- A stored sample of a wave channel: value and whether it was received rather than filled. -/
structure Sample where
  v : Half
  received : Bool
deriving DecidableEq, Repr

/-- A wave record (R464). -/
structure WRec where
  first : Nat
  trig : Nat
  len : Nat
  arrival : Dword
  src : Nat
  chan : Nat
  isOpen : Bool
  held : Bool
  truncated : Bool
  gap : Bool
  pausedIn : Bool
  lost : Bool
  triggers : Nat
  /-- POST as read when the record opened (R464). -/
  post : Nat
deriving DecidableEq, Repr

/-- One wave channel's run (R457, R461). -/
structure WChan where
  outstanding : Nat := 0
  /-- Samples stored, newest first (at most 18 are kept), and the index of the next one. -/
  recent : List Sample := []
  next : Nat := 0
  prevVal : Half := 0
  lastFire : Option Nat := none
deriving DecidableEq, Repr

/-- Wave capture (R455-R469). -/
structure Wcap where
  capturing : Bool := false
  firings : Nat := 0
  t0 : Nat := 0
  period : Nat := 0
  chan : Sparse WChan := []
  /-- Samples of frames not yet complete: index, channel, value, filled. -/
  pending : List (Nat × Nat × Half × Bool) := []
  nextFrame : Nat := 0
  banks : List Nat := []
  reports : List (List Word) := []
  recs : Sparse (Option WRec) := []
  nextRec : Nat := 0
  /-- Record being copied and its RESULT (R467). -/
  exporting : Option (Nat × Nat) := none
  /-- Destinations the head report still waits for, once it has been posted to another (R463). -/
  reportLeft : Option (List (Nat × Nat)) := none
  /-- Frame indices discarded while paused, until their slots are written again. -/
  dropped : List Nat := []
  /-- Frames that hold a filled sample. -/
  gaps : List Nat := []
  /-- Firings of the sample unit not yet seen, oldest first: target and whether LATE; none for a disarming (R457, R458). -/
  due : List (Option (BitVec 72 × Bool)) := []
  /-- Channels refused at the start (R455). -/
  refused : List Nat := []
  /-- The doorbell bit of TRIG has risen (R464). -/
  trigPend : Bool := false
deriving DecidableEq, Repr

/-- An error planted in a granule (R536, R537): inverted data bits, and whether it was injected. -/
structure EccMark where
  bits : List Nat
  injected : Bool
deriving DecidableEq, Repr

/-- The latest write of the block data paths through port A: its bytes, and the T ticks and A cycles counted then (R472). -/
structure PortA where
  addr : Nat
  len : Nat
  ticks : Nat
  aclk : Nat
deriving DecidableEq, Repr

/-- BANK besides its registers. -/
structure Bank where
  ecc : Sparse (Option EccMark) := []
  /-- Owner to install when the zeroing of a bank ends; 0 after it was abandoned (R484). -/
  scrubNext : Sparse Byte := []
  /-- Next word of the scrubber's pass (R474). -/
  scrubPos : Nat := 0
  /-- Banks whose restored owner the restored allow-list does not permit: they act as unowned (Table 3-8). -/
  unowned : List Nat := []
  /-- Corrected granules waiting for an idle port B cycle (R473). -/
  writeback : List Nat := []
  /-- The scrubber has been started and not stopped (R487). -/
  scrubOn : Bool := false
  portA : Option PortA := none
deriving DecidableEq, Repr

/-- A Lace word (R490). -/
structure LWord where
  word : Word
  last : Bool
  epoch : Byte
deriving DecidableEq, Repr

/-- Lace besides its registers: direction d of Mm at key 2m + d. -/
structure Lace where
  q : Sparse (List LWord) := []
  /-- Mutual wait already reported for a channel (R496). -/
  reported : Sparse Bool := []
deriving DecidableEq, Repr

/-- A DMA channel's descriptor in progress (R506): what the host gives or takes and whether its reading or writing failed
there, the RESULT so far, the bytes moved, and whether nothing more is to move. -/
structure DmaJob where
  desc : DmaDesc
  host : List Byte
  hostErr : Bool
  result : Nat
  done : Nat
  ended : Bool
deriving DecidableEq, Repr

/-- The host interfaces (R500-R510). -/
structure HostIf where
  dma : Sparse (Option DmaJob) := []
  /-- The channel that sent the latest TLP (R507). -/
  dmaLast : Nat := 7
  /-- The flash command in progress: whether it writes, and its LEN (R522). -/
  flashCmd : Option (Bool × Nat) := none
  /-- A Host B read waiting for FETCH (R510): address and words. -/
  hbRead : Option (Nat × Nat) := none
deriving DecidableEq, Repr

/-- A supervisor service in progress (R512): its code, requester and arguments as they stood, what FETCH reads in the flash
(none: it cannot be read), and whether it was asked for at a time at which every
service completes with BUSY_BOOT. -/
structure SvcJob where
  code : Nat
  who : Principal
  args : List Word
  flash : Option Flash
  early : Bool
deriving DecidableEq, Repr

/-- The supervisor, its services and the fuses (R511-R520). -/
structure Sup where
  svc : Option SvcJob := none
  /-- Firmware that runs (R511). -/
  firmware : Option (Word × Half) := none
  /-- Its SVN_INDEX and SVN, and those of the Eyelet images applied, by engine (R518). -/
  fwSvn : Nat × Nat := (0, 0)
  eyeSvn : Sparse (Nat × Nat) := []
  /-- What the flash held when the device last read it (R517, R521). -/
  flash : Flash := []
  /-- ACLK at the latest watchdog expiries, no older than 60 s (R533). -/
  expiries : List Nat := []
  jtagHalt : Bool := false
  jtagSteps : Nat := 0
  /-- Bytes of the core's own memory known from JTAG accesses while it is halted; none for one nothing has shown (R520). -/
  mem : Sparse (Option Byte) := []
  /-- Revoke fuses burned since manufacture, and thermometer counters above their fused value (R518, R519). -/
  revoked : BitVec 4 := 0
  svn : Sparse Nat := []
deriving DecidableEq, Repr

/-- A detected fault (Table 17-4). -/
structure FaultRec where
  cause : Nat
  cls : Nat
  injected : Bool
  page : Nat
  inst : Nat
  d0 : Word
  d1 : Word
  stamp : Stamp
  tai : Word
deriving DecidableEq, Repr

/-- FLT besides its ring (R527-R537). -/
structure Flt where
  bootQ : List FaultRec := []
  /-- Faults lost from a full boot queue, by class (R530). -/
  bootLost : Sparse Nat := []
  /-- Stamp of each record's detection in T ticks for merging, newest record's index. -/
  newest : Option Nat := none
  inj : Option (Nat × Nat × Half × Word) := none
  orphans : List Nat := []
deriving DecidableEq, Repr

/-- The machine. DESIGN CHOICE, assumption row 153, for the fields that no register shows. -/
structure State where
  regs : Sparse Word := []
  mem : Sparse Byte := []
  chip : Chip := {}
  prot : Prot := {}
  irq : Irq := {}
  commit : Option CommitJob := none
  port : Sparse Port := []
  mdio : Sparse (List MdioOp) := []
  swc : Swc := {}
  tb : TimeBase := {}
  gen : Sparse Gen := []
  fab : Fab := {}
  shank : Shank := {}
  welt : Sparse Welt := []
  eye : Sparse Eye := []
  wcap : Wcap := {}
  bank : Bank := {}
  lace : Lace := {}
  host : HostIf := {}
  sup : Sup := {}
  flt : Flt := {}
  /-- Data of the latest register read of each principal: the model's record of the bus answer. -/
  rdata : Sparse Word := []
  /-- Bytes and status of the latest device-space access. -/
  rbytes : List Byte := []
  rstatus : Nat := 0
  /-- What has left the device, newest first: the model's own trace. -/
  out : List OutEvent := []
  /-- Counter that free values are applied to: the model's own. -/
  free : Nat := 0
  /-- Commands waiting, first in first out. -/
  pending : List Instr := []
deriving DecidableEq, Repr

/-- Reasons the machine stops because the spec gives no behaviour at all. -/
inductive Fault where
  /-- POWER_FAIL whose rails break the order of R544: R6 leaves the behaviour undefined. Safe. -/
  | outsideOperatingConditions
deriving DecidableEq, Repr

/-- Reasons a command has no meaning here. -/
inductive Refusal where
  /-- A row not modelled yet. Safe. -/
  | notModelled (mnemonic : String)
deriving DecidableEq, Repr

/-- The machine right after a power-on reset with POR_N just released, REVERT low and REFCLK_25 present: every
register at its reset or factory value, the boot sequence at its first step, no command waiting.
DESIGN CHOICE, assumption row 152. -/
def State.reset : State := {}

/-- The outcome type of every meaning. -/
abbrev Out := Host.Outcome State Fault Refusal

end Sys2Proof.Machine
end

