-- ==== Sys2Proof/Machine/Reg.lean ====
section
/-! DEFINITION. The named registers and fields of the register pages (Tables 2-1 to 17-8): the key of each
register in `State.regs`, and each field as a key, its lowest bit and its width. `p` is a page number, `n` a block's
number among blocks of one kind, `w` a principal's number (R60), `c` a Shank channel. -/
namespace Sys2Proof.Machine

/-- Key of a register of which every principal has a copy of its own. -/
def perKey (w a : Nat) : Nat := (w + 1) * 0x1000000 + a

/-- Key of a word of channel `c` of the SHCH window; offset counts from page 0x0B1 (Tables 11-8, 11-9). -/
def shchKey (c o : Nat) : Nat := 0x40000000 + 0x2000 * c + o

def hdrId (p : Nat) : Nat := 0x1000 * p + 0x0
def hdrVer (p : Nat) : Nat := 0x1000 * p + 0x4
def hdrCtrl (p : Nat) : Nat := 0x1000 * p + 0x8
def hdrState (p : Nat) : Nat := 0x1000 * p + 0xC
def hdrIrqRaw (p : Nat) : Nat := 0x1000 * p + 0x10
def hdrIrqEn (p : Nat) : Nat := 0x1000 * p + 0x14
def hdrIrqPend (p : Nat) : Nat := 0x1000 * p + 0x18
def hdrIrqSet (p : Nat) : Nat := 0x1000 * p + 0x1C
def hdrErrCause (p : Nat) : Nat := 0x1000 * p + 0x20
def hdrErrClr (p : Nat) : Nat := 0x1000 * p + 0x24
def hdrLock (p : Nat) : Nat := 0x1000 * p + 0x28
def hdrSeq (p : Nat) : Nat := 0x1000 * p + 0x2C
def irqaSum (i : Nat) : Nat := 0x5040 + 4 * i
def irqaVecPend0 : Nat := 0x5080
def irqaVecPend1 : Nat := 0x5084
def irqaVecEoi0 : Nat := 0x5088
def irqaVecEoi1 : Nat := 0x508C
def irqaHbLine : Nat := 0x5090
def irqaRoute (p : Nat) : Nat := 0x5400 + 4 * p
def protWindow : Nat := 0x4040
def protStageStat : Nat := 0x4044
def protApproveAddr (w : Nat) : Nat := perKey w (0x4048)
def protApproveCrc : Nat := 0x404C
def protDenyAddr : Nat := 0x4050
def protDenyInfo : Nat := 0x4054
def protStageAddr (j : Nat) : Nat := 0x4100 + 16 * j
def protStageValue (j : Nat) : Nat := 0x4104 + 16 * j
def protStageInfo (j : Nat) : Nat := 0x4108 + 16 * j
def protStageRemain (j : Nat) : Nat := 0x410C + 16 * j
def protAcl (i w : Nat) : Nat := 0x4200 + 64 * i + 4 * w
def protLogAddr (k : Nat) : Nat := 0x4800 + 16 * k
def protLogValue (k : Nat) : Nat := 0x4804 + 16 * k
def protLogInfo (k : Nat) : Nat := 0x4808 + 16 * k
def protLogTime (k : Nat) : Nat := 0x480C + 16 * k
def protLogHead : Nat := 0x4A00
def devPart : Nat := 0x40
def devBoot : Nat := 0x44
def devUnmappedAddr : Nat := 0x48
def devTest : Nat := 0x4C
def clkTrefCfg : Nat := 0x1040
def clkStatus : Nat := 0x1044
def clkLossCount : Nat := 0x1048
def rstDevice : Nat := 0x2040
def rstCause : Nat := 0x2044
def rstPerstCount : Nat := 0x2048
def insoleCommit : Nat := 0x3040
def insoleCommitStat : Nat := 0x3044
def insoleLastSeq : Nat := 0x3048
def insoleCommits : Nat := 0x304C
def insoleSnapSize : Nat := 0x3050
def insoleRevert : Nat := 0x3054
def insoleRevertEn : Nat := 0x3058
def insoleCacheStat : Nat := 0x305C
def macCfg (n : Nat) : Nat := 0x10040 + 0x1000 * n
def macMaxlen (n : Nat) : Nat := 0x10044 + 0x1000 * n
def macLateTol (n : Nat) : Nat := 0x10048 + 0x1000 * n
def macLink (n : Nat) : Nat := 0x1004C + 0x1000 * n
def macPhyCfg (n : Nat) : Nat := 0x10050 + 0x1000 * n
def macMdioAddr (n : Nat) : Nat := 0x10054 + 0x1000 * n
def macMdioData (n : Nat) : Nat := 0x10058 + 0x1000 * n
def macMdioCmd (n : Nat) : Nat := 0x1005C + 0x1000 * n
def macStampRxTrim (n : Nat) : Nat := 0x10060 + 0x1000 * n
def macStampTxTrim (n : Nat) : Nat := 0x10064 + 0x1000 * n
def macStampAsym (n : Nat) : Nat := 0x10068 + 0x1000 * n
def macStampDesign (n : Nat) : Nat := 0x1006C + 0x1000 * n
def macTxtsStat (n : Nat) : Nat := 0x10070 + 0x1000 * n
def macTxtsTag (n : Nat) : Nat := 0x10074 + 0x1000 * n
def macTxtsLo (n : Nat) : Nat := 0x10078 + 0x1000 * n
def macTxtsHi (n : Nat) : Nat := 0x1007C + 0x1000 * n
def macStatSnap (n : Nat) : Nat := 0x10080 + 0x1000 * n
def macShapeQCfg (n q : Nat) : Nat := 0x10100 + 0x1000 * n + 32 * q
def macShapeQQmaxframe (n q : Nat) : Nat := 0x10104 + 0x1000 * n + 32 * q
def macShapeQMaxIntf (n q : Nat) : Nat := 0x10108 + 0x1000 * n + 32 * q
def macShapeQCredit (n q : Nat) : Nat := 0x1010C + 0x1000 * n + 32 * q
def macShapeQHiCredit (n q : Nat) : Nat := 0x10110 + 0x1000 * n + 32 * q
def macShapeQLoCredit (n q : Nat) : Nat := 0x10114 + 0x1000 * n + 32 * q
def macCntLo (n i : Nat) : Nat := 0x10200 + 0x1000 * n + 8 * i
def macCntHi (n i : Nat) : Nat := 0x10204 + 0x1000 * n + 8 * i
def macCntsLo (n i : Nat) : Nat := 0x10400 + 0x1000 * n + 8 * i
def macCntsHi (n i : Nat) : Nat := 0x10404 + 0x1000 * n + 8 * i
def laneCfg (n : Nat) : Nat := 0x30040 + 0x1000 * n
def laneTxeq (n : Nat) : Nat := 0x30044 + 0x1000 * n
def laneRxeq (n : Nat) : Nat := 0x30048 + 0x1000 * n
def laneLoop (n : Nat) : Nat := 0x3004C + 0x1000 * n
def lanePrbs (n : Nat) : Nat := 0x30050 + 0x1000 * n
def lanePrbsErr (n : Nat) : Nat := 0x30054 + 0x1000 * n
def laneStatus (n : Nat) : Nat := 0x30058 + 0x1000 * n
def laneCodeErr (n : Nat) : Nat := 0x3005C + 0x1000 * n
def laneMdioBus (n : Nat) : Nat := 0x30080 + 0x1000 * n
def swcCfg : Nat := 0x50040
def swcBufBanks : Nat := 0x50044
def swcBufCells : Nat := 0x50048
def swcBufFree : Nat := 0x5004C
def swcShared : Nat := 0x50050
def swcSharedUsed : Nat := 0x50054
def swcDescFree : Nat := 0x50058
def swcGen : Nat := 0x5005C
def swcGenBarrier : Nat := 0x50060
def swcGenOldest : Nat := 0x50064
def swcRsvAct : Nat := 0x50068
def swcFloodExtra : Nat := 0x5006C
def swcIngressRes : Nat := 0x50070
def swcMirror (s : Nat) : Nat := 0x50080 + 4 * s
def swcDisc (i : Nat) : Nat := 0x50100 + 4 * i
def swcTblSel : Nat := 0x50200
def swcTblData0 : Nat := 0x50204
def swcTblData1 : Nat := 0x50208
def swcTblCmd : Nat := 0x5020C
def fdbCfg : Nat := 0x51040
def fdbAgeTime : Nat := 0x51044
def fdbKeyMacLo : Nat := 0x51048
def fdbKeyMacHi : Nat := 0x5104C
def fdbData : Nat := 0x51050
def fdbIndex : Nat := 0x51054
def fdbCmd : Nat := 0x51058
def fdbCount : Nat := 0x5105C
def fdbStatic : Nat := 0x51060
def fdbCamUsed : Nat := 0x51064
def fdbStat (i : Nat) : Nat := 0x51080 + 4 * i
def strmSel : Nat := 0x52040
def strmData (i : Nat) : Nat := 0x52044 + 4 * i
def strmCmd : Nat := 0x52064
def strmMcntSel : Nat := 0x52068
def strmMcntGreen : Nat := 0x5206C
def strmMcntYellow : Nat := 0x52070
def strmMcntRed : Nat := 0x52074
def strmMcntRedDrop : Nat := 0x52078
def swqPortCfg (n : Nat) : Nat := 0x60040 + 0x1000 * n
def swqPvid (n : Nat) : Nat := 0x60044 + 0x1000 * n
def swqSharedLim (n : Nat) : Nat := 0x60048 + 0x1000 * n
def swqPortMax (n : Nat) : Nat := 0x6004C + 0x1000 * n
def swqPortUsed (n : Nat) : Nat := 0x60050 + 0x1000 * n
def swqPcpMap (n k : Nat) : Nat := 0x60060 + 0x1000 * n + 4 * k
def swqGuar (n s : Nat) : Nat := 0x60100 + 0x1000 * n + 64 * s
def swqSharedMax (n s : Nat) : Nat := 0x60104 + 0x1000 * n + 64 * s
def swqW (n s : Nat) : Nat := 0x60108 + 0x1000 * n + 64 * s
def swqRedGMin (n s : Nat) : Nat := 0x6010C + 0x1000 * n + 64 * s
def swqRedYMin (n s : Nat) : Nat := 0x60114 + 0x1000 * n + 64 * s
def swqRedRMin (n s : Nat) : Nat := 0x6011C + 0x1000 * n + 64 * s
def swqRedGMax (n s : Nat) : Nat := 0x60110 + 0x1000 * n + 64 * s
def swqRedYMax (n s : Nat) : Nat := 0x60118 + 0x1000 * n + 64 * s
def swqRedRMax (n s : Nat) : Nat := 0x60120 + 0x1000 * n + 64 * s
def swqOcc (n s : Nat) : Nat := 0x60124 + 0x1000 * n + 64 * s
def swqAvg (n s : Nat) : Nat := 0x60128 + 0x1000 * n + 64 * s
def swqFrames (n s : Nat) : Nat := 0x6012C + 0x1000 * n + 64 * s
def swqEnq (n s : Nat) : Nat := 0x60130 + 0x1000 * n + 64 * s
def swqDropNobuf (n s : Nat) : Nat := 0x60134 + 0x1000 * n + 64 * s
def swqDropShared (n s : Nat) : Nat := 0x60138 + 0x1000 * n + 64 * s
def swqDropRed (n s : Nat) : Nat := 0x6013C + 0x1000 * n + 64 * s
def tbFrcLo : Nat := 0x80040
def tbFrcHi (w : Nat) : Nat := perKey w (0x80044)
def tbUtcOffset : Nat := 0x80048
def tbLeap : Nat := 0x8004C
def tbOcxCfg : Nat := 0x80050
def tbOcxPrefix : Nat := 0x80054
def tbOcxValue : Nat := 0x80058
def tbOcxGap : Nat := 0x8005C
def tbOcxStat : Nat := 0x80060
def tbTeCfg (n : Nat) : Nat := 0x80080 + 4 * n
def tbTeTrim (n : Nat) : Nat := 0x800A0 + 4 * n
def htbNowNsLo (n : Nat) : Nat := 0x81040 + 0x1000 * n
def htbNowNsHi (w n : Nat) : Nat := perKey w (0x81044 + 0x1000 * n)
def htbNowFrac (w n : Nat) : Nat := perKey w (0x81048 + 0x1000 * n)
def htbIncrNs (n : Nat) : Nat := 0x8104C + 0x1000 * n
def htbIncrFrac (n : Nat) : Nat := 0x81050 + 0x1000 * n
def htbAdj (n : Nat) : Nat := 0x81054 + 0x1000 * n
def htbStat (n : Nat) : Nat := 0x81058 + 0x1000 * n
def viewConvSel (w : Nat) : Nat := perKey w (0x84040)
def viewConvInLo (w : Nat) : Nat := perKey w (0x84044)
def viewConvInHi (w : Nat) : Nat := perKey w (0x84048)
def viewConvSecLo (w : Nat) : Nat := perKey w (0x8404C)
def viewConvSecHi (w : Nat) : Nat := perKey w (0x84050)
def viewConvNs (w : Nat) : Nat := perKey w (0x84054)
def viewConvFrac (w : Nat) : Nat := perKey w (0x84058)
def viewTrackPer : Nat := 0x8405C
def viewOffsetSecLo (v : Nat) : Nat := 0x84100 + 64 * v
def viewOffsetSecHi (v : Nat) : Nat := 0x84104 + 64 * v
def viewOffsetNs (v : Nat) : Nat := 0x84108 + 64 * v
def viewOffsetFrac (v : Nat) : Nat := 0x8410C + 64 * v
def viewAnchorLo (v : Nat) : Nat := 0x84110 + 64 * v
def viewAnchorHi (v : Nat) : Nat := 0x84114 + 64 * v
def viewRadjLo (v : Nat) : Nat := 0x84118 + 64 * v
def viewRadjHi (v : Nat) : Nat := 0x8411C + 64 * v
def viewActAtLo (v : Nat) : Nat := 0x84120 + 64 * v
def viewActAtHi (v : Nat) : Nat := 0x84124 + 64 * v
def viewCtrl (v : Nat) : Nat := 0x84128 + 64 * v
def viewStat (v : Nat) : Nat := 0x8412C + 64 * v
def evtEvCfg (n : Nat) : Nat := 0x85100 + 64 * n
def evtEvCtrl (n : Nat) : Nat := 0x85104 + 64 * n
def evtEvTgtNsLo (n : Nat) : Nat := 0x85108 + 64 * n
def evtEvTgtNsHi (n : Nat) : Nat := 0x8510C + 64 * n
def evtEvPeriodNs (n : Nat) : Nat := 0x85110 + 64 * n
def evtEvPeriodFrac (n : Nat) : Nat := 0x85114 + 64 * n
def evtEvPhaseNs (n : Nat) : Nat := 0x85118 + 64 * n
def evtEvWidth (n : Nat) : Nat := 0x8511C + 64 * n
def evtEvCount (n : Nat) : Nat := 0x85120 + 64 * n
def evtEvStat (n : Nat) : Nat := 0x85124 + 64 * n
def evtEvFired (n : Nat) : Nat := 0x85128 + 64 * n
def evtEvNext (n : Nat) : Nat := 0x8512C + 64 * n
def evtEcCfg (n : Nat) : Nat := 0x85400 + 64 * n
def evtEcCtrl (n : Nat) : Nat := 0x85404 + 64 * n
def evtEcStat (n : Nat) : Nat := 0x85408 + 64 * n
def evtEcRecFlags (n : Nat) : Nat := 0x8540C + 64 * n
def evtEcFrcLo (n : Nat) : Nat := 0x85410 + 64 * n
def evtEcFrcHi (n : Nat) : Nat := 0x85414 + 64 * n
def evtEcH0Lo (n : Nat) : Nat := 0x85418 + 64 * n
def evtEcH0Hi (n : Nat) : Nat := 0x8541C + 64 * n
def evtEcH0Frac (n : Nat) : Nat := 0x85420 + 64 * n
def evtEcH1Lo (n : Nat) : Nat := 0x85424 + 64 * n
def evtEcH1Hi (n : Nat) : Nat := 0x85428 + 64 * n
def evtEcH1Frac (n : Nat) : Nat := 0x8542C + 64 * n
def evtEcHaLo (n : Nat) : Nat := 0x85430 + 64 * n
def evtEcHaHi (n : Nat) : Nat := 0x85434 + 64 * n
def evtEcHaFrac (n : Nat) : Nat := 0x85438 + 64 * n
def treadCtrl (g : Nat) : Nat := 0x86100 + 128 * g
def treadRef (g : Nat) : Nat := 0x86104 + 128 * g
def treadQual (g : Nat) : Nat := 0x86108 + 128 * g
def treadChatter (g : Nat) : Nat := 0x8610C + 128 * g
def treadTimeout (g : Nat) : Nat := 0x86110 + 128 * g
def treadSeekMin (g : Nat) : Nat := 0x86114 + 128 * g
def treadFreqLock (g : Nat) : Nat := 0x86118 + 128 * g
def treadPhaseLock (g : Nat) : Nat := 0x8611C + 128 * g
def treadUnlock (g : Nat) : Nat := 0x86120 + 128 * g
def treadSlew (g : Nat) : Nat := 0x86124 + 128 * g
def treadConvBand (g : Nat) : Nat := 0x86128 + 128 * g
def treadFreqCorr (g : Nat) : Nat := 0x8612C + 128 * g
def treadHoldDrift (g : Nat) : Nat := 0x86130 + 128 * g
def treadHoldAge (g : Nat) : Nat := 0x86134 + 128 * g
def treadRefInacc (g : Nat) : Nat := 0x86138 + 128 * g
def treadPhaseLimLo (g : Nat) : Nat := 0x8613C + 128 * g
def treadPhaseLimHi (g : Nat) : Nat := 0x86140 + 128 * g
def treadStat (g : Nat) : Nat := 0x86144 + 128 * g
def treadPhaseErrLo (g : Nat) : Nat := 0x86148 + 128 * g
def treadPhaseErrHi (g : Nat) : Nat := 0x8614C + 128 * g
def treadFNow (g : Nat) : Nat := 0x86150 + 128 * g
def treadAccLo (g : Nat) : Nat := 0x86154 + 128 * g
def treadAccHi (g : Nat) : Nat := 0x86158 + 128 * g
def treadEstErr (g : Nat) : Nat := 0x8615C + 128 * g
def treadHoldTime (g : Nat) : Nat := 0x86160 + 128 * g
def treadFollow (g : Nat) : Nat := 0x86164 + 128 * g
def treadOcxGain (g : Nat) : Nat := 0x86168 + 128 * g
def treadOcxBias (g : Nat) : Nat := 0x8616C + 128 * g
def treadSwitches (g : Nat) : Nat := 0x86170 + 128 * g
def treadSeekOfsLo (g : Nat) : Nat := 0x86174 + 128 * g
def treadSeekOfsHi (g : Nat) : Nat := 0x86178 + 128 * g
def treadSeg (g k w : Nat) : Nat := 0x86400 + 1024 * g + 16 * k + 4 * w
def ptpaCfg : Nat := 0x87040
def ptpaDomainMap (i : Nat) : Nat := 0x87050 + 4 * i
def ptpaPortCfg (n : Nat) : Nat := 0x87100 + 4 * n
def ptpaLinkDelay (n : Nat) : Nat := 0x87180 + 4 * n
def ptpaEdits (n : Nat) : Nat := 0x87200 + 16 * n
def ptpaSkipped (n : Nat) : Nat := 0x87204 + 16 * n
def ptpaRxEvent (n : Nat) : Nat := 0x87208 + 16 * n
def ptpaRxGeneral (n : Nat) : Nat := 0x8720C + 16 * n
def peImageName (n : Nat) : Nat := 0x90040 + 0x1000 * n
def peImageVer (n : Nat) : Nat := 0x90044 + 0x1000 * n
def peStatus (n : Nat) : Nat := 0x90048 + 0x1000 * n
def peServe (n : Nat) : Nat := 0x9004C + 0x1000 * n
def peWdog (n : Nat) : Nat := 0x90050 + 0x1000 * n
def peTrapFatal (n : Nat) : Nat := 0x90054 + 0x1000 * n
def peTrapInfo (n : Nat) : Nat := 0x90058 + 0x1000 * n
def peCkptStat (n : Nat) : Nat := 0x9005C + 0x1000 * n
def peCkptSeq (n : Nat) : Nat := 0x90060 + 0x1000 * n
def peCkptRangeStart (n r : Nat) : Nat := 0x90068 + 0x1000 * n + 8 * r
def peCkptRangeLen (n r : Nat) : Nat := 0x9006C + 0x1000 * n + 8 * r
def peKills (n : Nat) : Nat := 0x90090 + 0x1000 * n
def fabSpareMask : Nat := 0xA8040
def fabIdleSpares : Nat := 0xA8044
def fabCkptBase : Nat := 0xA8048
def fabTkoCount : Nat := 0xA804C
def fabTkoLast : Nat := 0xA8050
def fabTkoTime : Nat := 0xA8054
def fabTkoLost : Nat := 0xA8058
def fabWarm (e : Nat) : Nat := 0xA8080 + 4 * e
def fabBind (e : Nat) : Nat := 0xA8100 + 4 * e
def fabInjBad (e : Nat) : Nat := 0xA8180 + 4 * e
def fabLaneCfg (k : Nat) : Nat := 0xA8200 + 32 * k
def fabLaneHold (k : Nat) : Nat := 0xA8204 + 32 * k
def fabLaneStat (k : Nat) : Nat := 0xA8208 + 32 * k
def fabLaneFrames (k : Nat) : Nat := 0xA820C + 32 * k
def fabLaneBypFwd (k : Nat) : Nat := 0xA8210 + 32 * k
def fabLaneBypDisc (k : Nat) : Nat := 0xA8214 + 32 * k
def fabLaneEndErr (k : Nat) : Nat := 0xA8218 + 32 * k
def fabLaneCut (k : Nat) : Nat := 0xA821C + 32 * k
def fabWarmVer (e : Nat) : Nat := 0xA8500 + 4 * e
def dduCfg : Nat := 0xA9040
def dduForgetMs : Nat := 0xA9044
def dduUsed : Nat := 0xA9048
def dduFlush : Nat := 0xA904C
def dduQueries : Nat := 0xA9050
def dduDuplicates : Nat := 0xA9054
def dduEvicts : Nat := 0xA9058
def dduAged : Nat := 0xA905C
def dduGroup (e : Nat) : Nat := 0xA9080 + 4 * e
def shankLaneStat : Nat := 0xB0040
def shankLaneTest : Nat := 0xB0044
def shankLoad : Nat := 0xB0048
def shankRetries : Nat := 0xB004C
def shankSwaps : Nat := 0xB0050
def shankUnresolved : Nat := 0xB0054
def shankOverruns : Nat := 0xB0058
def shankPostMerged : Nat := 0xB005C
def shankPostUnused : Nat := 0xB0060
def shankOutMerged : Nat := 0xB0064
def shankOutDrop : Nat := 0xB0068
def shankPendLo : Nat := 0xB0070
def shankPendHi : Nat := 0xB0074
def shankTrigLo : Nat := 0xB0078
def shankTrigHi : Nat := 0xB007C
def shankGroupCfg (g : Nat) : Nat := 0xB0080 + 8 * g
def shankGroupStat (g : Nat) : Nat := 0xB0084 + 8 * g
def shankOut (c : Nat) : Nat := 0xB0100 + 4 * c
def shchSel (w : Nat) : Nat := perKey w (0xB1040)
def shchCfg (c : Nat) : Nat := shchKey c 0x44
def shchTrig (c : Nat) : Nat := shchKey c 0x48
def shchInPv (c : Nat) : Nat := shchKey c 0x4C
def shchInSp (c : Nat) : Nat := shchKey c 0x50
def shchInFf (c : Nat) : Nat := shchKey c 0x54
def shchConstSp (c : Nat) : Nat := shchKey c 0x58
def shchConstFf (c : Nat) : Nat := shchKey c 0x5C
def shchOutDest (c : Nat) : Nat := shchKey c 0x60
def shchOutDb (c : Nat) : Nat := shchKey c 0x64
def shchMan (c : Nat) : Nat := shchKey c 0x68
def shchStat (c : Nat) : Nat := shchKey c 0x80
def shchEvals (c : Nat) : Nat := shchKey c 0x84
def shchOverruns (c : Nat) : Nat := shchKey c 0x88
def shchAgeUs (c : Nat) : Nat := shchKey c 0x8C
def shchY (c : Nat) : Nat := shchKey c 0x90
def shchV (c : Nat) : Nat := shchKey c 0x94
def shchE (c : Nat) : Nat := shchKey c 0x98
def shchILo (c : Nat) : Nat := shchKey c 0x9C
def shchIHi (c : Nat) : Nat := shchKey c 0xA0
def shchExp (c : Nat) : Nat := shchKey c 0xA4
def shchExp2 (c : Nat) : Nat := shchKey c 0xA8
def shchPostQual (w : Nat) : Nat := perKey w (0xB1100)
def shchPost (c s : Nat) : Nat := 0xB1800 + 16 * c + 4 * s
def shchKp (c b : Nat) : Nat := shchKey c 0x1000 + 128 * b
def shchKi (c b : Nat) : Nat := shchKey c 0x1004 + 128 * b
def shchKd (c b : Nat) : Nat := shchKey c 0x1008 + 128 * b
def shchDpole (c b : Nat) : Nat := shchKey c 0x100C + 128 * b
def shchKff (c b : Nat) : Nat := shchKey c 0x1010 + 128 * b
def shchKt (c b : Nat) : Nat := shchKey c 0x1014 + 128 * b
def shchOmin (c b : Nat) : Nat := shchKey c 0x1018 + 128 * b
def shchOmax (c b : Nat) : Nat := shchKey c 0x101C + 128 * b
def shchImin (c b : Nat) : Nat := shchKey c 0x1020 + 128 * b
def shchImax (c b : Nat) : Nat := shchKey c 0x1024 + 128 * b
def shchBq (c b k j : Nat) : Nat := shchKey c 0x1028 + 128 * b + 20 * k + 4 * j
def shchLoss (c b : Nat) : Nat := shchKey c 0x1078 + 128 * b
def shchSafeOut (c b : Nat) : Nat := shchKey c 0x107C + 128 * b
def weltCfg (n : Nat) : Nat := 0xC0040 + 0x1000 * n
def weltUp (n : Nat) : Nat := 0xC0044 + 0x1000 * n
def weltDownA (n : Nat) : Nat := 0xC0048 + 0x1000 * n
def weltDownB (n : Nat) : Nat := 0xC004C + 0x1000 * n
def weltCycleNs (n : Nat) : Nat := 0xC0050 + 0x1000 * n
def weltPi (n : Nat) : Nat := 0xC0054 + 0x1000 * n
def weltUpDelay (n : Nat) : Nat := 0xC0058 + 0x1000 * n
def weltLimits (n : Nat) : Nat := 0xC005C + 0x1000 * n
def weltRateMax (n : Nat) : Nat := 0xC0060 + 0x1000 * n
def weltTimers (n : Nat) : Nat := 0xC0064 + 0x1000 * n
def weltCsWin (n : Nat) : Nat := 0xC0068 + 0x1000 * n
def weltAnchorCfg (n : Nat) : Nat := 0xC006C + 0x1000 * n
def weltNotify (n : Nat) : Nat := 0xC0070 + 0x1000 * n
def weltBuf (n : Nat) : Nat := 0xC0074 + 0x1000 * n
def weltState (n : Nat) : Nat := 0xC0078 + 0x1000 * n
def weltCycle (n : Nat) : Nat := 0xC007C + 0x1000 * n
def weltPos (n : Nat) : Nat := 0xC0080 + 0x1000 * n
def weltCorr (n : Nat) : Nat := 0xC0084 + 0x1000 * n
def weltRate (n : Nat) : Nat := 0xC0088 + 0x1000 * n
def weltEdgeCnt (n : Nat) : Nat := 0xC008C + 0x1000 * n
def weltPublish (n : Nat) : Nat := 0xC0090 + 0x1000 * n
def weltTxHalf (n j : Nat) : Nat := 0xC00A0 + 0x1000 * n + 4 * j
def weltRxValid (n c : Nat) : Nat := 0xC0100 + 0x1000 * n + 32 * c
def weltRxInvalid (n c : Nat) : Nat := 0xC0104 + 0x1000 * n + 32 * c
def weltRxMissing (n c : Nat) : Nat := 0xC0108 + 0x1000 * n + 32 * c
def weltTxFrames (n c : Nat) : Nat := 0xC010C + 0x1000 * n + 32 * c
def weltEarlyMask (n c : Nat) : Nat := 0xC0110 + 0x1000 * n + 32 * c
def weltLateCut (n c : Nat) : Nat := 0xC0114 + 0x1000 * n + 32 * c
def weltOutOfSlot (n c : Nat) : Nat := 0xC0118 + 0x1000 * n + 32 * c
def weltSyncLow (n : Nat) : Nat := 0xC0180 + 0x1000 * n
def weltMirrorDiff (n : Nat) : Nat := 0xC0184 + 0x1000 * n
def weltRejoins (n : Nat) : Nat := 0xC0188 + 0x1000 * n
def weltAge (n k : Nat) : Nat := 0xC0200 + 0x1000 * n + 4 * k
def weltNodeMap (n o : Nat) : Nat := 0xC0400 + 0x1000 * n + 4 * o
def patApplyAt (n : Nat) : Nat := 0xC8040 + 0x4000 * n
def patApply (n : Nat) : Nat := 0xC8044 + 0x4000 * n
def patCheck (n : Nat) : Nat := 0xC8048 + 0x4000 * n
def patViewSel (n : Nat) : Nat := 0xC804C + 0x4000 * n
def patAppliedAt (n : Nat) : Nat := 0xC8050 + 0x4000 * n
def patEditA (n e w : Nat) : Nat := 0xC9000 + 0x4000 * n + 8 * e + 4 * w
def patEditB (n e w : Nat) : Nat := 0xCA000 + 0x4000 * n + 8 * e + 4 * w
def patActive (n e w : Nat) : Nat := 0xCB000 + 0x4000 * n + 8 * e + 4 * w
def eyeClkdiv (n : Nat) : Nat := 0xD0040 + 0x1000 * n
def eyeCfg (n : Nat) : Nat := 0xD0044 + 0x1000 * n
def eyeCircuit (n : Nat) : Nat := 0xD0048 + 0x1000 * n
def eyeInBase (n : Nat) : Nat := 0xD004C + 0x1000 * n
def eyeCountInit (n : Nat) : Nat := 0xD0050 + 0x1000 * n
def eyeOnce (n : Nat) : Nat := 0xD0054 + 0x1000 * n
def eyeSink (n : Nat) : Nat := 0xD0058 + 0x1000 * n
def eyeIrqDb (n : Nat) : Nat := 0xD005C + 0x1000 * n
def eyeDbIn (n k : Nat) : Nat := 0xD0060 + 0x1000 * n + 4 * k
def eyeStatus (n : Nat) : Nat := 0xD0080 + 0x1000 * n
def eyeRxs (n : Nat) : Nat := 0xD0084 + 0x1000 * n
def eyeTxs (n : Nat) : Nat := 0xD0088 + 0x1000 * n
def eyeCounters (n : Nat) : Nat := 0xD008C + 0x1000 * n
def eyeFifoLvl (n : Nat) : Nat := 0xD0090 + 0x1000 * n
def eyeSteps (n : Nat) : Nat := 0xD0094 + 0x1000 * n
def eyeStalls (n : Nat) : Nat := 0xD0098 + 0x1000 * n
def eyeEvMerged (n : Nat) : Nat := 0xD009C + 0x1000 * n
def eyeStampLo (n : Nat) : Nat := 0xD00A0 + 0x1000 * n
def eyeStampHi (n : Nat) : Nat := 0xD00A4 + 0x1000 * n
def eyeStampStat (n : Nat) : Nat := 0xD00A8 + 0x1000 * n
def eyeRxh (n : Nat) : Nat := 0xD00AC + 0x1000 * n
def eyeTxh (n : Nat) : Nat := 0xD00B0 + 0x1000 * n
def eyeRowStage (n w : Nat) : Nat := 0xD0100 + 0x1000 * n + 4 * w
def eyeRowCommit (n : Nat) : Nat := 0xD0114 + 0x1000 * n
def eyeRowSel (n s : Nat) : Nat := 0xD0400 + 0x1000 * n + 32 * s
def eyeRowArc (n s a : Nat) : Nat := 0xD0404 + 0x1000 * n + 32 * s + 4 * a
def eyepStart : Nat := 0xE0040
def eyepBootSync : Nat := 0xE0044
def eyepYgroup0 : Nat := 0xE0048
def eyepYgroup1 : Nat := 0xE004C
def eyepBank (b : Nat) : Nat := 0xE0050 + 4 * b
def eyepPinInLo : Nat := 0xE0060
def eyepPinInHi : Nat := 0xE0064
def eyepPin (p : Nat) : Nat := 0xE0100 + 4 * p
def wcapCfg : Nat := 0xE8040
def wcapBuf : Nat := 0xE8044
def wcapCapacity : Nat := 0xE8048
def wcapPre : Nat := 0xE804C
def wcapPost : Nat := 0xE8050
def wcapTrig : Nat := 0xE8054
def wcapReportEng : Nat := 0xE8058
def wcapReportHost : Nat := 0xE805C
def wcapStat : Nat := 0xE8060
def wcapIndexLo : Nat := 0xE8064
def wcapIndexHi (w : Nat) : Nat := perKey w (0xE8068)
def wcapT0NsLo : Nat := 0xE806C
def wcapT0NsHi : Nat := 0xE8070
def wcapT0Frac : Nat := 0xE8074
def wcapPeriodNs : Nat := 0xE8078
def wcapPeriodFrac : Nat := 0xE807C
def wcapRelease : Nat := 0xE8080
def wcapExportRec : Nat := 0xE8084
def wcapExportDest : Nat := 0xE8088
def wcapExportCtrl : Nat := 0xE808C
def wcapTrigLost : Nat := 0xE80A0
def wcapRecLost : Nat := 0xE80A4
def wcapReportLost : Nat := 0xE80A8
def wcapDropped : Nat := 0xE80AC
def wcapBankMap (w : Nat) : Nat := 0xE80C0 + 4 * w
def wcapChCfg (c : Nat) : Nat := 0xE8100 + 32 * c
def wcapChK (c : Nat) : Nat := 0xE8104 + 32 * c
def wcapChThresh (c : Nat) : Nat := 0xE8108 + 32 * c
def wcapChHoldoff (c : Nat) : Nat := 0xE810C + 32 * c
def wcapChDelay (c : Nat) : Nat := 0xE8110 + 32 * c
def wcapChStat (c : Nat) : Nat := 0xE8114 + 32 * c
def wcapChFronts (c : Nat) : Nat := 0xE8118 + 32 * c
def wcapChSlips (c : Nat) : Nat := 0xE811C + 32 * c
def wcapRecFirstLo (r : Nat) : Nat := 0xE8800 + 32 * r
def wcapRecFirstHi (r : Nat) : Nat := 0xE8804 + 32 * r
def wcapRecTrigOfs (r : Nat) : Nat := 0xE8808 + 32 * r
def wcapRecLen (r : Nat) : Nat := 0xE880C + 32 * r
def wcapRecArrLo (r : Nat) : Nat := 0xE8810 + 32 * r
def wcapRecArrHi (r : Nat) : Nat := 0xE8814 + 32 * r
def wcapRecInfo (r : Nat) : Nat := 0xE8818 + 32 * r
def bankCfg : Nat := 0xF0040
def bankHandover : Nat := 0xF0044
def bankAccept : Nat := 0xF0048
def bankHoResult (w : Nat) : Nat := perKey w (0xF004C)
def bankCeTotal : Nat := 0xF0050
def bankUeTotal : Nat := 0xF0054
def bankCollides : Nat := 0xF0058
def bankErrLog : Nat := 0xF005C
def bankCollideLog : Nat := 0xF0060
def bankScrubPasses : Nat := 0xF0064
def bankRetGroup : Nat := 0xF0080
def bankBankst (n : Nat) : Nat := 0xF0100 + 4 * n
def bankAllow (n : Nat) : Nat := 0xF0400 + 4 * n
def bankEcc (n : Nat) : Nat := 0xF0700 + 4 * n
def laceCfg : Nat := 0xF1040
def laceMwTime : Nat := 0xF1044
def laceEmptyPend (w : Nat) : Nat := 0xF1048 + 4 * w
def laceMwPend (w : Nat) : Nat := 0xF1058 + 4 * w
def laceEpoch (w : Nat) : Nat := 0xF10C0 + 4 * w
def laceRoute (d : Nat) : Nat := 0xF1100 + 4 * d
def laceChCfg (m : Nat) : Nat := 0xF1200 + 16 * m
def laceChNoteA (m : Nat) : Nat := 0xF1204 + 16 * m
def laceChNoteB (m : Nat) : Nat := 0xF1208 + 16 * m
def laceChStat (m : Nat) : Nat := 0xF120C + 16 * m
def laceTx (m d : Nat) : Nat := 0xF1600 + 32 * m + 16 * d
def laceTxlast (m d : Nat) : Nat := 0xF1604 + 32 * m + 16 * d
def laceRx (m d : Nat) : Nat := 0xF1608 + 32 * m + 16 * d
def laceRxinfo (w m d : Nat) : Nat := perKey w (0xF160C + 32 * m + 16 * d)
def laceDb (d : Nat) : Nat := 0xF1E00 + 4 * d
def laceDbSet (d : Nat) : Nat := 0xF1F00 + 4 * d
def pcieCfg : Nat := 0x100040
def pcieLink : Nat := 0x100044
def pcieBar2Err : Nat := 0x100048
def pcieBar2ErrAddr : Nat := 0x10004C
def pcieBar2ErrCount : Nat := 0x100050
def pciePerstCount : Nat := 0x100054
def pcieDmaCtrl (c : Nat) : Nat := 0x100100 + 32 * c
def pcieDmaRingLo (c : Nat) : Nat := 0x100104 + 32 * c
def pcieDmaRingHi (c : Nat) : Nat := 0x100108 + 32 * c
def pcieDmaRingSize (c : Nat) : Nat := 0x10010C + 32 * c
def pcieDmaTail (c : Nat) : Nat := 0x100110 + 32 * c
def pcieDmaHead (c : Nat) : Nat := 0x100114 + 32 * c
def pcieDmaStat (c : Nat) : Nat := 0x100118 + 32 * c
def pcieDmaDone (c : Nat) : Nat := 0x10011C + 32 * c
def hostbCfg : Nat := 0x101040
def hostbLastStatus : Nat := 0x101044
def hostbCrcErrors : Nat := 0x101048
def hostbAborted : Nat := 0x10104C
def hostbFrames : Nat := 0x101050
def supKeyPolicy : Nat := 0x102040
def supDebugEn : Nat := 0x102044
def supKeyStat : Nat := 0x102048
def supSvcCmd : Nat := 0x10204C
def supSvcStat : Nat := 0x102050
def supRefuseName : Nat := 0x102054
def supRefuseInfo : Nat := 0x102058
def supSvcArg (i : Nat) : Nat := 0x102060 + 4 * i
def supWdog : Nat := 0x102070
def supRestarts : Nat := 0x102074
def supSvn (k : Nat) : Nat := 0x102100 + 4 * k
def flashCfg : Nat := 0x103040
def flashCmdOp : Nat := 0x103044
def flashCmdAddr : Nat := 0x103048
def flashCmdGo : Nat := 0x10304C
def flashCmdStat : Nat := 0x103050
def flashData (w : Nat) : Nat := 0x103100 + 4 * w
def fltCfg : Nat := 0x6040
def fltHead : Nat := 0x6044
def fltSeqNext : Nat := 0x6048
def fltWorst : Nat := 0x604C
def fltDegraded : Nat := 0x6050
def fltDegradedEvt : Nat := 0x6054
def fltSup : Nat := 0x6058
def fltFaultn : Nat := 0x605C
def fltCountC (k : Nat) : Nat := 0x6060 + 4 * k
def fltOverwritten : Nat := 0x6070
def fltInjTarget : Nat := 0x6080
def fltInjAddr : Nat := 0x6084
def fltInjGo : Nat := 0x6088
def fltInjStat : Nat := 0x608C
def fltRec (r w : Nat) : Nat := 0x6800 + 32 * r + 4 * w

def hdrIdType (p : Nat) : Field := ⟨hdrId p, 16, 16⟩
def hdrIdInstance (p : Nat) : Field := ⟨hdrId p, 8, 8⟩
def hdrIdLayout (p : Nat) : Field := ⟨hdrId p, 0, 8⟩
def hdrVerDesign (p : Nat) : Field := ⟨hdrVer p, 16, 16⟩
def hdrVerImage (p : Nat) : Field := ⟨hdrVer p, 0, 16⟩
def hdrCtrlEn (p : Nat) : Field := ⟨hdrCtrl p, 0, 1⟩
def hdrCtrlSrst (p : Nat) : Field := ⟨hdrCtrl p, 1, 1⟩
def hdrCtrlRetain (p : Nat) : Field := ⟨hdrCtrl p, 8, 1⟩
def hdrStateState (p : Nat) : Field := ⟨hdrState p, 0, 3⟩
def hdrStateEnPending (p : Nat) : Field := ⟨hdrState p, 8, 1⟩
def hdrStateDisPending (p : Nat) : Field := ⟨hdrState p, 9, 1⟩
def hdrLockOpen (p : Nat) : Field := ⟨hdrLock p, 0, 5⟩
def hdrLockProposer (p : Nat) : Field := ⟨hdrLock p, 8, 8⟩
def hdrLockOutcome (p : Nat) : Field := ⟨hdrLock p, 16, 4⟩
def irqaHbLineActive : Field := ⟨irqaHbLine, 0, 1⟩
def irqaRouteVector (p : Nat) : Field := ⟨irqaRoute p, 0, 6⟩
def irqaRouteToHa (p : Nat) : Field := ⟨irqaRoute p, 8, 1⟩
def irqaRouteToHb (p : Nat) : Field := ⟨irqaRoute p, 9, 1⟩
def irqaRouteToSup (p : Nat) : Field := ⟨irqaRoute p, 10, 1⟩
def irqaRouteToDb (p : Nat) : Field := ⟨irqaRoute p, 11, 1⟩
def irqaRouteDb (p : Nat) : Field := ⟨irqaRoute p, 16, 6⟩
def irqaRouteDbBit (p : Nat) : Field := ⟨irqaRoute p, 24, 5⟩
def protWindowMs : Field := ⟨protWindow, 0, 14⟩
def protStageStatOpen : Field := ⟨protStageStat, 0, 5⟩
def protApproveAddrAddr (w : Nat) : Field := ⟨protApproveAddr w, 2, 22⟩
def protApproveCrcCrc : Field := ⟨protApproveCrc, 0, 16⟩
def protDenyAddrAddr : Field := ⟨protDenyAddr, 0, 24⟩
def protDenyInfoPrincipal : Field := ⟨protDenyInfo, 0, 8⟩
def protDenyInfoCount : Field := ⟨protDenyInfo, 16, 16⟩
def protStageAddrAddr (j : Nat) : Field := ⟨protStageAddr j, 0, 24⟩
def protStageInfoProposer (j : Nat) : Field := ⟨protStageInfo j, 0, 8⟩
def protStageInfoOpen (j : Nat) : Field := ⟨protStageInfo j, 8, 1⟩
def protStageInfoHeld (j : Nat) : Field := ⟨protStageInfo j, 9, 1⟩
def protStageRemainACycles (j : Nat) : Field := ⟨protStageRemain j, 0, 28⟩
def protLogAddrAddr (k : Nat) : Field := ⟨protLogAddr k, 0, 24⟩
def protLogInfoProposer (k : Nat) : Field := ⟨protLogInfo k, 0, 8⟩
def protLogInfoApprover (k : Nat) : Field := ⟨protLogInfo k, 8, 8⟩
def protLogInfoOutcome (k : Nat) : Field := ⟨protLogInfo k, 16, 4⟩
def protLogHeadNext : Field := ⟨protLogHead, 0, 5⟩
def devPartGrade : Field := ⟨devPart, 0, 4⟩
def devPartStepping : Field := ⟨devPart, 8, 8⟩
def devBootStep : Field := ⟨devBoot, 0, 4⟩
def devBootDone : Field := ⟨devBoot, 4, 1⟩
def devBootCold : Field := ⟨devBoot, 5, 1⟩
def devBootSource : Field := ⟨devBoot, 6, 2⟩
def devBootConflicts : Field := ⟨devBoot, 8, 8⟩
def devUnmappedAddrAddr : Field := ⟨devUnmappedAddr, 0, 24⟩
def devUnmappedAddrPrincipal : Field := ⟨devUnmappedAddr, 24, 8⟩
def devTestIrqSetEn : Field := ⟨devTest, 0, 1⟩
def clkTrefCfgFreq : Field := ⟨clkTrefCfg, 0, 2⟩
def clkStatusCoreLock : Field := ⟨clkStatus, 0, 1⟩
def clkStatusTpllLock : Field := ⟨clkStatus, 1, 1⟩
def clkStatusRefclkOk : Field := ⟨clkStatus, 2, 1⟩
def clkLossCountCount : Field := ⟨clkLossCount, 0, 16⟩
def rstDeviceKey : Field := ⟨rstDevice, 0, 8⟩
def rstDeviceKeepTime : Field := ⟨rstDevice, 8, 1⟩
def rstCauseLast : Field := ⟨rstCause, 0, 3⟩
def rstPerstCountCount : Field := ⟨rstPerstCount, 0, 16⟩
def insoleCommitGo : Field := ⟨insoleCommit, 0, 1⟩
def insoleCommitStatBusy : Field := ⟨insoleCommitStat, 0, 1⟩
def insoleCommitStatRefused : Field := ⟨insoleCommitStat, 1, 3⟩
def insoleCommitStatLastSlot : Field := ⟨insoleCommitStat, 4, 1⟩
def insoleSnapSizeBytes : Field := ⟨insoleSnapSize, 0, 21⟩
def insoleRevertKey : Field := ⟨insoleRevert, 0, 8⟩
def insoleRevertEnPin : Field := ⟨insoleRevertEn, 0, 1⟩
def insoleRevertEnHost : Field := ⟨insoleRevertEn, 1, 1⟩
def insoleCacheStatUsed : Field := ⟨insoleCacheStat, 0, 23⟩
def insoleCacheStatImages : Field := ⟨insoleCacheStat, 24, 8⟩
def macCfgFcsStrip (n : Nat) : Field := ⟨macCfg n, 0, 1⟩
def macCfgPauseRxEn (n : Nat) : Field := ⟨macCfg n, 1, 1⟩
def macCfgPauseAdv (n : Nat) : Field := ⟨macCfg n, 2, 1⟩
def macCfgAnEn (n : Nat) : Field := ⟨macCfg n, 3, 1⟩
def macCfgLaunchGuard (n : Nat) : Field := ⟨macCfg n, 4, 1⟩
def macCfgLateDrop (n : Nat) : Field := ⟨macCfg n, 5, 1⟩
def macCfgFefiEn (n : Nat) : Field := ⟨macCfg n, 6, 1⟩
def macMaxlenBytes (n : Nat) : Field := ⟨macMaxlen n, 0, 14⟩
def macLateTolNs (n : Nat) : Field := ⟨macLateTol n, 0, 20⟩
def macLinkUp (n : Nat) : Field := ⟨macLink n, 0, 1⟩
def macLinkSpeed (n : Nat) : Field := ⟨macLink n, 1, 3⟩
def macLinkPaused (n : Nat) : Field := ⟨macLink n, 4, 1⟩
def macLinkPhyPresent (n : Nat) : Field := ⟨macLink n, 5, 1⟩
def macLinkRemoteFault (n : Nat) : Field := ⟨macLink n, 6, 1⟩
def macLinkPartnerPause (n : Nat) : Field := ⟨macLink n, 7, 1⟩
def macPhyCfgAddr (n : Nat) : Field := ⟨macPhyCfg n, 0, 5⟩
def macPhyCfgBus (n : Nat) : Field := ⟨macPhyCfg n, 5, 1⟩
def macPhyCfgClause45 (n : Nat) : Field := ⟨macPhyCfg n, 6, 1⟩
def macMdioAddrReg (n : Nat) : Field := ⟨macMdioAddr n, 0, 16⟩
def macMdioAddrDevad (n : Nat) : Field := ⟨macMdioAddr n, 16, 5⟩
def macMdioDataData (n : Nat) : Field := ⟨macMdioData n, 0, 16⟩
def macMdioCmdOp (n : Nat) : Field := ⟨macMdioCmd n, 0, 2⟩
def macMdioCmdBusy (n : Nat) : Field := ⟨macMdioCmd n, 8, 1⟩
def macMdioCmdNoAnswer (n : Nat) : Field := ⟨macMdioCmd n, 9, 1⟩
def macStampRxTrimPs (n : Nat) : Field := ⟨macStampRxTrim n, 0, 20⟩
def macStampTxTrimPs (n : Nat) : Field := ⟨macStampTxTrim n, 0, 20⟩
def macStampAsymPs (n : Nat) : Field := ⟨macStampAsym n, 0, 24⟩
def macStampDesignRxPs (n : Nat) : Field := ⟨macStampDesign n, 0, 16⟩
def macStampDesignTxPs (n : Nat) : Field := ⟨macStampDesign n, 16, 16⟩
def macTxtsStatCount (n : Nat) : Field := ⟨macTxtsStat n, 0, 5⟩
def macTxtsStatOvf (n : Nat) : Field := ⟨macTxtsStat n, 8, 1⟩
def macTxtsTagTag (n : Nat) : Field := ⟨macTxtsTag n, 0, 16⟩
def macTxtsLoFine (n : Nat) : Field := ⟨macTxtsLo n, 0, 5⟩
def macTxtsLoFrcLo (n : Nat) : Field := ⟨macTxtsLo n, 5, 27⟩
def macTxtsHiFrcHi (n : Nat) : Field := ⟨macTxtsHi n, 0, 21⟩
def macStatSnapGo (n : Nat) : Field := ⟨macStatSnap n, 0, 1⟩
def macShapeQCfgIdleSlope (n q : Nat) : Field := ⟨macShapeQCfg n q, 0, 24⟩
def macShapeQCfgCbsEn (n q : Nat) : Field := ⟨macShapeQCfg n q, 31, 1⟩
def macShapeQQmaxframeBytes (n q : Nat) : Field := ⟨macShapeQQmaxframe n q, 0, 14⟩
def macShapeQMaxIntfBytes (n q : Nat) : Field := ⟨macShapeQMaxIntf n q, 0, 14⟩
def laneCfgMode (n : Nat) : Field := ⟨laneCfg n, 0, 3⟩
def laneCfgTxInv (n : Nat) : Field := ⟨laneCfg n, 4, 1⟩
def laneCfgRxInv (n : Nat) : Field := ⟨laneCfg n, 5, 1⟩
def laneTxeqPre (n : Nat) : Field := ⟨laneTxeq n, 0, 6⟩
def laneTxeqMain (n : Nat) : Field := ⟨laneTxeq n, 8, 6⟩
def laneTxeqPost (n : Nat) : Field := ⟨laneTxeq n, 16, 6⟩
def laneRxeqAdapt (n : Nat) : Field := ⟨laneRxeq n, 0, 1⟩
def laneRxeqCtle (n : Nat) : Field := ⟨laneRxeq n, 4, 4⟩
def laneLoopMode (n : Nat) : Field := ⟨laneLoop n, 0, 2⟩
def lanePrbsGen (n : Nat) : Field := ⟨lanePrbs n, 0, 2⟩
def lanePrbsChk (n : Nat) : Field := ⟨lanePrbs n, 2, 2⟩
def laneStatusSignal (n : Nat) : Field := ⟨laneStatus n, 0, 1⟩
def laneStatusCdrLock (n : Nat) : Field := ⟨laneStatus n, 1, 1⟩
def laneStatusAligned (n : Nat) : Field := ⟨laneStatus n, 2, 1⟩
def laneStatusCalDone (n : Nat) : Field := ⟨laneStatus n, 3, 1⟩
def laneStatusCtleAdapted (n : Nat) : Field := ⟨laneStatus n, 8, 4⟩
def laneMdioBusDiv (n : Nat) : Field := ⟨laneMdioBus n, 0, 4⟩
def laneMdioBusPreSuppress (n : Nat) : Field := ⟨laneMdioBus n, 4, 1⟩
def swcCfgLinkdownPrune : Field := ⟨swcCfg, 0, 1⟩
def swcCfgUmcDrop : Field := ⟨swcCfg, 1, 1⟩
def swcCfgFlushOnDown : Field := ⟨swcCfg, 2, 1⟩
def swcBufBanksFirst : Field := ⟨swcBufBanks, 0, 8⟩
def swcBufBanksCount : Field := ⟨swcBufBanks, 8, 7⟩
def swcBufCellsTotal : Field := ⟨swcBufCells, 0, 18⟩
def swcBufFreeFree : Field := ⟨swcBufFree, 0, 18⟩
def swcSharedCells : Field := ⟨swcShared, 0, 18⟩
def swcSharedUsedUsed : Field := ⟨swcSharedUsed, 0, 18⟩
def swcDescFreeFree : Field := ⟨swcDescFree, 0, 17⟩
def swcGenGen : Field := ⟨swcGen, 0, 16⟩
def swcGenBarrierArm : Field := ⟨swcGenBarrier, 0, 1⟩
def swcGenBarrierDone : Field := ⟨swcGenBarrier, 8, 1⟩
def swcGenBarrierTarget : Field := ⟨swcGenBarrier, 16, 16⟩
def swcGenOldestOldest : Field := ⟨swcGenOldest, 0, 16⟩
def swcGenOldestEmpty : Field := ⟨swcGenOldest, 16, 1⟩
def swcFloodExtraMap : Field := ⟨swcFloodExtra, 0, 19⟩
def swcIngressResCells : Field := ⟨swcIngressRes, 0, 16⟩
def swcMirrorDest (s : Nat) : Field := ⟨swcMirror s, 0, 6⟩
def swcMirrorClass (s : Nat) : Field := ⟨swcMirror s, 8, 3⟩
def swcMirrorEn (s : Nat) : Field := ⟨swcMirror s, 15, 1⟩
def swcTblSelTable : Field := ⟨swcTblSel, 0, 1⟩
def swcTblSelIndex : Field := ⟨swcTblSel, 16, 12⟩
def swcTblCmdOp : Field := ⟨swcTblCmd, 0, 1⟩
def swcTblCmdBusy : Field := ⟨swcTblCmd, 8, 1⟩
def swcTblCmdGenFull : Field := ⟨swcTblCmd, 9, 1⟩
def fdbCfgLearnEn : Field := ⟨fdbCfg, 0, 1⟩
def fdbCfgAgeEn : Field := ⟨fdbCfg, 1, 1⟩
def fdbAgeTimeS : Field := ⟨fdbAgeTime, 0, 20⟩
def fdbKeyMacHiMac : Field := ⟨fdbKeyMacHi, 0, 16⟩
def fdbKeyMacHiVid : Field := ⟨fdbKeyMacHi, 16, 12⟩
def fdbDataDest : Field := ⟨fdbData, 0, 12⟩
def fdbDataGroup : Field := ⟨fdbData, 12, 1⟩
def fdbDataStatic : Field := ⟨fdbData, 13, 1⟩
def fdbDataAge : Field := ⟨fdbData, 14, 2⟩
def fdbIndexIndex : Field := ⟨fdbIndex, 0, 17⟩
def fdbCmdOp : Field := ⟨fdbCmd, 0, 3⟩
def fdbCmdBusy : Field := ⟨fdbCmd, 8, 1⟩
def fdbCmdResult : Field := ⟨fdbCmd, 9, 3⟩
def fdbCmdFlushBy : Field := ⟨fdbCmd, 12, 2⟩
def fdbCountLearned : Field := ⟨fdbCount, 0, 17⟩
def fdbStaticCount : Field := ⟨fdbStatic, 0, 17⟩
def fdbCamUsedCount : Field := ⟨fdbCamUsed, 0, 9⟩
def strmSelTable : Field := ⟨strmSel, 0, 1⟩
def strmSelIndex : Field := ⟨strmSel, 16, 10⟩
def strmCmdOp : Field := ⟨strmCmd, 0, 1⟩
def strmCmdBusy : Field := ⟨strmCmd, 8, 1⟩
def strmCmdGenFull : Field := ⟨strmCmd, 9, 1⟩
def strmCmdInvalid : Field := ⟨strmCmd, 10, 1⟩
def strmMcntSelMeter : Field := ⟨strmMcntSel, 0, 9⟩
def swqPortCfgFwdState (n : Nat) : Field := ⟨swqPortCfg n, 0, 2⟩
def swqPortCfgLearn (n : Nat) : Field := ⟨swqPortCfg n, 2, 1⟩
def swqPortCfgInFilter (n : Nat) : Field := ⟨swqPortCfg n, 3, 1⟩
def swqPortCfgDefaultPcp (n : Nat) : Field := ⟨swqPortCfg n, 4, 3⟩
def swqPortCfgMirrorIn (n : Nat) : Field := ⟨swqPortCfg n, 8, 2⟩
def swqPortCfgMirrorInEn (n : Nat) : Field := ⟨swqPortCfg n, 10, 1⟩
def swqPortCfgMirrorOut (n : Nat) : Field := ⟨swqPortCfg n, 12, 2⟩
def swqPortCfgMirrorOutEn (n : Nat) : Field := ⟨swqPortCfg n, 14, 1⟩
def swqPvidVid (n : Nat) : Field := ⟨swqPvid n, 0, 12⟩
def swqSharedLimDt (n : Nat) : Field := ⟨swqSharedLim n, 0, 3⟩
def swqPortMaxCells (n : Nat) : Field := ⟨swqPortMax n, 0, 18⟩
def swqPortUsedCells (n : Nat) : Field := ⟨swqPortUsed n, 0, 18⟩
def swqPcpMapClass (n k : Nat) : Field := ⟨swqPcpMap n k, 0, 3⟩
def swqPcpMapColour (n k : Nat) : Field := ⟨swqPcpMap n k, 4, 2⟩
def swqGuarCells (n s : Nat) : Field := ⟨swqGuar n s, 0, 18⟩
def swqSharedMaxCells (n s : Nat) : Field := ⟨swqSharedMax n s, 0, 18⟩
def swqWW (n s : Nat) : Field := ⟨swqW n s, 0, 4⟩
def swqRedGMinMin (n s : Nat) : Field := ⟨swqRedGMin n s, 0, 18⟩
def swqRedGMinMaxp (n s : Nat) : Field := ⟨swqRedGMin n s, 24, 8⟩
def swqRedYMinMin (n s : Nat) : Field := ⟨swqRedYMin n s, 0, 18⟩
def swqRedYMinMaxp (n s : Nat) : Field := ⟨swqRedYMin n s, 24, 8⟩
def swqRedRMinMin (n s : Nat) : Field := ⟨swqRedRMin n s, 0, 18⟩
def swqRedRMinMaxp (n s : Nat) : Field := ⟨swqRedRMin n s, 24, 8⟩
def swqRedGMaxMax (n s : Nat) : Field := ⟨swqRedGMax n s, 0, 18⟩
def swqRedGMaxEn (n s : Nat) : Field := ⟨swqRedGMax n s, 31, 1⟩
def swqRedYMaxMax (n s : Nat) : Field := ⟨swqRedYMax n s, 0, 18⟩
def swqRedYMaxEn (n s : Nat) : Field := ⟨swqRedYMax n s, 31, 1⟩
def swqRedRMaxMax (n s : Nat) : Field := ⟨swqRedRMax n s, 0, 18⟩
def swqRedRMaxEn (n s : Nat) : Field := ⟨swqRedRMax n s, 31, 1⟩
def swqOccCells (n s : Nat) : Field := ⟨swqOcc n s, 0, 18⟩
def swqAvgAvg (n s : Nat) : Field := ⟨swqAvg n s, 0, 26⟩
def swqFramesCount (n s : Nat) : Field := ⟨swqFrames n s, 0, 17⟩
def tbFrcHiFrc (w : Nat) : Field := ⟨tbFrcHi w, 0, 16⟩
def tbUtcOffsetSeconds : Field := ⟨tbUtcOffset, 0, 16⟩
def tbLeapLeap61 : Field := ⟨tbLeap, 0, 1⟩
def tbLeapLeap59 : Field := ⟨tbLeap, 1, 1⟩
def tbOcxCfgEn : Field := ⟨tbOcxCfg, 0, 1⟩
def tbOcxCfgSrc : Field := ⟨tbOcxCfg, 1, 2⟩
def tbOcxCfgWidth : Field := ⟨tbOcxCfg, 8, 5⟩
def tbOcxCfgSigned : Field := ⟨tbOcxCfg, 13, 1⟩
def tbOcxCfgDiv : Field := ⟨tbOcxCfg, 16, 8⟩
def tbOcxPrefixPrefix : Field := ⟨tbOcxPrefix, 0, 8⟩
def tbOcxPrefixLen : Field := ⟨tbOcxPrefix, 8, 4⟩
def tbOcxGapUs : Field := ⟨tbOcxGap, 0, 16⟩
def tbOcxStatBusy : Field := ⟨tbOcxStat, 0, 1⟩
def tbOcxStatFrames : Field := ⟨tbOcxStat, 16, 16⟩
def tbTeCfgOutEn (n : Nat) : Field := ⟨tbTeCfg n, 0, 1⟩
def tbTeTrimOutPs (n : Nat) : Field := ⟨tbTeTrim n, 0, 16⟩
def tbTeTrimInPs (n : Nat) : Field := ⟨tbTeTrim n, 16, 16⟩
def htbIncrNsNs (n : Nat) : Field := ⟨htbIncrNs n, 0, 4⟩
def htbStatClamped (n : Nat) : Field := ⟨htbStat n, 0, 1⟩
def htbStatStepped (n : Nat) : Field := ⟨htbStat n, 1, 1⟩
def htbStatSteps (n : Nat) : Field := ⟨htbStat n, 16, 16⟩
def viewConvSelView (w : Nat) : Field := ⟨viewConvSel w, 0, 5⟩
def viewConvSelNow (w : Nat) : Field := ⟨viewConvSel w, 8, 1⟩
def viewConvInHiStamp (w : Nat) : Field := ⟨viewConvInHi w, 0, 21⟩
def viewConvSecHiSec (w : Nat) : Field := ⟨viewConvSecHi w, 0, 16⟩
def viewConvSecHiInvalid (w : Nat) : Field := ⟨viewConvSecHi w, 31, 1⟩
def viewConvNsNs (w : Nat) : Field := ⟨viewConvNs w, 0, 30⟩
def viewConvFracFrac (w : Nat) : Field := ⟨viewConvFrac w, 0, 16⟩
def viewConvFracSet (w : Nat) : Field := ⟨viewConvFrac w, 16, 2⟩
def viewTrackPerTicks : Field := ⟨viewTrackPer, 0, 20⟩
def viewOffsetSecHiSec (v : Nat) : Field := ⟨viewOffsetSecHi v, 0, 16⟩
def viewOffsetNsNs (v : Nat) : Field := ⟨viewOffsetNs v, 0, 30⟩
def viewOffsetFracFrac (v : Nat) : Field := ⟨viewOffsetFrac v, 0, 16⟩
def viewAnchorHiStamp (v : Nat) : Field := ⟨viewAnchorHi v, 0, 21⟩
def viewRadjHiRadj (v : Nat) : Field := ⟨viewRadjHi v, 0, 8⟩
def viewActAtHiFrc (v : Nat) : Field := ⟨viewActAtHi v, 0, 16⟩
def viewCtrlArm (v : Nat) : Field := ⟨viewCtrl v, 0, 1⟩
def viewCtrlTrack (v : Nat) : Field := ⟨viewCtrl v, 1, 2⟩
def viewStatPend (v : Nat) : Field := ⟨viewStat v, 0, 1⟩
def viewStatLateApply (v : Nat) : Field := ⟨viewStat v, 1, 1⟩
def viewStatAged (v : Nat) : Field := ⟨viewStat v, 2, 1⟩
def viewStatValid (v : Nat) : Field := ⟨viewStat v, 3, 1⟩
def evtEvCfgMode (n : Nat) : Field := ⟨evtEvCfg n, 0, 2⟩
def evtEvCfgDomain (n : Nat) : Field := ⟨evtEvCfg n, 2, 2⟩
def evtEvCfgPol (n : Nat) : Field := ⟨evtEvCfg n, 4, 1⟩
def evtEvCfgAlign (n : Nat) : Field := ⟨evtEvCfg n, 5, 1⟩
def evtEvCfgWaitLock (n : Nat) : Field := ⟨evtEvCfg n, 6, 1⟩
def evtEvCtrlArm (n : Nat) : Field := ⟨evtEvCtrl n, 0, 1⟩
def evtEvCtrlDisarm (n : Nat) : Field := ⟨evtEvCtrl n, 1, 1⟩
def evtEvTgtNsHiNs (n : Nat) : Field := ⟨evtEvTgtNsHi n, 0, 8⟩
def evtEvTgtNsHiFrac (n : Nat) : Field := ⟨evtEvTgtNsHi n, 16, 16⟩
def evtEvStatArmed (n : Nat) : Field := ⟨evtEvStat n, 0, 1⟩
def evtEvStatWaiting (n : Nat) : Field := ⟨evtEvStat n, 1, 1⟩
def evtEvStatLate (n : Nat) : Field := ⟨evtEvStat n, 2, 1⟩
def evtEvStatDone (n : Nat) : Field := ⟨evtEvStat n, 3, 1⟩
def evtEvStatMissed (n : Nat) : Field := ⟨evtEvStat n, 16, 16⟩
def evtEcCfgSrc (n : Nat) : Field := ⟨evtEcCfg n, 0, 4⟩
def evtEcCfgEdge (n : Nat) : Field := ⟨evtEcCfg n, 4, 2⟩
def evtEcCfgEn (n : Nat) : Field := ⟨evtEcCfg n, 6, 1⟩
def evtEcCtrlSw (n : Nat) : Field := ⟨evtEcCtrl n, 0, 1⟩
def evtEcStatCount (n : Nat) : Field := ⟨evtEcStat n, 0, 3⟩
def evtEcStatOvf (n : Nat) : Field := ⟨evtEcStat n, 3, 1⟩
def evtEcStatMissed (n : Nat) : Field := ⟨evtEcStat n, 16, 16⟩
def evtEcRecFlagsRising (n : Nat) : Field := ⟨evtEcRecFlags n, 0, 1⟩
def evtEcRecFlagsSw (n : Nat) : Field := ⟨evtEcRecFlags n, 1, 1⟩
def evtEcFrcHiStamp (n : Nat) : Field := ⟨evtEcFrcHi n, 0, 21⟩
def evtEcH0FracFrac (n : Nat) : Field := ⟨evtEcH0Frac n, 0, 16⟩
def evtEcH1FracFrac (n : Nat) : Field := ⟨evtEcH1Frac n, 0, 16⟩
def evtEcHaFracFrac (n : Nat) : Field := ⟨evtEcHaFrac n, 0, 16⟩
def treadCtrlSrc (g : Nat) : Field := ⟨treadCtrl g, 0, 2⟩
def treadCtrlLimEn (g : Nat) : Field := ⟨treadCtrl g, 2, 1⟩
def treadCtrlRun (g : Nat) : Field := ⟨treadCtrl g, 8, 1⟩
def treadCtrlStopTable (g : Nat) : Field := ⟨treadCtrl g, 9, 1⟩
def treadCtrlReacquire (g : Nat) : Field := ⟨treadCtrl g, 10, 1⟩
def treadCtrlAccClr (g : Nat) : Field := ⟨treadCtrl g, 11, 1⟩
def treadRefValid (g : Nat) : Field := ⟨treadRef g, 0, 1⟩
def treadQualStableMs (g : Nat) : Field := ⟨treadQual g, 0, 16⟩
def treadQualDropMs (g : Nat) : Field := ⟨treadQual g, 16, 16⟩
def treadChatterMax (g : Nat) : Field := ⟨treadChatter g, 0, 8⟩
def treadChatterWinMs (g : Nat) : Field := ⟨treadChatter g, 16, 16⟩
def treadTimeoutMs (g : Nat) : Field := ⟨treadTimeout g, 0, 16⟩
def treadTimeoutFilt (g : Nat) : Field := ⟨treadTimeout g, 16, 4⟩
def treadFreqLockTolPpb (g : Nat) : Field := ⟨treadFreqLock g, 0, 16⟩
def treadFreqLockCount (g : Nat) : Field := ⟨treadFreqLock g, 16, 8⟩
def treadPhaseLockTolNs (g : Nat) : Field := ⟨treadPhaseLock g, 0, 16⟩
def treadPhaseLockCount (g : Nat) : Field := ⟨treadPhaseLock g, 16, 8⟩
def treadUnlockTolNs (g : Nat) : Field := ⟨treadUnlock g, 0, 16⟩
def treadUnlockCount (g : Nat) : Field := ⟨treadUnlock g, 16, 8⟩
def treadSlewRatePpbS (g : Nat) : Field := ⟨treadSlew g, 0, 14⟩
def treadSlewFmaxPpb (g : Nat) : Field := ⟨treadSlew g, 14, 18⟩
def treadConvBandPpb (g : Nat) : Field := ⟨treadConvBand g, 0, 18⟩
def treadStatStage (g : Nat) : Field := ⟨treadStat g, 0, 3⟩
def treadStatLockedOnce (g : Nat) : Field := ⟨treadStat g, 3, 1⟩
def treadStatTimeConverging (g : Nat) : Field := ⟨treadStat g, 4, 1⟩
def treadStatRefOk (g : Nat) : Field := ⟨treadStat g, 5, 1⟩
def treadStatAcqAbort (g : Nat) : Field := ⟨treadStat g, 6, 1⟩
def treadStatRefChatter (g : Nat) : Field := ⟨treadStat g, 7, 1⟩
def treadStatSeekBlocked (g : Nat) : Field := ⟨treadStat g, 8, 1⟩
def treadStatAtLim (g : Nat) : Field := ⟨treadStat g, 9, 1⟩
def treadStatTableRun (g : Nat) : Field := ⟨treadStat g, 10, 1⟩
def treadStatSlewing (g : Nat) : Field := ⟨treadStat g, 11, 1⟩
def treadStatStepsBarred (g : Nat) : Field := ⟨treadStat g, 12, 1⟩
def treadStatSeg (g : Nat) : Field := ⟨treadStat g, 16, 6⟩
def treadPhaseErrHiErr (g : Nat) : Field := ⟨treadPhaseErrHi g, 0, 16⟩
def treadFollowActive (g : Nat) : Field := ⟨treadFollow g, 0, 1⟩
def treadFollowAuto (g : Nat) : Field := ⟨treadFollow g, 1, 1⟩
def treadFollowRevertive (g : Nat) : Field := ⟨treadFollow g, 2, 1⟩
def treadFollowPrefer (g : Nat) : Field := ⟨treadFollow g, 3, 1⟩
def treadFollowSwitchDelayMs (g : Nat) : Field := ⟨treadFollow g, 16, 16⟩
def ptpaCfgL2 : Field := ⟨ptpaCfg, 0, 1⟩
def ptpaCfgUdp4 : Field := ⟨ptpaCfg, 1, 1⟩
def ptpaCfgUdp6 : Field := ⟨ptpaCfg, 2, 1⟩
def ptpaDomainMapDomain (i : Nat) : Field := ⟨ptpaDomainMap i, 0, 8⟩
def ptpaDomainMapSdo (i : Nat) : Field := ⟨ptpaDomainMap i, 8, 4⟩
def ptpaDomainMapSdoCare (i : Nat) : Field := ⟨ptpaDomainMap i, 12, 1⟩
def ptpaDomainMapTd (i : Nat) : Field := ⟨ptpaDomainMap i, 13, 2⟩
def ptpaDomainMapRole (i : Nat) : Field := ⟨ptpaDomainMap i, 15, 2⟩
def ptpaDomainMapValid (i : Nat) : Field := ⟨ptpaDomainMap i, 31, 1⟩
def ptpaPortCfgOneStepSync (n : Nat) : Field := ⟨ptpaPortCfg n, 0, 1⟩
def ptpaPortCfgOneStepPdelay (n : Nat) : Field := ⟨ptpaPortCfg n, 1, 1⟩
def ptpaPortCfgTcEn (n : Nat) : Field := ⟨ptpaPortCfg n, 2, 1⟩
def ptpaPortCfgParseEn (n : Nat) : Field := ⟨ptpaPortCfg n, 3, 1⟩
def peImageVerVer (n : Nat) : Field := ⟨peImageVer n, 0, 16⟩
def peStatusPc (n : Nat) : Field := ⟨peStatus n, 0, 13⟩
def peStatusIbank (n : Nat) : Field := ⟨peStatus n, 13, 3⟩
def peStatusRunning (n : Nat) : Field := ⟨peStatus n, 16, 1⟩
def peStatusHalted (n : Nat) : Field := ⟨peStatus n, 17, 1⟩
def peStatusResumed (n : Nat) : Field := ⟨peStatus n, 18, 1⟩
def peServeServes (n : Nat) : Field := ⟨peServe n, 0, 5⟩
def peServeServedBy (n : Nat) : Field := ⟨peServe n, 8, 5⟩
def peWdogUs (n : Nat) : Field := ⟨peWdog n, 0, 20⟩
def peTrapFatalMask (n : Nat) : Field := ⟨peTrapFatal n, 0, 16⟩
def peTrapInfoCause (n : Nat) : Field := ⟨peTrapInfo n, 0, 8⟩
def peTrapInfoPc (n : Nat) : Field := ⟨peTrapInfo n, 16, 13⟩
def peCkptStatValid (n : Nat) : Field := ⟨peCkptStat n, 0, 1⟩
def peCkptStatBusy (n : Nat) : Field := ⟨peCkptStat n, 1, 1⟩
def peCkptStatHalf (n : Nat) : Field := ⟨peCkptStat n, 2, 1⟩
def peCkptRangeStartAddr (n r : Nat) : Field := ⟨peCkptRangeStart n r, 0, 16⟩
def peCkptRangeLenBytes (n r : Nat) : Field := ⟨peCkptRangeLen n r, 0, 17⟩
def fabSpareMaskMask : Field := ⟨fabSpareMask, 0, 18⟩
def fabIdleSparesMask : Field := ⟨fabIdleSpares, 0, 18⟩
def fabCkptBaseBank : Field := ⟨fabCkptBase, 0, 8⟩
def fabTkoCountCount : Field := ⟨fabTkoCount, 0, 16⟩
def fabTkoLastFailed : Field := ⟨fabTkoLast, 0, 5⟩
def fabTkoLastSpare : Field := ⟨fabTkoLast, 8, 5⟩
def fabTkoLastCold : Field := ⟨fabTkoLast, 13, 1⟩
def fabTkoLastCause : Field := ⟨fabTkoLast, 16, 4⟩
def fabBindRx0Kind (e : Nat) : Field := ⟨fabBind e, 0, 2⟩
def fabBindRx0Arg (e : Nat) : Field := ⟨fabBind e, 2, 5⟩
def fabBindRx1Kind (e : Nat) : Field := ⟨fabBind e, 8, 2⟩
def fabBindRx1Arg (e : Nat) : Field := ⟨fabBind e, 10, 5⟩
def fabBindTx0Kind (e : Nat) : Field := ⟨fabBind e, 16, 2⟩
def fabBindTx0Arg (e : Nat) : Field := ⟨fabBind e, 18, 5⟩
def fabBindTx1Kind (e : Nat) : Field := ⟨fabBind e, 24, 2⟩
def fabBindTx1Arg (e : Nat) : Field := ⟨fabBind e, 26, 5⟩
def fabLaneCfgEn (k : Nat) : Field := ⟨fabLaneCfg k, 0, 1⟩
def fabLaneCfgDst (k : Nat) : Field := ⟨fabLaneCfg k, 1, 5⟩
def fabLaneCfgEngine (k : Nat) : Field := ⟨fabLaneCfg k, 6, 5⟩
def fabLaneCfgStream (k : Nat) : Field := ⟨fabLaneCfg k, 11, 1⟩
def fabLaneCfgBypass (k : Nat) : Field := ⟨fabLaneCfg k, 12, 1⟩
def fabLaneCfgTap (k : Nat) : Field := ⟨fabLaneCfg k, 13, 1⟩
def fabLaneHoldE (k : Nat) : Field := ⟨fabLaneHold k, 0, 12⟩
def fabLaneStatActive (k : Nat) : Field := ⟨fabLaneStat k, 0, 1⟩
def fabLaneStatInBypass (k : Nat) : Field := ⟨fabLaneStat k, 1, 1⟩
def fabLaneStatRateMismatch (k : Nat) : Field := ⟨fabLaneStat k, 2, 1⟩
def fabLaneStatOcc (k : Nat) : Field := ⟨fabLaneStat k, 16, 14⟩
def fabWarmVerVer (e : Nat) : Field := ⟨fabWarmVer e, 0, 16⟩
def dduCfgAgeEn : Field := ⟨dduCfg, 0, 1⟩
def dduForgetMsMs : Field := ⟨dduForgetMs, 0, 16⟩
def dduUsedEntries : Field := ⟨dduUsed, 0, 15⟩
def dduFlushGo : Field := ⟨dduFlush, 0, 1⟩
def dduFlushGroup : Field := ⟨dduFlush, 4, 4⟩
def dduFlushAll : Field := ⟨dduFlush, 8, 1⟩
def dduFlushBusy : Field := ⟨dduFlush, 16, 1⟩
def dduGroupGroup (e : Nat) : Field := ⟨dduGroup e, 0, 4⟩
def shankLaneStatAct0 : Field := ⟨shankLaneStat, 0, 2⟩
def shankLaneStatAct1 : Field := ⟨shankLaneStat, 2, 2⟩
def shankLaneStatSpare : Field := ⟨shankLaneStat, 4, 2⟩
def shankLaneStatSpareOk : Field := ⟨shankLaneStat, 6, 1⟩
def shankLaneStatSingle : Field := ⟨shankLaneStat, 7, 1⟩
def shankLaneStatFailed : Field := ⟨shankLaneStat, 8, 3⟩
def shankLaneStatTesting : Field := ⟨shankLaneStat, 11, 1⟩
def shankLaneTestGo : Field := ⟨shankLaneTest, 0, 1⟩
def shankLoadBusy : Field := ⟨shankLoad, 0, 16⟩
def shankSwapsCount : Field := ⟨shankSwaps, 0, 16⟩
def shankGroupCfgMembers (g : Nat) : Field := ⟨shankGroupCfg g, 0, 16⟩
def shankGroupCfgEn (g : Nat) : Field := ⟨shankGroupCfg g, 31, 1⟩
def shankGroupStatWinner (g : Nat) : Field := ⟨shankGroupStat g, 0, 6⟩
def shankGroupStatValid (g : Nat) : Field := ⟨shankGroupStat g, 8, 1⟩
def shchSelChan (w : Nat) : Field := ⟨shchSel w, 0, 6⟩
def shchCfgMode (c : Nat) : Field := ⟨shchCfg c, 0, 2⟩
def shchCfgSet (c : Nat) : Field := ⟨shchCfg c, 2, 1⟩
def shchCfgReverse (c : Nat) : Field := ⟨shchCfg c, 3, 1⟩
def shchCfgDOnPv (c : Nat) : Field := ⟨shchCfg c, 4, 1⟩
def shchCfgManTrack (c : Nat) : Field := ⟨shchCfg c, 5, 1⟩
def shchCfgQualChk (c : Nat) : Field := ⟨shchCfg c, 6, 1⟩
def shchCfgTestOk (c : Nat) : Field := ⟨shchCfg c, 7, 1⟩
def shchCfgNbq (c : Nat) : Field := ⟨shchCfg c, 8, 3⟩
def shchCfgPrio (c : Nat) : Field := ⟨shchCfg c, 12, 2⟩
def shchTrigKind (c : Nat) : Field := ⟨shchTrig c, 0, 3⟩
def shchTrigArgA (c : Nat) : Field := ⟨shchTrig c, 8, 8⟩
def shchTrigArgB (c : Nat) : Field := ⟨shchTrig c, 16, 16⟩
def shchInPvKind (c : Nat) : Field := ⟨shchInPv c, 0, 2⟩
def shchInPvWport (c : Nat) : Field := ⟨shchInPv c, 2, 1⟩
def shchInPvWchan (c : Nat) : Field := ⟨shchInPv c, 3, 1⟩
def shchInPvHi32 (c : Nat) : Field := ⟨shchInPv c, 4, 1⟩
def shchInPvScale (c : Nat) : Field := ⟨shchInPv c, 8, 8⟩
def shchInPvArg (c : Nat) : Field := ⟨shchInPv c, 16, 9⟩
def shchInPvWord (c : Nat) : Field := ⟨shchInPv c, 25, 7⟩
def shchInSpKind (c : Nat) : Field := ⟨shchInSp c, 0, 2⟩
def shchInSpWport (c : Nat) : Field := ⟨shchInSp c, 2, 1⟩
def shchInSpWchan (c : Nat) : Field := ⟨shchInSp c, 3, 1⟩
def shchInSpHi32 (c : Nat) : Field := ⟨shchInSp c, 4, 1⟩
def shchInSpScale (c : Nat) : Field := ⟨shchInSp c, 8, 8⟩
def shchInSpArg (c : Nat) : Field := ⟨shchInSp c, 16, 9⟩
def shchInSpWord (c : Nat) : Field := ⟨shchInSp c, 25, 7⟩
def shchInFfKind (c : Nat) : Field := ⟨shchInFf c, 0, 2⟩
def shchInFfWport (c : Nat) : Field := ⟨shchInFf c, 2, 1⟩
def shchInFfWchan (c : Nat) : Field := ⟨shchInFf c, 3, 1⟩
def shchInFfHi32 (c : Nat) : Field := ⟨shchInFf c, 4, 1⟩
def shchInFfScale (c : Nat) : Field := ⟨shchInFf c, 8, 8⟩
def shchInFfArg (c : Nat) : Field := ⟨shchInFf c, 16, 9⟩
def shchInFfWord (c : Nat) : Field := ⟨shchInFf c, 25, 7⟩
def shchOutDestKind (c : Nat) : Field := ⟨shchOutDest c, 0, 3⟩
def shchOutDestWport (c : Nat) : Field := ⟨shchOutDest c, 3, 1⟩
def shchOutDestWchan (c : Nat) : Field := ⟨shchOutDest c, 4, 1⟩
def shchOutDestHi32 (c : Nat) : Field := ⟨shchOutDest c, 5, 1⟩
def shchOutDestScale (c : Nat) : Field := ⟨shchOutDest c, 8, 8⟩
def shchOutDestArg (c : Nat) : Field := ⟨shchOutDest c, 16, 9⟩
def shchOutDestWord (c : Nat) : Field := ⟨shchOutDest c, 25, 7⟩
def shchOutDbDb (c : Nat) : Field := ⟨shchOutDb c, 0, 6⟩
def shchOutDbBit (c : Nat) : Field := ⟨shchOutDb c, 8, 5⟩
def shchOutDbEn (c : Nat) : Field := ⟨shchOutDb c, 15, 1⟩
def shchStatLost (c : Nat) : Field := ⟨shchStat c, 0, 1⟩
def shchStatAged (c : Nat) : Field := ⟨shchStat c, 1, 1⟩
def shchStatSrc (c : Nat) : Field := ⟨shchStat c, 2, 1⟩
def shchStatQual (c : Nat) : Field := ⟨shchStat c, 3, 1⟩
def shchStatFrozen (c : Nat) : Field := ⟨shchStat c, 4, 1⟩
def shchStatAtOmin (c : Nat) : Field := ⟨shchStat c, 5, 1⟩
def shchStatAtOmax (c : Nat) : Field := ⟨shchStat c, 6, 1⟩
def shchStatAtImin (c : Nat) : Field := ⟨shchStat c, 7, 1⟩
def shchStatAtImax (c : Nat) : Field := ⟨shchStat c, 8, 1⟩
def shchStatSwapPend (c : Nat) : Field := ⟨shchStat c, 9, 1⟩
def shchStatCoefSwapClamped (c : Nat) : Field := ⟨shchStat c, 10, 1⟩
def shchStatPresetClamped (c : Nat) : Field := ⟨shchStat c, 11, 1⟩
def shchStatNumOvf (c : Nat) : Field := ⟨shchStat c, 12, 1⟩
def shchStatWinning (c : Nat) : Field := ⟨shchStat c, 13, 1⟩
def shchStatTracking (c : Nat) : Field := ⟨shchStat c, 14, 1⟩
def shchAgeUsUs (c : Nat) : Field := ⟨shchAgeUs c, 0, 16⟩
def shchIHiM (c : Nat) : Field := ⟨shchIHi c, 0, 8⟩
def shchIHiX (c : Nat) : Field := ⟨shchIHi c, 24, 8⟩
def shchExpInput (c : Nat) : Field := ⟨shchExp c, 0, 8⟩
def shchExpError (c : Nat) : Field := ⟨shchExp c, 8, 8⟩
def shchExpP (c : Nat) : Field := ⟨shchExp c, 16, 8⟩
def shchExpD (c : Nat) : Field := ⟨shchExp c, 24, 8⟩
def shchExp2Sum (c : Nat) : Field := ⟨shchExp2 c, 0, 8⟩
def shchExp2Output (c : Nat) : Field := ⟨shchExp2 c, 8, 8⟩
def shchPostQualSrcAge (w : Nat) : Field := ⟨shchPostQual w, 0, 6⟩
def shchPostQualTest (w : Nat) : Field := ⟨shchPostQual w, 6, 1⟩
def shchPostQualInvalid (w : Nat) : Field := ⟨shchPostQual w, 7, 1⟩
def shchLossMaxAgeUs (c b : Nat) : Field := ⟨shchLoss c b, 0, 16⟩
def shchLossSrcAgeMax (c b : Nat) : Field := ⟨shchLoss c b, 16, 6⟩
def shchLossAct (c b : Nat) : Field := ⟨shchLoss c b, 22, 2⟩
def shchLossRecoverN (c b : Nat) : Field := ⟨shchLoss c b, 24, 4⟩
def shchLossFreezeN (c b : Nat) : Field := ⟨shchLoss c b, 28, 4⟩
def weltCfgRole (n : Nat) : Field := ⟨weltCfg n, 0, 1⟩
def weltCfgRate (n : Nat) : Field := ⟨weltCfg n, 1, 1⟩
def weltCfgCsCapable (n : Nat) : Field := ⟨weltCfg n, 2, 1⟩
def weltCfgAnchor (n : Nat) : Field := ⟨weltCfg n, 3, 1⟩
def weltCfgNodeId (n : Nat) : Field := ⟨weltCfg n, 8, 8⟩
def weltCfgFirstHub (n : Nat) : Field := ⟨weltCfg n, 16, 8⟩
def weltUpLaneA (n : Nat) : Field := ⟨weltUp n, 0, 5⟩
def weltUpAEn (n : Nat) : Field := ⟨weltUp n, 7, 1⟩
def weltUpLaneB (n : Nat) : Field := ⟨weltUp n, 8, 5⟩
def weltUpBEn (n : Nat) : Field := ⟨weltUp n, 15, 1⟩
def weltDownAMask (n : Nat) : Field := ⟨weltDownA n, 0, 24⟩
def weltDownBMask (n : Nat) : Field := ⟨weltDownB n, 0, 24⟩
def weltCycleNsNs (n : Nat) : Field := ⟨weltCycleNs n, 0, 20⟩
def weltPiNs (n : Nat) : Field := ⟨weltPi n, 0, 8⟩
def weltUpDelayNs (n : Nat) : Field := ⟨weltUpDelay n, 0, 16⟩
def weltLimitsAgeMax (n : Nat) : Field := ⟨weltLimits n, 0, 8⟩
def weltLimitsEdgeMax (n : Nat) : Field := ⟨weltLimits n, 8, 8⟩
def weltLimitsCorrMax (n : Nat) : Field := ⟨weltLimits n, 16, 8⟩
def weltRateMaxPpb (n : Nat) : Field := ⟨weltRateMax n, 0, 18⟩
def weltTimersListenTo (n : Nat) : Field := ⟨weltTimers n, 0, 8⟩
def weltTimersSyncLossMax (n : Nat) : Field := ⟨weltTimers n, 8, 8⟩
def weltTimersPassiveHold (n : Nat) : Field := ⟨weltTimers n, 16, 8⟩
def weltTimersCsHold (n : Nat) : Field := ⟨weltTimers n, 24, 8⟩
def weltCsWinNs (n : Nat) : Field := ⟨weltCsWin n, 0, 20⟩
def weltAnchorCfgOfs (n : Nat) : Field := ⟨weltAnchorCfg n, 0, 20⟩
def weltAnchorCfgStep (n : Nat) : Field := ⟨weltAnchorCfg n, 20, 8⟩
def weltNotifyDb (n : Nat) : Field := ⟨weltNotify n, 0, 6⟩
def weltNotifyBit (n : Nat) : Field := ⟨weltNotify n, 8, 5⟩
def weltNotifyEn (n : Nat) : Field := ⟨weltNotify n, 15, 1⟩
def weltBufFirst (n : Nat) : Field := ⟨weltBuf n, 0, 8⟩
def weltStateNode (n : Nat) : Field := ⟨weltState n, 0, 3⟩
def weltStateHubA (n : Nat) : Field := ⟨weltState n, 4, 2⟩
def weltStateHubB (n : Nat) : Field := ⟨weltState n, 6, 2⟩
def weltStateAlone (n : Nat) : Field := ⟨weltState n, 8, 1⟩
def weltStateFtmDegraded (n : Nat) : Field := ⟨weltState n, 9, 1⟩
def weltStateIsolating (n : Nat) : Field := ⟨weltState n, 10, 1⟩
def weltStateHop (n : Nat) : Field := ⟨weltState n, 16, 8⟩
def weltPosNs (n : Nat) : Field := ⟨weltPos n, 0, 20⟩
def weltCorrC (n : Nat) : Field := ⟨weltCorr n, 0, 16⟩
def weltEdgeCntCount (n : Nat) : Field := ⟨weltEdgeCnt n, 0, 8⟩
def weltPublishBuffer (n : Nat) : Field := ⟨weltPublish n, 0, 9⟩
def weltPublishHalf (n : Nat) : Field := ⟨weltPublish n, 12, 1⟩
def weltAgeAge0 (n k : Nat) : Field := ⟨weltAge n k, 0, 8⟩
def weltAgeAge1 (n k : Nat) : Field := ⟨weltAge n k, 8, 8⟩
def weltAgeAge2 (n k : Nat) : Field := ⟨weltAge n k, 16, 8⟩
def weltAgeAge3 (n k : Nat) : Field := ⟨weltAge n k, 24, 8⟩
def weltNodeMapDelay (n o : Nat) : Field := ⟨weltNodeMap n o, 0, 16⟩
def weltNodeMapLaneA (n o : Nat) : Field := ⟨weltNodeMap n o, 16, 5⟩
def weltNodeMapABelow (n o : Nat) : Field := ⟨weltNodeMap n o, 21, 1⟩
def weltNodeMapLaneB (n o : Nat) : Field := ⟨weltNodeMap n o, 24, 5⟩
def weltNodeMapBBelow (n o : Nat) : Field := ⟨weltNodeMap n o, 29, 1⟩
def patApplyGo (n : Nat) : Field := ⟨patApply n, 0, 1⟩
def patApplyPending (n : Nat) : Field := ⟨patApply n, 8, 1⟩
def patApplyRefused (n : Nat) : Field := ⟨patApply n, 9, 1⟩
def patCheckEntry (n : Nat) : Field := ⟨patCheck n, 0, 9⟩
def patCheckChannel (n : Nat) : Field := ⟨patCheck n, 9, 1⟩
def patCheckRule (n : Nat) : Field := ⟨patCheck n, 12, 3⟩
def patViewSelChannel (n : Nat) : Field := ⟨patViewSel n, 0, 1⟩
def eyeClkdivDiv (n : Nat) : Field := ⟨eyeClkdiv n, 0, 16⟩
def eyeCfgStartState (n : Nat) : Field := ⟨eyeCfg n, 0, 5⟩
def eyeCfgRun (n : Nat) : Field := ⟨eyeCfg n, 8, 1⟩
def eyeCfgMsbFirst (n : Nat) : Field := ⟨eyeCfg n, 9, 1⟩
def eyeCfgDefaultOut (n : Nat) : Field := ⟨eyeCfg n, 12, 4⟩
def eyeCfgRxLen (n : Nat) : Field := ⟨eyeCfg n, 16, 6⟩
def eyeCfgTxLen (n : Nat) : Field := ⟨eyeCfg n, 24, 6⟩
def eyeCircuitFirst (n : Nat) : Field := ⟨eyeCircuit n, 0, 5⟩
def eyeCircuitLast (n : Nat) : Field := ⟨eyeCircuit n, 8, 5⟩
def eyeCircuitPending (n : Nat) : Field := ⟨eyeCircuit n, 16, 1⟩
def eyeInBasePin (n : Nat) : Field := ⟨eyeInBase n, 0, 6⟩
def eyeCountInitCnt0Init (n : Nat) : Field := ⟨eyeCountInit n, 0, 16⟩
def eyeCountInitCnt1Init (n : Nat) : Field := ⟨eyeCountInit n, 16, 16⟩
def eyeSinkWcap (n : Nat) : Field := ⟨eyeSink n, 0, 1⟩
def eyeIrqDbDb (n : Nat) : Field := ⟨eyeIrqDb n, 0, 6⟩
def eyeIrqDbBit (n : Nat) : Field := ⟨eyeIrqDb n, 8, 5⟩
def eyeIrqDbEn (n : Nat) : Field := ⟨eyeIrqDb n, 15, 1⟩
def eyeDbInDb (n k : Nat) : Field := ⟨eyeDbIn n k, 0, 6⟩
def eyeDbInBit (n k : Nat) : Field := ⟨eyeDbIn n k, 8, 5⟩
def eyeDbInEn (n k : Nat) : Field := ⟨eyeDbIn n k, 15, 1⟩
def eyeStatusState (n : Nat) : Field := ⟨eyeStatus n, 0, 5⟩
def eyeStatusStalled (n : Nat) : Field := ⟨eyeStatus n, 5, 1⟩
def eyeStatusOncePending (n : Nat) : Field := ⟨eyeStatus n, 6, 1⟩
def eyeStatusRunning (n : Nat) : Field := ⟨eyeStatus n, 7, 1⟩
def eyeStatusOut (n : Nat) : Field := ⟨eyeStatus n, 8, 4⟩
def eyeStatusRxn (n : Nat) : Field := ⟨eyeStatus n, 12, 6⟩
def eyeStatusTxn (n : Nat) : Field := ⟨eyeStatus n, 18, 6⟩
def eyeStatusStallAct (n : Nat) : Field := ⟨eyeStatus n, 24, 3⟩
def eyeStatusRxhFull (n : Nat) : Field := ⟨eyeStatus n, 27, 1⟩
def eyeStatusTxhFull (n : Nat) : Field := ⟨eyeStatus n, 28, 1⟩
def eyeCountersCnt0 (n : Nat) : Field := ⟨eyeCounters n, 0, 16⟩
def eyeCountersCnt1 (n : Nat) : Field := ⟨eyeCounters n, 16, 16⟩
def eyeFifoLvlInWords (n : Nat) : Field := ⟨eyeFifoLvl n, 0, 5⟩
def eyeFifoLvlOutWords (n : Nat) : Field := ⟨eyeFifoLvl n, 8, 5⟩
def eyeStampLoFine (n : Nat) : Field := ⟨eyeStampLo n, 0, 5⟩
def eyeStampLoFrcLo (n : Nat) : Field := ⟨eyeStampLo n, 5, 27⟩
def eyeStampHiFrcHi (n : Nat) : Field := ⟨eyeStampHi n, 0, 21⟩
def eyeStampStatCount (n : Nat) : Field := ⟨eyeStampStat n, 0, 3⟩
def eyeStampStatOvf (n : Nat) : Field := ⟨eyeStampStat n, 3, 1⟩
def eyeRowCommitState (n : Nat) : Field := ⟨eyeRowCommit n, 0, 5⟩
def eyeRowSelSel (n s : Nat) : Field := ⟨eyeRowSel n s, 0, 16⟩
def eyepStartMask : Field := ⟨eyepStart, 0, 16⟩
def eyepStartRestart : Field := ⟨eyepStart, 16, 1⟩
def eyepBootSyncMask : Field := ⟨eyepBootSync, 0, 16⟩
def eyepBankVolt (b : Nat) : Field := ⟨eyepBank b, 0, 1⟩
def eyepPinOutSrc (p : Nat) : Field := ⟨eyepPin p, 0, 7⟩
def eyepPinOutInv (p : Nat) : Field := ⟨eyepPin p, 7, 1⟩
def eyepPinOeMode (p : Nat) : Field := ⟨eyepPin p, 8, 2⟩
def eyepPinOeSrc (p : Nat) : Field := ⟨eyepPin p, 10, 6⟩
def eyepPinInInv (p : Nat) : Field := ⟨eyepPin p, 16, 1⟩
def eyepPinPull (p : Nat) : Field := ⟨eyepPin p, 17, 2⟩
def eyepPinDrive (p : Nat) : Field := ⟨eyepPin p, 19, 2⟩
def eyepPinSlow (p : Nat) : Field := ⟨eyepPin p, 21, 1⟩
def wcapCfgWidth : Field := ⟨wcapCfg, 0, 2⟩
def wcapCfgFull : Field := ⟨wcapCfg, 2, 1⟩
def wcapCfgExtend : Field := ⟨wcapCfg, 3, 1⟩
def wcapCfgEv : Field := ⟨wcapCfg, 4, 3⟩
def wcapCfgLagMax : Field := ⟨wcapCfg, 8, 4⟩
def wcapCfgTrigMask : Field := ⟨wcapCfg, 16, 8⟩
def wcapBufFirst : Field := ⟨wcapBuf, 0, 8⟩
def wcapBufCount : Field := ⟨wcapBuf, 8, 8⟩
def wcapCapacityFrames : Field := ⟨wcapCapacity, 0, 26⟩
def wcapPreFrames : Field := ⟨wcapPre, 0, 26⟩
def wcapPostFrames : Field := ⟨wcapPost, 0, 26⟩
def wcapTrigSw : Field := ⟨wcapTrig, 0, 1⟩
def wcapTrigDb : Field := ⟨wcapTrig, 8, 6⟩
def wcapTrigBit : Field := ⟨wcapTrig, 16, 5⟩
def wcapTrigEn : Field := ⟨wcapTrig, 23, 1⟩
def wcapReportEngMailbox : Field := ⟨wcapReportEng, 0, 6⟩
def wcapReportEngSide : Field := ⟨wcapReportEng, 6, 1⟩
def wcapReportEngEn : Field := ⟨wcapReportEng, 7, 1⟩
def wcapReportHostMailbox : Field := ⟨wcapReportHost, 0, 6⟩
def wcapReportHostSide : Field := ⟨wcapReportHost, 6, 1⟩
def wcapReportHostEn : Field := ⟨wcapReportHost, 7, 1⟩
def wcapStatCapturing : Field := ⟨wcapStat, 0, 1⟩
def wcapStatPaused : Field := ⟨wcapStat, 1, 1⟩
def wcapStatExportBusy : Field := ⟨wcapStat, 2, 1⟩
def wcapStatNext : Field := ⟨wcapStat, 8, 6⟩
def wcapStatHeld : Field := ⟨wcapStat, 16, 7⟩
def wcapStatReports : Field := ⟨wcapStat, 24, 5⟩
def wcapReleaseRecord : Field := ⟨wcapRelease, 0, 6⟩
def wcapReleaseAll : Field := ⟨wcapRelease, 8, 1⟩
def wcapExportRecRecord : Field := ⟨wcapExportRec, 0, 6⟩
def wcapExportCtrlGo : Field := ⟨wcapExportCtrl, 0, 1⟩
def wcapExportCtrlBusy : Field := ⟨wcapExportCtrl, 8, 1⟩
def wcapExportCtrlResult : Field := ⟨wcapExportCtrl, 9, 3⟩
def wcapChCfgEn (c : Nat) : Field := ⟨wcapChCfg c, 0, 1⟩
def wcapChCfgSrc (c : Nat) : Field := ⟨wcapChCfg c, 1, 4⟩
def wcapChCfgOffsetBin (c : Nat) : Field := ⟨wcapChCfg c, 8, 1⟩
def wcapChCfgDetEn (c : Nat) : Field := ⟨wcapChCfg c, 9, 1⟩
def wcapChKK (c : Nat) : Field := ⟨wcapChK c, 0, 5⟩
def wcapChThreshThresh (c : Nat) : Field := ⟨wcapChThresh c, 0, 17⟩
def wcapChHoldoffIndices (c : Nat) : Field := ⟨wcapChHoldoff c, 0, 24⟩
def wcapChStatFired (c : Nat) : Field := ⟨wcapChStat c, 0, 1⟩
def wcapChStatGap (c : Nat) : Field := ⟨wcapChStat c, 1, 1⟩
def wcapChStatSrcCfg (c : Nat) : Field := ⟨wcapChStat c, 2, 1⟩
def wcapChSlipsGaps (c : Nat) : Field := ⟨wcapChSlips c, 0, 16⟩
def wcapChSlipsExtra (c : Nat) : Field := ⟨wcapChSlips c, 16, 16⟩
def wcapRecTrigOfsFrames (r : Nat) : Field := ⟨wcapRecTrigOfs r, 0, 26⟩
def wcapRecLenFrames (r : Nat) : Field := ⟨wcapRecLen r, 0, 26⟩
def wcapRecInfoSrc (r : Nat) : Field := ⟨wcapRecInfo r, 0, 2⟩
def wcapRecInfoChannel (r : Nat) : Field := ⟨wcapRecInfo r, 4, 3⟩
def wcapRecInfoOpen (r : Nat) : Field := ⟨wcapRecInfo r, 8, 1⟩
def wcapRecInfoHeld (r : Nat) : Field := ⟨wcapRecInfo r, 9, 1⟩
def wcapRecInfoTruncated (r : Nat) : Field := ⟨wcapRecInfo r, 10, 1⟩
def wcapRecInfoGap (r : Nat) : Field := ⟨wcapRecInfo r, 11, 1⟩
def wcapRecInfoPausedIn (r : Nat) : Field := ⟨wcapRecInfo r, 12, 1⟩
def wcapRecInfoLost (r : Nat) : Field := ⟨wcapRecInfo r, 13, 1⟩
def wcapRecInfoTriggers (r : Nat) : Field := ⟨wcapRecInfo r, 16, 16⟩
def bankCfgScrubEn : Field := ⟨bankCfg, 0, 1⟩
def bankCfgScrubMs : Field := ⟨bankCfg, 16, 16⟩
def bankHandoverBank : Field := ⟨bankHandover, 0, 8⟩
def bankHandoverNext : Field := ⟨bankHandover, 8, 8⟩
def bankAcceptBank : Field := ⟨bankAccept, 0, 8⟩
def bankHoResultResult (w : Nat) : Field := ⟨bankHoResult w, 0, 4⟩
def bankHoResultBank (w : Nat) : Field := ⟨bankHoResult w, 8, 8⟩
def bankErrLogBank : Field := ⟨bankErrLog, 0, 8⟩
def bankErrLogWord : Field := ⟨bankErrLog, 8, 15⟩
def bankCollideLogBank : Field := ⟨bankCollideLog, 0, 8⟩
def bankCollideLogWord : Field := ⟨bankCollideLog, 8, 15⟩
def bankRetGroupGroups : Field := ⟨bankRetGroup, 0, 24⟩
def bankBankstOwner (n : Nat) : Field := ⟨bankBankst n, 0, 8⟩
def bankBankstNext (n : Nat) : Field := ⟨bankBankst n, 8, 8⟩
def bankBankstPending (n : Nat) : Field := ⟨bankBankst n, 16, 1⟩
def bankBankstFailed (n : Nat) : Field := ⟨bankBankst n, 17, 1⟩
def bankBankstScrubbing (n : Nat) : Field := ⟨bankBankst n, 18, 1⟩
def bankBankstAsleep (n : Nat) : Field := ⟨bankBankst n, 19, 1⟩
def bankBankstRetReq (n : Nat) : Field := ⟨bankBankst n, 20, 1⟩
def bankBankstScrubHo (n : Nat) : Field := ⟨bankBankst n, 21, 1⟩
def bankBankstFused (n : Nat) : Field := ⟨bankBankst n, 24, 4⟩
def bankBankstSoft (n : Nat) : Field := ⟨bankBankst n, 28, 4⟩
def bankEccCe (n : Nat) : Field := ⟨bankEcc n, 0, 16⟩
def bankEccUe (n : Nat) : Field := ⟨bankEcc n, 16, 16⟩
def laceCfgTestmode : Field := ⟨laceCfg, 0, 1⟩
def laceMwTimeUs : Field := ⟨laceMwTime, 0, 16⟩
def laceRouteKind (d : Nat) : Field := ⟨laceRoute d, 0, 3⟩
def laceRouteVec (d : Nat) : Field := ⟨laceRoute d, 8, 6⟩
def laceRouteEngine (d : Nat) : Field := ⟨laceRoute d, 16, 5⟩
def laceChCfgEndA (m : Nat) : Field := ⟨laceChCfg m, 0, 8⟩
def laceChCfgEndB (m : Nat) : Field := ⟨laceChCfg m, 8, 8⟩
def laceChCfgAck (m : Nat) : Field := ⟨laceChCfg m, 16, 1⟩
def laceChNoteADb (m : Nat) : Field := ⟨laceChNoteA m, 0, 6⟩
def laceChNoteABit (m : Nat) : Field := ⟨laceChNoteA m, 8, 5⟩
def laceChNoteAEn (m : Nat) : Field := ⟨laceChNoteA m, 15, 1⟩
def laceChNoteBDb (m : Nat) : Field := ⟨laceChNoteB m, 0, 6⟩
def laceChNoteBBit (m : Nat) : Field := ⟨laceChNoteB m, 8, 5⟩
def laceChNoteBEn (m : Nat) : Field := ⟨laceChNoteB m, 15, 1⟩
def laceChStatCount0 (m : Nat) : Field := ⟨laceChStat m, 0, 4⟩
def laceChStatCount1 (m : Nat) : Field := ⟨laceChStat m, 4, 4⟩
def laceChStatFull0 (m : Nat) : Field := ⟨laceChStat m, 8, 1⟩
def laceChStatFull1 (m : Nat) : Field := ⟨laceChStat m, 9, 1⟩
def laceChStatWait0 (m : Nat) : Field := ⟨laceChStat m, 10, 1⟩
def laceChStatWait1 (m : Nat) : Field := ⟨laceChStat m, 11, 1⟩
def laceChStatForced (m : Nat) : Field := ⟨laceChStat m, 12, 1⟩
def laceChStatEpochChg0 (m : Nat) : Field := ⟨laceChStat m, 13, 1⟩
def laceChStatEpochChg1 (m : Nat) : Field := ⟨laceChStat m, 14, 1⟩
def laceRxinfoInfo (w m d : Nat) : Field := ⟨laceRxinfo w m d, 0, 4⟩
def pcieCfgMaxSpeed : Field := ⟨pcieCfg, 0, 3⟩
def pcieCfgMaxWidth : Field := ⟨pcieCfg, 4, 3⟩
def pcieLinkSpeed : Field := ⟨pcieLink, 0, 3⟩
def pcieLinkWidth : Field := ⟨pcieLink, 4, 3⟩
def pcieBar2ErrCause : Field := ⟨pcieBar2Err, 0, 3⟩
def pciePerstCountCount : Field := ⟨pciePerstCount, 0, 16⟩
def pcieDmaCtrlEn (c : Nat) : Field := ⟨pcieDmaCtrl c, 0, 1⟩
def pcieDmaRingSizeEntries (c : Nat) : Field := ⟨pcieDmaRingSize c, 0, 13⟩
def pcieDmaTailIndex (c : Nat) : Field := ⟨pcieDmaTail c, 0, 12⟩
def pcieDmaHeadIndex (c : Nat) : Field := ⟨pcieDmaHead c, 0, 12⟩
def pcieDmaStatActive (c : Nat) : Field := ⟨pcieDmaStat c, 0, 1⟩
def pcieDmaStatHalted (c : Nat) : Field := ⟨pcieDmaStat c, 1, 1⟩
def pcieDmaStatResult (c : Nat) : Field := ⟨pcieDmaStat c, 4, 4⟩
def hostbCfgDummy : Field := ⟨hostbCfg, 0, 8⟩
def hostbLastStatusStatus : Field := ⟨hostbLastStatus, 0, 4⟩
def hostbLastStatusWord : Field := ⟨hostbLastStatus, 8, 6⟩
def supKeyPolicyRevoke : Field := ⟨supKeyPolicy, 0, 4⟩
def supKeyPolicyPersSlots : Field := ⟨supKeyPolicy, 4, 4⟩
def supKeyPolicyEyeSlots : Field := ⟨supKeyPolicy, 8, 4⟩
def supKeyPolicyFwSlots : Field := ⟨supKeyPolicy, 12, 4⟩
def supKeyPolicySvnAuto : Field := ⟨supKeyPolicy, 16, 1⟩
def supDebugEnDebug : Field := ⟨supDebugEn, 0, 1⟩
def supKeyStatFused : Field := ⟨supKeyStat, 0, 4⟩
def supKeyStatRevoked : Field := ⟨supKeyStat, 4, 4⟩
def supSvcCmdCode : Field := ⟨supSvcCmd, 0, 8⟩
def supSvcStatBusy : Field := ⟨supSvcStat, 0, 1⟩
def supSvcStatResult : Field := ⟨supSvcStat, 4, 4⟩
def supSvcStatCode : Field := ⟨supSvcStat, 8, 8⟩
def supRefuseInfoReason : Field := ⟨supRefuseInfo, 0, 4⟩
def supRefuseInfoVersion : Field := ⟨supRefuseInfo, 16, 16⟩
def supWdogMs : Field := ⟨supWdog, 0, 16⟩
def supRestartsCount : Field := ⟨supRestarts, 0, 16⟩
def supSvnValue (k : Nat) : Field := ⟨supSvn k, 0, 7⟩
def flashCfgProto : Field := ⟨flashCfg, 0, 2⟩
def flashCfgDummy : Field := ⟨flashCfg, 4, 4⟩
def flashCfgAddr4 : Field := ⟨flashCfg, 8, 1⟩
def flashCfgDiv : Field := ⟨flashCfg, 16, 4⟩
def flashCmdOpOpcode : Field := ⟨flashCmdOp, 0, 8⟩
def flashCmdOpWrite : Field := ⟨flashCmdOp, 8, 1⟩
def flashCmdOpHasAddr : Field := ⟨flashCmdOp, 9, 1⟩
def flashCmdOpLen : Field := ⟨flashCmdOp, 16, 9⟩
def flashCmdGoGo : Field := ⟨flashCmdGo, 0, 1⟩
def flashCmdStatBusy : Field := ⟨flashCmdStat, 0, 1⟩
def flashCmdStatRefused : Field := ⟨flashCmdStat, 1, 1⟩
def fltCfgFaultnC2 : Field := ⟨fltCfg, 0, 1⟩
def fltCfgMergeMs : Field := ⟨fltCfg, 16, 16⟩
def fltHeadNext : Field := ⟨fltHead, 0, 6⟩
def fltWorstClasses : Field := ⟨fltWorst, 0, 4⟩
def fltDegradedBits : Field := ⟨fltDegraded, 0, 10⟩
def fltDegradedEvtBits : Field := ⟨fltDegradedEvt, 0, 10⟩
def fltSupLost : Field := ⟨fltSup, 0, 1⟩
def fltSupRestarting : Field := ⟨fltSup, 1, 1⟩
def fltFaultnDriven : Field := ⟨fltFaultn, 0, 1⟩
def fltFaultnForce : Field := ⟨fltFaultn, 1, 1⟩
def fltInjTargetKind : Field := ⟨fltInjTarget, 0, 4⟩
def fltInjTargetInstance : Field := ⟨fltInjTarget, 8, 8⟩
def fltInjTargetArg : Field := ⟨fltInjTarget, 16, 16⟩
def fltInjGoGo : Field := ⟨fltInjGo, 0, 1⟩
def fltInjGoClear : Field := ⟨fltInjGo, 1, 1⟩
def fltInjStatBusy : Field := ⟨fltInjStat, 0, 1⟩
def fltInjStatRefused : Field := ⟨fltInjStat, 1, 1⟩
def fltInjStatPersistent : Field := ⟨fltInjStat, 2, 1⟩

end Sys2Proof.Machine
end

