-- ==== Sys2Proof/Machine/RegMap.lean ====
section
/-! DEFINITION. The register map: the rows of the register tables, in the order offset, strides with counts, then the
bits of RW, W1C, RC, WO, RWS and RO fields, the retained bits and the constant part of the value after reset; which
block a page belongs to (Table 2-10); and the value each register has after reset or at its factory setting. -/
namespace Sys2Proof.Machine

def rowsHdr : List RegRow := [
  ⟨0x0, 0, 1, 0, 1, 0, 1, 0, 0, 0, 0, 0, 0xFFFFFFFF, 0, 0⟩,  -- hdrId
  ⟨0x4, 0, 1, 0, 1, 0, 1, 0, 0, 0, 0, 0, 0xFFFFFFFF, 0, 0⟩,  -- hdrVer
  ⟨0x8, 0, 1, 0, 1, 0, 1, 0x101, 0, 0, 0x2, 0, 0, 0x101, 0x100⟩,  -- hdrCtrl
  ⟨0xC, 0, 1, 0, 1, 0, 1, 0, 0, 0, 0, 0, 0x307, 0, 0⟩,  -- hdrState
  ⟨0x10, 0, 1, 0, 1, 0, 1, 0, 0xFFFFFFFF, 0, 0, 0, 0, 0, 0⟩,  -- hdrIrqRaw
  ⟨0x14, 0, 1, 0, 1, 0, 1, 0xFFFFFFFF, 0, 0, 0, 0, 0, 0xFFFFFFFF, 0⟩,  -- hdrIrqEn
  ⟨0x18, 0, 1, 0, 1, 0, 1, 0, 0, 0, 0, 0, 0xFFFFFFFF, 0, 0⟩,  -- hdrIrqPend
  ⟨0x1C, 0, 1, 0, 1, 0, 1, 0, 0, 0, 0xFFFFFFFF, 0, 0, 0, 0⟩,  -- hdrIrqSet
  ⟨0x20, 0, 1, 0, 1, 0, 1, 0, 0, 0, 0, 0, 0xFFFFFFFF, 0, 0⟩,  -- hdrErrCause
  ⟨0x24, 0, 1, 0, 1, 0, 1, 0, 0, 0, 0xFFFFFFFF, 0, 0, 0, 0⟩,  -- hdrErrClr
  ⟨0x28, 0, 1, 0, 1, 0, 1, 0, 0, 0, 0, 0, 0xFFF1F, 0, 0⟩,  -- hdrLock
  ⟨0x2C, 0, 1, 0, 1, 0, 1, 0, 0, 0, 0, 0, 0xFFFFFFFF, 0, 0⟩]  -- hdrSeq

def rowsIrqa : List RegRow := [
  ⟨0x40, 4, 10, 0, 1, 0, 1, 0, 0, 0, 0, 0, 0xFFFFFFFF, 0, 0⟩,  -- irqaSum
  ⟨0x80, 0, 1, 0, 1, 0, 1, 0, 0, 0, 0, 0, 0xFFFFFFFF, 0, 0⟩,  -- irqaVecPend0
  ⟨0x84, 0, 1, 0, 1, 0, 1, 0, 0, 0, 0, 0, 0xFFFFFFFF, 0, 0⟩,  -- irqaVecPend1
  ⟨0x88, 0, 1, 0, 1, 0, 1, 0, 0, 0, 0xFFFFFFFF, 0, 0, 0, 0⟩,  -- irqaVecEoi0
  ⟨0x8C, 0, 1, 0, 1, 0, 1, 0, 0, 0, 0xFFFFFFFF, 0, 0, 0, 0⟩,  -- irqaVecEoi1
  ⟨0x90, 0, 1, 0, 1, 0, 1, 0, 0, 0, 0, 0, 0x1, 0, 0⟩,  -- irqaHbLine
  ⟨0x400, 4, 320, 0, 1, 0, 1, 0x1F3F0F3F, 0, 0, 0, 0, 0, 0x1F3F0F3F, 0x100⟩]  -- irqaRoute

def rowsProt : List RegRow := [
  ⟨0x40, 0, 1, 0, 1, 0, 1, 0x3FFF, 0, 0, 0, 0, 0, 0x3FFF, 0x64⟩,  -- protWindow
  ⟨0x44, 0, 1, 0, 1, 0, 1, 0, 0, 0, 0, 0, 0x1F, 0, 0⟩,  -- protStageStat
  ⟨0x48, 0, 1, 0, 1, 0, 1, 0, 0, 0, 0xFFFFFC, 0, 0, 0, 0⟩,  -- protApproveAddr
  ⟨0x4C, 0, 1, 0, 1, 0, 1, 0, 0, 0, 0xFFFF, 0, 0, 0, 0⟩,  -- protApproveCrc
  ⟨0x50, 0, 1, 0, 1, 0, 1, 0, 0, 0, 0, 0, 0xFFFFFF, 0, 0⟩,  -- protDenyAddr
  ⟨0x54, 0, 1, 0, 1, 0, 1, 0, 0, 0, 0, 0, 0xFFFF00FF, 0, 0⟩,  -- protDenyInfo
  ⟨0x100, 16, 16, 0, 1, 0, 1, 0, 0, 0, 0, 0, 0xFFFFFF, 0, 0⟩,  -- protStageAddr
  ⟨0x104, 16, 16, 0, 1, 0, 1, 0, 0, 0, 0, 0, 0xFFFFFFFF, 0, 0⟩,  -- protStageValue
  ⟨0x108, 16, 16, 0, 1, 0, 1, 0, 0, 0, 0, 0, 0x3FF, 0, 0⟩,  -- protStageInfo
  ⟨0x10C, 16, 16, 0, 1, 0, 1, 0, 0, 0, 0, 0, 0xFFFFFFF, 0, 0⟩,  -- protStageRemain
  ⟨0x200, 64, 21, 4, 10, 0, 1, 0, 0, 0, 0, 0xFFFFFFFF, 0, 0xFFFFFFFF, 0⟩,  -- protAcl
  ⟨0x800, 16, 32, 0, 1, 0, 1, 0, 0, 0, 0, 0, 0xFFFFFF, 0, 0⟩,  -- protLogAddr
  ⟨0x804, 16, 32, 0, 1, 0, 1, 0, 0, 0, 0, 0, 0xFFFFFFFF, 0, 0⟩,  -- protLogValue
  ⟨0x808, 16, 32, 0, 1, 0, 1, 0, 0, 0, 0, 0, 0xFFFFF, 0, 0⟩,  -- protLogInfo
  ⟨0x80C, 16, 32, 0, 1, 0, 1, 0, 0, 0, 0, 0, 0xFFFFFFFF, 0, 0⟩,  -- protLogTime
  ⟨0xA00, 0, 1, 0, 1, 0, 1, 0, 0, 0, 0, 0, 0x1F, 0, 0⟩]  -- protLogHead

def rowsDev : List RegRow := [
  ⟨0x40, 0, 1, 0, 1, 0, 1, 0, 0, 0, 0, 0, 0xFF0F, 0, 0⟩,  -- devPart
  ⟨0x44, 0, 1, 0, 1, 0, 1, 0, 0, 0, 0, 0, 0xFFFF, 0, 0⟩,  -- devBoot
  ⟨0x48, 0, 1, 0, 1, 0, 1, 0, 0, 0, 0, 0, 0xFFFFFFFF, 0, 0⟩,  -- devUnmappedAddr
  ⟨0x4C, 0, 1, 0, 1, 0, 1, 0x1, 0, 0, 0, 0, 0, 0, 0⟩]  -- devTest

def rowsClk : List RegRow := [
  ⟨0x40, 0, 1, 0, 1, 0, 1, 0x3, 0, 0, 0, 0, 0, 0x3, 0x2⟩,  -- clkTrefCfg
  ⟨0x44, 0, 1, 0, 1, 0, 1, 0, 0, 0, 0, 0, 0x7, 0, 0⟩,  -- clkStatus
  ⟨0x48, 0, 1, 0, 1, 0, 1, 0, 0, 0, 0, 0, 0xFFFF, 0, 0⟩]  -- clkLossCount

def rowsRst : List RegRow := [
  ⟨0x40, 0, 1, 0, 1, 0, 1, 0x100, 0, 0, 0xFF, 0, 0, 0x100, 0x100⟩,  -- rstDevice
  ⟨0x44, 0, 1, 0, 1, 0, 1, 0, 0, 0, 0, 0, 0x7, 0, 0⟩,  -- rstCause
  ⟨0x48, 0, 1, 0, 1, 0, 1, 0, 0, 0, 0, 0, 0xFFFF, 0, 0⟩]  -- rstPerstCount

def rowsInsole : List RegRow := [
  ⟨0x40, 0, 1, 0, 1, 0, 1, 0, 0, 0, 0x1, 0, 0, 0, 0⟩,  -- insoleCommit
  ⟨0x44, 0, 1, 0, 1, 0, 1, 0, 0, 0, 0, 0, 0x1F, 0, 0⟩,  -- insoleCommitStat
  ⟨0x48, 0, 1, 0, 1, 0, 1, 0, 0, 0, 0, 0, 0xFFFFFFFF, 0, 0⟩,  -- insoleLastSeq
  ⟨0x4C, 0, 1, 0, 1, 0, 1, 0, 0, 0, 0, 0, 0xFFFFFFFF, 0, 0⟩,  -- insoleCommits
  ⟨0x50, 0, 1, 0, 1, 0, 1, 0, 0, 0, 0, 0, 0x1FFFFF, 0, 0⟩,  -- insoleSnapSize
  ⟨0x54, 0, 1, 0, 1, 0, 1, 0, 0, 0, 0xFF, 0, 0, 0, 0⟩,  -- insoleRevert
  ⟨0x58, 0, 1, 0, 1, 0, 1, 0, 0, 0, 0, 0x3, 0, 0x3, 0x3⟩,  -- insoleRevertEn
  ⟨0x5C, 0, 1, 0, 1, 0, 1, 0, 0, 0, 0, 0, 0xFF7FFFFF, 0, 0⟩]  -- insoleCacheStat

def rowsMac : List RegRow := [
  ⟨0x40, 0, 1, 0, 1, 0, 1, 0x7F, 0, 0, 0, 0, 0, 0x7F, 0x48⟩,  -- macCfg
  ⟨0x44, 0, 1, 0, 1, 0, 1, 0x3FFF, 0, 0, 0, 0, 0, 0x3FFF, 0x5F2⟩,  -- macMaxlen
  ⟨0x48, 0, 1, 0, 1, 0, 1, 0xFFFFF, 0, 0, 0, 0, 0, 0xFFFFF, 0x3E8⟩,  -- macLateTol
  ⟨0x4C, 0, 1, 0, 1, 0, 1, 0, 0, 0, 0, 0, 0xFF, 0, 0⟩,  -- macLink
  ⟨0x50, 0, 1, 0, 1, 0, 1, 0x7F, 0, 0, 0, 0, 0, 0x7F, 0⟩,  -- macPhyCfg
  ⟨0x54, 0, 1, 0, 1, 0, 1, 0x1FFFFF, 0, 0, 0, 0, 0, 0, 0⟩,  -- macMdioAddr
  ⟨0x58, 0, 1, 0, 1, 0, 1, 0xFFFF, 0, 0, 0, 0, 0, 0, 0⟩,  -- macMdioData
  ⟨0x5C, 0, 1, 0, 1, 0, 1, 0, 0, 0, 0x3, 0, 0x300, 0, 0⟩,  -- macMdioCmd
  ⟨0x60, 0, 1, 0, 1, 0, 1, 0xFFFFF, 0, 0, 0, 0, 0, 0xFFFFF, 0⟩,  -- macStampRxTrim
  ⟨0x64, 0, 1, 0, 1, 0, 1, 0xFFFFF, 0, 0, 0, 0, 0, 0xFFFFF, 0⟩,  -- macStampTxTrim
  ⟨0x68, 0, 1, 0, 1, 0, 1, 0xFFFFFF, 0, 0, 0, 0, 0, 0xFFFFFF, 0⟩,  -- macStampAsym
  ⟨0x6C, 0, 1, 0, 1, 0, 1, 0, 0, 0, 0, 0, 0xFFFFFFFF, 0, 0⟩,  -- macStampDesign
  ⟨0x70, 0, 1, 0, 1, 0, 1, 0, 0x100, 0, 0, 0, 0x1F, 0, 0⟩,  -- macTxtsStat
  ⟨0x74, 0, 1, 0, 1, 0, 1, 0, 0, 0, 0, 0, 0xFFFF, 0, 0⟩,  -- macTxtsTag
  ⟨0x78, 0, 1, 0, 1, 0, 1, 0, 0, 0, 0, 0, 0xFFFFFFFF, 0, 0⟩,  -- macTxtsLo
  ⟨0x7C, 0, 1, 0, 1, 0, 1, 0, 0, 0, 0, 0, 0x1FFFFF, 0, 0⟩,  -- macTxtsHi
  ⟨0x80, 0, 1, 0, 1, 0, 1, 0, 0, 0, 0x1, 0, 0, 0, 0⟩,  -- macStatSnap
  ⟨0x100, 32, 8, 0, 1, 0, 1, 0x80FFFFFF, 0, 0, 0, 0, 0, 0x80FFFFFF, 0⟩,  -- macShapeQCfg
  ⟨0x104, 32, 8, 0, 1, 0, 1, 0x3FFF, 0, 0, 0, 0, 0, 0x3FFF, 0x5F2⟩,  -- macShapeQQmaxframe
  ⟨0x108, 32, 8, 0, 1, 0, 1, 0x3FFF, 0, 0, 0, 0, 0, 0x3FFF, 0x5F2⟩,  -- macShapeQMaxIntf
  ⟨0x10C, 32, 8, 0, 1, 0, 1, 0, 0, 0, 0, 0, 0xFFFFFFFF, 0, 0⟩,  -- macShapeQCredit
  ⟨0x110, 32, 8, 0, 1, 0, 1, 0, 0, 0, 0, 0, 0xFFFFFFFF, 0, 0⟩,  -- macShapeQHiCredit
  ⟨0x114, 32, 8, 0, 1, 0, 1, 0, 0, 0, 0, 0, 0xFFFFFFFF, 0, 0⟩,  -- macShapeQLoCredit
  ⟨0x200, 8, 42, 0, 1, 0, 1, 0, 0, 0xFFFFFFFF, 0, 0, 0, 0, 0⟩,  -- macCntLo
  ⟨0x204, 8, 42, 0, 1, 0, 1, 0, 0, 0, 0, 0, 0xFFFFFFFF, 0, 0⟩,  -- macCntHi
  ⟨0x400, 8, 42, 0, 1, 0, 1, 0, 0, 0, 0, 0, 0xFFFFFFFF, 0, 0⟩,  -- macCntsLo
  ⟨0x404, 8, 42, 0, 1, 0, 1, 0, 0, 0, 0, 0, 0xFFFFFFFF, 0, 0⟩]  -- macCntsHi

def rowsLane : List RegRow := [
  ⟨0x40, 0, 1, 0, 1, 0, 1, 0x37, 0, 0, 0, 0, 0, 0x37, 0⟩,  -- laneCfg
  ⟨0x44, 0, 1, 0, 1, 0, 1, 0x3F3F3F, 0, 0, 0, 0, 0, 0x3F3F3F, 0x82800⟩,  -- laneTxeq
  ⟨0x48, 0, 1, 0, 1, 0, 1, 0xF1, 0, 0, 0, 0, 0, 0xF1, 0x81⟩,  -- laneRxeq
  ⟨0x4C, 0, 1, 0, 1, 0, 1, 0x3, 0, 0, 0, 0, 0, 0, 0⟩,  -- laneLoop
  ⟨0x50, 0, 1, 0, 1, 0, 1, 0xF, 0, 0, 0, 0, 0, 0, 0⟩,  -- lanePrbs
  ⟨0x54, 0, 1, 0, 1, 0, 1, 0, 0, 0xFFFFFFFF, 0, 0, 0, 0, 0⟩,  -- lanePrbsErr
  ⟨0x58, 0, 1, 0, 1, 0, 1, 0, 0, 0, 0, 0, 0xF0F, 0, 0⟩,  -- laneStatus
  ⟨0x5C, 0, 1, 0, 1, 0, 1, 0, 0, 0xFFFFFFFF, 0, 0, 0, 0, 0⟩,  -- laneCodeErr
  ⟨0x80, 0, 1, 0, 1, 0, 1, 0x1F, 0, 0, 0, 0, 0, 0x1F, 0x4⟩]  -- laneMdioBus

def rowsSwc : List RegRow := [
  ⟨0x40, 0, 1, 0, 1, 0, 1, 0x7, 0, 0, 0, 0, 0, 0x7, 0x5⟩,  -- swcCfg
  ⟨0x44, 0, 1, 0, 1, 0, 1, 0x7FFF, 0, 0, 0, 0, 0, 0x7FFF, 0x2000⟩,  -- swcBufBanks
  ⟨0x48, 0, 1, 0, 1, 0, 1, 0, 0, 0, 0, 0, 0x3FFFF, 0, 0⟩,  -- swcBufCells
  ⟨0x4C, 0, 1, 0, 1, 0, 1, 0, 0, 0, 0, 0, 0x3FFFF, 0, 0⟩,  -- swcBufFree
  ⟨0x50, 0, 1, 0, 1, 0, 1, 0, 0, 0, 0, 0, 0x3FFFF, 0, 0⟩,  -- swcShared
  ⟨0x54, 0, 1, 0, 1, 0, 1, 0, 0, 0, 0, 0, 0x3FFFF, 0, 0⟩,  -- swcSharedUsed
  ⟨0x58, 0, 1, 0, 1, 0, 1, 0, 0, 0, 0, 0, 0x1FFFF, 0, 0⟩,  -- swcDescFree
  ⟨0x5C, 0, 1, 0, 1, 0, 1, 0, 0, 0, 0, 0, 0xFFFF, 0, 0⟩,  -- swcGen
  ⟨0x60, 0, 1, 0, 1, 0, 1, 0, 0, 0, 0x1, 0, 0xFFFF0100, 0, 0⟩,  -- swcGenBarrier
  ⟨0x64, 0, 1, 0, 1, 0, 1, 0, 0, 0, 0, 0, 0x1FFFF, 0, 0x10000⟩,  -- swcGenOldest
  ⟨0x68, 0, 1, 0, 1, 0, 1, 0xFFFFFFFF, 0, 0, 0, 0, 0, 0xFFFFFFFF, 0x55555555⟩,  -- swcRsvAct
  ⟨0x6C, 0, 1, 0, 1, 0, 1, 0x7FFFF, 0, 0, 0, 0, 0, 0x7FFFF, 0⟩,  -- swcFloodExtra
  ⟨0x70, 0, 1, 0, 1, 0, 1, 0, 0, 0, 0, 0, 0xFFFF, 0, 0x60C⟩,  -- swcIngressRes
  ⟨0x80, 4, 4, 0, 1, 0, 1, 0x873F, 0, 0, 0, 0, 0, 0x873F, 0⟩,  -- swcMirror
  ⟨0x100, 4, 9, 0, 1, 0, 1, 0, 0, 0xFFFFFFFF, 0, 0, 0, 0, 0⟩,  -- swcDisc
  ⟨0x200, 0, 1, 0, 1, 0, 1, 0xFFF0001, 0, 0, 0, 0, 0, 0, 0⟩,  -- swcTblSel
  ⟨0x204, 0, 1, 0, 1, 0, 1, 0xFFFFFFFF, 0, 0, 0, 0, 0, 0, 0⟩,  -- swcTblData0
  ⟨0x208, 0, 1, 0, 1, 0, 1, 0xFFFFFFFF, 0, 0, 0, 0, 0, 0, 0⟩,  -- swcTblData1
  ⟨0x20C, 0, 1, 0, 1, 0, 1, 0, 0, 0, 0x1, 0, 0x300, 0, 0⟩]  -- swcTblCmd

def rowsFdb : List RegRow := [
  ⟨0x40, 0, 1, 0, 1, 0, 1, 0x3, 0, 0, 0, 0, 0, 0x3, 0x3⟩,  -- fdbCfg
  ⟨0x44, 0, 1, 0, 1, 0, 1, 0xFFFFF, 0, 0, 0, 0, 0, 0xFFFFF, 0x12C⟩,  -- fdbAgeTime
  ⟨0x48, 0, 1, 0, 1, 0, 1, 0xFFFFFFFF, 0, 0, 0, 0, 0, 0, 0⟩,  -- fdbKeyMacLo
  ⟨0x4C, 0, 1, 0, 1, 0, 1, 0xFFFFFFF, 0, 0, 0, 0, 0, 0, 0⟩,  -- fdbKeyMacHi
  ⟨0x50, 0, 1, 0, 1, 0, 1, 0x3FFF, 0, 0, 0, 0, 0xC000, 0, 0⟩,  -- fdbData
  ⟨0x54, 0, 1, 0, 1, 0, 1, 0x1FFFF, 0, 0, 0, 0, 0, 0, 0⟩,  -- fdbIndex
  ⟨0x58, 0, 1, 0, 1, 0, 1, 0x3000, 0, 0, 0x7, 0, 0xF00, 0, 0⟩,  -- fdbCmd
  ⟨0x5C, 0, 1, 0, 1, 0, 1, 0, 0, 0, 0, 0, 0x1FFFF, 0, 0⟩,  -- fdbCount
  ⟨0x60, 0, 1, 0, 1, 0, 1, 0, 0, 0, 0, 0, 0x1FFFF, 0, 0⟩,  -- fdbStatic
  ⟨0x64, 0, 1, 0, 1, 0, 1, 0, 0, 0, 0, 0, 0x1FF, 0, 0⟩,  -- fdbCamUsed
  ⟨0x80, 4, 6, 0, 1, 0, 1, 0, 0, 0xFFFFFFFF, 0, 0, 0, 0, 0⟩]  -- fdbStat

def rowsStrm : List RegRow := [
  ⟨0x40, 0, 1, 0, 1, 0, 1, 0x3FF0001, 0, 0, 0, 0, 0, 0, 0⟩,  -- strmSel
  ⟨0x44, 4, 8, 0, 1, 0, 1, 0xFFFFFFFF, 0, 0, 0, 0, 0, 0, 0⟩,  -- strmData
  ⟨0x64, 0, 1, 0, 1, 0, 1, 0, 0, 0, 0x1, 0, 0x700, 0, 0⟩,  -- strmCmd
  ⟨0x68, 0, 1, 0, 1, 0, 1, 0x1FF, 0, 0, 0, 0, 0, 0, 0⟩,  -- strmMcntSel
  ⟨0x6C, 0, 1, 0, 1, 0, 1, 0, 0, 0xFFFFFFFF, 0, 0, 0, 0, 0⟩,  -- strmMcntGreen
  ⟨0x70, 0, 1, 0, 1, 0, 1, 0, 0, 0xFFFFFFFF, 0, 0, 0, 0, 0⟩,  -- strmMcntYellow
  ⟨0x74, 0, 1, 0, 1, 0, 1, 0, 0, 0xFFFFFFFF, 0, 0, 0, 0, 0⟩,  -- strmMcntRed
  ⟨0x78, 0, 1, 0, 1, 0, 1, 0, 0, 0xFFFFFFFF, 0, 0, 0, 0, 0⟩]  -- strmMcntRedDrop

def rowsSwq : List RegRow := [
  ⟨0x40, 0, 1, 0, 1, 0, 1, 0x777F, 0, 0, 0, 0, 0, 0x777F, 0xF⟩,  -- swqPortCfg
  ⟨0x44, 0, 1, 0, 1, 0, 1, 0xFFF, 0, 0, 0, 0, 0, 0xFFF, 0x1⟩,  -- swqPvid
  ⟨0x48, 0, 1, 0, 1, 0, 1, 0x7, 0, 0, 0, 0, 0, 0x7, 0x3⟩,  -- swqSharedLim
  ⟨0x4C, 0, 1, 0, 1, 0, 1, 0x3FFFF, 0, 0, 0, 0, 0, 0x3FFFF, 0x3FFFF⟩,  -- swqPortMax
  ⟨0x50, 0, 1, 0, 1, 0, 1, 0, 0, 0, 0, 0, 0x3FFFF, 0, 0⟩,  -- swqPortUsed
  ⟨0x60, 4, 16, 0, 1, 0, 1, 0x37, 0, 0, 0, 0, 0, 0x37, 0⟩,  -- swqPcpMap
  ⟨0x100, 64, 10, 0, 1, 0, 1, 0x3FFFF, 0, 0, 0, 0, 0, 0x3FFFF, 0⟩,  -- swqGuar
  ⟨0x104, 64, 10, 0, 1, 0, 1, 0x3FFFF, 0, 0, 0, 0, 0, 0x3FFFF, 0x3FFFF⟩,  -- swqSharedMax
  ⟨0x108, 64, 10, 0, 1, 0, 1, 0xF, 0, 0, 0, 0, 0, 0xF, 0x4⟩,  -- swqW
  ⟨0x10C, 64, 10, 0, 1, 0, 1, 0xFF03FFFF, 0, 0, 0, 0, 0, 0xFF03FFFF, 0⟩,  -- swqRedGMin
  ⟨0x114, 64, 10, 0, 1, 0, 1, 0xFF03FFFF, 0, 0, 0, 0, 0, 0xFF03FFFF, 0⟩,  -- swqRedYMin
  ⟨0x11C, 64, 10, 0, 1, 0, 1, 0xFF03FFFF, 0, 0, 0, 0, 0, 0xFF03FFFF, 0⟩,  -- swqRedRMin
  ⟨0x110, 64, 10, 0, 1, 0, 1, 0x8003FFFF, 0, 0, 0, 0, 0, 0x8003FFFF, 0⟩,  -- swqRedGMax
  ⟨0x118, 64, 10, 0, 1, 0, 1, 0x8003FFFF, 0, 0, 0, 0, 0, 0x8003FFFF, 0⟩,  -- swqRedYMax
  ⟨0x120, 64, 10, 0, 1, 0, 1, 0x8003FFFF, 0, 0, 0, 0, 0, 0x8003FFFF, 0⟩,  -- swqRedRMax
  ⟨0x124, 64, 10, 0, 1, 0, 1, 0, 0, 0, 0, 0, 0x3FFFF, 0, 0⟩,  -- swqOcc
  ⟨0x128, 64, 10, 0, 1, 0, 1, 0, 0, 0, 0, 0, 0x3FFFFFF, 0, 0⟩,  -- swqAvg
  ⟨0x12C, 64, 10, 0, 1, 0, 1, 0, 0, 0, 0, 0, 0x1FFFF, 0, 0⟩,  -- swqFrames
  ⟨0x130, 64, 10, 0, 1, 0, 1, 0, 0, 0xFFFFFFFF, 0, 0, 0, 0, 0⟩,  -- swqEnq
  ⟨0x134, 64, 10, 0, 1, 0, 1, 0, 0, 0xFFFFFFFF, 0, 0, 0, 0, 0⟩,  -- swqDropNobuf
  ⟨0x138, 64, 10, 0, 1, 0, 1, 0, 0, 0xFFFFFFFF, 0, 0, 0, 0, 0⟩,  -- swqDropShared
  ⟨0x13C, 64, 10, 0, 1, 0, 1, 0, 0, 0xFFFFFFFF, 0, 0, 0, 0, 0⟩]  -- swqDropRed

def rowsTb : List RegRow := [
  ⟨0x40, 0, 1, 0, 1, 0, 1, 0, 0, 0, 0, 0, 0xFFFFFFFF, 0, 0⟩,  -- tbFrcLo
  ⟨0x44, 0, 1, 0, 1, 0, 1, 0, 0, 0, 0, 0, 0xFFFF, 0, 0⟩,  -- tbFrcHi
  ⟨0x48, 0, 1, 0, 1, 0, 1, 0xFFFF, 0, 0, 0, 0, 0, 0xFFFF, 0x25⟩,  -- tbUtcOffset
  ⟨0x4C, 0, 1, 0, 1, 0, 1, 0x3, 0, 0, 0, 0, 0, 0, 0⟩,  -- tbLeap
  ⟨0x50, 0, 1, 0, 1, 0, 1, 0xFF3F07, 0, 0, 0, 0, 0, 0xFF3F07, 0x41000⟩,  -- tbOcxCfg
  ⟨0x54, 0, 1, 0, 1, 0, 1, 0xFFF, 0, 0, 0, 0, 0, 0xFFF, 0⟩,  -- tbOcxPrefix
  ⟨0x58, 0, 1, 0, 1, 0, 1, 0xFFFFFFFF, 0, 0, 0, 0, 0, 0xFFFFFFFF, 0⟩,  -- tbOcxValue
  ⟨0x5C, 0, 1, 0, 1, 0, 1, 0xFFFF, 0, 0, 0, 0, 0, 0xFFFF, 0x64⟩,  -- tbOcxGap
  ⟨0x60, 0, 1, 0, 1, 0, 1, 0, 0, 0, 0, 0, 0xFFFF0001, 0, 0⟩,  -- tbOcxStat
  ⟨0x80, 4, 8, 0, 1, 0, 1, 0x1, 0, 0, 0, 0, 0, 0x1, 0⟩,  -- tbTeCfg
  ⟨0xA0, 4, 8, 0, 1, 0, 1, 0xFFFFFFFF, 0, 0, 0, 0, 0, 0xFFFFFFFF, 0⟩]  -- tbTeTrim

def rowsHtb : List RegRow := [
  ⟨0x40, 0, 1, 0, 1, 0, 1, 0, 0, 0, 0, 0, 0xFFFFFFFF, 0, 0⟩,  -- htbNowNsLo
  ⟨0x44, 0, 1, 0, 1, 0, 1, 0, 0, 0, 0, 0, 0xFFFFFFFF, 0, 0⟩,  -- htbNowNsHi
  ⟨0x48, 0, 1, 0, 1, 0, 1, 0, 0, 0, 0, 0, 0xFFFFFFFF, 0, 0⟩,  -- htbNowFrac
  ⟨0x4C, 0, 1, 0, 1, 0, 1, 0xF, 0, 0, 0, 0, 0, 0xF, 0x4⟩,  -- htbIncrNs
  ⟨0x50, 0, 1, 0, 1, 0, 1, 0xFFFFFFFF, 0, 0, 0, 0, 0, 0xFFFFFFFF, 0⟩,  -- htbIncrFrac
  ⟨0x54, 0, 1, 0, 1, 0, 1, 0, 0, 0, 0, 0, 0xFFFFFFFF, 0, 0⟩,  -- htbAdj
  ⟨0x58, 0, 1, 0, 1, 0, 1, 0, 0x3, 0, 0, 0, 0xFFFF0000, 0, 0⟩]  -- htbStat

def rowsView : List RegRow := [
  ⟨0x40, 0, 1, 0, 1, 0, 1, 0x11F, 0, 0, 0, 0, 0, 0, 0⟩,  -- viewConvSel
  ⟨0x44, 0, 1, 0, 1, 0, 1, 0xFFFFFFFF, 0, 0, 0, 0, 0, 0, 0⟩,  -- viewConvInLo
  ⟨0x48, 0, 1, 0, 1, 0, 1, 0x1FFFFF, 0, 0, 0, 0, 0, 0, 0⟩,  -- viewConvInHi
  ⟨0x4C, 0, 1, 0, 1, 0, 1, 0, 0, 0, 0, 0, 0xFFFFFFFF, 0, 0⟩,  -- viewConvSecLo
  ⟨0x50, 0, 1, 0, 1, 0, 1, 0, 0, 0, 0, 0, 0x8000FFFF, 0, 0⟩,  -- viewConvSecHi
  ⟨0x54, 0, 1, 0, 1, 0, 1, 0, 0, 0, 0, 0, 0x3FFFFFFF, 0, 0⟩,  -- viewConvNs
  ⟨0x58, 0, 1, 0, 1, 0, 1, 0, 0, 0, 0, 0, 0x3FFFF, 0, 0⟩,  -- viewConvFrac
  ⟨0x5C, 0, 1, 0, 1, 0, 1, 0xFFFFF, 0, 0, 0, 0, 0, 0xFFFFF, 0x3D090⟩,  -- viewTrackPer
  ⟨0x100, 64, 32, 0, 1, 0, 1, 0xFFFFFFFF, 0, 0, 0, 0, 0, 0, 0⟩,  -- viewOffsetSecLo
  ⟨0x104, 64, 32, 0, 1, 0, 1, 0xFFFF, 0, 0, 0, 0, 0, 0, 0⟩,  -- viewOffsetSecHi
  ⟨0x108, 64, 32, 0, 1, 0, 1, 0x3FFFFFFF, 0, 0, 0, 0, 0, 0, 0⟩,  -- viewOffsetNs
  ⟨0x10C, 64, 32, 0, 1, 0, 1, 0xFFFF, 0, 0, 0, 0, 0, 0, 0⟩,  -- viewOffsetFrac
  ⟨0x110, 64, 32, 0, 1, 0, 1, 0xFFFFFFFF, 0, 0, 0, 0, 0, 0, 0⟩,  -- viewAnchorLo
  ⟨0x114, 64, 32, 0, 1, 0, 1, 0x1FFFFF, 0, 0, 0, 0, 0, 0, 0⟩,  -- viewAnchorHi
  ⟨0x118, 64, 32, 0, 1, 0, 1, 0xFFFFFFFF, 0, 0, 0, 0, 0, 0, 0⟩,  -- viewRadjLo
  ⟨0x11C, 64, 32, 0, 1, 0, 1, 0xFF, 0, 0, 0, 0, 0, 0, 0⟩,  -- viewRadjHi
  ⟨0x120, 64, 32, 0, 1, 0, 1, 0xFFFFFFFF, 0, 0, 0, 0, 0, 0, 0⟩,  -- viewActAtLo
  ⟨0x124, 64, 32, 0, 1, 0, 1, 0xFFFF, 0, 0, 0, 0, 0, 0, 0⟩,  -- viewActAtHi
  ⟨0x128, 64, 32, 0, 1, 0, 1, 0x6, 0, 0, 0x1, 0, 0, 0x6, 0⟩,  -- viewCtrl
  ⟨0x12C, 64, 32, 0, 1, 0, 1, 0, 0x2, 0, 0, 0, 0xD, 0, 0⟩]  -- viewStat

def rowsEvt : List RegRow := [
  ⟨0x100, 64, 8, 0, 1, 0, 1, 0x7F, 0, 0, 0, 0, 0, 0x7F, 0x48⟩,  -- evtEvCfg
  ⟨0x104, 64, 8, 0, 1, 0, 1, 0, 0, 0, 0x3, 0, 0, 0, 0⟩,  -- evtEvCtrl
  ⟨0x108, 64, 8, 0, 1, 0, 1, 0xFFFFFFFF, 0, 0, 0, 0, 0, 0, 0⟩,  -- evtEvTgtNsLo
  ⟨0x10C, 64, 8, 0, 1, 0, 1, 0xFFFF00FF, 0, 0, 0, 0, 0, 0, 0⟩,  -- evtEvTgtNsHi
  ⟨0x110, 64, 8, 0, 1, 0, 1, 0xFFFFFFFF, 0, 0, 0, 0, 0, 0xFFFFFFFF, 0x3B9ACA00⟩,  -- evtEvPeriodNs
  ⟨0x114, 64, 8, 0, 1, 0, 1, 0xFFFFFFFF, 0, 0, 0, 0, 0, 0xFFFFFFFF, 0⟩,  -- evtEvPeriodFrac
  ⟨0x118, 64, 8, 0, 1, 0, 1, 0xFFFFFFFF, 0, 0, 0, 0, 0, 0xFFFFFFFF, 0⟩,  -- evtEvPhaseNs
  ⟨0x11C, 64, 8, 0, 1, 0, 1, 0xFFFFFFFF, 0, 0, 0, 0, 0, 0xFFFFFFFF, 0x2FAF0800⟩,  -- evtEvWidth
  ⟨0x120, 64, 8, 0, 1, 0, 1, 0xFFFFFFFF, 0, 0, 0, 0, 0, 0xFFFFFFFF, 0⟩,  -- evtEvCount
  ⟨0x124, 64, 8, 0, 1, 0, 1, 0, 0x4, 0, 0, 0, 0xFFFF000B, 0, 0⟩,  -- evtEvStat
  ⟨0x128, 64, 8, 0, 1, 0, 1, 0, 0, 0, 0, 0, 0xFFFFFFFF, 0, 0⟩,  -- evtEvFired
  ⟨0x12C, 64, 8, 0, 1, 0, 1, 0, 0, 0, 0, 0, 0xFFFFFFFF, 0, 0⟩,  -- evtEvNext
  ⟨0x400, 64, 8, 0, 1, 0, 1, 0x7F, 0, 0, 0, 0, 0, 0x7F, 0⟩,  -- evtEcCfg
  ⟨0x404, 64, 8, 0, 1, 0, 1, 0, 0, 0, 0x1, 0, 0, 0, 0⟩,  -- evtEcCtrl
  ⟨0x408, 64, 8, 0, 1, 0, 1, 0, 0x8, 0, 0, 0, 0xFFFF0007, 0, 0⟩,  -- evtEcStat
  ⟨0x40C, 64, 8, 0, 1, 0, 1, 0, 0, 0, 0, 0, 0x3, 0, 0⟩,  -- evtEcRecFlags
  ⟨0x410, 64, 8, 0, 1, 0, 1, 0, 0, 0, 0, 0, 0xFFFFFFFF, 0, 0⟩,  -- evtEcFrcLo
  ⟨0x414, 64, 8, 0, 1, 0, 1, 0, 0, 0, 0, 0, 0x1FFFFF, 0, 0⟩,  -- evtEcFrcHi
  ⟨0x418, 64, 8, 0, 1, 0, 1, 0, 0, 0, 0, 0, 0xFFFFFFFF, 0, 0⟩,  -- evtEcH0Lo
  ⟨0x41C, 64, 8, 0, 1, 0, 1, 0, 0, 0, 0, 0, 0xFFFFFFFF, 0, 0⟩,  -- evtEcH0Hi
  ⟨0x420, 64, 8, 0, 1, 0, 1, 0, 0, 0, 0, 0, 0xFFFF, 0, 0⟩,  -- evtEcH0Frac
  ⟨0x424, 64, 8, 0, 1, 0, 1, 0, 0, 0, 0, 0, 0xFFFFFFFF, 0, 0⟩,  -- evtEcH1Lo
  ⟨0x428, 64, 8, 0, 1, 0, 1, 0, 0, 0, 0, 0, 0xFFFFFFFF, 0, 0⟩,  -- evtEcH1Hi
  ⟨0x42C, 64, 8, 0, 1, 0, 1, 0, 0, 0, 0, 0, 0xFFFF, 0, 0⟩,  -- evtEcH1Frac
  ⟨0x430, 64, 8, 0, 1, 0, 1, 0, 0, 0, 0, 0, 0xFFFFFFFF, 0, 0⟩,  -- evtEcHaLo
  ⟨0x434, 64, 8, 0, 1, 0, 1, 0, 0, 0, 0, 0, 0xFFFFFFFF, 0, 0⟩,  -- evtEcHaHi
  ⟨0x438, 64, 8, 0, 1, 0, 1, 0, 0, 0, 0, 0, 0xFFFF, 0, 0⟩]  -- evtEcHaFrac

def rowsTread : List RegRow := [
  ⟨0x100, 128, 3, 0, 1, 0, 1, 0x7, 0, 0, 0xF00, 0, 0, 0x7, 0⟩,  -- treadCtrl
  ⟨0x104, 128, 3, 0, 1, 0, 1, 0x1, 0, 0, 0, 0, 0, 0, 0⟩,  -- treadRef
  ⟨0x108, 128, 3, 0, 1, 0, 1, 0xFFFFFFFF, 0, 0, 0, 0, 0, 0xFFFFFFFF, 0x6407D0⟩,  -- treadQual
  ⟨0x10C, 128, 3, 0, 1, 0, 1, 0xFFFF00FF, 0, 0, 0, 0, 0, 0xFFFF00FF, 0x27100004⟩,  -- treadChatter
  ⟨0x110, 128, 3, 0, 1, 0, 1, 0xFFFFF, 0, 0, 0, 0, 0, 0xFFFFF, 0x60BB8⟩,  -- treadTimeout
  ⟨0x114, 128, 3, 0, 1, 0, 1, 0xFFFFFFFF, 0, 0, 0, 0, 0, 0xFFFFFFFF, 0x3E8⟩,  -- treadSeekMin
  ⟨0x118, 128, 3, 0, 1, 0, 1, 0xFFFFFF, 0, 0, 0, 0, 0, 0xFFFFFF, 0x80064⟩,  -- treadFreqLock
  ⟨0x11C, 128, 3, 0, 1, 0, 1, 0xFFFFFF, 0, 0, 0, 0, 0, 0xFFFFFF, 0x100064⟩,  -- treadPhaseLock
  ⟨0x120, 128, 3, 0, 1, 0, 1, 0xFFFFFF, 0, 0, 0, 0, 0, 0xFFFFFF, 0x403E8⟩,  -- treadUnlock
  ⟨0x124, 128, 3, 0, 1, 0, 1, 0xFFFFFFFF, 0, 0, 0, 0, 0, 0xFFFFFFFF, 0xC3502710⟩,  -- treadSlew
  ⟨0x128, 128, 3, 0, 1, 0, 1, 0x3FFFF, 0, 0, 0, 0, 0, 0x3FFFF, 0x30D40⟩,  -- treadConvBand
  ⟨0x12C, 128, 3, 0, 1, 0, 1, 0xFFFFFFFF, 0, 0, 0, 0, 0, 0xFFFFFFFF, 0⟩,  -- treadFreqCorr
  ⟨0x130, 128, 3, 0, 1, 0, 1, 0xFFFFFFFF, 0, 0, 0, 0, 0, 0xFFFFFFFF, 0x186A0⟩,  -- treadHoldDrift
  ⟨0x134, 128, 3, 0, 1, 0, 1, 0xFFFFFFFF, 0, 0, 0, 0, 0, 0xFFFFFFFF, 0⟩,  -- treadHoldAge
  ⟨0x138, 128, 3, 0, 1, 0, 1, 0xFFFFFFFF, 0, 0, 0, 0, 0, 0, 0⟩,  -- treadRefInacc
  ⟨0x13C, 128, 3, 0, 1, 0, 1, 0xFFFFFFFF, 0, 0, 0, 0, 0, 0xFFFFFFFF, 0x80000000⟩,  -- treadPhaseLimLo
  ⟨0x140, 128, 3, 0, 1, 0, 1, 0xFFFFFFFF, 0, 0, 0, 0, 0, 0xFFFFFFFF, 0x7FFFFFFF⟩,  -- treadPhaseLimHi
  ⟨0x144, 128, 3, 0, 1, 0, 1, 0, 0x140, 0, 0, 0, 0x3F1EBF, 0, 0⟩,  -- treadStat
  ⟨0x148, 128, 3, 0, 1, 0, 1, 0, 0, 0, 0, 0, 0xFFFFFFFF, 0, 0⟩,  -- treadPhaseErrLo
  ⟨0x14C, 128, 3, 0, 1, 0, 1, 0, 0, 0, 0, 0, 0xFFFF, 0, 0⟩,  -- treadPhaseErrHi
  ⟨0x150, 128, 3, 0, 1, 0, 1, 0, 0, 0, 0, 0, 0xFFFFFFFF, 0, 0⟩,  -- treadFNow
  ⟨0x154, 128, 3, 0, 1, 0, 1, 0, 0, 0, 0, 0, 0xFFFFFFFF, 0, 0⟩,  -- treadAccLo
  ⟨0x158, 128, 3, 0, 1, 0, 1, 0, 0, 0, 0, 0, 0xFFFFFFFF, 0, 0⟩,  -- treadAccHi
  ⟨0x15C, 128, 3, 0, 1, 0, 1, 0, 0, 0, 0, 0, 0xFFFFFFFF, 0, 0xFFFFFFFF⟩,  -- treadEstErr
  ⟨0x160, 128, 3, 0, 1, 0, 1, 0, 0, 0, 0, 0, 0xFFFFFFFF, 0, 0⟩,  -- treadHoldTime
  ⟨0x164, 128, 3, 0, 1, 0, 1, 0xFFFF000F, 0, 0, 0, 0, 0, 0xFFFF000F, 0x3E80002⟩,  -- treadFollow
  ⟨0x168, 128, 3, 0, 1, 0, 1, 0xFFFFFFFF, 0, 0, 0, 0, 0, 0xFFFFFFFF, 0⟩,  -- treadOcxGain
  ⟨0x16C, 128, 3, 0, 1, 0, 1, 0xFFFFFFFF, 0, 0, 0, 0, 0, 0xFFFFFFFF, 0⟩,  -- treadOcxBias
  ⟨0x170, 128, 3, 0, 1, 0, 1, 0, 0, 0, 0, 0, 0xFFFFFFFF, 0, 0⟩,  -- treadSwitches
  ⟨0x174, 128, 3, 0, 1, 0, 1, 0xFFFFFFFF, 0, 0, 0, 0, 0, 0, 0⟩,  -- treadSeekOfsLo
  ⟨0x178, 128, 3, 0, 1, 0, 1, 0xFFFFFFFF, 0, 0, 0, 0, 0, 0, 0⟩,  -- treadSeekOfsHi
  ⟨0x400, 1024, 3, 16, 64, 4, 4, 0xFFFFFFFF, 0, 0, 0, 0, 0, 0xFFFFFFFF, 0⟩]  -- treadSeg

def rowsPtpa : List RegRow := [
  ⟨0x40, 0, 1, 0, 1, 0, 1, 0x7, 0, 0, 0, 0, 0, 0x7, 0x3⟩,  -- ptpaCfg
  ⟨0x50, 4, 4, 0, 1, 0, 1, 0x8001FFFF, 0, 0, 0, 0, 0, 0x8001FFFF, 0⟩,  -- ptpaDomainMap
  ⟨0x100, 4, 24, 0, 1, 0, 1, 0xF, 0, 0, 0, 0, 0, 0xF, 0x8⟩,  -- ptpaPortCfg
  ⟨0x180, 4, 24, 0, 1, 0, 1, 0xFFFFFFFF, 0, 0, 0, 0, 0, 0, 0⟩,  -- ptpaLinkDelay
  ⟨0x200, 16, 24, 0, 1, 0, 1, 0, 0, 0xFFFFFFFF, 0, 0, 0, 0, 0⟩,  -- ptpaEdits
  ⟨0x204, 16, 24, 0, 1, 0, 1, 0, 0, 0xFFFFFFFF, 0, 0, 0, 0, 0⟩,  -- ptpaSkipped
  ⟨0x208, 16, 24, 0, 1, 0, 1, 0, 0, 0xFFFFFFFF, 0, 0, 0, 0, 0⟩,  -- ptpaRxEvent
  ⟨0x20C, 16, 24, 0, 1, 0, 1, 0, 0, 0xFFFFFFFF, 0, 0, 0, 0, 0⟩]  -- ptpaRxGeneral

def rowsPe : List RegRow := [
  ⟨0x40, 0, 1, 0, 1, 0, 1, 0xFFFFFFFF, 0, 0, 0, 0, 0, 0xFFFFFFFF, 0⟩,  -- peImageName
  ⟨0x44, 0, 1, 0, 1, 0, 1, 0xFFFF, 0, 0, 0, 0, 0, 0xFFFF, 0⟩,  -- peImageVer
  ⟨0x48, 0, 1, 0, 1, 0, 1, 0, 0, 0, 0, 0, 0x7FFFF, 0, 0⟩,  -- peStatus
  ⟨0x4C, 0, 1, 0, 1, 0, 1, 0, 0, 0, 0, 0, 0x1F1F, 0, 0x1F1F⟩,  -- peServe
  ⟨0x50, 0, 1, 0, 1, 0, 1, 0xFFFFF, 0, 0, 0, 0, 0, 0xFFFFF, 0x64⟩,  -- peWdog
  ⟨0x54, 0, 1, 0, 1, 0, 1, 0xFFFF, 0, 0, 0, 0, 0, 0xFFFF, 0xFFFF⟩,  -- peTrapFatal
  ⟨0x58, 0, 1, 0, 1, 0, 1, 0, 0, 0, 0, 0, 0x1FFF00FF, 0, 0⟩,  -- peTrapInfo
  ⟨0x5C, 0, 1, 0, 1, 0, 1, 0, 0, 0, 0, 0, 0x7, 0, 0⟩,  -- peCkptStat
  ⟨0x60, 0, 1, 0, 1, 0, 1, 0, 0, 0, 0, 0, 0xFFFFFFFF, 0, 0⟩,  -- peCkptSeq
  ⟨0x68, 8, 4, 0, 1, 0, 1, 0xFFFF, 0, 0, 0, 0, 0, 0xFFFF, 0⟩,  -- peCkptRangeStart
  ⟨0x6C, 8, 4, 0, 1, 0, 1, 0x1FFFF, 0, 0, 0, 0, 0, 0x1FFFF, 0⟩,  -- peCkptRangeLen
  ⟨0x90, 0, 1, 0, 1, 0, 1, 0, 0, 0xFFFFFFFF, 0, 0, 0, 0, 0⟩]  -- peKills

def rowsFab : List RegRow := [
  ⟨0x40, 0, 1, 0, 1, 0, 1, 0x3FFFF, 0, 0, 0, 0, 0, 0x3FFFF, 0x30000⟩,  -- fabSpareMask
  ⟨0x44, 0, 1, 0, 1, 0, 1, 0, 0, 0, 0, 0, 0x3FFFF, 0, 0⟩,  -- fabIdleSpares
  ⟨0x48, 0, 1, 0, 1, 0, 1, 0, 0, 0, 0, 0, 0xFF, 0, 0x20⟩,  -- fabCkptBase
  ⟨0x4C, 0, 1, 0, 1, 0, 1, 0, 0, 0, 0, 0, 0xFFFF, 0, 0⟩,  -- fabTkoCount
  ⟨0x50, 0, 1, 0, 1, 0, 1, 0, 0, 0, 0, 0, 0xF3F1F, 0, 0⟩,  -- fabTkoLast
  ⟨0x54, 0, 1, 0, 1, 0, 1, 0, 0, 0, 0, 0, 0xFFFFFFFF, 0, 0⟩,  -- fabTkoTime
  ⟨0x58, 0, 1, 0, 1, 0, 1, 0, 0, 0xFFFFFFFF, 0, 0, 0, 0, 0⟩,  -- fabTkoLost
  ⟨0x80, 4, 18, 0, 1, 0, 1, 0xFFFFFFFF, 0, 0, 0, 0, 0, 0xFFFFFFFF, 0⟩,  -- fabWarm
  ⟨0x100, 4, 18, 0, 1, 0, 1, 0x7F7F7F7F, 0, 0, 0, 0, 0, 0x7F7F7F7F, 0⟩,  -- fabBind
  ⟨0x180, 4, 18, 0, 1, 0, 1, 0, 0, 0xFFFFFFFF, 0, 0, 0, 0, 0⟩,  -- fabInjBad
  ⟨0x200, 32, 24, 0, 1, 0, 1, 0x3FFF, 0, 0, 0, 0, 0, 0x3FFF, 0⟩,  -- fabLaneCfg
  ⟨0x204, 32, 24, 0, 1, 0, 1, 0xFFF, 0, 0, 0, 0, 0, 0xFFF, 0x10⟩,  -- fabLaneHold
  ⟨0x208, 32, 24, 0, 1, 0, 1, 0, 0, 0, 0, 0, 0x3FFF0007, 0, 0⟩,  -- fabLaneStat
  ⟨0x20C, 32, 24, 0, 1, 0, 1, 0, 0, 0xFFFFFFFF, 0, 0, 0, 0, 0⟩,  -- fabLaneFrames
  ⟨0x210, 32, 24, 0, 1, 0, 1, 0, 0, 0xFFFFFFFF, 0, 0, 0, 0, 0⟩,  -- fabLaneBypFwd
  ⟨0x214, 32, 24, 0, 1, 0, 1, 0, 0, 0xFFFFFFFF, 0, 0, 0, 0, 0⟩,  -- fabLaneBypDisc
  ⟨0x218, 32, 24, 0, 1, 0, 1, 0, 0, 0xFFFFFFFF, 0, 0, 0, 0, 0⟩,  -- fabLaneEndErr
  ⟨0x21C, 32, 24, 0, 1, 0, 1, 0, 0, 0xFFFFFFFF, 0, 0, 0, 0, 0⟩,  -- fabLaneCut
  ⟨0x500, 4, 18, 0, 1, 0, 1, 0xFFFF, 0, 0, 0, 0, 0, 0xFFFF, 0⟩]  -- fabWarmVer

def rowsDdu : List RegRow := [
  ⟨0x40, 0, 1, 0, 1, 0, 1, 0x1, 0, 0, 0, 0, 0, 0x1, 0x1⟩,  -- dduCfg
  ⟨0x44, 0, 1, 0, 1, 0, 1, 0xFFFF, 0, 0, 0, 0, 0, 0xFFFF, 0x190⟩,  -- dduForgetMs
  ⟨0x48, 0, 1, 0, 1, 0, 1, 0, 0, 0, 0, 0, 0x7FFF, 0, 0⟩,  -- dduUsed
  ⟨0x4C, 0, 1, 0, 1, 0, 1, 0, 0, 0, 0x1F1, 0, 0x10000, 0, 0⟩,  -- dduFlush
  ⟨0x50, 0, 1, 0, 1, 0, 1, 0, 0, 0xFFFFFFFF, 0, 0, 0, 0, 0⟩,  -- dduQueries
  ⟨0x54, 0, 1, 0, 1, 0, 1, 0, 0, 0xFFFFFFFF, 0, 0, 0, 0, 0⟩,  -- dduDuplicates
  ⟨0x58, 0, 1, 0, 1, 0, 1, 0, 0, 0xFFFFFFFF, 0, 0, 0, 0, 0⟩,  -- dduEvicts
  ⟨0x5C, 0, 1, 0, 1, 0, 1, 0, 0, 0xFFFFFFFF, 0, 0, 0, 0, 0⟩,  -- dduAged
  ⟨0x80, 4, 18, 0, 1, 0, 1, 0xF, 0, 0, 0, 0, 0, 0xF, 0⟩]  -- dduGroup

def rowsShank : List RegRow := [
  ⟨0x40, 0, 1, 0, 1, 0, 1, 0, 0, 0, 0, 0, 0xFFF, 0, 0x24⟩,  -- shankLaneStat
  ⟨0x44, 0, 1, 0, 1, 0, 1, 0, 0, 0, 0x1, 0, 0, 0, 0⟩,  -- shankLaneTest
  ⟨0x48, 0, 1, 0, 1, 0, 1, 0, 0, 0, 0, 0, 0xFFFF, 0, 0⟩,  -- shankLoad
  ⟨0x4C, 0, 1, 0, 1, 0, 1, 0, 0, 0xFFFFFFFF, 0, 0, 0, 0, 0⟩,  -- shankRetries
  ⟨0x50, 0, 1, 0, 1, 0, 1, 0, 0, 0, 0, 0, 0xFFFF, 0, 0⟩,  -- shankSwaps
  ⟨0x54, 0, 1, 0, 1, 0, 1, 0, 0, 0xFFFFFFFF, 0, 0, 0, 0, 0⟩,  -- shankUnresolved
  ⟨0x58, 0, 1, 0, 1, 0, 1, 0, 0, 0xFFFFFFFF, 0, 0, 0, 0, 0⟩,  -- shankOverruns
  ⟨0x5C, 0, 1, 0, 1, 0, 1, 0, 0, 0xFFFFFFFF, 0, 0, 0, 0, 0⟩,  -- shankPostMerged
  ⟨0x60, 0, 1, 0, 1, 0, 1, 0, 0, 0xFFFFFFFF, 0, 0, 0, 0, 0⟩,  -- shankPostUnused
  ⟨0x64, 0, 1, 0, 1, 0, 1, 0, 0, 0xFFFFFFFF, 0, 0, 0, 0, 0⟩,  -- shankOutMerged
  ⟨0x68, 0, 1, 0, 1, 0, 1, 0, 0, 0xFFFFFFFF, 0, 0, 0, 0, 0⟩,  -- shankOutDrop
  ⟨0x70, 0, 1, 0, 1, 0, 1, 0, 0, 0, 0, 0, 0xFFFFFFFF, 0, 0⟩,  -- shankPendLo
  ⟨0x74, 0, 1, 0, 1, 0, 1, 0, 0, 0, 0, 0, 0xFFFFFFFF, 0, 0⟩,  -- shankPendHi
  ⟨0x78, 0, 1, 0, 1, 0, 1, 0, 0, 0, 0xFFFFFFFF, 0, 0, 0, 0⟩,  -- shankTrigLo
  ⟨0x7C, 0, 1, 0, 1, 0, 1, 0, 0, 0, 0xFFFFFFFF, 0, 0, 0, 0⟩,  -- shankTrigHi
  ⟨0x80, 8, 8, 0, 1, 0, 1, 0x8000FFFF, 0, 0, 0, 0, 0, 0x8000FFFF, 0⟩,  -- shankGroupCfg
  ⟨0x84, 8, 8, 0, 1, 0, 1, 0, 0, 0, 0, 0, 0x13F, 0, 0⟩,  -- shankGroupStat
  ⟨0x100, 4, 64, 0, 1, 0, 1, 0, 0, 0, 0, 0, 0xFFFFFFFF, 0, 0⟩]  -- shankOut

def rowsShch : List RegRow := [
  ⟨0x40, 0, 1, 0, 1, 0, 1, 0x3F, 0, 0, 0, 0, 0, 0, 0⟩,  -- shchSel
  ⟨0x44, 0, 1, 0, 1, 0, 1, 0x37FF, 0, 0, 0, 0, 0, 0x37FF, 0x40⟩,  -- shchCfg
  ⟨0x48, 0, 1, 0, 1, 0, 1, 0xFFFFFF07, 0, 0, 0, 0, 0, 0xFFFFFF07, 0⟩,  -- shchTrig
  ⟨0x4C, 0, 1, 0, 1, 0, 1, 0xFFFFFF1F, 0, 0, 0, 0, 0, 0xFFFFFF1F, 0x3⟩,  -- shchInPv
  ⟨0x50, 0, 1, 0, 1, 0, 1, 0xFFFFFF1F, 0, 0, 0, 0, 0, 0xFFFFFF1F, 0x3⟩,  -- shchInSp
  ⟨0x54, 0, 1, 0, 1, 0, 1, 0xFFFFFF1F, 0, 0, 0, 0, 0, 0xFFFFFF1F, 0x3⟩,  -- shchInFf
  ⟨0x58, 0, 1, 0, 1, 0, 1, 0xFFFFFFFF, 0, 0, 0, 0, 0, 0xFFFFFFFF, 0⟩,  -- shchConstSp
  ⟨0x5C, 0, 1, 0, 1, 0, 1, 0xFFFFFFFF, 0, 0, 0, 0, 0, 0xFFFFFFFF, 0⟩,  -- shchConstFf
  ⟨0x60, 0, 1, 0, 1, 0, 1, 0xFFFFFF3F, 0, 0, 0, 0, 0, 0xFFFFFF3F, 0⟩,  -- shchOutDest
  ⟨0x64, 0, 1, 0, 1, 0, 1, 0x9F3F, 0, 0, 0, 0, 0, 0x9F3F, 0⟩,  -- shchOutDb
  ⟨0x68, 0, 1, 0, 1, 0, 1, 0xFFFFFFFF, 0, 0, 0, 0, 0, 0xFFFFFFFF, 0⟩,  -- shchMan
  ⟨0x80, 0, 1, 0, 1, 0, 1, 0, 0x1C00, 0, 0, 0, 0x63FF, 0, 0⟩,  -- shchStat
  ⟨0x84, 0, 1, 0, 1, 0, 1, 0, 0, 0, 0, 0, 0xFFFFFFFF, 0, 0⟩,  -- shchEvals
  ⟨0x88, 0, 1, 0, 1, 0, 1, 0, 0, 0xFFFFFFFF, 0, 0, 0, 0, 0⟩,  -- shchOverruns
  ⟨0x8C, 0, 1, 0, 1, 0, 1, 0, 0, 0, 0, 0, 0xFFFF, 0, 0⟩,  -- shchAgeUs
  ⟨0x90, 0, 1, 0, 1, 0, 1, 0, 0, 0, 0, 0, 0xFFFFFFFF, 0, 0⟩,  -- shchY
  ⟨0x94, 0, 1, 0, 1, 0, 1, 0, 0, 0, 0, 0, 0xFFFFFFFF, 0, 0⟩,  -- shchV
  ⟨0x98, 0, 1, 0, 1, 0, 1, 0, 0, 0, 0, 0, 0xFFFFFFFF, 0, 0⟩,  -- shchE
  ⟨0x9C, 0, 1, 0, 1, 0, 1, 0, 0, 0, 0, 0, 0xFFFFFFFF, 0, 0⟩,  -- shchILo
  ⟨0xA0, 0, 1, 0, 1, 0, 1, 0, 0, 0, 0, 0, 0xFF0000FF, 0, 0⟩,  -- shchIHi
  ⟨0xA4, 0, 1, 0, 1, 0, 1, 0, 0, 0, 0, 0, 0xFFFFFFFF, 0, 0⟩,  -- shchExp
  ⟨0xA8, 0, 1, 0, 1, 0, 1, 0, 0, 0, 0, 0, 0xFFFF, 0, 0⟩,  -- shchExp2
  ⟨0x100, 0, 1, 0, 1, 0, 1, 0xFF, 0, 0, 0, 0, 0, 0, 0⟩,  -- shchPostQual
  ⟨0x800, 16, 64, 4, 4, 0, 1, 0, 0, 0, 0xFFFFFFFF, 0, 0, 0, 0⟩]  -- shchPost

def rowsShchB : List RegRow := [
  ⟨0x0, 128, 2, 0, 1, 0, 1, 0xFFFFFFFF, 0, 0, 0, 0, 0, 0xFFFFFFFF, 0⟩,  -- shchKp
  ⟨0x4, 128, 2, 0, 1, 0, 1, 0xFFFFFFFF, 0, 0, 0, 0, 0, 0xFFFFFFFF, 0⟩,  -- shchKi
  ⟨0x8, 128, 2, 0, 1, 0, 1, 0xFFFFFFFF, 0, 0, 0, 0, 0, 0xFFFFFFFF, 0⟩,  -- shchKd
  ⟨0xC, 128, 2, 0, 1, 0, 1, 0xFFFFFFFF, 0, 0, 0, 0, 0, 0xFFFFFFFF, 0⟩,  -- shchDpole
  ⟨0x10, 128, 2, 0, 1, 0, 1, 0xFFFFFFFF, 0, 0, 0, 0, 0, 0xFFFFFFFF, 0⟩,  -- shchKff
  ⟨0x14, 128, 2, 0, 1, 0, 1, 0xFFFFFFFF, 0, 0, 0, 0, 0, 0xFFFFFFFF, 0x80400000⟩,  -- shchKt
  ⟨0x18, 128, 2, 0, 1, 0, 1, 0xFFFFFFFF, 0, 0, 0, 0, 0, 0xFFFFFFFF, 0xFF800000⟩,  -- shchOmin
  ⟨0x1C, 128, 2, 0, 1, 0, 1, 0xFFFFFFFF, 0, 0, 0, 0, 0, 0xFFFFFFFF, 0xFF7FFFFF⟩,  -- shchOmax
  ⟨0x20, 128, 2, 0, 1, 0, 1, 0xFFFFFFFF, 0, 0, 0, 0, 0, 0xFFFFFFFF, 0xFF800000⟩,  -- shchImin
  ⟨0x24, 128, 2, 0, 1, 0, 1, 0xFFFFFFFF, 0, 0, 0, 0, 0, 0xFFFFFFFF, 0xFF7FFFFF⟩,  -- shchImax
  ⟨0x28, 128, 2, 20, 4, 4, 5, 0xFFFFFFFF, 0, 0, 0, 0, 0, 0xFFFFFFFF, 0⟩,  -- shchBq
  ⟨0x78, 128, 2, 0, 1, 0, 1, 0xFFFFFFFF, 0, 0, 0, 0, 0, 0xFFFFFFFF, 0x13F0000⟩,  -- shchLoss
  ⟨0x7C, 128, 2, 0, 1, 0, 1, 0xFFFFFFFF, 0, 0, 0, 0, 0, 0xFFFFFFFF, 0⟩]  -- shchSafeOut

def rowsWelt : List RegRow := [
  ⟨0x40, 0, 1, 0, 1, 0, 1, 0xFFFF0F, 0, 0, 0, 0, 0, 0xFFFF0F, 0xFFFF00⟩,  -- weltCfg
  ⟨0x44, 0, 1, 0, 1, 0, 1, 0x9F9F, 0, 0, 0, 0, 0, 0x9F9F, 0⟩,  -- weltUp
  ⟨0x48, 0, 1, 0, 1, 0, 1, 0xFFFFFF, 0, 0, 0, 0, 0, 0xFFFFFF, 0⟩,  -- weltDownA
  ⟨0x4C, 0, 1, 0, 1, 0, 1, 0xFFFFFF, 0, 0, 0, 0, 0, 0xFFFFFF, 0⟩,  -- weltDownB
  ⟨0x50, 0, 1, 0, 1, 0, 1, 0xFFFFF, 0, 0, 0, 0, 0, 0xFFFFF, 0x3D090⟩,  -- weltCycleNs
  ⟨0x54, 0, 1, 0, 1, 0, 1, 0xFF, 0, 0, 0, 0, 0, 0xFF, 0x28⟩,  -- weltPi
  ⟨0x58, 0, 1, 0, 1, 0, 1, 0xFFFF, 0, 0, 0, 0, 0, 0xFFFF, 0⟩,  -- weltUpDelay
  ⟨0x5C, 0, 1, 0, 1, 0, 1, 0xFFFFFF, 0, 0, 0, 0, 0, 0xFFFFFF, 0xA0303⟩,  -- weltLimits
  ⟨0x60, 0, 1, 0, 1, 0, 1, 0x3FFFF, 0, 0, 0, 0, 0, 0x3FFFF, 0x30D40⟩,  -- weltRateMax
  ⟨0x64, 0, 1, 0, 1, 0, 1, 0xFFFFFFFF, 0, 0, 0, 0, 0, 0xFFFFFFFF, 0x4080804⟩,  -- weltTimers
  ⟨0x68, 0, 1, 0, 1, 0, 1, 0xFFFFF, 0, 0, 0, 0, 0, 0xFFFFF, 0x7D0⟩,  -- weltCsWin
  ⟨0x6C, 0, 1, 0, 1, 0, 1, 0xFFFFFFF, 0, 0, 0, 0, 0, 0xFFFFFFF, 0x200000⟩,  -- weltAnchorCfg
  ⟨0x70, 0, 1, 0, 1, 0, 1, 0x9F3F, 0, 0, 0, 0, 0, 0x9F3F, 0⟩,  -- weltNotify
  ⟨0x74, 0, 1, 0, 1, 0, 1, 0xFF, 0, 0, 0, 0, 0, 0xFF, 0⟩,  -- weltBuf
  ⟨0x78, 0, 1, 0, 1, 0, 1, 0, 0, 0, 0, 0, 0xFF07F7, 0, 0⟩,  -- weltState
  ⟨0x7C, 0, 1, 0, 1, 0, 1, 0, 0, 0, 0, 0, 0xFFFFFFFF, 0, 0⟩,  -- weltCycle
  ⟨0x80, 0, 1, 0, 1, 0, 1, 0, 0, 0, 0, 0, 0xFFFFF, 0, 0⟩,  -- weltPos
  ⟨0x84, 0, 1, 0, 1, 0, 1, 0, 0, 0, 0, 0, 0xFFFF, 0, 0⟩,  -- weltCorr
  ⟨0x88, 0, 1, 0, 1, 0, 1, 0, 0, 0, 0, 0, 0xFFFFFFFF, 0, 0⟩,  -- weltRate
  ⟨0x8C, 0, 1, 0, 1, 0, 1, 0, 0, 0, 0, 0, 0xFF, 0, 0⟩,  -- weltEdgeCnt
  ⟨0x90, 0, 1, 0, 1, 0, 1, 0, 0, 0, 0x11FF, 0, 0, 0, 0⟩,  -- weltPublish
  ⟨0xA0, 4, 16, 0, 1, 0, 1, 0, 0, 0, 0, 0, 0xFFFFFFFF, 0, 0⟩,  -- weltTxHalf
  ⟨0x100, 32, 2, 0, 1, 0, 1, 0, 0, 0xFFFFFFFF, 0, 0, 0, 0, 0⟩,  -- weltRxValid
  ⟨0x104, 32, 2, 0, 1, 0, 1, 0, 0, 0xFFFFFFFF, 0, 0, 0, 0, 0⟩,  -- weltRxInvalid
  ⟨0x108, 32, 2, 0, 1, 0, 1, 0, 0, 0xFFFFFFFF, 0, 0, 0, 0, 0⟩,  -- weltRxMissing
  ⟨0x10C, 32, 2, 0, 1, 0, 1, 0, 0, 0xFFFFFFFF, 0, 0, 0, 0, 0⟩,  -- weltTxFrames
  ⟨0x110, 32, 2, 0, 1, 0, 1, 0, 0, 0xFFFFFFFF, 0, 0, 0, 0, 0⟩,  -- weltEarlyMask
  ⟨0x114, 32, 2, 0, 1, 0, 1, 0, 0, 0xFFFFFFFF, 0, 0, 0, 0, 0⟩,  -- weltLateCut
  ⟨0x118, 32, 2, 0, 1, 0, 1, 0, 0, 0xFFFFFFFF, 0, 0, 0, 0, 0⟩,  -- weltOutOfSlot
  ⟨0x180, 0, 1, 0, 1, 0, 1, 0, 0, 0xFFFFFFFF, 0, 0, 0, 0, 0⟩,  -- weltSyncLow
  ⟨0x184, 0, 1, 0, 1, 0, 1, 0, 0, 0xFFFFFFFF, 0, 0, 0, 0, 0⟩,  -- weltMirrorDiff
  ⟨0x188, 0, 1, 0, 1, 0, 1, 0, 0, 0xFFFFFFFF, 0, 0, 0, 0, 0⟩,  -- weltRejoins
  ⟨0x200, 4, 128, 0, 1, 0, 1, 0, 0, 0, 0, 0, 0xFFFFFFFF, 0, 0xFFFFFFFF⟩,  -- weltAge
  ⟨0x400, 4, 255, 0, 1, 0, 1, 0x3F3FFFFF, 0, 0, 0, 0, 0, 0x3F3FFFFF, 0⟩]  -- weltNodeMap

def rowsPat0 : List RegRow := [
  ⟨0x40, 0, 1, 0, 1, 0, 1, 0xFFFFFFFF, 0, 0, 0, 0, 0, 0, 0⟩,  -- patApplyAt
  ⟨0x44, 0, 1, 0, 1, 0, 1, 0, 0, 0, 0x1, 0, 0x300, 0, 0⟩,  -- patApply
  ⟨0x48, 0, 1, 0, 1, 0, 1, 0, 0, 0, 0, 0, 0x73FF, 0, 0⟩,  -- patCheck
  ⟨0x4C, 0, 1, 0, 1, 0, 1, 0x1, 0, 0, 0, 0, 0, 0, 0⟩,  -- patViewSel
  ⟨0x50, 0, 1, 0, 1, 0, 1, 0, 0, 0, 0, 0, 0xFFFFFFFF, 0, 0⟩]  -- patAppliedAt

def rowsPat1 : List RegRow := [
  ⟨0x0, 8, 512, 0, 1, 0, 1, 0x87FFFFFF, 0, 0, 0, 0, 0, 0, 0⟩,  -- patEditA, word 0
  ⟨0x4, 8, 512, 0, 1, 0, 1, 0x1FFFFF, 0, 0, 0, 0, 0, 0, 0⟩]  -- word 1

def rowsPat2 : List RegRow := [
  ⟨0x0, 8, 512, 0, 1, 0, 1, 0x87FFFFFF, 0, 0, 0, 0, 0, 0, 0⟩,  -- patEditB, word 0
  ⟨0x4, 8, 512, 0, 1, 0, 1, 0x1FFFFF, 0, 0, 0, 0, 0, 0, 0⟩]  -- word 1

def rowsPat3 : List RegRow := [
  ⟨0x0, 8, 512, 0, 1, 0, 1, 0, 0, 0, 0, 0, 0x87FFFFFF, 0x87FFFFFF, 0⟩,  -- patActive, word 0
  ⟨0x4, 8, 512, 0, 1, 0, 1, 0, 0, 0, 0, 0, 0x1FFFFF, 0x1FFFFF, 0⟩]  -- word 1

def rowsEye : List RegRow := [
  ⟨0x40, 0, 1, 0, 1, 0, 1, 0xFFFF, 0, 0, 0, 0, 0, 0xFFFF, 0x1⟩,  -- eyeClkdiv
  ⟨0x44, 0, 1, 0, 1, 0, 1, 0x3F3FF31F, 0, 0, 0, 0, 0, 0x3F3FF31F, 0x20200000⟩,  -- eyeCfg
  ⟨0x48, 0, 1, 0, 1, 0, 1, 0x1F1F, 0, 0, 0, 0, 0x10000, 0x1F1F, 0x1F00⟩,  -- eyeCircuit
  ⟨0x4C, 0, 1, 0, 1, 0, 1, 0x3F, 0, 0, 0, 0, 0, 0x3F, 0⟩,  -- eyeInBase
  ⟨0x50, 0, 1, 0, 1, 0, 1, 0xFFFFFFFF, 0, 0, 0, 0, 0, 0xFFFFFFFF, 0⟩,  -- eyeCountInit
  ⟨0x54, 0, 1, 0, 1, 0, 1, 0, 0, 0, 0xFFFFFFFF, 0, 0, 0, 0⟩,  -- eyeOnce
  ⟨0x58, 0, 1, 0, 1, 0, 1, 0x1, 0, 0, 0, 0, 0, 0x1, 0⟩,  -- eyeSink
  ⟨0x5C, 0, 1, 0, 1, 0, 1, 0x9F3F, 0, 0, 0, 0, 0, 0x9F3F, 0⟩,  -- eyeIrqDb
  ⟨0x60, 4, 8, 0, 1, 0, 1, 0x9F3F, 0, 0, 0, 0, 0, 0x9F3F, 0⟩,  -- eyeDbIn
  ⟨0x80, 0, 1, 0, 1, 0, 1, 0, 0, 0, 0, 0, 0x1FFFFFFF, 0, 0⟩,  -- eyeStatus
  ⟨0x84, 0, 1, 0, 1, 0, 1, 0, 0, 0, 0, 0, 0xFFFFFFFF, 0, 0⟩,  -- eyeRxs
  ⟨0x88, 0, 1, 0, 1, 0, 1, 0, 0, 0, 0, 0, 0xFFFFFFFF, 0, 0⟩,  -- eyeTxs
  ⟨0x8C, 0, 1, 0, 1, 0, 1, 0, 0, 0, 0, 0, 0xFFFFFFFF, 0, 0⟩,  -- eyeCounters
  ⟨0x90, 0, 1, 0, 1, 0, 1, 0, 0, 0, 0, 0, 0x1F1F, 0, 0⟩,  -- eyeFifoLvl
  ⟨0x94, 0, 1, 0, 1, 0, 1, 0, 0, 0, 0, 0, 0xFFFFFFFF, 0, 0⟩,  -- eyeSteps
  ⟨0x98, 0, 1, 0, 1, 0, 1, 0, 0, 0xFFFFFFFF, 0, 0, 0, 0, 0⟩,  -- eyeStalls
  ⟨0x9C, 0, 1, 0, 1, 0, 1, 0, 0, 0xFFFFFFFF, 0, 0, 0, 0, 0⟩,  -- eyeEvMerged
  ⟨0xA0, 0, 1, 0, 1, 0, 1, 0, 0, 0, 0, 0, 0xFFFFFFFF, 0, 0⟩,  -- eyeStampLo
  ⟨0xA4, 0, 1, 0, 1, 0, 1, 0, 0, 0, 0, 0, 0x1FFFFF, 0, 0⟩,  -- eyeStampHi
  ⟨0xA8, 0, 1, 0, 1, 0, 1, 0, 0x8, 0, 0, 0, 0x7, 0, 0⟩,  -- eyeStampStat
  ⟨0xAC, 0, 1, 0, 1, 0, 1, 0, 0, 0, 0, 0, 0xFFFFFFFF, 0, 0⟩,  -- eyeRxh
  ⟨0xB0, 0, 1, 0, 1, 0, 1, 0, 0, 0, 0, 0, 0xFFFFFFFF, 0, 0⟩,  -- eyeTxh
  ⟨0x100, 4, 5, 0, 1, 0, 1, 0xFFFFFFFF, 0, 0, 0, 0, 0, 0, 0⟩,  -- eyeRowStage
  ⟨0x114, 0, 1, 0, 1, 0, 1, 0, 0, 0, 0x1F, 0, 0, 0, 0⟩,  -- eyeRowCommit
  ⟨0x400, 32, 32, 0, 1, 0, 1, 0xFFFF, 0, 0, 0, 0, 0, 0xFFFF, 0⟩,  -- eyeRowSel
  ⟨0x404, 32, 32, 4, 4, 0, 1, 0xFFFFFFFF, 0, 0, 0, 0, 0, 0xFFFFFFFF, 0⟩]  -- eyeRowArc

def rowsEyep : List RegRow := [
  ⟨0x40, 0, 1, 0, 1, 0, 1, 0, 0, 0, 0x1FFFF, 0, 0, 0, 0⟩,  -- eyepStart
  ⟨0x44, 0, 1, 0, 1, 0, 1, 0xFFFF, 0, 0, 0, 0, 0, 0xFFFF, 0⟩,  -- eyepBootSync
  ⟨0x48, 0, 1, 0, 1, 0, 1, 0, 0, 0, 0, 0, 0xFFFFFFFF, 0, 0⟩,  -- eyepYgroup0
  ⟨0x4C, 0, 1, 0, 1, 0, 1, 0, 0, 0, 0, 0, 0xFFFFFFFF, 0, 0⟩,  -- eyepYgroup1
  ⟨0x50, 4, 4, 0, 1, 0, 1, 0x1, 0, 0, 0, 0, 0, 0x1, 0⟩,  -- eyepBank
  ⟨0x60, 0, 1, 0, 1, 0, 1, 0, 0, 0, 0, 0, 0xFFFFFFFF, 0, 0⟩,  -- eyepPinInLo
  ⟨0x64, 0, 1, 0, 1, 0, 1, 0, 0, 0, 0, 0, 0xFFFFFFFF, 0, 0⟩,  -- eyepPinInHi
  ⟨0x100, 4, 64, 0, 1, 0, 1, 0x3FFFFF, 0, 0, 0, 0, 0, 0x3FFFFF, 0x80040⟩]  -- eyepPin

def rowsWcap : List RegRow := [
  ⟨0x40, 0, 1, 0, 1, 0, 1, 0xFF0F7F, 0, 0, 0, 0, 0, 0xFF0F7F, 0xFF0403⟩,  -- wcapCfg
  ⟨0x44, 0, 1, 0, 1, 0, 1, 0xFFFF, 0, 0, 0, 0, 0, 0xFFFF, 0x7840⟩,  -- wcapBuf
  ⟨0x48, 0, 1, 0, 1, 0, 1, 0, 0, 0, 0, 0, 0x3FFFFFF, 0, 0⟩,  -- wcapCapacity
  ⟨0x4C, 0, 1, 0, 1, 0, 1, 0x3FFFFFF, 0, 0, 0, 0, 0, 0x3FFFFFF, 0x30D40⟩,  -- wcapPre
  ⟨0x50, 0, 1, 0, 1, 0, 1, 0x3FFFFFF, 0, 0, 0, 0, 0, 0x3FFFFFF, 0xC3500⟩,  -- wcapPost
  ⟨0x54, 0, 1, 0, 1, 0, 1, 0x9F3F00, 0, 0, 0x1, 0, 0, 0x9F3F00, 0⟩,  -- wcapTrig
  ⟨0x58, 0, 1, 0, 1, 0, 1, 0xFF, 0, 0, 0, 0, 0, 0xFF, 0⟩,  -- wcapReportEng
  ⟨0x5C, 0, 1, 0, 1, 0, 1, 0xFF, 0, 0, 0, 0, 0, 0xFF, 0⟩,  -- wcapReportHost
  ⟨0x60, 0, 1, 0, 1, 0, 1, 0, 0, 0, 0, 0, 0x1F7F3F07, 0, 0⟩,  -- wcapStat
  ⟨0x64, 0, 1, 0, 1, 0, 1, 0, 0, 0, 0, 0, 0xFFFFFFFF, 0, 0⟩,  -- wcapIndexLo
  ⟨0x68, 0, 1, 0, 1, 0, 1, 0, 0, 0, 0, 0, 0xFFFFFFFF, 0, 0⟩,  -- wcapIndexHi
  ⟨0x6C, 0, 1, 0, 1, 0, 1, 0, 0, 0, 0, 0, 0xFFFFFFFF, 0, 0⟩,  -- wcapT0NsLo
  ⟨0x70, 0, 1, 0, 1, 0, 1, 0, 0, 0, 0, 0, 0xFFFFFFFF, 0, 0⟩,  -- wcapT0NsHi
  ⟨0x74, 0, 1, 0, 1, 0, 1, 0, 0, 0, 0, 0, 0xFFFFFFFF, 0, 0⟩,  -- wcapT0Frac
  ⟨0x78, 0, 1, 0, 1, 0, 1, 0, 0, 0, 0, 0, 0xFFFFFFFF, 0, 0⟩,  -- wcapPeriodNs
  ⟨0x7C, 0, 1, 0, 1, 0, 1, 0, 0, 0, 0, 0, 0xFFFFFFFF, 0, 0⟩,  -- wcapPeriodFrac
  ⟨0x80, 0, 1, 0, 1, 0, 1, 0, 0, 0, 0x13F, 0, 0, 0, 0⟩,  -- wcapRelease
  ⟨0x84, 0, 1, 0, 1, 0, 1, 0x3F, 0, 0, 0, 0, 0, 0, 0⟩,  -- wcapExportRec
  ⟨0x88, 0, 1, 0, 1, 0, 1, 0xFFFFFFFF, 0, 0, 0, 0, 0, 0, 0⟩,  -- wcapExportDest
  ⟨0x8C, 0, 1, 0, 1, 0, 1, 0, 0, 0, 0x1, 0, 0xF00, 0, 0⟩,  -- wcapExportCtrl
  ⟨0xA0, 0, 1, 0, 1, 0, 1, 0, 0, 0xFFFFFFFF, 0, 0, 0, 0, 0⟩,  -- wcapTrigLost
  ⟨0xA4, 0, 1, 0, 1, 0, 1, 0, 0, 0xFFFFFFFF, 0, 0, 0, 0, 0⟩,  -- wcapRecLost
  ⟨0xA8, 0, 1, 0, 1, 0, 1, 0, 0, 0xFFFFFFFF, 0, 0, 0, 0, 0⟩,  -- wcapReportLost
  ⟨0xAC, 0, 1, 0, 1, 0, 1, 0, 0, 0xFFFFFFFF, 0, 0, 0, 0, 0⟩,  -- wcapDropped
  ⟨0xC0, 4, 6, 0, 1, 0, 1, 0, 0, 0, 0, 0, 0xFFFFFFFF, 0, 0⟩,  -- wcapBankMap
  ⟨0x100, 32, 8, 0, 1, 0, 1, 0x31F, 0, 0, 0, 0, 0, 0x31F, 0⟩,  -- wcapChCfg
  ⟨0x104, 32, 8, 0, 1, 0, 1, 0x1F, 0, 0, 0, 0, 0, 0x1F, 0x1⟩,  -- wcapChK
  ⟨0x108, 32, 8, 0, 1, 0, 1, 0x1FFFF, 0, 0, 0, 0, 0, 0x1FFFF, 0x3E8⟩,  -- wcapChThresh
  ⟨0x10C, 32, 8, 0, 1, 0, 1, 0xFFFFFF, 0, 0, 0, 0, 0, 0xFFFFFF, 0x2710⟩,  -- wcapChHoldoff
  ⟨0x110, 32, 8, 0, 1, 0, 1, 0xFFFFFFFF, 0, 0, 0, 0, 0, 0xFFFFFFFF, 0⟩,  -- wcapChDelay
  ⟨0x114, 32, 8, 0, 1, 0, 1, 0, 0x3, 0, 0, 0, 0x4, 0, 0⟩,  -- wcapChStat
  ⟨0x118, 32, 8, 0, 1, 0, 1, 0, 0, 0xFFFFFFFF, 0, 0, 0, 0, 0⟩,  -- wcapChFronts
  ⟨0x11C, 32, 8, 0, 1, 0, 1, 0, 0, 0xFFFFFFFF, 0, 0, 0, 0, 0⟩,  -- wcapChSlips
  ⟨0x800, 32, 64, 0, 1, 0, 1, 0, 0, 0, 0, 0, 0xFFFFFFFF, 0, 0⟩,  -- wcapRecFirstLo
  ⟨0x804, 32, 64, 0, 1, 0, 1, 0, 0, 0, 0, 0, 0xFFFFFFFF, 0, 0⟩,  -- wcapRecFirstHi
  ⟨0x808, 32, 64, 0, 1, 0, 1, 0, 0, 0, 0, 0, 0x3FFFFFF, 0, 0⟩,  -- wcapRecTrigOfs
  ⟨0x80C, 32, 64, 0, 1, 0, 1, 0, 0, 0, 0, 0, 0x3FFFFFF, 0, 0⟩,  -- wcapRecLen
  ⟨0x810, 32, 64, 0, 1, 0, 1, 0, 0, 0, 0, 0, 0xFFFFFFFF, 0, 0⟩,  -- wcapRecArrLo
  ⟨0x814, 32, 64, 0, 1, 0, 1, 0, 0, 0, 0, 0, 0xFFFFFFFF, 0, 0⟩,  -- wcapRecArrHi
  ⟨0x818, 32, 64, 0, 1, 0, 1, 0, 0, 0, 0, 0, 0xFFFF3F73, 0, 0⟩]  -- wcapRecInfo

def rowsBank : List RegRow := [
  ⟨0x40, 0, 1, 0, 1, 0, 1, 0xFFFF0001, 0, 0, 0, 0, 0, 0xFFFF0001, 0x3E80001⟩,  -- bankCfg
  ⟨0x44, 0, 1, 0, 1, 0, 1, 0, 0, 0, 0xFFFF, 0, 0, 0, 0⟩,  -- bankHandover
  ⟨0x48, 0, 1, 0, 1, 0, 1, 0, 0, 0, 0xFF, 0, 0, 0, 0⟩,  -- bankAccept
  ⟨0x4C, 0, 1, 0, 1, 0, 1, 0, 0, 0, 0, 0, 0xFF0F, 0, 0⟩,  -- bankHoResult
  ⟨0x50, 0, 1, 0, 1, 0, 1, 0, 0, 0xFFFFFFFF, 0, 0, 0, 0, 0⟩,  -- bankCeTotal
  ⟨0x54, 0, 1, 0, 1, 0, 1, 0, 0, 0xFFFFFFFF, 0, 0, 0, 0, 0⟩,  -- bankUeTotal
  ⟨0x58, 0, 1, 0, 1, 0, 1, 0, 0, 0xFFFFFFFF, 0, 0, 0, 0, 0⟩,  -- bankCollides
  ⟨0x5C, 0, 1, 0, 1, 0, 1, 0, 0, 0, 0, 0, 0x7FFFFF, 0, 0⟩,  -- bankErrLog
  ⟨0x60, 0, 1, 0, 1, 0, 1, 0, 0, 0, 0, 0, 0x7FFFFF, 0, 0⟩,  -- bankCollideLog
  ⟨0x64, 0, 1, 0, 1, 0, 1, 0, 0, 0, 0, 0, 0xFFFFFFFF, 0, 0⟩,  -- bankScrubPasses
  ⟨0x80, 0, 1, 0, 1, 0, 1, 0xFFFFFF, 0, 0, 0, 0, 0, 0xFFFFFF, 0⟩,  -- bankRetGroup
  ⟨0x100, 4, 192, 0, 1, 0, 1, 0x300000, 0, 0, 0, 0, 0xFF0FFFFF, 0x3000FF, 0⟩,  -- bankBankst
  ⟨0x400, 4, 192, 0, 1, 0, 1, 0, 0, 0, 0, 0xFFFFFFFF, 0, 0xFFFFFFFF, 0⟩,  -- bankAllow
  ⟨0x700, 4, 192, 0, 1, 0, 1, 0, 0, 0xFFFFFFFF, 0, 0, 0, 0, 0⟩]  -- bankEcc

def rowsLace : List RegRow := [
  ⟨0x40, 0, 1, 0, 1, 0, 1, 0x1, 0, 0, 0, 0, 0, 0, 0⟩,  -- laceCfg
  ⟨0x44, 0, 1, 0, 1, 0, 1, 0xFFFF, 0, 0, 0, 0, 0, 0xFFFF, 0x64⟩,  -- laceMwTime
  ⟨0x48, 4, 4, 0, 1, 0, 1, 0, 0xFFFFFFFF, 0, 0, 0, 0, 0, 0⟩,  -- laceEmptyPend
  ⟨0x58, 4, 2, 0, 1, 0, 1, 0, 0xFFFFFFFF, 0, 0, 0, 0, 0, 0⟩,  -- laceMwPend
  ⟨0xC0, 4, 16, 0, 1, 0, 1, 0, 0, 0, 0, 0, 0xFFFFFFFF, 0, 0⟩,  -- laceEpoch
  ⟨0x100, 4, 64, 0, 1, 0, 1, 0x1F3F07, 0, 0, 0, 0, 0, 0x1F3F07, 0⟩,  -- laceRoute
  ⟨0x200, 16, 64, 0, 1, 0, 1, 0x1FFFF, 0, 0, 0, 0, 0, 0x1FFFF, 0⟩,  -- laceChCfg
  ⟨0x204, 16, 64, 0, 1, 0, 1, 0x9F3F, 0, 0, 0, 0, 0, 0x9F3F, 0⟩,  -- laceChNoteA
  ⟨0x208, 16, 64, 0, 1, 0, 1, 0x9F3F, 0, 0, 0, 0, 0, 0x9F3F, 0⟩,  -- laceChNoteB
  ⟨0x20C, 16, 64, 0, 1, 0, 1, 0, 0, 0, 0, 0, 0x7FFF, 0, 0⟩,  -- laceChStat
  ⟨0x600, 32, 64, 16, 2, 0, 1, 0, 0, 0, 0xFFFFFFFF, 0, 0, 0, 0⟩,  -- laceTx
  ⟨0x604, 32, 64, 16, 2, 0, 1, 0, 0, 0, 0xFFFFFFFF, 0, 0, 0, 0⟩,  -- laceTxlast
  ⟨0x608, 32, 64, 16, 2, 0, 1, 0, 0, 0, 0, 0, 0xFFFFFFFF, 0, 0⟩,  -- laceRx
  ⟨0x60C, 32, 64, 16, 2, 0, 1, 0, 0, 0, 0, 0, 0xF, 0, 0⟩,  -- laceRxinfo
  ⟨0xE00, 4, 64, 0, 1, 0, 1, 0, 0xFFFFFFFF, 0, 0, 0, 0, 0, 0⟩,  -- laceDb
  ⟨0xF00, 4, 64, 0, 1, 0, 1, 0, 0, 0, 0xFFFFFFFF, 0, 0, 0, 0⟩]  -- laceDbSet

def rowsPcie : List RegRow := [
  ⟨0x40, 0, 1, 0, 1, 0, 1, 0x77, 0, 0, 0, 0, 0, 0x77, 0x44⟩,  -- pcieCfg
  ⟨0x44, 0, 1, 0, 1, 0, 1, 0, 0, 0, 0, 0, 0x77, 0, 0⟩,  -- pcieLink
  ⟨0x48, 0, 1, 0, 1, 0, 1, 0, 0, 0, 0, 0, 0x7, 0, 0⟩,  -- pcieBar2Err
  ⟨0x4C, 0, 1, 0, 1, 0, 1, 0, 0, 0, 0, 0, 0xFFFFFFFF, 0, 0⟩,  -- pcieBar2ErrAddr
  ⟨0x50, 0, 1, 0, 1, 0, 1, 0, 0, 0xFFFFFFFF, 0, 0, 0, 0, 0⟩,  -- pcieBar2ErrCount
  ⟨0x54, 0, 1, 0, 1, 0, 1, 0, 0, 0, 0, 0, 0xFFFF, 0, 0⟩,  -- pciePerstCount
  ⟨0x100, 32, 8, 0, 1, 0, 1, 0x1, 0, 0, 0, 0, 0, 0, 0⟩,  -- pcieDmaCtrl
  ⟨0x104, 32, 8, 0, 1, 0, 1, 0xFFFFFFFF, 0, 0, 0, 0, 0, 0, 0⟩,  -- pcieDmaRingLo
  ⟨0x108, 32, 8, 0, 1, 0, 1, 0xFFFFFFFF, 0, 0, 0, 0, 0, 0, 0⟩,  -- pcieDmaRingHi
  ⟨0x10C, 32, 8, 0, 1, 0, 1, 0x1FFF, 0, 0, 0, 0, 0, 0, 0⟩,  -- pcieDmaRingSize
  ⟨0x110, 32, 8, 0, 1, 0, 1, 0xFFF, 0, 0, 0, 0, 0, 0, 0⟩,  -- pcieDmaTail
  ⟨0x114, 32, 8, 0, 1, 0, 1, 0, 0, 0, 0, 0, 0xFFF, 0, 0⟩,  -- pcieDmaHead
  ⟨0x118, 32, 8, 0, 1, 0, 1, 0, 0, 0, 0, 0, 0xF3, 0, 0⟩,  -- pcieDmaStat
  ⟨0x11C, 32, 8, 0, 1, 0, 1, 0, 0, 0xFFFFFFFF, 0, 0, 0, 0, 0⟩,  -- pcieDmaDone
  ⟨0x800, 4, 256, 0, 1, 0, 1, 0xFFFFFFFF, 0, 0, 0, 0, 0, 0, 0⟩,  -- MSI-X table
  ⟨0xC00, 4, 2, 0, 1, 0, 1, 0, 0, 0, 0, 0, 0xFFFFFFFF, 0, 0⟩]  -- MSI-X PBA

def rowsHostb : List RegRow := [
  ⟨0x40, 0, 1, 0, 1, 0, 1, 0xFF, 0, 0, 0, 0, 0, 0xFF, 0x20⟩,  -- hostbCfg
  ⟨0x44, 0, 1, 0, 1, 0, 1, 0, 0, 0, 0, 0, 0x3F0F, 0, 0⟩,  -- hostbLastStatus
  ⟨0x48, 0, 1, 0, 1, 0, 1, 0, 0, 0xFFFFFFFF, 0, 0, 0, 0, 0⟩,  -- hostbCrcErrors
  ⟨0x4C, 0, 1, 0, 1, 0, 1, 0, 0, 0xFFFFFFFF, 0, 0, 0, 0, 0⟩,  -- hostbAborted
  ⟨0x50, 0, 1, 0, 1, 0, 1, 0, 0, 0, 0, 0, 0xFFFFFFFF, 0, 0⟩]  -- hostbFrames

def rowsSup : List RegRow := [
  ⟨0x40, 0, 1, 0, 1, 0, 1, 0, 0, 0, 0, 0x1FFFF, 0, 0x1FFFF, 0xFFF0⟩,  -- supKeyPolicy
  ⟨0x44, 0, 1, 0, 1, 0, 1, 0, 0, 0, 0, 0x1, 0, 0x1, 0⟩,  -- supDebugEn
  ⟨0x48, 0, 1, 0, 1, 0, 1, 0, 0, 0, 0, 0, 0xFF, 0, 0⟩,  -- supKeyStat
  ⟨0x4C, 0, 1, 0, 1, 0, 1, 0, 0, 0, 0xFF, 0, 0, 0, 0⟩,  -- supSvcCmd
  ⟨0x50, 0, 1, 0, 1, 0, 1, 0, 0, 0, 0, 0, 0xFFF1, 0, 0⟩,  -- supSvcStat
  ⟨0x54, 0, 1, 0, 1, 0, 1, 0, 0, 0, 0, 0, 0xFFFFFFFF, 0, 0⟩,  -- supRefuseName
  ⟨0x58, 0, 1, 0, 1, 0, 1, 0, 0, 0, 0, 0, 0xFFFF000F, 0, 0⟩,  -- supRefuseInfo
  ⟨0x60, 4, 4, 0, 1, 0, 1, 0xFFFFFFFF, 0, 0, 0, 0, 0, 0, 0⟩,  -- supSvcArg
  ⟨0x70, 0, 1, 0, 1, 0, 1, 0xFFFF, 0, 0, 0, 0, 0, 0xFFFF, 0x64⟩,  -- supWdog
  ⟨0x74, 0, 1, 0, 1, 0, 1, 0, 0, 0, 0, 0, 0xFFFF, 0, 0⟩,  -- supRestarts
  ⟨0x100, 4, 64, 0, 1, 0, 1, 0, 0, 0, 0, 0, 0x7F, 0, 0⟩]  -- supSvn

def rowsFlash : List RegRow := [
  ⟨0x40, 0, 1, 0, 1, 0, 1, 0xF01F3, 0, 0, 0, 0, 0, 0xF01F3, 0x30080⟩,  -- flashCfg
  ⟨0x44, 0, 1, 0, 1, 0, 1, 0x1FF03FF, 0, 0, 0, 0, 0, 0, 0⟩,  -- flashCmdOp
  ⟨0x48, 0, 1, 0, 1, 0, 1, 0xFFFFFFFF, 0, 0, 0, 0, 0, 0, 0⟩,  -- flashCmdAddr
  ⟨0x4C, 0, 1, 0, 1, 0, 1, 0, 0, 0, 0x1, 0, 0, 0, 0⟩,  -- flashCmdGo
  ⟨0x50, 0, 1, 0, 1, 0, 1, 0, 0x2, 0, 0, 0, 0x1, 0, 0⟩,  -- flashCmdStat
  ⟨0x100, 4, 64, 0, 1, 0, 1, 0xFFFFFFFF, 0, 0, 0, 0, 0, 0, 0⟩]  -- flashData

def rowsFlt : List RegRow := [
  ⟨0x40, 0, 1, 0, 1, 0, 1, 0xFFFF0001, 0, 0, 0, 0, 0, 0xFFFF0001, 0x640000⟩,  -- fltCfg
  ⟨0x44, 0, 1, 0, 1, 0, 1, 0, 0, 0, 0, 0, 0x3F, 0, 0⟩,  -- fltHead
  ⟨0x48, 0, 1, 0, 1, 0, 1, 0, 0, 0, 0, 0, 0xFFFFFFFF, 0, 0⟩,  -- fltSeqNext
  ⟨0x4C, 0, 1, 0, 1, 0, 1, 0, 0xF, 0, 0, 0, 0, 0, 0⟩,  -- fltWorst
  ⟨0x50, 0, 1, 0, 1, 0, 1, 0, 0, 0, 0, 0, 0x3FF, 0, 0⟩,  -- fltDegraded
  ⟨0x54, 0, 1, 0, 1, 0, 1, 0, 0x3FF, 0, 0, 0, 0, 0, 0⟩,  -- fltDegradedEvt
  ⟨0x58, 0, 1, 0, 1, 0, 1, 0, 0, 0, 0, 0, 0x3, 0, 0⟩,  -- fltSup
  ⟨0x5C, 0, 1, 0, 1, 0, 1, 0x2, 0, 0, 0, 0, 0x1, 0, 0x1⟩,  -- fltFaultn
  ⟨0x60, 4, 4, 0, 1, 0, 1, 0, 0, 0xFFFFFFFF, 0, 0, 0, 0, 0⟩,  -- fltCountC
  ⟨0x70, 0, 1, 0, 1, 0, 1, 0, 0, 0xFFFFFFFF, 0, 0, 0, 0, 0⟩,  -- fltOverwritten
  ⟨0x80, 0, 1, 0, 1, 0, 1, 0xFFFFFF0F, 0, 0, 0, 0, 0, 0, 0⟩,  -- fltInjTarget
  ⟨0x84, 0, 1, 0, 1, 0, 1, 0xFFFFFFFF, 0, 0, 0, 0, 0, 0, 0⟩,  -- fltInjAddr
  ⟨0x88, 0, 1, 0, 1, 0, 1, 0, 0, 0, 0x3, 0, 0, 0, 0⟩,  -- fltInjGo
  ⟨0x8C, 0, 1, 0, 1, 0, 1, 0, 0x2, 0, 0, 0, 0x5, 0, 0⟩,  -- fltInjStat
  ⟨0x800, 32, 64, 4, 8, 0, 1, 0, 0, 0, 0, 0, 0xFFFFFFFF, 0, 0⟩]  -- fltRec


/-- The block of a page, its number among blocks of its kind, and which page of the block it is (Table 2-10). -/
def blkOf (p : Nat) : Option (Blk × Nat × Nat) :=
  if p = 0x000 then some (.dev, 0, 0) else if p = 0x001 then some (.clk, 0, 0)
  else if p = 0x002 then some (.rst, 0, 0) else if p = 0x003 then some (.insole, 0, 0)
  else if p = 0x004 then some (.prot, 0, 0) else if p = 0x005 then some (.irqa, 0, 0)
  else if p = 0x006 then some (.flt, 0, 0)
  else if 0x010 ≤ p ∧ p ≤ 0x027 then some (.mac, p - 0x010, 0)
  else if 0x030 ≤ p ∧ p ≤ 0x047 then some (.lane, p - 0x030, 0)
  else if p = 0x050 then some (.swc, 0, 0) else if p = 0x051 then some (.fdb, 0, 0)
  else if p = 0x052 then some (.strm, 0, 0)
  else if 0x060 ≤ p ∧ p ≤ 0x077 then some (.swq, p - 0x060, 0)
  else if p = 0x080 then some (.tb, 0, 0)
  else if 0x081 ≤ p ∧ p ≤ 0x083 then some (.htb, p - 0x081, 0)
  else if p = 0x084 then some (.view, 0, 0) else if p = 0x085 then some (.evt, 0, 0)
  else if p = 0x086 then some (.tread, 0, 0) else if p = 0x087 then some (.ptpa, 0, 0)
  else if 0x090 ≤ p ∧ p ≤ 0x0A1 then some (.pe, p - 0x090, 0)
  else if p = 0x0A8 then some (.fab, 0, 0) else if p = 0x0A9 then some (.ddu, 0, 0)
  else if p = 0x0B0 then some (.shank, 0, 0)
  else if 0x0B1 ≤ p ∧ p ≤ 0x0B2 then some (.shch, 0, p - 0x0B1)
  else if 0x0C0 ≤ p ∧ p ≤ 0x0C1 then some (.welt, p - 0x0C0, 0)
  else if 0x0C8 ≤ p ∧ p ≤ 0x0CF then some (.pat, (p - 0x0C8) / 4, (p - 0x0C8) % 4)
  else if 0x0D0 ≤ p ∧ p ≤ 0x0DF then some (.eye, p - 0x0D0, 0)
  else if p = 0x0E0 then some (.eyep, 0, 0) else if p = 0x0E8 then some (.wcap, 0, 0)
  else if p = 0x0F0 then some (.bank, 0, 0) else if p = 0x0F1 then some (.lace, 0, 0)
  else if p = 0x100 then some (.pcie, 0, 0) else if p = 0x101 then some (.hostb, 0, 0)
  else if p = 0x102 then some (.sup, 0, 0) else if p = 0x103 then some (.flash, 0, 0)
  else none

/-- Type code of a block (Table 2-10). -/
def blkType : Blk → Nat
  | .dev => 0x0001 | .clk => 0x0002 | .rst => 0x0003 | .insole => 0x0004 | .prot => 0x0005 | .irqa => 0x0006
  | .flt => 0x0007 | .mac => 0x0010 | .lane => 0x0011 | .swc => 0x0020 | .fdb => 0x0021 | .strm => 0x0022
  | .swq => 0x0023 | .tb => 0x0030 | .htb => 0x0031 | .view => 0x0032 | .evt => 0x0033 | .tread => 0x0034
  | .ptpa => 0x0035 | .pe => 0x0040 | .fab => 0x0041 | .ddu => 0x0042 | .shank => 0x0050 | .shch => 0x0051
  | .welt => 0x0060 | .pat => 0x0061 | .eye => 0x0070 | .eyep => 0x0071 | .wcap => 0x0078 | .bank => 0x0080
  | .lace => 0x0081 | .pcie => 0x0090 | .hostb => 0x0091 | .sup => 0x0092 | .flash => 0x0093

/-- The rows of a block's own registers on its page `sub`; the header rows stand before them on page 0 (R44). -/
def blkRows : Blk → Nat → List RegRow
  | .dev, _ => rowsDev | .clk, _ => rowsClk | .rst, _ => rowsRst | .insole, _ => rowsInsole | .prot, _ => rowsProt
  | .irqa, _ => rowsIrqa | .flt, _ => rowsFlt | .mac, _ => rowsMac | .lane, _ => rowsLane | .swc, _ => rowsSwc
  | .fdb, _ => rowsFdb | .strm, _ => rowsStrm | .swq, _ => rowsSwq | .tb, _ => rowsTb | .htb, _ => rowsHtb
  | .view, _ => rowsView | .evt, _ => rowsEvt | .tread, _ => rowsTread | .ptpa, _ => rowsPtpa | .pe, _ => rowsPe
  | .fab, _ => rowsFab | .ddu, _ => rowsDdu | .shank, _ => rowsShank | .shch, 0 => rowsShch | .shch, _ => rowsShchB
  | .welt, _ => rowsWelt | .pat, 0 => rowsPat0 | .pat, 1 => rowsPat1 | .pat, 2 => rowsPat2 | .pat, _ => rowsPat3
  | .eye, _ => rowsEye | .eyep, _ => rowsEyep | .wcap, _ => rowsWcap | .bank, _ => rowsBank | .lace, _ => rowsLace
  | .pcie, _ => rowsPcie | .hostb, _ => rowsHostb | .sup, _ => rowsSup | .flash, _ => rowsFlash

/-- Whether a row covers an offset of its page. -/
def RegRow.hits (r : RegRow) (o : Nat) : Bool :=
  let x := o - r.off
  let i := if r.s1 = 0 then 0 else min (x / r.s1) (r.n1 - 1)
  let x := x - i * r.s1
  let j := if r.s2 = 0 then 0 else min (x / r.s2) (r.n2 - 1)
  let x := x - j * r.s2
  let k := if r.s3 = 0 then 0 else min (x / r.s3) (r.n3 - 1)
  decide (r.off ≤ o) && x == k * r.s3

/-- Registers that a table lists and its notes reserve: MDIO_BUS off LANE[0] and LANE[1] (Table 4-5), slots 8 and 9 of
SWQ[22] and SWQ[23] (Table 5-13), FOLLOW of generators 0 and 1 (Table 7-5). The model takes them, and the reserved offsets
0x030-0x03F of a header, as offsets that no page map defines (R41). DESIGN CHOICE, assumption row 174. -/
def reservedReg (b : Blk) (n o : Nat) : Bool :=
  match b with
  | .lane => o == 0x080 && decide (2 ≤ n)
  | .swq => decide (22 ≤ n ∧ 0x300 ≤ o)
  | .tread => o == 0x164 || o == 0x1E4
  | _ => false

/-- The row of a register, none where no page map defines one (R41). -/
def regRow (a : Nat) : Option RegRow :=
  let o := a % 0x1000
  match blkOf (a / 0x1000) with
  | none => none
  | some (b, n, sub) =>
    if reservedReg b n o then none
    else if sub = 0 ∧ o < 0x40 then rowsHdr.find? (RegRow.hits · o)
    else (blkRows b sub).find? (RegRow.hits · o)

/-- Control pages, always ON (R95). -/
def isControl : Blk → Bool
  | .dev | .clk | .rst | .insole | .prot => true
  | _ => false

/-- Factory CTRL.EN of a page (R95, R145, R184 and the start rule of each block). -/
def factoryEn : Blk → Bool
  | .pe | .welt | .eye | .wcap => false
  | _ => true

/-- The pages PE0-PE17 may write by factory ACL (Table 2-6), as word `w` of an ACL row. -/
def peAclWord (w : Nat) : Nat :=
  if w = 2 then 0x00060000 else if w = 3 then 0x00FFFFFF else if w = 4 then 0x000000F0
  else if w = 5 then 0x00020000 else if w = 7 then 0x00020000 else 0

/-- The part of a register's value after reset that depends on which register of an array it is. -/
def resetByIndex (b : Blk) (n o : Nat) : Nat :=
  match b with
  | .irqa =>
    if 0x400 ≤ o ∧ o < 0x900 then
      let p := (o - 0x400) / 4
      p % 64 + (if p ≤ 6 ∨ p = 0x102 then 0x400 else 0)
    else 0
  | .prot =>
    if 0x200 ≤ o ∧ o < 0x740 then
      let i := (o - 0x200) / 0x40
      if i < 3 then 0xFFFFFFFF else peAclWord (o % 0x40 / 4)
    else 0
  | .mac => if o = 0x050 then n + (if 12 ≤ n then 0x20 else 0) else 0
  | .lane => if o = 0x040 then (if n = 20 ∨ n = 21 then 5 else 2) else 0
  | .swq =>
    if 0x060 ≤ o ∧ o < 0x0A0 then
      let k := (o - 0x060) / 4
      k / 2 + k % 2 * 0x10
    else if 0x100 ≤ o ∧ o % 0x40 = 0 then
      let q := (o - 0x100) / 0x40
      if q < 8 then 16 else if n < 18 then 32 else 64
    else 0
  | .view => if o = 0x128 then 2 else if o = 0x168 then 4 else 0
  | .tread => if o = 0x200 then 2 else 0
  | .ptpa => if o = 0x050 then 0x80002000 else 0
  | .welt => if o = 0x074 then (if n = 0 then 184 else 188) else 0
  | .wcap => if 0x100 ≤ o ∧ o < 0x200 ∧ o % 0x20 = 0 then (o - 0x100) / 0x20 * 2 else 0
  | .bank =>
    if 0x100 ≤ o ∧ o < 0x180 then 0x20
    else if 0x400 ≤ o ∧ o < 0x480 then 0xE1
    else if 0x480 ≤ o ∧ o < 0x500 then 0x03FFFFE0
    else if 0x500 ≤ o ∧ o < 0x700 then 0x03FFFFFA
    else 0
  | _ => 0

/-- What a header register adds to its row: the identity (Tables 2-1, 2-10), and on a control page EN = 1 (R95). -/
def resetHdr (b : Blk) (n o : Nat) : Nat :=
  if o = 0x000 then blkType b * 0x10000 + n * 0x100 + 1
  else if isControl b then (if o = 0x008 then 1 else 0)
  else 0

/-- Value after reset of a register of the register space. -/
def addrReset (a : Nat) : Word :=
  match blkOf (a / 0x1000), regRow a with
  | some (b, n, sub), some r =>
    let o := a % 0x1000
    if sub = 0 ∧ o < 0x40 then r.rst + BitVec.ofNat 32 (resetHdr b n o)
    else r.rst + BitVec.ofNat 32 (resetByIndex b n (o + sub * 0x1000))
  | _, _ => 0

/-- Address a register key stands for: the copies of principals and the words of the SHCH window (Tables 11-8, 11-9)
fold onto the register that shows them. -/
def keyAddr (k : Nat) : Nat :=
  if k < 0x40000000 then k % 0x1000000
  else if k < 0x50000000 then 0xB1000 + (k - 0x40000000) % 0x2000
  else k % 0x1000000

/-- What a register key that `State.regs` does not list reads as: its value after reset, factory values for retained
fields (R47, R99). DESIGN CHOICE, assumption row 7; DEDUCED, assumption row 8. -/
def regReset (k : Nat) : Word := addrReset (keyAddr k)

end Sys2Proof.Machine
end

