-- ==== Sys2Proof/Machine/Ops.lean ====
section
/-! DEFINITION. Shared operations over the state: sparse data, registers and fields, counters, the page header, interrupt
and error bits, access rights, memory bytes, free values, and what leaves the device. -/
namespace Sys2Proof.Machine

section Sparse
variable {α : Type}

/-- Value at a key, `d` where none is listed. -/
def Sparse.rd (d : α) : Sparse α → Nat → α
  | [], _ => d
  | e :: t, k => if e.1 = k then e.2 else Sparse.rd d t k

/-- The list without an entry for `k`. -/
def Sparse.del (m : Sparse α) (k : Nat) : Sparse α := m.filter fun e => e.1 != k

/-- The list with an entry for `k` put in its place. -/
def Sparse.put : Sparse α → Nat → α → Sparse α
  | [], k, v => [(k, v)]
  | e :: t, k, v => if e.1 < k then e :: Sparse.put t k v else (k, v) :: Sparse.del (e :: t) k

/-- Write that keeps the canonical form: writing the value an unlisted key reads as removes the entry. -/
def Sparse.wr [DecidableEq α] (d : α) (m : Sparse α) (k : Nat) (v : α) : Sparse α :=
  if v = d then m.del k else m.put k v

/-- Keys strictly rising from `lo`, no entry equal to what its key reads as when unlisted. -/
def Sparse.wfFrom [DecidableEq α] (d : Nat → α) (lo : Nat) : Sparse α → Bool
  | [] => true
  | (k, v) :: t => decide (lo ≤ k) && decide (v ≠ d k) && Sparse.wfFrom d (k + 1) t

/-- The canonical form. -/
def Sparse.wf [DecidableEq α] (d : Nat → α) (m : Sparse α) : Bool := m.wfFrom d 0

end Sparse

/-! ## DCQs (R18-R24) -/

/-- The DCQs on data paths (Table 1-3). -/
inductive Dcq where
  | portIngress | portEgress | laneIn | laneOut | delivery | injection | bufferRequest | bufferData
  | hostARequest | hostACompletion | hostB | ringDrop | ringReturn | ingressStamp | egressStamp
  | eyeletIn | eyeletOut | shankSample | shankOutput | weltReceive | weltTransmit | hubRepeat
deriving DecidableEq, Repr

/-- Depth of a DCQ, which is the number of credits its producer holds at reset (R20, Table 1-3). Where no register and no
command shows what a DCQ holds, its words are delivered within the command that writes them.
DESIGN CHOICE, assumption row 170. -/
def dcqDepth : Dcq → Nat
  | .portIngress | .laneIn | .laneOut | .hostB | .hubRepeat => 8
  | .portEgress | .delivery | .injection | .eyeletIn | .eyeletOut | .weltReceive | .weltTransmit => 16
  | .bufferRequest | .bufferData => 32
  | .hostARequest | .hostACompletion | .shankSample | .shankOutput => 64
  | .ringDrop | .ringReturn | .ingressStamp | .egressStamp => 4

/-- The producer of a DCQ that holds `n` words has a credit (R20). -/
def dcqCredit (q : Dcq) (n : Nat) : Bool := decide (n < dcqDepth q)

/-! ## Bits -/

/-- Bits [lo + width - 1 : lo] of a word as a number. -/
def bitsOf (w : Word) (lo width : Nat) : Nat := (w.toNat >>> lo) % 2 ^ width

/-- The word with bits [lo + width - 1 : lo] replaced by the low bits of `v`. -/
def withBits (w : Word) (lo width v : Nat) : Word :=
  let m : Word := BitVec.ofNat 32 ((2 ^ width - 1) <<< lo)
  (w &&& ~~~m) ||| (BitVec.ofNat 32 ((v % 2 ^ width) <<< lo))

/-- Bit `i` of a number. -/
def bitN (v i : Nat) : Bool := (v >>> i) % 2 == 1

/-- Two's complement value of the low `width` bits of `v`. -/
def signedN (width v : Nat) : Int :=
  let x := v % 2 ^ width
  if 2 * x < 2 ^ width then (x : Int) else (x : Int) - (2 ^ width : Nat)

/-- The low `width` bits of an integer. -/
def wrapN (width : Nat) (v : Int) : Nat := (v % ((2 ^ width : Nat) : Int)).toNat

/-- Saturating sum. -/
def satAdd (lim a b : Nat) : Nat := if a + b ≤ lim then a + b else lim

/-! ## Registers and fields -/

/-- The word of a register. -/
def State.reg (s : State) (k : Nat) : Word := s.regs.rd (regReset k) k

/-- The state with a register set. -/
def State.setReg (s : State) (k : Nat) (w : Word) : State := { s with regs := s.regs.wr (regReset k) k w }

/-- A field as a number. -/
def State.get (s : State) (f : Field) : Nat := bitsOf (s.reg f.key) f.lo f.width

/-- A field of one bit. -/
def State.bit (s : State) (f : Field) : Bool := s.get f != 0

/-- A field read as a two's complement number (R10). -/
def State.geti (s : State) (f : Field) : Int := signedN f.width (s.get f)

/-- The state with a field set to the low bits of `v`. -/
def State.put (s : State) (f : Field) (v : Nat) : State := s.setReg f.key (withBits (s.reg f.key) f.lo f.width v)

/-- The state with a one-bit field set. -/
def State.putb (s : State) (f : Field) (v : Bool) : State := s.put f (if v then 1 else 0)

/-- Sets bits of a register. -/
def State.orReg (s : State) (k : Nat) (w : Word) : State := s.setReg k (s.reg k ||| w)

/-- Clears bits of a register. -/
def State.andnReg (s : State) (k : Nat) (w : Word) : State := s.setReg k (s.reg k &&& ~~~w)

/-- Adds to a 32-bit counter that saturates at 0xFFFF_FFFF. -/
def State.count (s : State) (k : Nat) (n : Nat := 1) : State :=
  s.setReg k (BitVec.ofNat 32 (satAdd 0xFFFFFFFF (s.reg k).toNat n))

/-- Adds to a counter field that saturates. -/
def State.countF (s : State) (f : Field) (n : Nat := 1) : State := s.put f (satAdd (2 ^ f.width - 1) (s.get f) n)

/-- Adds to a 32-bit counter that wraps. -/
def State.countWrap (s : State) (k : Nat) (n : Nat := 1) : State := s.setReg k (s.reg k + BitVec.ofNat 32 n)

/-- A word as a number. -/
def State.rn (s : State) (k : Nat) : Nat := (s.reg k).toNat

/-! ## Principals and blocks -/

/-- Index of a principal in PROT.ACL (R60). -/
def pIdx : Principal → Nat
  | .ha => 0
  | .hb => 1
  | .sup => 2
  | .pe n => 3 + n.val

/-- Code of a principal (R57). -/
def pCode : Principal → Nat
  | .ha => 0x30
  | .hb => 0x31
  | .sup => 0x3F
  | .pe n => 0x01 + n.val

/-- Principal of an owner code, none for NONE, block and reserved codes (Table 2-11). -/
def codePrincipal (c : Nat) : Option Principal :=
  if c = 0x30 then some .ha else if c = 0x31 then some .hb else if c = 0x3F then some .sup
  else if h : 1 ≤ c ∧ c ≤ 18 then some (.pe ⟨c - 1, by omega⟩) else none

def pgDev : Nat := 0x000
def pgClk : Nat := 0x001
def pgRst : Nat := 0x002
def pgInsole : Nat := 0x003
def pgProt : Nat := 0x004
def pgIrqa : Nat := 0x005
def pgFlt : Nat := 0x006
def pgMac (n : Nat) : Nat := 0x010 + n
def pgLane (n : Nat) : Nat := 0x030 + n
def pgSwc : Nat := 0x050
def pgFdb : Nat := 0x051
def pgStrm : Nat := 0x052
def pgSwq (n : Nat) : Nat := 0x060 + n
def pgTb : Nat := 0x080
def pgHtb (n : Nat) : Nat := 0x081 + n
def pgView : Nat := 0x084
def pgEvt : Nat := 0x085
def pgTread : Nat := 0x086
def pgPtpa : Nat := 0x087
def pgPe (n : Nat) : Nat := 0x090 + n
def pgFab : Nat := 0x0A8
def pgDdu : Nat := 0x0A9
def pgShank : Nat := 0x0B0
def pgShch : Nat := 0x0B1
def pgWelt (n : Nat) : Nat := 0x0C0 + n
def pgPat (n : Nat) : Nat := 0x0C8 + 4 * n
def pgEye (n : Nat) : Nat := 0x0D0 + n
def pgEyep : Nat := 0x0E0
def pgWcap : Nat := 0x0E8
def pgBank : Nat := 0x0F0
def pgLace : Nat := 0x0F1
def pgPcie : Nat := 0x100
def pgHostb : Nat := 0x101
def pgSup : Nat := 0x102
def pgFlash : Nat := 0x103

/-- First pages of the blocks, each with a header (Table 2-10), in ascending order. -/
def headerPages : List Nat :=
  (List.range 7) ++ (List.range 24).map pgMac ++ (List.range 24).map pgLane ++ [pgSwc, pgFdb, pgStrm]
    ++ (List.range 24).map pgSwq ++ [pgTb] ++ (List.range 3).map pgHtb ++ [pgView, pgEvt, pgTread, pgPtpa]
    ++ (List.range 18).map pgPe ++ [pgFab, pgDdu, pgShank, pgShch] ++ [pgWelt 0, pgWelt 1, pgPat 0, pgPat 1]
    ++ (List.range 16).map pgEye ++ [pgEyep, pgWcap, pgBank, pgLace, pgPcie, pgHostb, pgSup, pgFlash]

/-- First page of the block that holds a page: the page of its header and of its ACL bit (R44, R60). -/
def firstPage (p : Nat) : Nat :=
  match blkOf p with
  | some (_, _, sub) => p - sub
  | none => p

def stOff : Nat := 0
def stStarting : Nat := 1
def stOn : Nat := 2
def stStopping : Nat := 3
def stFault : Nat := 4
def stTakenOver : Nat := 5

/-- STATE of the block at a first page (Table 2-1). -/
def State.st (s : State) (p : Nat) : Nat := s.get (hdrStateState p)

/-- The block reads ON. -/
def State.on (s : State) (p : Nat) : Bool := s.st p == stOn

/-- Sets a bit of IRQ_RAW of a page (R52). -/
def State.irq' (s : State) (p bit : Nat) : State := s.orReg (hdrIrqRaw p) (BitVec.ofNat 32 (1 <<< bit))

/-- Sets a bit of ERR_CAUSE of a page (R45). -/
def State.err (s : State) (p bit : Nat) : State := s.orReg (hdrErrCause p) (BitVec.ofNat 32 (1 <<< bit))

def errWidth : Nat := 0
def errAcl : Nat := 1
def errStageRefused : Nat := 2
def errStartTimeout : Nat := 3
def errStopTimeout : Nat := 4
def errRestoreConflict : Nat := 5
def errRoWrite : Nat := 6

/-- Moves STATE; the pending bits clear and STATE_CHG is raised (R48). -/
def State.moveTo (s : State) (p st : Nat) : State := (s.setReg (hdrState p) (BitVec.ofNat 32 st)).irq' p 0

/-- The page's request to IRQA: IRQ_PEND is non-zero (R52). -/
def State.pageReq (s : State) (p : Nat) : Bool := s.reg (hdrIrqRaw p) &&& s.reg (hdrIrqEn p) != 0

/-- The boot sequence has completed (R92). -/
def State.booted (s : State) : Bool := s.bit devBootDone

/-- The supervisor is lost (R533). -/
def State.supLost (s : State) : Bool := s.bit fltSupLost

/-- The supervisor restarts (R533). -/
def State.supRestarting (s : State) : Bool := s.bit fltSupRestarting

/-- The engine whose role an engine runs: the one it serves, else itself (R296). DEDUCED, assumption row 72. -/
def State.roleOf (s : State) (e : Nat) : Nat := if s.get (peServeServes e) = 31 then e else s.get (peServeServes e)

/-- The engine that runs the role of engine n: its spare, else itself. -/
def State.serverOf (s : State) (n : Nat) : Nat :=
  if s.get (peServeServedBy n) = 31 then n else s.get (peServeServedBy n)

/-- ACL row a principal is checked against: a serving spare is checked against the row of the engine served (R60, R296). -/
def State.aclRow (s : State) : Principal → Nat
  | .pe n => 3 + s.roleOf n.val
  | p => pIdx p

/-- The principal's ACL permits writes to a page (R60); SUP holds every page. -/
def State.mayWrite (s : State) (p : Principal) (page : Nat) : Bool :=
  let f := firstPage page
  p == .sup || bitN (s.rn (protAcl (s.aclRow p) (f / 32))) (f % 32)

/-- A write refused under R61. -/
def State.deny (s : State) (p : Principal) (a : Nat) : State :=
  let s := s.err (firstPage (a / 0x1000)) errAcl
  let s := s.put protDenyAddrAddr a
  (s.put protDenyInfoPrincipal (pCode p)).countF protDenyInfoCount

/-- An access to an address no page map defines (R41). -/
def State.unmapped (s : State) (p : Principal) (a : Nat) : State :=
  s.setReg devUnmappedAddr (BitVec.ofNat 8 (pCode p) ++ BitVec.ofNat 24 a)

/-- The data of a read, kept per principal: the model's record of the bus answer. -/
def State.answer (s : State) (p : Principal) (w : Word) : State := { s with rdata := s.rdata.wr 0 (pIdx p) w }

/-- Something leaves the device. -/
def State.emit (s : State) (e : OutEvent) : State := { s with out := e :: s.out }

/-- Draws a free value of a site. -/
def State.draw (s : State) (site : Nat) : Word × State := (Config.free site s.free, { s with free := s.free + 1 })

/-! ## Memory bytes -/

/-- The canonical form of memory: addresses strictly rising, no byte listed that is zero. -/
def Memory.wf (m : Sparse Byte) : Bool := Sparse.wf (fun _ => 0) m

/-- One byte at a device address: zero where nothing is listed. DESIGN CHOICE, assumption row 9. -/
def State.byte (s : State) (a : Nat) : Byte := s.mem.rd 0 a

/-- The state with one byte written. -/
def State.setByte (s : State) (a : Nat) (b : Byte) : State := { s with mem := s.mem.wr 0 a b }

/-- `n` bytes from an address up, taken from listed cells at or above that address. -/
def cellsRead : Nat → Sparse Byte → Nat → List Byte
  | 0, _, _ => []
  | n + 1, [], a => 0 :: cellsRead n [] (a + 1)
  | n + 1, (k, b) :: t, a => if k = a then b :: cellsRead n t (a + 1) else 0 :: cellsRead n ((k, b) :: t) (a + 1)

/-- The listed cells of bytes from an address up: those that are not zero. -/
def cellsOf (a : Nat) (l : List Byte) : Sparse Byte :=
  (l.zipIdx a).filterMap fun x => if x.1 = 0 then none else some (x.2, x.1)

/-- `n` bytes from an address up. -/
def State.bytes (s : State) (a n : Nat) : List Byte := cellsRead n (s.mem.dropWhile fun c => c.1 < a) a

/-- Writes bytes from an address up. -/
def State.setBytes (s : State) (a : Nat) (l : List Byte) : State :=
  { s with mem := (s.mem.filter fun c => c.1 < a) ++ cellsOf a l ++ s.mem.filter fun c => a + l.length ≤ c.1 }

/-- The number that little-endian bytes spell (R11). -/
def leNat : List Byte → Nat
  | [] => 0
  | b :: t => b.toNat + 256 * leNat t

/-- The number that big-endian bytes spell. -/
def beNat (l : List Byte) : Nat := l.foldl (fun a b => a * 256 + b.toNat) 0

/-- The low `n` bytes of a number, little-endian. -/
def leBytes : Nat → Nat → List Byte
  | 0, _ => []
  | n + 1, v => BitVec.ofNat 8 v :: leBytes n (v / 256)

/-- The low `n` bytes of a number, big-endian. -/
def beBytes (n v : Nat) : List Byte := (leBytes n v).reverse

/-- The 32-bit little-endian word at a device address. -/
def State.word (s : State) (a : Nat) : Word := BitVec.ofNat 32 (leNat (s.bytes a 4))

/-- Writes a 32-bit little-endian word. -/
def State.setWord (s : State) (a : Nat) (w : Word) : State := s.setBytes a (leBytes 4 w.toNat)

/-- Bank n at 0x1000_0000 + n × 0x8_0000 (Table 2-12). -/
def bankBase (n : Nat) : Nat := 0x10000000 + n * 0x80000
/-- Engine n's local memory (Table 2-12). -/
def engBase (n : Nat) : Nat := 0x18000000 + n * 0x20000
/-- Insole offset o (Table 2-12). -/
def insoleBase : Nat := 0x1C000000

/-! ## Lists -/

/-- A list with its element `i` replaced. -/
def setAt {α : Type} : List α → Nat → α → List α
  | [], _, _ => []
  | _ :: t, 0, v => v :: t
  | x :: t, i + 1, v => x :: setAt t i v

/-- Runs a state change for each element in turn. -/
def forEach {α : Type} (l : List α) (f : State → α → State) (s : State) : State := l.foldl f s

/-! ## Checksums -/

/-- One byte into a reflected CRC with polynomial `poly` in reflected form, bit by bit. -/
def crcByteR (poly : Nat) (crc : Nat) (b : Byte) : Nat :=
  let rec go : Nat → Nat → Nat
    | 0, c => c
    | k + 1, c => go k (if c % 2 = 1 then (c / 2) ^^^ poly else c / 2)
  go 8 (crc ^^^ b.toNat)

/-- CRC-32 of IEEE 802.3: initial value and final XOR 0xFFFF_FFFF, reflected (R83). -/
def crc32 (l : List Byte) : Nat := (l.foldl (crcByteR 0xEDB88320) 0xFFFFFFFF) ^^^ 0xFFFFFFFF

/-- One byte into an unreflected 16-bit CRC, most significant bit first. -/
def crc16Byte (poly : Nat) (crc : Nat) (b : Byte) : Nat :=
  let rec go : Nat → Nat → Nat
    | 0, c => c
    | k + 1, c => go k (if c / 0x8000 % 2 = 1 then (c * 2 % 0x10000) ^^^ poly else c * 2 % 0x10000)
  go 8 (crc ^^^ (b.toNat * 0x100))

/-- CRC-16 of R65: polynomial 0x1021, initial value 0xFFFF. -/
def crc16 (l : List Byte) : Nat := l.foldl (crc16Byte 0x1021) 0xFFFF

/-- CRC-16 of a staged value, most significant byte first (R65). -/
def crc16Stage (v : Word) : Nat := crc16 (beBytes 4 v.toNat)

/-! ## Parts of the state held by key -/

def State.portOf (s : State) (n : Nat) : Port := s.port.rd {} n
def State.setPort (s : State) (n : Nat) (p : Port) : State := { s with port := s.port.wr {} n p }
def State.htbOf (s : State) (n : Nat) : Htb := s.tb.htb.rd {} n
def State.setHtb (s : State) (n : Nat) (h : Htb) : State := { s with tb := { s.tb with htb := s.tb.htb.wr {} n h } }
def State.viewOf (s : State) (n : Nat) : View := s.tb.view.rd {} n
def State.setView (s : State) (n : Nat) (v : View) : State :=
  { s with tb := { s.tb with view := s.tb.view.wr {} n v } }
def State.evOf (s : State) (n : Nat) : Ev := s.tb.ev.rd {} n
def State.setEv (s : State) (n : Nat) (v : Ev) : State := { s with tb := { s.tb with ev := s.tb.ev.wr {} n v } }
def State.genOf (s : State) (n : Nat) : Gen := s.gen.rd {} n
def State.setGen (s : State) (n : Nat) (v : Gen) : State := { s with gen := s.gen.wr {} n v }
def State.peOf (s : State) (n : Nat) : Pe := s.fab.pe.rd {} n
def State.setPe (s : State) (n : Nat) (v : Pe) : State := { s with fab := { s.fab with pe := s.fab.pe.wr {} n v } }
def State.laneOf (s : State) (n : Nat) : Lane := s.fab.lane.rd {} n
def State.setLane (s : State) (n : Nat) (v : Lane) : State :=
  { s with fab := { s.fab with lane := s.fab.lane.wr {} n v } }
def State.chanOf (s : State) (n : Nat) : Chan := s.shank.chan.rd {} n
def State.setChan (s : State) (n : Nat) (v : Chan) : State :=
  { s with shank := { s.shank with chan := s.shank.chan.wr {} n v } }
def State.weltOf (s : State) (n : Nat) : Welt := s.welt.rd {} n
def State.setWelt (s : State) (n : Nat) (v : Welt) : State := { s with welt := s.welt.wr {} n v }
def State.eyeOf (s : State) (n : Nat) : Eye := s.eye.rd {} n
def State.setEye (s : State) (n : Nat) (v : Eye) : State := { s with eye := s.eye.wr {} n v }
def State.wchanOf (s : State) (n : Nat) : WChan := s.wcap.chan.rd {} n
def State.setWchan (s : State) (n : Nat) (v : WChan) : State :=
  { s with wcap := { s.wcap with chan := s.wcap.chan.wr {} n v } }
def State.laceQ (s : State) (m d : Nat) : List LWord := s.lace.q.rd [] (2 * m + d)
def State.setLaceQ (s : State) (m d : Nat) (q : List LWord) : State :=
  { s with lace := { s.lace with q := s.lace.q.wr [] (2 * m + d) q } }
def State.queueOf (s : State) (q : Nat) : List Desc := s.swc.queues.rd [] q
def State.setQueue (s : State) (q : Nat) (l : List Desc) : State :=
  { s with swc := { s.swc with queues := s.swc.queues.wr [] q l } }

/-! ## Faults (R524-R532) -/

/-- The detection stamp of a fault: the FRC with fine part 0 (Table 17-4). -/
def State.nowStamp (s : State) : Stamp := BitVec.ofNat 53 (s.tb.frc.toNat * 32)

/-- floor(HTBA / 10^9) mod 2^32, 0 if HTBA is not ON (Table 17-4). -/
def State.taiSec (s : State) : Word :=
  if s.on (pgHtb 2) then BitVec.ofNat 32 ((s.htbOf 2).v.toNat / 2 ^ 32 / 1000000000) else 0

/-- Word `w` of the fault record at ring entry `r`. -/
def State.recWord (s : State) (r w : Nat) : Nat := s.rn (fltRec r w)

/-- Raises what every detected fault raises: its count, its bit of WORST and its interrupt (R528, R529). -/
def State.faultSeen (s : State) (cls : Nat) (n : Nat := 1) : State :=
  ((s.count (fltCountC cls) n).put fltWorstClasses (s.get fltWorstClasses ||| 1 <<< cls)).irq' pgFlt (1 + cls)

/-- Whether a C0 fault merges into the newest record (R528). -/
def State.merges (s : State) (f : FaultRec) : Option Nat :=
  match s.flt.newest with
  | none => none
  | some r =>
    let w1 := s.recWord r 1
    let st := s.recWord r 5 + s.recWord r 6 * 2 ^ 32
    let age := (f.stamp.toNat + 2 ^ 53 - st) % 2 ^ 53
    if f.cls = 0 ∧ w1 % 0x100 = f.cause ∧ w1 / 0x100 % 4 = 0 ∧ bitN w1 10 = f.injected ∧ w1 / 0x1000 % 0x1000 = f.page
        ∧ w1 / 0x1000000 = f.inst ∧ age < s.get fltCfgMergeMs * 8000000 then some r
    else none

/-- Writes a fault to the ring, or merges it (R527, R528). -/
def State.ringWrite (s : State) (f : FaultRec) (boot : Bool) : State :=
  match s.merges f with
  | some r =>
    (s.setReg (fltRec r 4) (BitVec.ofNat 32 (satAdd 0xFFFF (s.recWord r 4) 1))).faultSeen f.cls
  | none =>
    let r := s.get fltHeadNext
    let excess := s.recWord r 1 != 0
    let w1 := f.cause + f.cls * 0x100 + (if f.injected then 0x400 else 0) + (if boot then 0x800 else 0)
      + f.page * 0x1000 + f.inst * 0x1000000
    let s := s.setReg (fltRec r 0) (s.reg fltSeqNext)
    let s := s.setReg (fltRec r 1) (BitVec.ofNat 32 w1)
    let s := (s.setReg (fltRec r 2) f.d0).setReg (fltRec r 3) f.d1
    let s := s.setReg (fltRec r 4) 0
    let s := s.setReg (fltRec r 5) (BitVec.ofNat 32 f.stamp.toNat)
    let s := s.setReg (fltRec r 6) (BitVec.ofNat 32 (f.stamp.toNat / 2 ^ 32))
    let s := s.setReg (fltRec r 7) f.tai
    let s := if excess then (s.count fltOverwritten).irq' pgFlt 5 else s
    let s := (s.countWrap fltSeqNext).put fltHeadNext ((r + 1) % 64)
    { s with flt := { s.flt with newest := some r } }.faultSeen f.cls

/-- A detected fault: in the ring, or held in the boot queue while FLT is not ON (R527-R530). -/
def State.fault (s : State) (cause cls page inst : Nat) (d0 d1 : Nat := 0) (inj : Bool := false) : State :=
  let f : FaultRec := ⟨cause, cls, inj, page, inst, BitVec.ofNat 32 d0, BitVec.ofNat 32 d1, s.nowStamp, s.taiSec⟩
  if s.on pgFlt then s.ringWrite f (!s.booted)
  else if s.flt.bootQ.length < 16 then { s with flt := { s.flt with bootQ := s.flt.bootQ ++ [f] } }
  else { s with flt := { s.flt with bootLost := s.flt.bootLost.wr 0 cls (s.flt.bootLost.rd 0 cls + 1) } }

/-- The conditions of Table 17-5, bit 0 to bit 9. Bits 5 and 8 are kept where their event sets them.
DEDUCED, assumption row 144. -/
def State.degradedNow (s : State) : Nat :=
  let b (i : Nat) (c : Bool) : Nat := if c then 1 <<< i else 0
  let held := s.get fltDegradedBits
  let peFault := (List.range 18).any fun n =>
    s.bit (hdrCtrlEn (pgPe n)) && s.st (pgPe n) == stFault && s.fab.takeover.rd none n == none
  let shLanes := (s.get shankLaneStatFailed != 0 && !s.bit shankLaneStatSpareOk && !s.bit shankLaneStatTesting)
    || s.bit shankLaneStatSingle || s.st pgShank == stFault
  let failed := (List.range 192).any fun n => s.bit (bankBankstFailed n)
  let orphan := s.flt.orphans.any fun n => s.get (bankBankstOwner n) == 0
  b 0 (s.get fabIdleSparesMask == 0) + b 1 peFault + b 2 shLanes
    + b 3 (s.get (treadStatStage 0) == 5) + b 4 (s.get (treadStatStage 1) == 5)
    + (held &&& 0x20) + b 6 failed
    + b 7 (s.st pgWcap == stFault || bitN (s.rn (hdrErrCause pgWcap)) 8)
    + (held &&& 0x100) + b 9 orphan

/-- Brings DEGRADED up to date; each rise sets DEGRADED_EVT and raises the interrupt (R531). -/
def State.degrade (s : State) : State :=
  let old := s.get fltDegradedBits
  let new := s.degradedNow
  let rise := new &&& (0x3FF ^^^ old)
  let s := s.put fltDegradedBits new
  if rise = 0 then s
  else (s.put fltDegradedEvtBits (s.get fltDegradedEvtBits ||| rise)).irq' pgFlt 6

/-- Sets or clears a bit of DEGRADED that an event decides, then brings the register up to date (R531). -/
def State.degradeBit (s : State) (i : Nat) (on : Bool) : State :=
  let old := s.get fltDegradedBits
  let new := if on then old ||| 1 <<< i else old &&& (0x3FF ^^^ 1 <<< i)
  let s := s.put fltDegradedBits new
  let s := if on && !bitN old i then
    (s.put fltDegradedEvtBits (s.get fltDegradedEvtBits ||| 1 <<< i)).irq' pgFlt 6 else s
  s.degrade

/-- FAULT_N is driven low, which no device without its supplies does (R532, R551). -/
def State.faultNLow (s : State) : Bool :=
  s.chip.powered && (s.chip.inReset || s.chip.clockLost || s.supLost
    || (s.bit fltCfgFaultnC2 && s.get fltDegradedBits != 0) || s.bit fltFaultnForce)

/-- A conflict of Table 3-8, row `row`, at an offset of a page: RESTORE_CONFLICT is set, and at boot the record is
written and counted (R104, R105). -/
def State.conflict (s : State) (page cls off row : Nat) : State :=
  let s := s.err page errRestoreConflict
  if s.booted then s else (s.fault 0x15 cls page 0 off row).countF devBootConflicts

/-- Time since the start of a port's cycle at the present tick, in 2^-32 ns of TCLK time (R399). -/
def State.cyclePos (s : State) (n : Nat) : Int :=
  let x := s.weltOf n
  (((s.tb.frc.toNat + 2 ^ 48 - x.cycFrc) % 2 ^ 48 : Nat) : Int) * 2 ^ 34 - x.cycSub

/-! ## Triggers and doorbells (R373, R497) -/

/-- Event `i` of Table 13-3's latches is on its way to engine n (R432). -/
def State.eyeEvent (s : State) (n i : Nat) : State :=
  if s.on (pgEye n) then s.setEye n { s.eyeOf n with arriving := (s.eyeOf n).arriving ++ [i] } else s

/-- The trigger of EVi is on its way to every Eyelet engine; the rise of a bit of a doorbell to each enabled doorbell input
that names it (R432). -/
def State.eyeSource (s : State) (kind a b : Nat) : State :=
  if kind = 1 then forEach (List.range 16) (fun s n => s.eyeEvent n a) s
  else if kind = 2 then
    forEach (List.range 16) (fun s n => forEach (List.range 8) (fun s k =>
      if s.bit (eyeDbInEn n k) && s.get (eyeDbInDb n k) == a && s.get (eyeDbInBit n k) == b then s.eyeEvent n (8 + k) else s) s) s
  else s

/-- An event of a source of Table 11-3, which KIND, ARG_A and ARG_B name: it is on its way to the Eyelet engines it concerns
and to every channel of Shank whose TRIG names it. -/
def State.trigSource (s : State) (kind a b : Nat) : State :=
  let s := s.eyeSource kind a b
  let cs := (List.range 64).filter fun c =>
    s.get (shchTrigKind c) == kind &&
      (match kind with
      | 1 => s.get (shchTrigArgA c) % 8 == a
      | 2 => s.get (shchTrigArgA c) % 64 == a && s.get (shchTrigArgB c) % 32 == b
      | 3 => s.get (shchTrigArgA c) % 4 == a && s.get (shchTrigArgB c) % 512 == b
      | _ => s.get (shchTrigArgA c) % 16 == a)
  if s.on pgShank then { s with shank := { s.shank with arriving := s.shank.arriving ++ cs } } else s

/-- Sets bits of a doorbell. A rise from 0 presents its routed request (R498); the rise of the bit that TRIG of wave
capture names is kept for it (R464), and each rising bit is a trigger of Shank (R373). -/
def State.ring (s : State) (d : Nat) (bits : Word) : State :=
  let t := s.get wcapTrigBit
  let old := s.reg (laceDb d)
  let rise := s.bit wcapTrigEn && s.get wcapTrigDb == d && bits.getLsbD t && !old.getLsbD t
  let s := s.orReg (laceDb d) bits
  let s := forEach ((List.range 32).filter fun i => bits.getLsbD i && !old.getLsbD i) (fun s i => s.trigSource 2 d i) s
  if rise && s.wcap.capturing then { s with wcap := { s.wcap with trigPend := true } } else s

/-- Enters a set of bits through the {DB, BIT, EN} form that several registers share. -/
def State.notify (s : State) (w : Word) : State :=
  if bitN w.toNat 15 then s.ring (bitsOf w 0 6) (BitVec.ofNat 32 (1 <<< bitsOf w 8 5)) else s

end Sys2Proof.Machine
end

