-- ==== Sys2Proof/Machine/Access.lean ====
section
/-! DEFINITION. What every register write passes before it acts: reach, the ACL, and the refusals of the boot sequence
and of a lost supervisor; and what a write does by access codes alone (Table 2-3, R565). -/
namespace Sys2Proof.Machine

/-- The principal's accesses reach the device: it is powered, its clocks run, and for Host A the link is not in reset
(R73, R76, R78, R504). DEDUCED, assumption row 128. -/
def State.reaches (s : State) (p : Principal) : Bool :=
  s.chip.powered && !s.chip.clockLost && !(p == .ha && (s.chip.perst || s.get pcieLinkSpeed == 0))

/-- Retained fields are closed to a principal: during boot to all but SUP (R97), and with the supervisor lost to all
(R534). -/
def State.retLocked (s : State) (p : Principal) : Bool := (!s.booted && p != .sup) || s.supLost

/-- Bits of a register that a write can act on. -/
def RegRow.writable (r : RegRow) : Word := r.rw ||| r.w1c ||| r.wo ||| r.rws

/-- A write as it meets the refusals of R61, R97 and R534: refused with its record, or acting with the word that is
left. Where a register holds retained and other fields, the other fields act and the retained ones keep their values.
DEDUCED, assumption row 10. -/
def State.access (s : State) (p : Principal) (k : Nat) (v : Word) (act : State → Word → State) : State :=
  let a := keyAddr k
  if !s.reaches p then s
  else
    match regRow a with
    | none => (if (blkOf (a / 0x1000)).isSome && !s.mayWrite p (a / 0x1000) then s.deny p a else s).unmapped p a
    | some r =>
      if !s.mayWrite p (a / 0x1000) then s.deny p a
      else
        let ret := r.ret &&& r.writable
        if s.retLocked p && ret != 0 then
          if r.writable &&& ~~~ret = 0 then s.deny p a
          else
            let s' := if v &&& ret = s.reg k &&& ret then s else s.deny p a
            act s' ((v &&& ~~~ret) ||| (s.reg k &&& ret))
        else act s v

/-- A write that is also refused while the supervisor is lost, though its register holds no retained field (R534).
DEDUCED, assumption row 108. -/
def State.accessLost (s : State) (p : Principal) (k : Nat) (v : Word) (act : State → Word → State) : State :=
  s.access p k v fun s w => if s.supLost then s.deny p (keyAddr k) else act s w

/-- IRQA sees a page's request end, so that its next rise is delivered anew (R53, R54). -/
def State.fell (s : State) (p : Nat) : State :=
  if s.pageReq p then s else { s with irq := { s.irq with seen := s.irq.seen.wr false p false } }

/-- A register that acted on a substitute has been written: the substitute ends (R104). -/
def State.unkeep (s : State) (k : Nat) : State := { s with chip := { s.chip with kept := s.chip.kept.wr none k none } }

/-- What a write does by access codes alone: RW bits take the value, W1C bits clear where 1 is written, the others stay;
a register of RO and RC fields only sets RO_WRITE (R46, R565). DEDUCED, assumption row 65. -/
def State.byCodes (s : State) (k : Nat) (v : Word) : State :=
  match regRow (keyAddr k) with
  | none => s
  | some r =>
    if r.writable = 0 then s.err (firstPage (keyAddr k / 0x1000)) errRoWrite
    else
      let old := s.reg k
      (s.unkeep k).setReg k (((old &&& ~~~r.rw) ||| (v &&& r.rw)) &&& ~~~(v &&& r.w1c)) |>.fell (firstPage (keyAddr k / 0x1000))

/-- A register's value after a reset of its block: retained bits keep their values, the others take their reset values
(R51). -/
def softVal (k : Nat) (v : Word) : Word :=
  match regRow (keyAddr k) with
  | some r => (v &&& r.ret) ||| (regReset k &&& ~~~r.ret)
  | none => v

/-- The non-retained fields of a block's pages take their reset values, apart from the registers `keep` names. -/
def State.clearPage (s : State) (p : Nat) (keep : Nat → Bool) : State :=
  { s with regs := s.regs.filterMap fun (k, v) =>
      if firstPage (keyAddr k / 0x1000) = p ∧ !keep (keyAddr k) then
        if softVal k v = regReset k then none else some (k, softVal k v)
      else some (k, v) }

/-- The device runs: supplies, POR_N and REFCLK_25 are as they should be (R73, R77). -/
def State.alive (s : State) : Bool := s.chip.powered && !s.chip.clockLost

/-- Pages whose state a reset that keeps the time base leaves alone (R226). -/
def isTime (p : Nat) : Bool := p == pgTb || p == pgHtb 0 || p == pgHtb 1 || p == pgHtb 2 || p == pgView || p == pgEvt

/-- The supervisor core executes: JTAG has not halted it, or has given it a step (R520). -/
def State.supRuns (s : State) : Bool := !s.sup.jtagHalt || s.sup.jtagSteps != 0

/-- What the core has done has taken a step that JTAG gave it. DESIGN CHOICE, assumption row 195. -/
def State.supStep (s : State) : State :=
  if s.sup.jtagHalt then { s with sup := { s.sup with jtagSteps := s.sup.jtagSteps - 1 } } else s

end Sys2Proof.Machine
end

