-- ==== Sys2Proof/Machine/Crypto.lean ====
section
/-! DEFINITION. The external standards that image security names (R515, R516): SHA-384 of FIPS 180-4 and the
verification of an ECDSA signature over curve P-384 of FIPS 186-5 (assumption row 5). -/
namespace Sys2Proof.Machine

/-! ## SHA-384 -/

/-- Largest number whose `k`-th power does not exceed `n`, found from bit 70 down. -/
def rootFloor (k n : Nat) : Nat :=
  (List.range 71).reverse.foldl (fun r b => if (r + 2 ^ b) ^ k ≤ n then r + 2 ^ b else r) 0

/-- The primes below 410, of which there are 80. -/
def smallPrimes : List Nat := (List.range 410).filter fun n =>
  decide (2 ≤ n) && (List.range 21).all fun d => decide (d < 2) || decide (n ≤ d) || n % d != 0

/-- The round constants: 64 fraction bits of the cube roots of the first 80 primes. -/
def shaK : List Nat := smallPrimes.map fun p => rootFloor 3 (p * 2 ^ 192) % 2 ^ 64

/-- The initial hash value: 64 fraction bits of the square roots of the ninth to sixteenth primes. -/
def shaInit : List Nat := ((smallPrimes.drop 8).take 8).map fun p => rootFloor 2 (p * 2 ^ 128) % 2 ^ 64

/-- Rotation and shift of 64-bit words to the right. -/
def rotr64 (x n : Nat) : Nat := x / 2 ^ n + x % 2 ^ n * 2 ^ (64 - n)

/-- Message schedule: 80 words from the 16 of a block, the newest first. -/
def shaSchedule (w : List Nat) : List Nat :=
  ((List.range 64).foldl (fun (l : List Nat) _ =>
    let a := l.getD 1 0
    let b := l.getD 14 0
    let s1 := rotr64 a 19 ^^^ rotr64 a 61 ^^^ (a / 2 ^ 6)
    let s0 := rotr64 b 1 ^^^ rotr64 b 8 ^^^ (b / 2 ^ 7)
    ((s1 + l.getD 6 0 + s0 + l.getD 15 0) % 2 ^ 64) :: l) w.reverse).reverse

/-- One round on the eight working words. -/
def shaRound (v : List Nat) (kw : Nat) : List Nat :=
  match v with
  | [a, b, c, d, e, f, g, h] =>
    let t1 := h + (rotr64 e 14 ^^^ rotr64 e 18 ^^^ rotr64 e 41) + ((e &&& f) ^^^ ((2 ^ 64 - 1 - e) &&& g)) + kw
    let t2 := (rotr64 a 28 ^^^ rotr64 a 34 ^^^ rotr64 a 39) + ((a &&& b) ^^^ (a &&& c) ^^^ (b &&& c))
    [(t1 + t2) % 2 ^ 64, a, b, c, (d + t1) % 2 ^ 64, e, f, g]
  | _ => v

/-- One block of 128 bytes. -/
def shaBlock (h : List Nat) (block : List Byte) : List Nat :=
  let w := shaSchedule ((List.range 16).map fun i => beNat ((block.drop (8 * i)).take 8))
  let v := (shaK.zip w).foldl (fun v x => shaRound v (x.1 + x.2)) h
  (h.zip v).map fun x => (x.1 + x.2) % 2 ^ 64

/-- The blocks of a padded message, `n` of them at most. -/
def shaBlocks : Nat → List Nat → List Byte → List Nat
  | 0, h, _ => h
  | n + 1, h, l => if l.length < 128 then h else shaBlocks n (shaBlock h (l.take 128)) (l.drop 128)

/-- SHA-384 of a byte string: 48 bytes. PRESUMED, assumption row 5. -/
def sha384 (m : List Byte) : List Byte :=
  let zeros := (239 - m.length % 128) % 128
  let padded := m ++ [0x80] ++ List.replicate zeros 0 ++ beBytes 16 (8 * m.length)
  ((shaBlocks (padded.length / 128) shaInit padded).take 6).flatMap (beBytes 8)

/-! ## ECDSA over P-384 -/

def p384 : Nat := 2 ^ 384 - 2 ^ 128 - 2 ^ 96 + 2 ^ 32 - 1
def p384Order : Nat :=
  0xffffffffffffffffffffffffffffffffffffffffffffffffc7634d81f4372ddf581a0db248b0a77aecec196accc52973
def p384B : Nat :=
  0xb3312fa7e23ee7e4988e056be3f82d19181d9c6efe8141120314088f5013875ac656398d8a2ed19d2a85c8edd3ec2aef
def p384Gx : Nat :=
  0xaa87ca22be8b05378eb1c71ef320ad746e1d3b628ba79b9859f741e082542a385502f25dbf55296c3a545e3872760ab7
def p384Gy : Nat :=
  0x3617de4a96262c6f5d9e98bf9292dc29f8f41dbd289a147ce9da3113b5f0b8c00a60b1ce1d7e819d7a431d7c90ea0e5f

/-- `b` to the power of `e` modulo `m`, over the 384 bits of `e` from the top. -/
def powMod384 (b e m : Nat) : Nat :=
  (List.range 384).reverse.foldl (fun r i => let q := r * r % m; if bitN e i then q * b % m else q) 1

/-- Inverse modulo a prime of 384 bits. -/
def inv384 (a m : Nat) : Nat := powMod384 a (m - 2) m

/-- Difference modulo the field's prime. -/
def sub384 (a b : Nat) : Nat := (a + p384 - b % p384) % p384

/-- Sum of two points of the curve; none is the point at infinity. -/
def ecAdd (x y : Option (Nat × Nat)) : Option (Nat × Nat) :=
  match x, y with
  | none, q => q
  | p, none => p
  | some (x1, y1), some (x2, y2) =>
    if x1 = x2 ∧ (y1 + y2) % p384 = 0 then none
    else
      let l := if x1 = x2 then (3 * x1 * x1 + (p384 - 3)) * inv384 (2 * y1 % p384) p384 % p384
        else sub384 y2 y1 * inv384 (sub384 x2 x1) p384 % p384
      let x3 := sub384 (sub384 (l * l % p384) x1) x2
      some (x3, sub384 (l * sub384 x1 x3 % p384) y1)

/-- A multiple of a point, by the 384 bits of the factor from the top. -/
def ecMul (k : Nat) (q : Nat × Nat) : Option (Nat × Nat) :=
  (List.range 384).reverse.foldl (fun r i => let d := ecAdd r r; if bitN k i then ecAdd d (some q) else d) none

/-- The point lies on the curve. -/
def onCurve (x y : Nat) : Bool :=
  decide (x < p384) && decide (y < p384) && y * y % p384 == (x * x * x + (p384 - 3) * x + p384B) % p384

/-- Verification of a signature (r, then s) of a digest under a public key (X, then Y), each number of 48 bytes, most
significant byte first (R515, Table 16-5). PRESUMED, assumption row 5. -/
def ecdsaVerify (key digest sig : List Byte) : Bool :=
  let x := beNat (key.take 48)
  let y := beNat (key.drop 48)
  let r := beNat (sig.take 48)
  let s := beNat (sig.drop 48)
  if !onCurve x y || r == 0 || s == 0 || decide (p384Order ≤ r) || decide (p384Order ≤ s) then false
  else
    let w := inv384 s p384Order
    let u1 := beNat digest * w % p384Order
    let u2 := r * w % p384Order
    match ecAdd (ecMul u1 (p384Gx, p384Gy)) (ecMul u2 (x, y)) with
    | none => false
    | some (px, _) => px % p384Order == r

end Sys2Proof.Machine
end

