-- ==== Sys2Proof/Machine/Images.lean ====
section
/-! DEFINITION. The image cache: directory, Uamos headers, authentication, and loading a personality into an engine
(R287, R513-R519). -/
namespace Sys2Proof.Machine

/-- Device address of the image cache, and of directory entry `i` (R80, R514). -/
def cacheBase : Nat := insoleBase + 0x200000
def dirEntry (i : Nat) : Nat := cacheBase + 64 * i

/-- A directory entry (R514). The offset is in bytes in the cache, in units of 16 bytes in flash (R521). -/
structure DirEnt where
  name : Word
  ver : Half
  typ : Nat
  slot : Nat
  svnIx : Nat
  off : Nat
  svn : Nat
  len : Nat
  digest : List Byte
deriving DecidableEq, Repr

/-- Little-endian word `w` of a byte list. -/
def leWord (l : List Byte) (w : Nat) : Word := BitVec.ofNat 32 (leNat ((l.drop (4 * w)).take 4))

/-- The entry that 64 bytes spell. -/
def dirOf (l : List Byte) : DirEnt :=
  let w1 := leWord l 1
  let w2 := leWord l 2
  { name := leWord l 0, ver := BitVec.ofNat 16 (bitsOf w1 0 16), typ := bitsOf w1 16 2, slot := bitsOf w1 18 2,
    svnIx := bitsOf w1 20 6, off := bitsOf w2 0 23, svn := bitsOf w2 23 7, len := bitsOf (leWord l 3) 0 23,
    digest := (l.drop 16).take 48 }

/-- The bytes of an entry. -/
def dirBytes (d : DirEnt) : List Byte :=
  leBytes 4 d.name.toNat ++ leBytes 4 (d.ver.toNat + d.typ * 0x10000 + d.slot * 0x40000 + d.svnIx * 0x100000)
    ++ leBytes 4 (d.off + d.svn * 0x800000) ++ leBytes 4 d.len ++ (d.digest ++ List.replicate 48 0).take 48

/-- Entry `i` of the cache directory. -/
def State.cacheEnt (s : State) (i : Nat) : DirEnt := dirOf (s.bytes (dirEntry i) 64)

/-- Entries in use. -/
def State.cacheUsed (s : State) : List (Nat × DirEnt) :=
  ((List.range 63).map fun i => (i, s.cacheEnt i)).filter fun e => e.2.name != 0

/-- The cached image of a name, version and type. -/
def State.cacheFind (s : State) (name : Word) (ver : Half) (typ : Nat) : Option (Nat × DirEnt) :=
  s.cacheUsed.find? fun e => e.2.name == name && e.2.ver == ver && e.2.typ == typ

/-- Header, body and signature of a cached image. -/
def State.imageBytes (s : State) (d : DirEnt) : List Byte := s.bytes (cacheBase + d.off) d.len

/-- The cache CRC-32 behind a cached image is right (R513). -/
def State.imageCrcOk (s : State) (d : DirEnt) : Bool :=
  s.word (cacheBase + d.off + d.len) == BitVec.ofNat 32 (crc32 (s.imageBytes d))

/-! ## Headers and checks (R515, R516) -/

/-- Field of a header word. -/
def hdrField (l : List Byte) (off lo width : Nat) : Nat := bitsOf (leWord l (off / 4)) lo width

/-- Length of body. -/
def bodyLen (l : List Byte) : Nat := hdrField l 0x18 0 32

/-- Check 1 (R516): MAGIC, FORMAT, TYPE, BODY_LEN, the name and the zero fields. -/
def formatOk (l : List Byte) : Bool :=
  let typ := hdrField l 8 0 32
  let zero (w : Nat) : Bool := leWord l w == 0
  hdrField l 0 0 32 == 0x55414D31 && hdrField l 4 0 32 == 1 && decide (1 ≤ typ ∧ typ ≤ 3)
    && hdrField l 0xC 0 32 != 0 && hdrField l 0x10 29 3 == 0 && decide (hdrField l 0x10 22 7 ≤ 64)
    && hdrField l 0x14 2 30 == 0 && decide (bodyLen l ≤ 0x400000) && l.length == 256 + bodyLen l + 96
    && (if typ = 1 then hdrField l 0x1C 16 16 == 0 && hdrField l 0x20 13 19 == 0 && hdrField l 0x24 12 4 == 0
          && hdrField l 0x24 28 4 == 0 && decide (hdrField l 0x28 0 32 + hdrField l 0x2C 0 32 ≤ bodyLen l)
        else [7, 8, 9, 10, 11].all zero)
    && ((List.range 20).map (12 + ·)).all zero && ((List.range 8).map (56 + ·)).all zero

/-- Slots fused and not yet revoked (R516, R519). -/
def State.revokedSlots (s : State) : BitVec 4 := Config.keyRevoked ||| s.sup.revoked

/-- Check 2 (R516): the slot is fused, not revoked, permitted for the type; 0 when all hold. -/
def State.slotReason (s : State) (slot typ : Nat) : Nat :=
  let pol := if typ = 1 then s.get supKeyPolicyPersSlots else if typ = 2 then s.get supKeyPolicyEyeSlots
    else s.get supKeyPolicyFwSlots
  if !Config.keyFused.getLsbD slot then 2
  else if s.revokedSlots.getLsbD slot then 3
  else if !bitN pol slot then 4
  else 0

/-- Value of counter SVN[k] (R518). -/
def State.svnOf (s : State) (k : Nat) : Nat := max (Config.svnFused k).toNat (s.sup.svn.rd 0 k)

/-- Counters rise to the highest SVN among the running images that name them, once the boot is done (R518). -/
def State.svnAuto (s : State) : State :=
  if !s.bit supKeyPolicySvnAuto || !s.booted then s
  else
    let run := (List.range 18).filterMap (fun n => if s.on (pgPe n) then some (s.peOf n).svn else none)
      ++ (List.range 16).filterMap (fun n => if s.on (pgEye n) then some (s.sup.eyeSvn.rd (0, 0) n) else none)
      ++ (if s.on pgSup then [s.sup.fwSvn] else [])
    forEach run (fun (s : State) (x : Nat × Nat) =>
      if s.svnOf x.1 < x.2 then { s with sup := { s.sup with svn := s.sup.svn.wr 0 x.1 x.2 } } else s) s

/-- Authentication of an image (R516): 0, or the refusal code of Table 16-4. -/
def State.authenticate (s : State) (l : List Byte) : Nat :=
  let typ := hdrField l 8 0 2
  let slot := hdrField l 0x14 0 2
  let body := l.take (256 + bodyLen l)
  let key := (l.drop 0x80).take 96
  if !formatOk l then 1
  else if s.slotReason slot typ ≠ 0 then s.slotReason slot typ
  else if sha384 key ≠ Config.keyDigest slot then 5
  else if !ecdsaVerify key (sha384 body) (l.drop (256 + bodyLen l)) then 6
  else if hdrField l 0x10 22 7 < s.svnOf (hdrField l 0x10 16 6) then 7
  else 0

/-- The checks repeated on a cached image (R517): 0, or the refusal code. -/
def State.recheck (s : State) (d : DirEnt) : Nat :=
  if s.slotReason d.slot d.typ ≠ 0 then s.slotReason d.slot d.typ
  else if d.svn < s.svnOf d.svnIx then 7
  else if sha384 (s.bytes (cacheBase + d.off) (d.len - 96)) ≠ d.digest then 6
  else 0

/-! ## Flash (R521) -/

/-- `n` bytes of the flash from an offset up, by the addressing of FLASH.CFG: three or four address bytes.
DESIGN CHOICE, assumption row 197. -/
def State.flashRead (s : State) (f : Flash) (a n : Nat) : List Byte :=
  let lim := if s.bit flashCfgAddr4 then 2 ^ 32 else 2 ^ 24
  (List.range n).map fun i =>
    let b := (a + i) % lim
    match f.find? fun x => decide (x.1 ≤ b ∧ b < x.1 + x.2.length) with
    | some x => x.2.getD (b - x.1) 0xFF
    | none => 0xFF

/-- The entries in use of the directory copy at an offset, if its CRC-32 is right. -/
def State.flashDirAt (s : State) (f : Flash) (a : Nat) : Option (List DirEnt) :=
  let l := s.flashRead f a 4096
  if leWord l 1023 = BitVec.ofNat 32 (crc32 (l.take 4092)) then
    some (((List.range 63).map fun i => dirOf ((l.drop (64 * i)).take 64)).filter fun d => d.name != 0)
  else none

/-- The flash directory: the valid copy at offset 0 before that at 0x1_0000. -/
def State.flashDir (s : State) (f : Flash) : Option (List DirEnt) :=
  match s.flashDirAt f 0 with
  | some l => some l
  | none => s.flashDirAt f 0x10000

/-- Header, body and signature of an image in flash: its offset is in units of 16 bytes. -/
def State.flashImage (s : State) (f : Flash) (d : DirEnt) : List Byte := s.flashRead f (16 * d.off) d.len

/-- An image has been authenticated in this boot (R292). -/
def State.isAuthentic (s : State) (name : Word) (ver : Half) : Bool := s.fab.authentic.contains (name, ver)
def State.addAuthentic (s : State) (name : Word) (ver : Half) : State :=
  if s.isAuthentic name ver then s
  else { s with fab := { s.fab with authentic := (name, ver) :: s.fab.authentic } }

/-! ## Personalities -/

/-- Smallest HOLD an image asks for (R287). -/
def holdNeed (l : List Byte) : Nat := hdrField l 0x24 0 12

/-- HOLD of a lane as it acts (R274). -/
def State.holdOf (s : State) (k : Nat) : Nat := max 16 (s.get (fabLaneHoldE k))

/-- A lane bound to the engine has less HOLD than the image needs (R287). -/
def State.holdShort (s : State) (n : Nat) (l : List Byte) : Bool :=
  (List.range 24).any fun k =>
    s.bit (fabLaneCfgEn k) && s.get (fabLaneCfgEngine k) == n && decide (s.holdOf k < holdNeed l)

/-- The image's IMEM and DMEM bytes are written to an engine's memories (R59, R299). -/
def State.loadImage (s : State) (m : Nat) (l : List Byte) : State :=
  let ni := min (hdrField l 0x28 0 32) 0x8000
  let nd := min (hdrField l 0x2C 0 32) 0x10000
  let body := (l.drop 256).take (bodyLen l)
  let s := s.setBytes (engBase m) (body.take ni)
  let s := s.setBytes (engBase m + 0x10000) ((body.drop (hdrField l 0x28 0 32)).take nd)
  s.setPe m { s.peOf m with
    image := some (leWord l 3, BitVec.ofNat 16 (hdrField l 0x10 0 16))
    entry := (BitVec.ofNat 13 (hdrField l 0x1C 0 13), hdrField l 0x1C 13 1 == 1, hdrField l 0x1C 14 1 == 1,
      BitVec.ofNat 13 (hdrField l 0x20 0 13))
    svn := (hdrField l 0x10 16 6, hdrField l 0x10 22 7) }

/-- The engine stands at its image's entry point (R330, R331). The number of far accesses so far is the model's own and
goes on. -/
def State.atEntry (s : State) (m : Nat) : State :=
  let pe := s.peOf m
  let (pc, rsopt, farTrap, tvec) := pe.entry
  s.setPe m {
    pc := pc, rsopt := rsopt, farTrap := farTrap, tvec := tvec, image := pe.image, svn := pe.svn, entry := pe.entry, seq := pe.seq,
    jtagHalt := pe.jtagHalt, jtagSteps := pe.jtagSteps }

/-- The image of a role: its directory entry and reason for refusal, Table 16-4 (R287, R299, R517). -/
def State.roleImage (s : State) (n : Nat) : Option DirEnt × Nat :=
  let name := s.reg (peImageName n)
  let ver := BitVec.ofNat 16 (s.get (peImageVerVer n))
  match s.cacheFind name ver 1 with
  | none => (none, 10)
  | some (_, d) =>
    let r := if s.isAuthentic name ver then 0 else s.recheck d
    (some d, if r ≠ 0 then r else if !s.imageCrcOk d then 6 else if s.holdShort n (s.imageBytes d) then 1 else 0)

end Sys2Proof.Machine
end

