-- ==== Sys2Proof/Machine/Banks.lean ====
section
/-! DEFINITION. Memory banks: SECDED, port B accesses and the device space, ownership and its locks, scrubbing and
retention (R59, R470-R488). -/
namespace Sys2Proof.Machine

/-! ## SECDED granules -/

/-- First address past the banks. -/
def bankEnd : Nat := 0x16000000

/-- Whether an address lies in a bank, and the bank's number. -/
def isBank (a : Nat) : Bool := decide (0x10000000 ≤ a ∧ a < bankEnd)
def bankOf (a : Nat) : Nat := (a - 0x10000000) / 0x80000

/-- The error planted in a granule of eight bytes, by granule number. -/
def State.markOf (s : State) (g : Nat) : Option EccMark := s.bank.ecc.rd none g
def State.setMark (s : State) (g : Nat) (m : Option EccMark) : State :=
  { s with bank := { s.bank with ecc := s.bank.ecc.wr none g m } }

/-- Inverts data bit `b` of a granule. -/
def State.flipBit (s : State) (g b : Nat) : State :=
  s.setByte (8 * g + b / 8) (s.byte (8 * g + b / 8) ^^^ BitVec.ofNat 8 (1 <<< (b % 8)))

/-- The byte a read returns: stored data with a single-bit error of its granule corrected (R473).
DEDUCED, assumption row 123. -/
def State.eccByte (s : State) (a : Nat) : Byte :=
  match s.markOf (a / 8) with
  | some ⟨[b], _⟩ => if b / 8 = a % 8 then s.byte a ^^^ BitVec.ofNat 8 (1 <<< (b % 8)) else s.byte a
  | _ => s.byte a

def State.eccBytes (s : State) (a : Nat) : Nat → List Byte
  | 0 => []
  | n + 1 => s.eccByte a :: s.eccBytes (a + 1) n

/-- The granules of a range. -/
def granules (a n : Nat) : List Nat := if n = 0 then [] else (List.range ((a + n - 1) / 8 - a / 8 + 1)).map (a / 8 + ·)

/-- Whether a granule holds an error that a read reports (R473). -/
def State.granBad (s : State) (g : Nat) : Bool :=
  match s.markOf g with
  | some m => decide (1 < m.bits.length)
  | none => false

/-- A read of a granule: its counts, log, interrupt and fault record (R473, Table 17-3). -/
def State.granRead (s : State) (who g : Nat) : State :=
  let n := bankOf (8 * g)
  match s.markOf g with
  | none => s
  | some ⟨[_], inj⟩ =>
    let s := (s.count bankCeTotal).countF (bankEccCe n)
    let s := if s.bank.writeback.contains g then s
      else { s with bank := { s.bank with writeback := s.bank.writeback ++ [g] } }
    s.fault 0x01 0 pgBank 0 (8 * g) who inj
  | some ⟨_, inj⟩ =>
    let s := (s.count bankUeTotal).countF (bankEccUe n)
    let s := (s.put bankErrLogBank n).put bankErrLogWord (8 * g % 0x80000 / 16)
    (s.irq' pgBank 3).fault 0x02 1 pgBank 0 (8 * g) who inj

/-- A checked read of bank bytes: the data, and whether an uncorrectable error was found. -/
def State.eccRead (s : State) (who a n : Nat) : List Byte × Bool × State :=
  let gs := (granules a n).filter fun g => isBank (8 * g)
  (s.eccBytes a n, gs.any s.granBad, forEach gs (fun s g => s.granRead who g) s)

/-- Write-backs that wait for a 128-bit word are abandoned (R473, R474). -/
def State.dropBack (s : State) (g : Nat) : State :=
  { s with bank := { s.bank with writeback := s.bank.writeback.filter fun x => x / 2 != g / 2 } }

/-- What a write does to the error of a granule it touches: a covering write replaces it, a narrower one merges (R472,
R473). -/
def State.granWrite (s : State) (who a n g : Nat) : State :=
  let s := s.dropBack g
  if a ≤ 8 * g ∧ 8 * g + 8 ≤ a + n then s.setMark g none
  else
    match s.markOf g with
    | none => s
    | some ⟨[b], _⟩ =>
      let s := (s.granRead who g).dropBack g
      (s.flipBit g b).setMark g none
    | some _ => s.granRead who g

/-- A write of bank bytes. -/
def State.eccWrite (s : State) (who a : Nat) (l : List Byte) : State :=
  let gs := (granules a l.length).filter fun g => isBank (8 * g)
  (forEach gs (fun s g => s.granWrite who a l.length g) s).setBytes a l

/-- A write of the block data paths, through port A. -/
def State.writeA (s : State) (who a : Nat) (l : List Byte) : State :=
  let s := s.eccWrite who a l
  { s with bank := { s.bank with portA := some ⟨a, l.length, s.tb.ticks, s.chip.aclk⟩ } }

/-- The 128-bit words of a range. -/
def wordsOf (a n : Nat) : List Nat := if n = 0 then [] else (List.range ((a + n - 1) / 16 - a / 16 + 1)).map (a / 16 + ·)

/-- Words of a port B write that the latest port A write touches too, while neither a T tick nor an A cycle has passed since:
the two may fall in one E cycle (R472). -/
def State.meets (s : State) (a n : Nat) : List Nat :=
  match s.bank.portA with
  | some x =>
    if x.ticks = s.tb.ticks ∧ x.aclk = s.chip.aclk then
      (wordsOf a n).filter fun w => isBank (16 * w) && (wordsOf x.addr x.len).contains w
    else []
  | none => []

/-- Port B's data for a word is lost to port A's (Table 15-1). -/
def State.collide (s : State) (w : Nat) : State :=
  let s := (s.put bankCollideLogBank (bankOf (16 * w))).put bankCollideLogWord (16 * w % 0x80000 / 16)
  (s.count bankCollides).irq' pgBank 4

/-- A write through port B. Whether it falls in the very E cycle of a port A write to one of its words is free.
DESIGN CHOICE, assumption row 119. -/
def State.writeB (s : State) (who a : Nat) (l : List Byte) : State :=
  let ws := s.meets a l.length
  if ws = [] then s.eccWrite who a l
  else
    let (v, s) := s.draw 14
    if !v.getLsbD 0 then s.eccWrite who a l
    else forEach (wordsOf a l.length) (fun s w =>
      if ws.contains w then s.collide w
      else
        let x := max a (16 * w)
        s.eccWrite who x ((l.drop (x - a)).take (16 * w + 16 - x))) s

/-- Zeroes a bank with good check bits. -/
def State.zeroBank (s : State) (n : Nat) : State :=
  { s with
    mem := s.mem.filter fun (a, _) => !(decide (bankBase n ≤ a ∧ a < bankBase n + 0x80000))
    bank := { s.bank with
      ecc := s.bank.ecc.filter fun (g, _) => !(decide (bankBase n ≤ 8 * g ∧ 8 * g < bankBase n + 0x80000))
      writeback := s.bank.writeback.filter fun g => !(decide (bankBase n ≤ 8 * g ∧ 8 * g < bankBase n + 0x80000)) } }

/-! ## Ownership and locks -/

/-- OWNER of a bank as it acts: a FAILED bank, and one whose restored owner its restored allow-list does not permit, are
unowned (Table 3-8). -/
def State.ownerOf (s : State) (n : Nat) : Nat :=
  if s.bit (bankBankstFailed n) || s.bank.unowned.contains n then 0 else s.get (bankBankstOwner n)

/-- The substitute of a bank's restored owner ends (R104). -/
def State.ownable (s : State) (n : Nat) : State := { s with bank := { s.bank with unowned := s.bank.unowned.filter (· != n) } }

/-- Bit of an owner code in an allow-list (Table 15-3). -/
def allowBit (c : Nat) : Option Nat :=
  if c = 0x20 then some 0 else if c = 0x21 then some 1 else if c = 0x23 then some 3 else if c = 0x24 then some 4
  else if c = 0x30 then some 5 else if c = 0x31 then some 6 else if c = 0x3F then some 7
  else if 1 ≤ c ∧ c ≤ 18 then some (7 + c) else none

/-- ALLOW[n] holds the owner's bit (R477). -/
def State.allows (s : State) (n c : Nat) : Bool :=
  match allowBit c with
  | some i => bitN (s.rn (bankAllow n)) i
  | none => false

/-- The bank lies in the BUF range of a Welt port (R405). -/
def State.inWeltBuf (s : State) (w n : Nat) : Bool :=
  decide (s.get (weltBufFirst w) ≤ n ∧ n < s.get (weltBufFirst w) + 4)

/-- The bank is a checkpoint bank (R290). -/
def State.inCkpt (s : State) (n : Nat) : Bool :=
  decide (s.get fabCkptBaseBank ≤ n ∧ n < s.get fabCkptBaseBank + 4)

/-- The bank lies in the switch buffer (R148). -/
def State.inSwcBuf (s : State) (n : Nat) : Bool :=
  decide (s.get swcBufBanksFirst ≤ n ∧ n < s.get swcBufBanksFirst + s.get swcBufBanksCount)

/-- The bank lies in the range of wave capture's buffer (R459). -/
def State.inWcapBuf (s : State) (n : Nat) : Bool :=
  decide (s.get wcapBufFirst ≤ n ∧ n < s.get wcapBufFirst + min (max (s.get wcapBufCount) 1) 128)

/-- A lock of Table 15-6 against any change of OWNER. -/
def State.lockFull (s : State) (n : Nat) : Bool :=
  let o := s.ownerOf n
  (s.inCkpt n && s.st pgFab != stOff) || (o == 0x21 && s.on pgWcap) || (o == 0x20 && s.inSwcBuf n && s.st pgSwc != stOff)
    || (o == 0x23 && s.st (pgWelt 0) != stOff) || (o == 0x24 && s.st (pgWelt 1) != stOff)
    || s.bit (bankBankstScrubbing n)

/-- A lock of Table 15-6 against SWC and WCAP only (R405). -/
def State.lockPart (s : State) (n : Nat) : Bool :=
  (s.inWeltBuf 0 n && s.on (pgWelt 0)) || (s.inWeltBuf 1 n && s.on (pgWelt 1))

/-- A lock refuses a change of OWNER to `c` (R482). -/
def State.locks (s : State) (n c : Nat) : Bool := s.lockFull n || (s.lockPart n && (c == 0x20 || c == 0x21))

/-- A lock keeps the bank awake: one of Table 15-6, or that of a block whose start needs the bank (R486). -/
def State.bankLocked (s : State) (n : Nat) : Bool :=
  s.lockFull n || s.lockPart n
    || (s.inWcapBuf n && s.st pgWcap == stStarting && (s.ownerOf n == 0x21 || (s.ownerOf n == 0 && s.allows n 0x21)))
    || (s.inWeltBuf 0 n && s.st (pgWelt 0) == stStarting) || (s.inWeltBuf 1 n && s.st (pgWelt 1) == stStarting)

/-- OWNER changes, ending a pending handover; a bank orphaned at a takeover is owned again (R480, R531). -/
def State.own (s : State) (n c : Nat) : State :=
  let s := (((s.ownable n).put (bankBankstOwner n) c).putb (bankBankstPending n) false).put (bankBankstNext n) 0
  if c = 0 then s else ({ s with flt := { s.flt with orphans := s.flt.orphans.filter (· != n) } }).degrade

/-- An acceptance: the new owner takes the bank, at once or after its zeroing (R481, R484). -/
def State.takeBank (s : State) (n c : Nat) : State :=
  let s := s.irq' pgBank 2
  if s.bit (bankBankstScrubHo n) then
    let s := (s.own n 0).putb (bankBankstScrubbing n) true
    { s with bank := { s.bank with scrubNext := s.bank.scrubNext.wr 0 n (BitVec.ofNat 8 c) } }
  else s.own n c

/-- A block claims a bank that is NONE's, where its allow-list permits it and no lock bars it (R459, R481).
DEDUCED, assumption row 215. -/
def State.claim (s : State) (n c : Nat) : State :=
  if s.ownerOf n == 0 && !s.bit (bankBankstFailed n) && s.allows n c && !s.locks n c then s.takeBank n c else s

/-- The outcome latch of a principal (Table 15-5). -/
def State.hoResult (s : State) (p : Principal) (n r : Nat) : State :=
  (s.put (bankHoResultResult (pIdx p)) r).put (bankHoResultBank (pIdx p)) n

/-- A HANDOVER or ACCEPT refused (R482). -/
def State.hoRefuse (s : State) (p : Principal) (n r : Nat) : State := (s.hoResult p n r).err pgBank 8

/-- The writer R479 asks for. -/
def State.isWriter (s : State) (p : Principal) (n : Nat) : Bool :=
  match codePrincipal (s.ownerOf n) with
  | some q => p == q
  | none => p == .ha || p == .hb || p == .sup

/-- A write of HANDOVER (R479, R480, R482). DEDUCED, assumption row 121. -/
def State.handover (s : State) (p : Principal) (n next : Nat) : State :=
  let o := s.ownerOf n
  if !s.reaches p then s
  else if !s.on pgBank then s.hoRefuse p n 3
  else if 192 ≤ n then s.hoRefuse p n 8
  else if s.bit (bankBankstFailed n) then s.hoRefuse p n 4
  else if !s.isWriter p n then s.hoRefuse p n 5
  else if next ≠ 0 ∧ next ≠ o ∧ !s.allows n next then s.hoRefuse p n 6
  else if s.bit (bankBankstScrubbing n) then s.hoRefuse p n 7
  else if next = o then ((s.putb (bankBankstPending n) false).put (bankBankstNext n) 0).hoResult p n 2
  else
    match codePrincipal next with
    | some _ =>
      (((s.putb (bankBankstPending n) true).put (bankBankstNext n) next).irq' pgBank 1).hoResult p n 1
    | none =>
      if s.locks n next then s.hoRefuse p n 7
      else if next = 0 then (s.own n 0).hoResult p n 2
      else (s.takeBank n next).hoResult p n 2

/-- A write of ACCEPT (R481, R482). -/
def State.accept (s : State) (p : Principal) (n : Nat) : State :=
  let c := pCode p
  let pend := s.bit (bankBankstPending n) && s.get (bankBankstNext n) == c
  if !s.reaches p then s
  else if !s.on pgBank then s.hoRefuse p n 3
  else if 192 ≤ n then s.hoRefuse p n 8
  else if s.bit (bankBankstFailed n) then s.hoRefuse p n 4
  else if !pend && s.ownerOf n != 0 then s.hoRefuse p n 5
  else if !s.allows n c then s.hoRefuse p n 6
  else if s.locks n c then s.hoRefuse p n 7
  else (s.takeBank n c).hoResult p n 2

/-- Meaning of HANDOVER_PENDING. -/
def execHandoverPending (p : Principal) (bank next : Byte) (s : State) : Out :=
  .next (s.handover p bank.toNat next.toNat)
/-- Meaning of HANDOVER_BLOCK. -/
def execHandoverBlock (p : Principal) (bank next : Byte) (s : State) : Out :=
  .next (s.handover p bank.toNat next.toNat)
/-- Meaning of BANK_RELEASE. -/
def execBankRelease (p : Principal) (bank : Byte) (s : State) : Out := .next (s.handover p bank.toNat 0)
/-- Meaning of HANDOVER_CANCEL. -/
def execHandoverCancel (p : Principal) (bank next : Byte) (s : State) : Out :=
  .next (s.handover p bank.toNat next.toNat)
/-- Meaning of ACCEPT. -/
def execAccept (p : Principal) (bank : Byte) (s : State) : Out := .next (s.accept p bank.toNat)

/-- Meaning of SCRUB_HO_DONE (R484). DEDUCED, assumption row 122. -/
def execScrubHoDone (b : BankIx) (s : State) : Out :=
  .next <|
    if s.bit (bankBankstScrubbing b.val) then
      let c := (s.bank.scrubNext.rd 0 b.val).toNat
      let s := (s.zeroBank b.val).putb (bankBankstScrubbing b.val) false
      { s with bank := { s.bank with scrubNext := s.bank.scrubNext.wr 0 b.val 0 } }.own b.val c
    else s

/-- ALLOW[n] takes a value: an owner, a pending next owner or the owner a scrub is to install that lost its bit goes
(R485). -/
def State.allowSet (s : State) (n : Nat) (v : Word) : State :=
  let s := s.setReg (bankAllow n) v
  let s := if s.allows n (s.get (bankBankstOwner n)) then s.ownable n else s
  let o := s.ownerOf n
  let s := if s.bit (bankBankstPending n) ∧ !s.allows n (s.get (bankBankstNext n)) then
    (s.putb (bankBankstPending n) false).put (bankBankstNext n) 0 else s
  let s := if s.allows n (s.bank.scrubNext.rd 0 n).toNat then s
    else { s with bank := { s.bank with scrubNext := s.bank.scrubNext.wr 0 n 0 } }
  if o ≠ 0 ∧ !s.allows n o then s.put (bankBankstOwner n) 0 else s

/-- A stop or reset of BANK abandons the handovers whose banks are being zeroed (R484). -/
def State.abandonScrubs (s : State) : State := { s with bank := { s.bank with scrubNext := [] } }

/-- BANK has stopped, or is reset: the scrubber stops too (R487). -/
def State.bankStop (s : State) : State :=
  let s := s.abandonScrubs
  { s with bank := { s.bank with scrubOn := false } }

/-! ## Scrubbing, write-back, retention -/

/-- The first word, from word `w` on, of an awake bank. -/
def State.scrubFrom (s : State) : Nat → Nat → Nat
  | 0, w => w
  | k + 1, w =>
    let n := w / 32768
    if n < 192 ∧ s.bit (bankBankstAsleep n) then s.scrubFrom k ((n + 1) * 32768) else w

/-- The stop of BANK waits for the blocks that use the banks (R487). -/
def State.bankUsersOff (s : State) : Bool := [pgSwc, pgFab, pgWcap, pgWelt 0, pgWelt 1].all fun q => s.st q == stOff

/-- The scrubber runs: from BANK's first consistent point until a stop sequence finds the blocks OFF (R474, R487). -/
def State.scrubs (s : State) : Bool :=
  s.bank.scrubOn && s.bit bankCfgScrubEn && !(s.st pgBank == stStopping && s.bankUsersOff)

/-- Meaning of SCRUB (R474). -/
def execScrub (s : State) : Out :=
  .next <|
    if s.scrubs then
      let w := s.scrubFrom 192 s.bank.scrubPos
      if 192 * 32768 ≤ w then { s.count bankScrubPasses with bank := { s.bank with scrubPos := 0 } }
      else
        let a := 0x10000000 + 16 * w
        let (_, _, s) := s.eccRead 0x3F a 16
        let s := if w + 1 = 192 * 32768 then s.count bankScrubPasses else s
        { s with bank := { s.bank with scrubPos := (w + 1) % (192 * 32768) } }
    else s

/-- Meaning of CE_WRITEBACK (R473). -/
def execCeWriteback (granule : BitVec 29) (s : State) : Out :=
  .next <|
    let g := granule.toNat
    if s.bank.writeback.contains g then
      let s := { s with bank := { s.bank with writeback := s.bank.writeback.filter (· != g) } }
      match s.markOf g with
      | some ⟨[b], _⟩ => (s.flipBit g b).setMark g none
      | _ => s
    else s

/-- The bank is in retention. -/
def State.asleep (s : State) (n : Nat) : Bool := s.bit (bankBankstAsleep n)

/-- A bank is requested into retention (R486). -/
def State.retRequested (s : State) (n : Nat) : Bool := s.bit (bankBankstRetReq n) || bitN (s.get bankRetGroupGroups) (n / 8)

/-- The request is honoured. DEDUCED, assumption row 126. -/
def State.retHonoured (s : State) (n : Nat) : Bool :=
  s.retRequested n && !s.bankLocked n && !s.bit (bankBankstFailed n)

/-- A bank whose request is honoured goes into retention (R486). -/
def State.retEnter (s : State) (n : Nat) : State :=
  if s.on pgBank && s.retHonoured n then s.putb (bankBankstAsleep n) true else s

/-- A write of the BANK page; a retention request acts in the cycle in which it reaches the page (R486). -/
def State.actBank (s : State) (a : Nat) (w : Word) : State :=
  let s := s.byCodes a w
  if bankBankst 0 ≤ a ∧ a < bankBankst 192 then s.retEnter ((a - bankBankst 0) / 4)
  else if a = bankRetGroup then forEach (List.range 192) (fun s n => s.retEnter n) s
  else s

/-- Meaning of RETENTION_ENTRY: a request is honoured, when it is made or when the lock that barred it ends. -/
def execRetentionEntry (b : BankIx) (s : State) : Out :=
  .next (s.retEnter b.val)

/-- Meaning of RETENTION_WAKE: the request is withdrawn, or a lock has been taken. -/
def execRetentionWake (b : BankIx) (s : State) : Out :=
  .next (if !s.retHonoured b.val then s.putb (bankBankstAsleep b.val) false else s)

/-! ## The device space through port B (R59, R476, Tables 2-12, 2-13) -/

def errNone : Nat := 0
def errNotOwner : Nat := 1
def errAsleep : Nat := 2
def errEcc : Nat := 3
def errUnmapped : Nat := 4
def errDenied : Nat := 5

/-- The banks a range touches. -/
def banksOf (a n : Nat) : List Nat := (List.range (bankOf (a + n - 1) - bankOf a + 1)).map (bankOf a + ·)

/-- Offset `o` of an engine's local memory is mapped (Table 2-13). -/
def localMapped (o : Nat) : Bool := decide (o < 0x8000) || decide (0x10000 ≤ o ∧ o < 0x20000)

/-- Whether a range is mapped: whole inside the banks, one mapped stretch of engine local memory, or the Insole. -/
def mapped (a n : Nat) : Bool :=
  let z := a + n - 1
  (isBank a && isBank z)
    || (decide (0x18000000 ≤ a ∧ z < 0x18240000) && (a - 0x18000000) / 0x20000 == (z - 0x18000000) / 0x20000
        && localMapped ((a - 0x18000000) % 0x20000) && localMapped ((z - 0x18000000) % 0x20000)
        && (decide ((a - 0x18000000) % 0x20000 < 0x8000) == decide ((z - 0x18000000) % 0x20000 < 0x8000)))
    || decide (0x1C000000 ≤ a ∧ z < 0x1C800000)

/-- A write of `n` bytes at `a` of engine local memory is one R59 and R319 perform. -/
def State.localWrite (s : State) (p : Principal) (a n : Nat) : Bool :=
  let e := (a - 0x18000000) / 0x20000
  let o := (a - 0x18000000) % 0x20000
  let z := o + n - 1
  match p with
  | .sup => true
  | .pe i => i.val == e && decide (0x4000 ≤ o ∧ z < 0x8000)
      && !(decide ((o - 0x4000) / 0x800 ≤ (s.peOf e).ibank.toNat ∧ (s.peOf e).ibank.toNat ≤ (z - 0x4000) / 0x800))
  | _ => false

/-- The error of an access as its request enters the arbiter, ECC apart: 0 for none (R59, R476).
DEDUCED, assumption row 120. -/
def State.portBErr (s : State) (p : Principal) (a n : Nat) (write : Bool) : Nat :=
  if !mapped a n then errUnmapped
  else if isBank a then
    let bs := banksOf a n
    if !s.on pgBank || bs.any fun b => s.ownerOf b != pCode p || s.bit (bankBankstScrubbing b) then errNotOwner
    else if bs.any fun b => s.bit (bankBankstAsleep b) then errAsleep
    else errNone
  else if !write then errNone
  else if 0x1C000000 ≤ a then errDenied
  else if s.localWrite p a n then errNone else errDenied

/-- A port B read: error, data, state after. A failed read apart from ECC returns no data. -/
def State.portBRead (s : State) (p : Principal) (a n : Nat) : Nat × List Byte × State :=
  let e := s.portBErr p a n false
  if e ≠ 0 then (e, [], s)
  else
    let (l, bad, s) := s.eccRead (pCode p) a n
    (if bad then errEcc else errNone, l, s)

/-- A port B write: error, state after. -/
def State.portBWrite (s : State) (p : Principal) (a : Nat) (l : List Byte) : Nat × State :=
  let e := s.portBErr p a l.length true
  if e ≠ 0 then (e, s) else (errNone, s.writeB (pCode p) a l)

/-- Meaning of BANK_ACCESS: status and data go to the requester. -/
def execBankAccess (p : Principal) (addr : Word) (len : Nat) (write : Option (List Byte)) (s : State) : Out :=
  .next <|
    if !s.reaches p then s
    else
      match write with
      | none =>
        let (e, l, s) := s.portBRead p addr.toNat len
        { s with rstatus := e, rbytes := l }
      | some l =>
        let (e, s) := s.portBWrite p addr.toNat l
        { s with rstatus := e, rbytes := [] }

end Sys2Proof.Machine
end

