-- ==== Sys2Proof/Machine/TimeBase.lean ====
section
/-! DEFINITION. The time base: stamps, views and their conversions, event units, capture units, leap seconds and the
OCXO frame (R186-R226). The tick itself stands in Tread.lean, since the Tread generators move in it. -/
namespace Sys2Proof.Machine

/-! ## Stamps -/

/-- Signed 53-bit difference of two stamps (R189). -/
def stampDiff (a b : Stamp) : Int := (a - b).toInt

/-- Stamp of an FRC value with fine part 0. -/
def frcStamp (f : BitVec 48) : Stamp := BitVec.ofNat 53 (f.toNat * 32)

/-- Low and high register word of a stamp (R189). -/
def stampLo (t : Stamp) : Word := BitVec.ofNat 32 t.toNat
def stampHi (t : Stamp) : Word := BitVec.ofNat 32 (t.toNat / 2 ^ 32)

/-- Stamp spelled by a register pair (R189). -/
def stampOf (lo hi : Word) : Stamp := BitVec.ofNat 53 (lo.toNat + hi.toNat % 2 ^ 21 * 2 ^ 32)

/-- Picoseconds as a number of 125 ps units, rounded to nearest with halves away from zero (R137). -/
def psUnits (ps : Int) : Int := if 0 ≤ ps then (2 * ps + 125) / 250 else -((2 * -ps + 125) / 250)

/-- The same of a sum in 1/100 ps (R136, R137). -/
def psUnits100 (x : Int) : Int := if 0 ≤ x then (2 * x + 12500) / 25000 else -((2 * -x + 12500) / 25000)

/-- A stamp moved by a signed number of units. -/
def stampAdd (t : Stamp) (u : Int) : Stamp := t + BitVec.ofInt 53 u

/-! ## Hardware timebases -/

/-- Nanoseconds of an HTB value, modulo 2^64. -/
def htbNs (v : BitVec 96) : Nat := v.toNat / 2 ^ 32

/-- INCR of an HTB in units of 2^-32 ns (R198). -/
def State.incr (s : State) (g : Nat) : Nat := s.get (htbIncrNsNs g) * 2 ^ 32 + s.rn (htbIncrFrac g)

/-- One tick of an HTB with adjustment `adj` asked of it: the limit of R198, the effective increment, the new value. -/
def State.htbTick (s : State) (g : Nat) (adj : Int) : State :=
  let lim : Int := 3435973
  let a := if lim < adj then lim else if adj < -lim then -lim else adj
  let h := s.htbOf g
  let e : Int := s.incr g + a
  let s := s.setHtb g { h with base := h.pre.getD h.v, prev := h.v, v := h.v + BitVec.ofInt 96 e, pre := none,
                               e := e, adj := a }
  let s := s.setReg (htbAdj g) (BitVec.ofInt 32 a)
  if a = adj then s else (s.putb (htbStatClamped g) true).irq' (pgHtb g) 1

/-- T cycles for which the ticks of an HTB are held: longer than any frame lasts. DESIGN CHOICE, assumption row 179. -/
def pastTicks : Nat := 2 ^ 22

/-- The runs that reach into the ticks held at `f`, newest first. -/
def trimRuns (f : BitVec 48) : List HtbRun → List HtbRun
  | [] => []
  | x :: t => if pastTicks ≤ (f - x.frc).toNat then [x] else x :: trimRuns f t

/-- Value of a run at an FRC value. -/
def HtbRun.at' (x : HtbRun) (f : BitVec 48) : BitVec 96 := x.v + BitVec.ofInt 96 ((f - x.frc).toInt * x.e)

/-- The tick counted by the present FRC joins the run it continues, or begins one: with increment `e`, 0 while the HTB does
not tick. -/
def State.htbMark (s : State) (g : Nat) : State :=
  let h := s.htbOf g
  let f := s.tb.frc
  let e := if s.on (pgHtb g) then h.e else 0
  match h.past with
  | x :: _ => if x.e = e ∧ x.at' f = h.v then s else s.setHtb g { h with past := trimRuns f (⟨f, h.v, e⟩ :: h.past) }
  | [] => s.setHtb g { h with past := [⟨f, h.v, e⟩] }

/-- A step of an HTB by a signed amount of 2^-32 ns, between two ticks (R201): from then on the tick counted by
the FRC has the stepped value (R215). -/
def State.htbStep (s : State) (g : Nat) (by' : Int) : State :=
  let h := s.htbOf g
  let s := s.setHtb g { h with v := h.v + BitVec.ofInt 96 by', pre := some (h.pre.getD h.v) }
  let s := (s.putb (htbStatStepped g) true).countF (htbStatSteps g)
  (s.irq' (pgHtb g) 2).htbMark g

/-- The run an FRC value lies in: the oldest one held for an earlier tick, the present value where no tick has been held. -/
def State.htbRun (s : State) (g : Nat) (f : BitVec 48) : HtbRun :=
  let h := s.htbOf g
  match h.past.find? fun x => decide (0 ≤ (f - x.frc).toInt) with
  | some x => x
  | none => h.past.getLast?.getD ⟨s.tb.frc, h.v, h.e⟩

/-- The FRC counts anew: no tick of the old count is held. -/
def State.forgetTicks (s : State) : State :=
  forEach [0, 1, 2] (fun s g => s.setHtb g { s.htbOf g with past := [] }) s

/-- FRC value a stamp counts. -/
def stampFrc (t : Stamp) : BitVec 48 := BitVec.ofNat 48 (t.toNat / 32)

/-- Tread generator g reports LOCKED (Table 7-4). -/
def State.locked (s : State) (g : Nat) : Bool := s.get (treadStatStage g) == 4

/-! ## Views -/

/-- The staged coefficient set of a view (R194). -/
def State.staged (s : State) (v : Nat) : ViewSet :=
  let sec := s.rn (viewOffsetSecLo v) + s.get (viewOffsetSecHiSec v) * 2 ^ 32
  { offset := (sec * 1000000000 + s.get (viewOffsetNsNs v)) * 2 ^ 16 + s.get (viewOffsetFracFrac v)
    anchor := stampOf (s.reg (viewAnchorLo v)) (s.reg (viewAnchorHi v))
    radj := BitVec.ofNat 40 (s.rn (viewRadjLo v) + s.get (viewRadjHiRadj v) * 2 ^ 32) }

/-- Conversion of a stamp through a coefficient set, in 2^-16 ns (R192). -/
def ViewSet.conv (c : ViewSet) (t : Stamp) : Int :=
  let d := stampDiff t c.anchor
  (c.offset : Int) + d * 2 ^ 13 * (2 ^ 48 + c.radj.toInt) / 2 ^ 48

/-- The set a stamp is converted with: 2 PEND, 1 CUR, 0 PREV (R193). -/
def View.choose (w : View) (t : Stamp) : Nat × Option ViewSet :=
  match w.pend with
  | some (c, at') => if 0 ≤ stampDiff t (frcStamp at') then (2, some c)
    else if 0 ≤ stampDiff t w.switch then (1, w.cur) else (0, w.prev)
  | none => if 0 ≤ stampDiff t w.switch then (1, w.cur) else (0, w.prev)

/-- A new CUR from stamp `sw` on. -/
def View.install (w : View) (c : ViewSet) (sw : Stamp) : View :=
  { w with prev := w.cur, cur := some c, switch := sw }

/-- AGED of a view (R197): the distance is a signed one, as R189 and R192 take it. DEDUCED, assumption row 180. -/
def State.viewIsAged (s : State) (v : Nat) : Bool :=
  match (s.viewOf v).cur with
  | none => false
  | some c => decide (2 ^ 46 ≤ (s.tb.frc - stampFrc c.anchor).toInt)

/-- An AGED that has fallen is reported anew when it rises again (R197). -/
def State.viewsFresh (s : State) : State :=
  forEach (s.tb.view.map (·.1)) (fun s n =>
    if (s.viewOf n).aged && !s.viewIsAged n then s.setView n { s.viewOf n with aged := false } else s) s

/-- VIEW_ARM (R194, R195). DESIGN CHOICE, assumption row 56; DEDUCED, assumption row 57. -/
def State.viewArm (s : State) (v : Nat) (w : Word) : State :=
  let s := s.put (viewCtrlTrack v) (bitsOf w 1 2)
  if !bitN w.toNat 0 || !s.on pgView then s
  else
    let vw := s.viewOf v
    let s := s.setView v { vw with writers := [] }
    if s.get (viewCtrlTrack v) ≠ 0 then s.err pgView 9
    else if 1 < vw.writers.length then s.err pgView 8
    else if 1000000000 ≤ s.get (viewOffsetNsNs v) then s.err pgView 10
    else
      let at' := BitVec.ofNat 48 (s.rn (viewActAtLo v) + s.get (viewActAtHiFrc v) * 2 ^ 32)
      if 0 < (at' - s.tb.frc).toInt then s.setView v { vw with writers := [], pend := some (s.staged v, at') }
      else
        let s := s.setView v { vw with writers := [], pend := some (s.staged v, s.tb.frc + 1) }
        (s.putb (viewStatLateApply v) true).irq' pgView 2

/-- Meaning of VIEW_ARM. -/
def execViewArm (p : Principal) (n : ViewIx) (v : Word) (s : State) : Out :=
  .next (s.access p (viewCtrl n.val) v fun s w => s.viewArm n.val w)

/-- Meaning of VIEW_SWITCH (R193): acts once the FRC has reached ACT_AT. -/
def execViewSwitch (n : ViewIx) (s : State) : Out :=
  .next <|
    let vw := s.viewOf n.val
    match vw.pend with
    | some (c, at') =>
      if 0 ≤ (s.tb.frc - at').toInt then (s.setView n.val { vw.install c (frcStamp at') with pend := none }).viewsFresh else s
    | none => s

/-- TRACK_PER as it acts (Table 6-7). -/
def State.trackPer (s : State) : Nat := max (s.get viewTrackPerTicks) 2500

/-- Meaning of VIEW_TRACK_LOAD (R195): acts when TRACK_PER ticks have passed since the set in use was loaded. -/
def execViewTrackLoad (n : ViewIx) (s : State) : Out :=
  .next <|
    let vw := s.viewOf n.val
    let tr := s.get (viewCtrlTrack n.val)
    let due := vw.cur == none || s.trackPer * 32 ≤ (s.nowStamp - vw.switch).toNat
    if tr = 0 ∨ !s.on pgView ∨ !due then s
    else
      let h := s.htbOf (tr - 1)
      let c : ViewSet := { offset := h.v.toNat / 2 ^ 16, anchor := s.nowStamp,
                           radj := BitVec.ofInt 40 ((h.e - 4 * 2 ^ 32) * 2 ^ 14) }
      (s.setView n.val (vw.install c s.nowStamp)).viewsFresh

/-- VIEW_CONVERT: the write of CONV_IN_HI starts a conversion (R196). -/
def State.viewConvert (s : State) (p : Principal) (v : Word) : State :=
  let w := (pIdx p)
  let s := s.put (viewConvInHiStamp w) v.toNat
  let t := if s.bit (viewConvSelNow w) then s.nowStamp else stampOf (s.reg (viewConvInLo w)) v
  { s with tb := { s.tb with conv := s.tb.conv.wr none w (some ⟨s.get (viewConvSelView w), t⟩) } }

/-- Meaning of VIEW_CONVERT. -/
def execViewConvert (p : Principal) (v : Word) (s : State) : Out :=
  .next (s.access p (viewConvInHi (pIdx p)) v fun s w => s.viewConvert p w)

/-- Writes a conversion result (R192, R196). -/
def State.convResult (s : State) (w : Nat) (t : Int) (set : Nat) (invalid : Bool) : State :=
  let sec := wrapN 48 (t / (1000000000 * 2 ^ 16))
  let rest := (t % (1000000000 * 2 ^ 16)).toNat
  let s := s.setReg (viewConvSecLo w) (BitVec.ofNat 32 sec)
  let s := s.setReg (viewConvSecHi w) (BitVec.ofNat 32 (sec / 2 ^ 32 + if invalid then 2 ^ 31 else 0))
  let s := s.setReg (viewConvNs w) (BitVec.ofNat 32 (rest / 2 ^ 16))
  s.setReg (viewConvFrac w) (BitVec.ofNat 32 (rest % 2 ^ 16 + set * 2 ^ 16))

/-- A conversion completes (R196). Where the chosen set was never installed the result is a free value.
DEDUCED, assumption row 58. -/
def State.convDone (s : State) (p : Principal) : State :=
  match s.tb.conv.rd none (pIdx p) with
  | none => s
  | some c =>
    let vw := s.viewOf c.view
    let invalid := vw.cur == none || !s.on pgView
    let (set, co) := vw.choose c.stamp
    let s := { s with tb := { s.tb with conv := s.tb.conv.wr none (pIdx p) none } }
    match co with
    | some co => s.convResult (pIdx p) (co.conv c.stamp) set invalid
    | none =>
      let (a, s) := s.draw 4
      let (b, s) := s.draw 4
      s.convResult (pIdx p) ((a.toNat * 2 ^ 32 + b.toNat : Nat) : Int) set invalid

/-- The VIEW page holds a principal's read of a conversion result (R196). -/
def State.convHolds (s : State) (p : Principal) (a : Nat) : Bool :=
  decide (0x8404C ≤ a ∧ a ≤ 0x84058) && (s.tb.conv.rd none (pIdx p)).isSome

/-- Meaning of VIEW_AGED (R197). -/
def execViewAged (n : ViewIx) (s : State) : Out :=
  .next <|
    if s.viewIsAged n.val && !(s.viewOf n.val).aged then
      (s.setView n.val { s.viewOf n.val with aged := true }).irq' pgView 1
    else s

/-! ## Reads that load a latch -/

/-- A read of TB.FRC_LO, or of NOW_NS_LO of an HTB, loads the reader's latches (R200, Table 6-5). -/
def State.frcLoRead (s : State) (p : Principal) (htb : Option Nat) : State :=
  match htb with
  | none =>
    (s.setReg (tbFrcHi (pIdx p)) (BitVec.ofNat 32 (s.tb.frc.toNat / 2 ^ 32))).answer p
      (BitVec.ofNat 32 s.tb.frc.toNat)
  | some g =>
    let v := (s.htbOf g).v
    let s := s.setReg (htbNowNsHi (pIdx p) g) (BitVec.ofNat 32 (htbNs v / 2 ^ 32))
    let s := s.setReg (htbNowFrac (pIdx p) g) (BitVec.ofNat 32 v.toNat)
    s.answer p (BitVec.ofNat 32 (htbNs v))

/-- Meaning of FRC_LO_READ. -/
def execFrcLoRead (p : Principal) (htb : Option GenIx) (s : State) : Out :=
  .next (if s.reaches p then s.frcLoRead p (htb.map (·.val)) else s)

/-! ## Event units -/

/-- HTB an event unit works on (R206). -/
def State.evHtb (s : State) (n : Nat) : Nat := min (s.get (evtEvCfgDomain n)) 2

/-- Signed difference h − T of the low 40 bits with fraction, in 2^-32 ns (R202). -/
def evDiff (h : BitVec 96) (t : BitVec 72) : Int := (h.setWidth 72 - t).toInt

/-- MODE as it acts: 1 once, 2 periodic, 0 none (R206). -/
def State.evMode (s : State) (n : Nat) : Nat := if s.get (evtEvCfgMode n) = 3 then 0 else s.get (evtEvCfgMode n)

/-- PERIOD as it acts, in 2^-32 ns (R207). -/
def State.evPeriod (s : State) (n : Nat) : Nat :=
  max (s.rn (evtEvPeriodNs n) * 2 ^ 32 + s.rn (evtEvPeriodFrac n)) (8 * 2 ^ 32)

/-- WIDTH as it acts, in 2^-32 ns (R210). -/
def State.evWidth (s : State) (n : Nat) : Nat :=
  let w := max (s.rn (evtEvWidth n) * 2 ^ 29) (2 ^ 32)
  if s.evMode n = 2 then min w (s.evPeriod n - 2 ^ 32) else w

/-- The TE pin is an output: EVT has been ON, and OUT_EN is 1 (R212, R545). DEDUCED, assumption row 218. -/
def State.teDriven (s : State) (n : Nat) : Bool := s.chip.powered && s.tb.teUp && s.bit (tbTeCfgOutEn n)

/-- An edge on the TE pin, where the unit drives it (R203, R210, R212). -/
def State.teEdge (s : State) (n : Nat) (active : Bool) (phase : Nat) : State :=
  if s.teDriven n then
    s.emit (.edge n (active != s.bit (evtEvCfgPol n)) ((phase : Int) + psUnits (s.geti (tbTeTrimOutPs n))))
  else s

/-- The level a unit drives on its TE pin (R210). -/
def State.teLevel (s : State) (n : Nat) : Bool := (s.evOf n).active != s.bit (evtEvCfgPol n)

/-- A write that changes what drives a TE pin: the pin is driven or let go with OUT_EN, and an edge leaves at the next T
cycle where its level changes or begins to be driven (R210, R212). -/
def State.teChange (s : State) (n : Nat) (f : State → State) : State :=
  let t := f s
  let was := s.teDriven n
  let now := t.teDriven n
  let edge : OutEvent := .edge n (t.teLevel n) 32
  if now && !was then (t.emit (.teDrive n true)).emit edge
  else if was && !now then t.emit (.teDrive n false)
  else if now && t.teLevel n != s.teLevel n then t.emit edge
  else t

/-- Ends a pulse in progress at the next T cycle (R206, R207). -/
def State.evCut (s : State) (n : Nat) : State :=
  let v := s.evOf n
  if v.active then (s.setEv n { v with active := false }).teEdge n false 32 else s

/-- A firing or a disarming of the sample unit of wave capture is on its way to it (R457, R458). -/
def State.sampleDue (s : State) (n : Nat) (x : Option (BitVec 72 × Bool)) : State :=
  if s.on pgWcap ∧ n = s.get wcapCfgEv then { s with wcap := { s.wcap with due := s.wcap.due ++ [x] } } else s

/-- Disarms a unit (R206, R211). -/
def State.evDisarm (s : State) (n : Nat) : State :=
  let s := s.evCut n
  let s := if s.bit (evtEvStatArmed n) then s.sampleDue n none else s
  let s := s.setEv n { s.evOf n with aligning := none, age := 0, ending := false }
  (s.putb (evtEvStatArmed n) false).putb (evtEvStatWaiting n) false

/-- The unit's target is set, or begins to be computed, and it compares from the next tick on (R206, R208, R209). -/
def State.evRelease (s : State) (n : Nat) : State :=
  let s := s.putb (evtEvStatWaiting n) false
  if s.bit (evtEvCfgAlign n) ∧ s.evMode n = 2 then
    s.setEv n { s.evOf n with aligning := some (s.htbOf (s.evHtb n)).v, age := 0 }
  else
    let ns := s.rn (evtEvTgtNsLo n) + s.get (evtEvTgtNsHiNs n) * 2 ^ 32
    let t := BitVec.ofNat 72 (ns * 2 ^ 32 + s.get (evtEvTgtNsHiFrac n) * 2 ^ 16)
    let s := s.setEv n { s.evOf n with aligning := none, age := 0, tgt := t }
    s.setReg (evtEvNext n) (BitVec.ofNat 32 ns)

/-- Arms a unit (R206-R209). -/
def State.evArm (s : State) (n : Nat) : State :=
  let s := s.putb (evtEvStatDone n) false
  if s.evMode n = 0 then s
  else
    let aligned := s.bit (evtEvCfgAlign n) && s.evMode n == 2
    let badFrac := aligned && s.rn (evtEvPeriodFrac n) != 0
    let badPhase := aligned && decide (s.rn (evtEvPeriodNs n) ≤ s.rn (evtEvPhaseNs n))
    if badFrac || badPhase then
      let s := if badFrac then s.err pgEvt 9 else s
      if badPhase then s.err pgEvt 10 else s
    else
      let s := s.evCut n
      let s := (s.setReg (evtEvFired n) 0).put (evtEvStatMissed n) 0
      let s := s.setEv n { s.evOf n with ending := false, count := 0, fired := none }
      let s := s.putb (evtEvStatArmed n) true
      if s.bit (evtEvCfgWaitLock n) && !s.locked (s.evHtb n) then
        (s.setEv n { s.evOf n with aligning := none, age := 0 }).putb (evtEvStatWaiting n) true
      else s.evRelease n

/-- A write of EV[n].CTRL: DISARM, then ARM. -/
def State.evCtrl (s : State) (n : Nat) (v : Word) : State :=
  let s := if bitN v.toNat 1 then s.evDisarm n else s
  if bitN v.toNat 0 && s.on pgEvt then s.evArm n else s

/-- Meaning of EV_ARM. -/
def execEvArm (p : Principal) (n : OctIx) (s : State) : Out :=
  .next (s.access p (evtEvCtrl n.val) 1 fun s w => s.evCtrl n.val w)

/-- Meaning of EV_DISARM. -/
def execEvDisarm (p : Principal) (n : OctIx) (s : State) : Out :=
  .next (s.access p (evtEvCtrl n.val) 2 fun s w => s.evCtrl n.val w)

/-- First target of an aligned unit: the smallest PHASE + j × PERIOD at least 1,000 ns after `h`, in ns (R208). -/
def alignTarget (h : BitVec 96) (phase period : Nat) : Int :=
  let x : Int := (h.toNat : Int) + 1000 * 2 ^ 32
  let p : Int := max period 8
  let j := -((-(x - (phase : Int) * 2 ^ 32)) / (p * 2 ^ 32))
  (phase : Int) + j * p

/-- Meaning of EV_ALIGN_DONE (R208). -/
def execEvAlignDone (n : OctIx) (s : State) : Out :=
  .next <|
    let v := s.evOf n.val
    match v.aligning with
    | none => s
    | some h =>
      let t := alignTarget h (s.rn (evtEvPhaseNs n.val)) (s.rn (evtEvPeriodNs n.val))
      let s := s.setEv n.val { v with aligning := none, age := 0, tgt := BitVec.ofInt 72 (t * 2 ^ 32) }
      s.setReg (evtEvNext n.val) (BitVec.ofInt 32 t)

/-- Meaning of EV_WAIT_RELEASE (R209). -/
def execEvWaitRelease (n : OctIx) (s : State) : Out :=
  .next (if s.bit (evtEvStatWaiting n.val) && s.locked (s.evHtb n.val) then s.evRelease n.val else s)

/-- Whether a unit fires in the last tick: `some true` LATE, `some false` on time (R202, R204, R205). A next target that the HTB
reaches in the tick of the firing just made is fired in that tick too, by another EVENT_FIRE (R207).
DESIGN CHOICE, assumption row 208. -/
def State.evFires (s : State) (n : Nat) : Option Bool :=
  let v := s.evOf n
  let h := s.htbOf (s.evHtb n)
  if !s.bit (evtEvStatArmed n) || s.bit (evtEvStatWaiting n) || v.aligning != none || v.age = 0
      || !s.on (pgHtb (s.evHtb n)) || !s.on pgEvt then none
  else if v.age = 1 ∧ 0 ≤ evDiff h.prev v.tgt then some true
  else if v.age ≠ 1 ∧ evDiff h.base v.tgt < 0 ∧ 0 ≤ evDiff h.prev v.tgt then some true
  else if evDiff h.prev v.tgt < 0 ∧ 0 ≤ evDiff h.v v.tgt then some false
  else none

/-- Phase of an edge at `t` in the tick that began at `h0` with increment `e` (R203). -/
def edgePhase (h0 : BitVec 96) (e : Int) (t : BitVec 72) : Nat := ((64 * -(evDiff h0 t) + e) / (2 * e)).toNat

/-- The firing of a unit, LATE or on time, with its next target (R203-R211). DEDUCED, assumption row 59. -/
def State.evFire (s : State) (n : Nat) (late : Bool) : State :=
  let v := s.evOf n
  let h := s.htbOf (s.evHtb n)
  let k := if late then 0 else edgePhase h.prev h.e v.tgt
  let start : BitVec 72 := if late then h.prev.setWidth 72 else v.tgt
  let s := if v.active then s else s.teEdge n true k
  let s := ((s.countWrap (evtEvFired n)).trigSource 1 n 0).sampleDue n (some (v.tgt, late))
  let s := if late then (s.putb (evtEvStatLate n) true).irq' pgEvt 1 else s
  let cnt := v.count + 1
  let last := s.evMode n = 1 ∨ (s.rn (evtEvCount n) ≠ 0 ∧ s.rn (evtEvCount n) ≤ cnt)
  let per := s.evPeriod n
  -- the least number of periods that puts the target ahead of the HTB, at least 1 (R207)
  let steps := if late then ((evDiff h.prev v.tgt) / (per : Int)).toNat + 1 else 1
  let next := v.tgt + BitVec.ofNat 72 (steps * per)
  let v' : Ev := { v with fired := some (v.tgt, late), now := some k, active := true,
                          pulseEnd := start + BitVec.ofNat 72 (s.evWidth n), count := cnt, age := 2 }
  if last then ((s.setEv n { v' with ending := true }).putb (evtEvStatArmed n) false).sampleDue n none
  else
    let s := s.setEv n { v' with tgt := next }
    let s := s.countF (evtEvStatMissed n) (steps - 1)
    s.setReg (evtEvNext n) (BitVec.ofNat 32 (next.toNat / 2 ^ 32))

/-- Meaning of EVENT_FIRE. -/
def execEventFire (n : OctIx) (s : State) : Out :=
  .next (match s.evFires n.val with
    | none => s
    | some late => s.evFire n.val late)

/-- Meaning of EVENT_PULSE_END (R210, R211): acts once the HTB has reached T + WIDTH. -/
def execEventPulseEnd (n : OctIx) (s : State) : Out :=
  .next <|
    let v := s.evOf n.val
    let h := s.htbOf (s.evHtb n.val)
    if v.active ∧ 0 ≤ evDiff h.v v.pulseEnd then
      let k := if evDiff h.prev v.pulseEnd < 0 then edgePhase h.prev h.e v.pulseEnd else 0
      let s := (s.setEv n.val { v with active := false, ending := false }).teEdge n.val false k
      if v.ending then (s.putb (evtEvStatDone n.val) true).irq' pgEvt 2 else s
    else s

/-- EVT reaches ON: the pins with OUT_EN are driven, and an aligned periodic unit arms itself (R213, R545). -/
def State.evtPoint (s : State) : State :=
  let t := { s with tb := { s.tb with teUp := true } }
  let s := forEach ((List.range 8).filter fun n => !s.teDriven n && t.teDriven n)
    (fun s n => (s.emit (.teDrive n true)).emit (.edge n (s.teLevel n) 32)) t
  forEach (List.range 8) (fun s n => if s.evMode n = 2 ∧ s.bit (evtEvCfgAlign n) then s.evArm n else s) s

/-- EVT stops: every unit disarms (R225). -/
def State.evtStop (s : State) : State := forEach (List.range 8) (fun s n => s.evDisarm n) s

/-! ## Capture units -/

/-- The records a unit holds. -/
def State.capOf (s : State) (n : Nat) : List CapRec := s.tb.cap.rd [] n

/-- Effective increment of an HTB at the tick a stamp counts: what it added at that tick. DEDUCED, assumption row 187. -/
def State.htbIncrAt (s : State) (g : Nat) (t : Stamp) : Int := (s.htbRun g (stampFrc t)).e

/-- Value of an HTB at a stamp, in 2^-16 ns: that of the tick the stamp counts plus its fine part (R215). -/
def State.htbAt (s : State) (g : Nat) (t : Stamp) : Nat :=
  let x := s.htbRun g (stampFrc t)
  ((((x.at' (stampFrc t)).toNat : Int) + (t.toNat % 32 : Nat) * x.e / 32) % 2 ^ 96 / 2 ^ 16).toNat

/-- A record enters the FIFO, or is lost to a full one (R215). -/
def State.capture (s : State) (n : Nat) (rising sw : Bool) (t : Stamp) : State :=
  let q := s.capOf n
  if 4 ≤ q.length then (s.putb (evtEcStatOvf n) true).irq' pgEvt 4
  else
    let r : CapRec := ⟨rising, sw, t, s.htbAt 0 t, s.htbAt 1 t, s.htbAt 2 t⟩
    { s with tb := { s.tb with cap := s.tb.cap.wr [] n (q ++ [r]) } }.irq' pgEvt 3

/-- A capture unit sees an edge: at most one per T cycle is recorded (R214). -/
def State.captureOnce (s : State) (n : Nat) (rising : Bool) (t : Stamp) : State :=
  if s.tb.capBusy.rd false n then s.countF (evtEcStatMissed n)
  else ({ s with tb := { s.tb with capBusy := s.tb.capBusy.wr false n true } }).capture n rising false t

/-- Meaning of CAPTURE_EDGE (R214): a TE pin edge, or the trigger of an event unit that fired in this tick. -/
def execCaptureEdge (n : OctIx) (rising : Bool) (fine : BitVec 5) (s : State) : Out :=
  .next <|
    let src := s.get (evtEcCfgSrc n.val)
    if !s.on pgEvt || !s.bit (evtEcCfgEn n.val) then s
    else if src = 0 then
      let e := s.get (evtEcCfgEdge n.val)
      if (rising && e == 1) || (!rising && e == 0) then s
      else s.captureOnce n.val rising
        (stampAdd (s.nowStamp + BitVec.ofNat 53 fine.toNat) (-Config.captureDesign - psUnits (s.geti (tbTeTrimInPs n.val))))
    else if src ≤ 8 then
      match (s.evOf (src - 1)).now with
      | some k => s.captureOnce n.val true (stampAdd s.nowStamp ((k : Int) - 32))
      | none => s
    else s

/-- Meaning of CAPTURE_SW (R216). -/
def execCaptureSw (p : Principal) (n : OctIx) (s : State) : Out :=
  .next (s.access p (evtEcCtrl n.val) 1 fun s _ => if s.on pgEvt then s.capture n.val false true s.nowStamp else s)

/-- What a capture register shows of the head record: HTB `g` of 3, word 0 LO, 1 HI, 2 FRAC. -/
def CapRec.htbWord (r : CapRec) (g w : Nat) : Word :=
  let h := if g = 0 then r.h0 else if g = 1 then r.h1 else r.ha
  if w = 0 then BitVec.ofNat 32 (h / 2 ^ 16)
  else if w = 1 then BitVec.ofNat 32 (h / 2 ^ 48)
  else BitVec.ofNat 32 (h % 2 ^ 16)

/-- A read of HA_FRAC removes the head record (R215). -/
def State.captureRead (s : State) (p : Principal) (n : Nat) : State :=
  match s.capOf n with
  | [] => s.answer p 0
  | r :: t => { s with tb := { s.tb with cap := s.tb.cap.wr [] n t } }.answer p (r.htbWord 2 2)

/-- Meaning of CAPTURE_READ. -/
def execCaptureRead (p : Principal) (n : OctIx) (s : State) : Out :=
  .next (if s.reaches p then s.captureRead p n.val else s)

/-! ## Leap seconds -/

/-- Whether a second boundary passed from `a` to `b` (2^-32 ns) is one at which TAI seconds plus `ofs` is a multiple of
86,400. -/
def dayBoundary (a b : Nat) (ofs : Int) : Bool :=
  let sa : Int := (a / 2 ^ 32 / 1000000000 : Nat)
  let sb : Int := (b / 2 ^ 32 / 1000000000 : Nat)
  -- the last qualifying second not after sb
  let q := sb - (sb + ofs) % 86400
  decide (sa < q)

/-- Meaning of LEAP_CHANGE (R217, R218). -/
def execLeapChange (s : State) : Out :=
  .next <|
    let h := s.htbOf 2
    let l61 := s.bit tbLeapLeap61
    let l59 := s.bit tbLeapLeap59
    let u := s.geti tbUtcOffsetSeconds
    if !s.on pgTb || l61 == l59 then s
    else if l61 then
      if dayBoundary h.base.toNat h.v.toNat (-u) then
        ((s.put tbUtcOffsetSeconds (wrapN 16 (u + 1))).putb tbLeapLeap61 false).irq' pgTb 1
      else s
    else if dayBoundary h.base.toNat h.v.toNat (1 - u) then
      ((s.put tbUtcOffsetSeconds (wrapN 16 (u - 1))).putb tbLeapLeap59 false).irq' pgTb 1
    else s

/-! ## OCXO -/

/-- The bits of a DAC frame (R219). -/
def State.ocxBits (s : State) : List Bool :=
  let len := min (s.get tbOcxPrefixLen) 8
  let width := min (max (s.get tbOcxCfgWidth) 16) 24
  let prefixBits := ((List.range len).map fun i => bitN (s.get tbOcxPrefixPrefix) (len - 1 - i))
  let code := ((List.range width).map fun i => bitN (s.rn tbOcxValue) (31 - i))
  let code := match code with
    | [] => []
    | b :: t => (if s.bit tbOcxCfgSigned then b else !b) :: t
  prefixBits ++ code

/-- T cycles from the start of one frame to the earliest start of the next: its bits, 4 SCK periods of CS_N high, and
OCX_GAP (R219). -/
def State.ocxSpacing (s : State) : Nat :=
  max (s.get tbOcxGapUs * 250) ((s.ocxBits.length + 4) * 2 * (s.get tbOcxCfgDiv + 1))

/-- A value for the DAC (R220). -/
def State.ocxValue (s : State) (v : Word) : State :=
  { s.setReg tbOcxValue v with tb := { s.tb with ocxPending := true } }

/-- Meaning of OCX_VALUE_WRITE (R220). -/
def execOcxValueWrite (p : Principal) (v : Word) (s : State) : Out :=
  .next (s.access p tbOcxValue v fun s w => if s.get tbOcxCfgSrc ≠ 0 then s.err pgTb 8 else s.ocxValue w)

/-- Meaning of OCX_FRAME (R219, R220). DEDUCED, assumption row 60. -/
def execOcxFrame (s : State) : Out :=
  .next <|
    let due := match s.tb.ocxLast with
      | none => true
      | some f => decide (s.ocxSpacing ≤ (s.tb.frc - f).toNat)
    if s.on pgTb && s.bit tbOcxCfgEn && s.tb.ocxPending && due then
      let s := s.emit (.ocx s.ocxBits)
      let s := { s with tb := { s.tb with ocxPending := false, ocxLast := some s.tb.frc } }
      s.countF tbOcxStatFrames
    else s

/-! ## Starts and stops of the time base pages -/

/-- TB enters STARTING: the FRC is 0 (R188). -/
def State.tbBegin (s : State) : State := ({ s with tb := { s.tb with frc := 0, runs := false } }).forgetTicks.viewsFresh

/-- TB reaches ON: the FRC counts, and the retained oscillator value is sent (R188, R220). -/
def State.tbPoint (s : State) : State :=
  { s with tb := { s.tb with runs := true, ocxLast := none, ocxPending := s.tb.ocxPending || s.bit tbOcxCfgEn } }

/-- TB stops: the FRC freezes (R224). -/
def State.tbStop (s : State) : State := { s with tb := { s.tb with runs := false } }

/-- VIEW starts with every set empty (R225). -/
def State.viewBegin (s : State) : State := { s with tb := { s.tb with view := [], conv := [] } }

end Sys2Proof.Machine
end

