-- ==== Sys2Proof/Machine/Ptpa.lean ====
section
/-! DEFINITION. The PTP assists: the parser, the domain map and the edits of event messages (R230-R238). Positions of
fields inside a PTP message are those of IEEE 1588 (PRESUMED, assumption row 30). -/
namespace Sys2Proof.Machine

/-- A byte of a frame, 0 past its end. -/
def fb (l : List Byte) (i : Nat) : Nat := (l.getD i 0).toNat
/-- Two, four bytes of a frame, big-endian. -/
def fb16 (l : List Byte) (i : Nat) : Nat := fb l i * 0x100 + fb l (i + 1)
def fb48 (l : List Byte) (i : Nat) : Nat := beNat ((l.drop i).take 6)

/-- The frame with bytes replaced from position `i` on. -/
def patch (l : List Byte) (i : Nat) (b : List Byte) : List Byte := l.take i ++ b ++ l.drop (i + b.length)

/-- The frame carries an 802.1Q tag (R155). -/
def isTagged (l : List Byte) : Bool := fb16 l 12 == 0x8100
/-- Position of the EtherType that counts: after the tag, if there is one. -/
def etPos (l : List Byte) : Nat := if isTagged l then 16 else 12

/-- A recognised PTP message: where its header starts, where its UDP header starts (none for the Ethernet transport),
whether IPv6, whether an event message. -/
structure PtpMsg where
  at' : Nat
  udp : Option Nat
  v6 : Bool
  event : Bool
deriving DecidableEq, Repr

/-- The parser (R230). -/
def State.ptpParse (s : State) (l : List Byte) : Option PtpMsg :=
  let p := etPos l
  let et := fb16 l p
  let msg (m : PtpMsg) : Option PtpMsg := if m.at' + 5 ≤ l.length then some m else none
  if et = 0x88F7 ∧ s.bit ptpaCfgL2 then msg ⟨p + 2, none, false, fb l (p + 2) % 16 < 8⟩
  else if et = 0x0800 ∧ s.bit ptpaCfgUdp4 ∧ fb l (p + 2) = 0x45 ∧ fb l (p + 11) = 17 then
    let port := fb16 l (p + 24)
    if port = 319 ∨ port = 320 then msg ⟨p + 30, some (p + 22), false, port = 319⟩ else none
  else if et = 0x86DD ∧ s.bit ptpaCfgUdp6 ∧ fb l (p + 2) / 16 = 6 ∧ fb l (p + 8) = 17 then
    let port := fb16 l (p + 44)
    if port = 319 ∨ port = 320 then msg ⟨p + 50, some (p + 42), true, port = 319⟩ else none
  else none

/-- The domain map entry of a message: TD and ROLE as they act (R231). -/
def State.ptpDomain (s : State) (l : List Byte) (m : PtpMsg) : Option (Nat × Nat) :=
  let e := (List.range 4).find? fun i =>
    s.bit (ptpaDomainMapValid i) && s.get (ptpaDomainMapDomain i) == fb l (m.at' + 4)
      && (!s.bit (ptpaDomainMapSdoCare i) || s.get (ptpaDomainMapSdo i) == fb l m.at' / 16)
  e.bind fun i =>
    let td := s.get (ptpaDomainMapTd i)
    let role := s.get (ptpaDomainMapRole i)
    if td = 1 ∨ td = 2 then some (td - 1, if role = 3 then 0 else role) else none

/-- The ingress parser counts an event or general message of a mapped domain (R238). -/
def State.ptpCount (s : State) (n : Nat) (l : List Byte) : State :=
  if !s.on pgPtpa || !s.bit (ptpaPortCfgParseEn n) then s
  else
    match s.ptpParse l with
    | none => s
    | some m =>
      match s.ptpDomain l m with
      | none => s
      | some _ => s.count (if m.event then ptpaRxEvent n else ptpaRxGeneral n)

/-- One's complement sum of 16-bit words from an even position. -/
def onesSum : List Byte → Nat
  | [] => 0
  | [a] => a.toNat * 256
  | a :: b :: t => a.toNat * 256 + b.toNat + onesSum t

/-- The two last bytes of a UDP payload that leave its checksum as `old` had it (R236). -/
def fixTail (old new : List Byte) : List Byte :=
  let z := patch new (new.length - 2) [0, 0]
  let d := (onesSum old + 65535 - onesSum z % 65535) % 65535
  let d := if new.length % 2 = 0 then d else d % 256 * 256 + d / 256
  patch z (new.length - 2) (beBytes 2 d)

/-- The frame after its edit at `pos` is done: the checksum rules of R236. -/
def ptpChecksum (old new : List Byte) (m : PtpMsg) : List Byte :=
  match m.udp with
  | none => new
  | some u =>
    if !m.v6 then patch new (u + 6) [0, 0]
    else
      let len := fb16 old (u + 4)
      let a := (old.drop u).take len
      let b := (new.drop u).take len
      if len < 10 then new else patch new u (fixTail a b)

/-- What an egress edit does to a message (R232-R234): new bytes at given offsets of the message, or nothing. `tp` is
the domain time at the stamp point in 2^-16 ns, `res` the residence in 2^-16 ns, `link` the ingress port's link delay. -/
def State.ptpEdit (s : State) (n : Nat) (l : List Byte) (m : PtpMsg) (role : Nat) (injected : Bool)
    (tp : Nat) (res : Int) (link : Nat) : Option (Nat × List Byte) × Option (List Byte) :=
  let ty := fb l m.at' % 16
  let two := bitN (fb l (m.at' + 6)) 1
  let corr := beNat ((l.drop (m.at' + 8)).take 8)
  let add (x : Int) : List Byte := beBytes 8 (wrapN 64 ((corr : Int) + x))
  if injected then
    if ty = 0 ∧ !two ∧ s.bit (ptpaPortCfgOneStepSync n) then
      let ns := tp / 2 ^ 16
      (some (34, beBytes 6 (ns / 1000000000) ++ beBytes 4 (ns % 1000000000)), some (add (tp % 2 ^ 16 : Nat)))
    else if ty = 3 ∧ !two ∧ s.bit (ptpaPortCfgOneStepPdelay n) then (none, some (add tp))
    else (none, none)
  else if !s.bit (ptpaPortCfgTcEn n) then (none, none)
  else if role = 1 ∧ ((ty = 0 ∧ !two) ∨ ty = 1 ∨ ty = 2 ∨ ty = 3) then (none, some (add res))
  else if role = 2 ∧ ty = 0 ∧ !two then (none, some (add (res + link)))
  else (none, none)

/-- The egress edit of a frame at port `n`: the frame's bytes without FCS and the state after (R232-R238). -/
def State.ptpEgress (s : State) (n : Nat) (d : Desc) (eccErr : Bool) (l : List Byte) (tOut : Stamp) :
    List Byte × State :=
  if !s.on pgPtpa || !s.bit (ptpaPortCfgParseEn n) then (l, s)
  else
    match s.ptpParse l with
    | none => (l, s)
    | some m =>
      match s.ptpDomain l m with
      | none => (l, s)
      | some (td, role) =>
        let res : Int := stampDiff tOut d.stamp * s.htbIncrAt td tOut / 2 ^ 21
        let (body, corr) := s.ptpEdit n l m role d.injected (s.htbAt td tOut) res (s.rn (ptpaLinkDelay d.src))
        match corr with
        | none => (l, s)
        | some c =>
          let last := m.at' + (if body.isSome then 44 else 16)
          let last := if m.v6 then max last ((m.udp.getD 0) + fb16 l ((m.udp.getD 0) + 4)) else last
          if eccErr ∨ l.length < last then (l, s.count (ptpaSkipped n))
          else
            let x := patch l (m.at' + 8) c
            let x := match body with
              | some (o, b) => patch x (m.at' + o) b
              | none => x
            (ptpChecksum l x m, s.count (ptpaEdits n))

end Sys2Proof.Machine
end

