-- ==== Sys2Proof/Machine/Switch.lean ====
section
/-! DEFINITION. The switch core: queues and the shared buffer, generations, the forwarding database, tables, filters and
meters, lookup, commit and admission (R146-R185). -/
namespace Sys2Proof.Machine

/-! ## Queues, cells and descriptors -/

/-- Page index of SWQ and slot of a queue (Table 5-2). -/
def qSlot (q : Nat) : Nat × Nat :=
  if q < 192 then (q / 8, q % 8) else if q < 228 then ((q - 192) / 2, 8 + (q - 192) % 2)
  else (18 + (q - 228) / 2, 8 + (q - 228) % 2)

/-- Queue of an endpoint for a class (Table 5-2), none for a code that names no endpoint (R152). -/
def endQueue (e cls : Nat) : Option Nat :=
  if e < 24 then some (8 * e + cls) else if e < 42 then some (192 + 2 * (e - 24) + (if 4 ≤ cls then 1 else 0))
  else if e = 42 then some (228 + cls) else none

/-- Cells of `n` stored bytes (R150). -/
def cellsFor (n : Nat) : Nat := (n + 255) / 256

/-- Charge of a frame (R174). -/
def Desc.charge (d : Desc) : Nat := d.cells.length

/-- Occupancy of a queue (R174). -/
def State.occ (s : State) (q : Nat) : Nat := ((s.queueOf q).map Desc.charge).sum

/-- GUAR of a queue. -/
def State.guar (s : State) (q : Nat) : Nat := s.get (swqGuarCells (qSlot q).1 (qSlot q).2)

/-- Shared part of a queue. -/
def State.sharedOf (s : State) (q : Nat) : Nat := s.occ q - s.guar q

/-- Sum of GUAR over all queues. -/
def State.guarSum (s : State) : Nat := ((List.range 236).map s.guar).sum

/-- SHARED.CELLS (R174). -/
def State.pool (s : State) : Nat := s.get swcBufCellsTotal - 1548 - s.guarSum

/-- SHARED_USED. Only queues that hold frames have a shared part. -/
def State.sharedUsed (s : State) : Nat := (s.swc.queues.map fun e => s.sharedOf e.1).sum

/-- Sfree (R174), 0 where later GUAR writes leave the pool smaller than the sum of all s_q. DESIGN CHOICE, assumption row 206. -/
def State.sfree (s : State) : Nat := s.pool - s.sharedUsed

/-- Port use U_p (R174). -/
def State.portUsed (s : State) (p : Nat) : Nat := ((List.range 8).map fun q => s.sharedOf (8 * p + q)).sum

/-- The descriptors of frames leaving through a MAC. -/
def State.txDescs (s : State) : List Desc := s.port.filterMap fun e => e.2.tx.map (·.desc)

/-- A lane frame has begun to arrive for the port, or waits in the hold buffer (R278). -/
def State.laneBusy (s : State) (n : Nat) : Bool :=
  (List.range 24).any fun k => s.get (fabLaneCfgDst k) == n && ((s.laneOf k).arriving || (s.laneOf k).out != [])

/-- Every descriptor in use. -/
def State.descs (s : State) : List Desc := (s.swc.queues.map (·.2)).flatten ++ s.txDescs

/-- Cells that hold committed frames. -/
def State.cellsUsed (s : State) : Nat := s.swc.freshCell - s.swc.freed.length

/-- Cells free outside the ingress reserve (R175). -/
def State.cellsFree (s : State) : Nat := s.get swcBufCellsTotal - 1548 - s.cellsUsed

/-- BUF_FREE: cells that hold no byte of a frame, those of a frame in reception counted as used. -/
def State.bufFree (s : State) : Nat :=
  s.get swcBufCellsTotal - s.cellsUsed - (s.swc.ingress.map fun i => cellsFor i.bytes.length).sum

/-- Takes `c` cells: never used ones in ascending order, then freed ones in the order they were freed (R149). -/
def State.takeCells (s : State) (c : Nat) : List Nat × State :=
  let total := s.get swcBufCellsTotal
  let k := min c (total - s.swc.freshCell)
  let fresh := (List.range k).map (s.swc.freshCell + ·)
  let old := s.swc.freed.take (c - k)
  (fresh ++ old, { s with swc := { s.swc with freshCell := s.swc.freshCell + k, freed := s.swc.freed.drop (c - k) } })

/-- Device address of a cell (R149). -/
def State.cellAddr (s : State) (c : Nat) : Nat :=
  let nb := max s.swc.cellBanks.length 1
  bankBase (s.swc.cellBanks.getD (c % nb) 0) + c / nb * 256

/-- The `k`-th descriptor of the queues holds word `i`, which is bad. -/
def markDesc (i : Nat) : Nat → Sparse (List Desc) → Sparse (List Desc)
  | _, [] => []
  | k, (q, l) :: t =>
    if k < l.length then (q, l.modify k fun d => { d with bad := some i }) :: t else (q, l) :: markDesc i (k - l.length) t

/-- One copy of a word of the descriptor or link SRAM is found uncorrectable: counted, recorded, and served from the
other copy (R182). DEDUCED, assumption row 52. -/
def State.metaError (s : State) (link : Bool) (i : Nat) (inj : Bool) : State :=
  ((s.count (swcDisc 8)).irq' pgSwc 2).fault 0x03 0 pgSwc 0 ((if link then 0x10000 else 0) + i) 0 inj

/-- The link word of a cell is written. -/
def State.linkWrite (s : State) (c : Nat) : State :=
  { s with swc := { s.swc with badLinks := s.swc.badLinks.filter (· != c) } }

/-- The link word of a cell is read. -/
def State.linkRead (s : State) (c : Nat) : State := if s.swc.badLinks.contains c then s.metaError true c true else s

/-- An injected error is planted in a word of the link or the descriptor SRAM. Which descriptor word a frame takes is
free. DESIGN CHOICE, assumption row 216. -/
def State.plantMeta (s : State) (link : Bool) (i : Nat) : State :=
  if link then { s with swc := { s.swc with badLinks := i :: s.swc.badLinks.filter (· != i) } }
  else if s.swc.badDescs.contains i || s.swc.queues.any fun e => e.2.any fun d => d.bad == some i then s
  else
    let (w, s) := s.draw 15
    let k := w.toNat % 65536
    if k < (s.swc.queues.map (·.2.length)).sum then { s with swc := { s.swc with queues := markDesc i k s.swc.queues } }
    else { s with swc := { s.swc with badDescs := s.swc.badDescs ++ [i] } }

/-- A descriptor word is taken for a frame, and written. -/
def State.takeDesc (s : State) : State :=
  let s := match s.swc.badDescs with
    | [] => s
    | l =>
      let (w, s) := s.draw 15
      { s with swc := { s.swc with badDescs := l.eraseIdx (w.toNat % max 1 s.swc.descFree) } }
  { s with swc := { s.swc with descFree := s.swc.descFree - 1 } }

/-- Stores a frame in its cells. -/
def State.storeFrame (s : State) : List Nat → List Byte → State
  | [], _ => s
  | c :: cs, l => ((s.linkWrite c).writeA 0x20 (s.cellAddr c) (l.take 256)).storeFrame cs (l.drop 256)

/-- Reads a frame from its cells: bytes, and whether a cell holds an uncorrectable error (R182). -/
def State.loadFrame (s : State) : List Nat → Nat → List Byte × Bool × State
  | [], _ => ([], false, s)
  | c :: cs, n =>
    let (l, bad, s) := s.eccRead 0x20 (s.cellAddr c) (min n 256)
    let s := if cs = [] then s else s.linkRead c
    let (t, bad', s) := s.loadFrame cs (n - 256)
    (l ++ t, bad || bad', s)

/-! ## Generations (R178-R181) -/

/-- Generations of the frames past lookup: looked up, queued, or leaving. -/
def State.gensHeld (s : State) : List Half :=
  (s.swc.ingress.filterMap fun i => i.look.map (·.gen)) ++ s.descs.map (·.gen)

/-- How far a generation lies behind GEN. -/
def State.genAge (s : State) (g : Half) : Nat := (BitVec.ofNat 16 (s.get swcGenGen) - g).toNat

/-- GEN_OLDEST, none when no frame is past lookup. DEDUCED, assumption row 55. -/
def State.genOldest (s : State) : Option Half :=
  s.gensHeld.foldl (fun o g => match o with
    | none => some g
    | some h => some (if s.genAge h < s.genAge g then g else h)) none

/-- The barrier is done once no frame past lookup is older than TARGET (R180). -/
def State.barrierCheck (s : State) : State :=
  if s.swc.barrier then
    let t := BitVec.ofNat 16 (s.get swcGenBarrierTarget)
    if s.gensHeld.any fun g => decide (0 < (t - g).toInt) then s
    else ({ s with swc := { s.swc with barrier := false } }.putb swcGenBarrierDone true).irq' pgSwc 1
  else s

/-- A table change is refused when the oldest generation would lie too far behind (R181). -/
def State.genFull (s : State) : Bool :=
  match s.genOldest with
  | none => false
  | some g => decide (32768 ≤ (BitVec.ofNat 16 (s.get swcGenGen) + 1 - g).toNat)

/-- GEN rises (R179). -/
def State.genUp (s : State) : State := s.put swcGenGen (s.get swcGenGen + 1)

/-- A write of GEN_BARRIER (R180). -/
def State.barrierArm (s : State) (w : Word) : State :=
  if bitN w.toNat 0 then
    let s := (s.put swcGenBarrierTarget (s.get swcGenGen)).putb swcGenBarrierDone false
    { s with swc := { s.swc with barrier := true } }.barrierCheck
  else s

/-- Meaning of GEN_BARRIER_ARM. -/
def execGenBarrierArm (p : Principal) (v : Word) (s : State) : Out :=
  .next (s.access p swcGenBarrier v fun s w => s.barrierArm w)

/-- A descriptor leaves: it is free again, and the cells of its frame with its last descriptor (R151). -/
def State.release (s : State) (d : Desc) : State :=
  let s := { s with swc := { s.swc with
    descFree := min 65536 (s.swc.descFree + 1), badDescs := s.swc.badDescs ++ d.bad.toList } }
  let s := if s.descs.any (·.fid == d.fid) then s
    else { s with swc := { s.swc with freed := s.swc.freed ++ d.cells } }
  s.barrierCheck

/-! ## Forwarding database (R161-R168) -/

/-- CRC-32 from a seed, as R161 computes it. -/
def crc32Seed (seed : Nat) (l : List Byte) : Nat := (l.foldl (crcByteR 0xEDB88320) seed) ^^^ 0xFFFFFFFF

/-- The seeds of the four ways (R161). -/
def fdbSeeds : List Nat := [0xFFFFFFFF, 0x13579BDF, 0x2468ACE0, 0x0F1E2D3C]

/-- The four indices of a key (R161). -/
def fdbWays (vid : BitVec 12) (mac : BitVec 48) : List Nat :=
  let key := beBytes 8 (vid.toNat * 2 ^ 48 + mac.toNat)
  (List.range 4).map fun w => 16384 * w + crc32Seed (fdbSeeds.getD w 0) key % 16384

def State.fdbAt (s : State) (i : Nat) : Option FdbEntry := s.swc.fdb.rd none i
def State.fdbSet (s : State) (i : Nat) (e : Option FdbEntry) : State :=
  { s with swc := { s.swc with fdb := s.swc.fdb.wr none i e } }

/-- The CAM entries in use. -/
def State.fdbCam (s : State) : Sparse (Option FdbEntry) := s.swc.fdb.filter fun e => decide (65536 ≤ e.1)

/-- Index of a key's entry: a way, or the CAM (R163). -/
def State.fdbFind (s : State) (vid : BitVec 12) (mac : BitVec 48) : Option Nat :=
  let is (e : Option FdbEntry) : Bool := match e with
    | some e => e.vid == vid && e.mac == mac
    | none => false
  match (fdbWays vid mac).find? fun i => is (s.fdbAt i) with
  | some i => some i
  | none => (s.fdbCam.find? fun e => is e.2).map (·.1)

/-- A free place for a key: the lowest free way, else a free CAM entry (R165). -/
def State.fdbFree (s : State) (vid : BitVec 12) (mac : BitVec 48) : Option Nat :=
  match (fdbWays vid mac).find? fun i => (s.fdbAt i).isNone with
  | some i => some i
  | none => ((List.range 256).map (65536 + ·)).find? fun i => (s.fdbAt i).isNone

/-- Counts of entries shown in COUNT, STATIC and CAM_USED. -/
def State.fdbCount (s : State) (static : Bool) : Nat :=
  (s.swc.fdb.filter fun e => match e.2 with | some e => e.static == static | none => false).length

/-- A learn is applied (R165). DEDUCED, assumption rows 44, 46. -/
def State.fdbLearn (s : State) (l : Learn) : State :=
  let s := s.count (fdbStat 0)
  match s.fdbFind l.vid l.mac with
  | some i =>
    match s.fdbAt i with
    | none => s
    | some e =>
      if e.static then s.count (fdbStat 2)
      else if e.dest = l.dest ∧ !e.group then s.fdbSet i (some { e with age := 3 })
      else (s.fdbSet i (some { e with dest := l.dest, group := false, age := 3 })).count (fdbStat 1)
  | none =>
    match s.fdbFree l.vid l.mac with
    | some i => s.fdbSet i (some ⟨l.vid, l.mac, l.dest, false, false, 3⟩)
    | none => (s.count (fdbStat 3)).irq' pgFdb 2

/-- Meaning of FDB_AGE_SWEEP (R166). -/
def execFdbAgeSweep (s : State) : Out :=
  .next <|
    if s.on pgFdb && s.bit fdbCfgAgeEn then
      forEach s.swc.fdb (fun s (i, e) =>
        match e with
        | none => s
        | some e =>
          if e.static then s
          else if e.age = 0 then (s.fdbSet i none).count (fdbStat 5)
          else s.fdbSet i (some { e with age := e.age - 1 })) s
    else s

/-- Learned entries whose DEST is a port that went down go (R167), while FDB is ON. DESIGN CHOICE, assumption row 203. -/
def State.fdbPortDown (s : State) (p : Nat) : State :=
  if s.bit swcCfgFlushOnDown && s.on pgFdb then
    { s with swc := { s.swc with fdb := s.swc.fdb.filter fun e => match e.2 with
      | some e => e.static || e.group || e.dest.toNat != p
      | none => true } }
  else s

def fdbOk : Nat := 0
def fdbNotFound : Nat := 1
def fdbFullR : Nat := 2
def fdbGenFull : Nat := 4
def fdbInvalid : Nat := 5

/-- Key of a command. -/
def State.fdbKey (s : State) : BitVec 12 × BitVec 48 :=
  (BitVec.ofNat 12 (s.get fdbKeyMacHiVid), BitVec.ofNat 48 (s.rn fdbKeyMacLo + s.get fdbKeyMacHiMac * 2 ^ 32))

/-- The entry a command's DATA describes, with a fresh age. -/
def State.fdbNew (s : State) : FdbEntry :=
  ⟨s.fdbKey.1, s.fdbKey.2, BitVec.ofNat 12 (s.get fdbDataDest), s.bit fdbDataGroup, s.bit fdbDataStatic, 3⟩

/-- A command is served with a result that FDB_CMD_DONE publishes. -/
def State.fdbEnds (s : State) (r : Nat) (d : Option (FdbEntry × Nat)) : State :=
  match s.swc.fdbJob with
  | some j => { s with swc := { s.swc with fdbJob := some { j with result := some r, data := d } } }
  | none => s

/-- A change of the table by a command, if the generations allow it (R179, R181); `static` says that it changes a
static entry, which a lost supervisor bars (R534). -/
def State.fdbChange (s : State) (static : Bool) (f : State → State) : State :=
  if static && s.supLost then s.fdbEnds fdbInvalid none
  else if s.genFull then s.fdbEnds fdbGenFull none
  else (f s).genUp.fdbEnds fdbOk none

/-- An entry at an index is static. -/
def State.fdbStaticAt (s : State) (i : Nat) : Bool := match s.fdbAt i with | some e => e.static | none => false

/-- OP 1 INSERT (Table 5-5). -/
def State.fdbInsert (s : State) : State :=
  let (vid, mac) := s.fdbKey
  let e := s.fdbNew
  let place : Option Nat :=
    match s.fdbFind vid mac with
    | some i => some i
    | none =>
      match s.fdbFree vid mac with
      | some i => some i
      | none => (fdbWays vid mac).find? fun i => !s.fdbStaticAt i
  match place with
  | none => s.fdbEnds fdbFullR none
  | some i => s.fdbChange (e.static || s.fdbStaticAt i) fun s => s.fdbSet i (some e)

/-- OP 2 DELETE. -/
def State.fdbDelete (s : State) : State :=
  match s.fdbFind s.fdbKey.1 s.fdbKey.2 with
  | none => s.fdbEnds fdbNotFound none
  | some i => s.fdbChange (s.fdbStaticAt i) fun s => s.fdbSet i none

/-- OP 3 SEARCH. -/
def State.fdbSearch (s : State) : State :=
  match s.fdbFind s.fdbKey.1 s.fdbKey.2 with
  | none => s.fdbEnds fdbNotFound none
  | some i => s.fdbEnds fdbOk ((s.fdbAt i).map fun e => (e, i))

/-- Whether a flush removes an entry. DEDUCED, assumption row 47. -/
def FdbSweep.takes (w : FdbSweep) (e : FdbEntry) : Bool :=
  if w.flushBy = 3 then true
  else !e.static && (w.flushBy == 0 || (w.flushBy == 1 && e.dest.toNat == w.dest) || (w.flushBy == 2 && e.vid.toNat == w.vid))

/-- The sweep goes on to index `to'`, and removes the entries it finds to match (R168). -/
def State.fdbSweepTo (s : State) (to' : Nat) : State :=
  match s.swc.fdbJob with
  | some j =>
    match j.sweep with
    | some w =>
      { s with swc := { s.swc with
        fdbJob := some { j with sweep := some { w with pos := max w.pos to' } }
        fdb := s.swc.fdb.filter fun x => match x.2 with
          | some e => !(decide (w.pos ≤ x.1 ∧ x.1 < to') && w.takes e)
          | none => true } }
    | none => s
  | none => s

/-- OP 4 FLUSH: the sweep begins. -/
def State.fdbFlush (s : State) (by' : Nat) : State :=
  let static := by' == 3 && s.swc.fdb.any fun e => match e.2 with | some e => e.static | none => false
  s.fdbChange static fun s =>
    match s.swc.fdbJob with
    | some j => { s with swc := { s.swc with
        fdbJob := some { j with sweep := some ⟨by', s.get fdbDataDest, s.get fdbKeyMacHiVid, 0⟩ } } }
    | none => s

/-- OP 5 READ. DEDUCED, assumption row 48. -/
def State.fdbRead (s : State) : State :=
  let i := s.get fdbIndexIndex
  match (if i < 65792 then s.fdbAt i else none) with
  | none => s.fdbEnds fdbNotFound none
  | some e => s.fdbEnds fdbOk (some (e, i))

/-- The command is served, unless it has been (Table 5-5): with its key and data as they stand then.
DESIGN CHOICE, assumption row 171. -/
def State.fdbServe (s : State) : State :=
  match s.swc.fdbJob with
  | none => s
  | some j =>
    if j.result.isSome then s
    else match j.op with
      | 1 => s.fdbInsert
      | 2 => s.fdbDelete
      | 3 => s.fdbSearch
      | 4 => s.fdbFlush j.flushBy
      | 5 => s.fdbRead
      | _ => s.fdbEnds fdbInvalid none

/-- The head of the learn FIFO is served, and after it a command that it kept waiting. A flush sweeps on meanwhile; how far is
not stated (R164, R168). -/
def State.learnNext (s : State) : State :=
  match s.swc.learns with
  | [] => s
  | l :: t =>
    let s := { s with swc := { s.swc with learns := t } }
    let s := match s.swc.fdbJob with
      | some j => match j.sweep with
        | some w => let (x, s) := s.draw 4; s.fdbSweepTo (w.pos + x.toNat % (65793 - w.pos))
        | none => s
      | none => s
    let s := if s.on pgFdb then s.fdbLearn l else s
    match s.swc.fdbJob with
    | some j =>
      let s := { s with swc := { s.swc with fdbJob := some { j with ahead := j.ahead - 1 } } }
      if j.ahead = 1 then s.fdbServe else s
    | none => s

/-- Meaning of LEARN: the head of the learn FIFO. -/
def execLearn (s : State) : Out := .next s.learnNext

/-- A write of FDB.CMD: learns that have arrived are served before the command (R168). -/
def State.fdbCmdWrite (s : State) (w : Word) : State :=
  if s.bit fdbCmdBusy then s.err pgFdb 8
  else
    let s := (s.put fdbCmdFlushBy (bitsOf w 12 2)).putb fdbCmdBusy true
    let n := s.swc.learns.length
    let s := { s with swc := { s.swc with fdbJob := some { op := bitsOf w 0 3, flushBy := bitsOf w 12 2, ahead := n } } }
    if n = 0 then s.fdbServe else s

/-- A write of FDB.CMD by a principal. DESIGN CHOICE, assumption row 45. -/
def State.fdbCmdBy (s : State) (p : Principal) (w : Word) : State := s.access p fdbCmd w fun s w => s.fdbCmdWrite w

/-- FLUSH_BY as it stands, for a write that keeps it. -/
def State.fdbCmdWord (s : State) (op : Nat) : Word := BitVec.ofNat 32 (op + s.get fdbCmdFlushBy * 0x1000)

/-- Meaning of FDB_INSERT. -/
def execFdbInsert (p : Principal) (s : State) : Out := .next (s.fdbCmdBy p (s.fdbCmdWord 1))
/-- Meaning of FDB_DELETE. -/
def execFdbDelete (p : Principal) (s : State) : Out := .next (s.fdbCmdBy p (s.fdbCmdWord 2))
/-- Meaning of FDB_SEARCH. -/
def execFdbSearch (p : Principal) (s : State) : Out := .next (s.fdbCmdBy p (s.fdbCmdWord 3))
/-- Meaning of FDB_FLUSH. -/
def execFdbFlush (p : Principal) (flushBy : Fin 4) (s : State) : Out :=
  .next (s.fdbCmdBy p (BitVec.ofNat 32 (4 + flushBy.val * 0x1000)))
/-- Meaning of FDB_READ. -/
def execFdbRead (p : Principal) (s : State) : Out := .next (s.fdbCmdBy p (s.fdbCmdWord 5))
/-- Meaning of FDB_UNKNOWN_OP. -/
def execFdbUnknownOp (p : Principal) (op : BitVec 3) (s : State) : Out := .next (s.fdbCmdBy p (s.fdbCmdWord op.toNat))

/-- Meaning of FDB_CMD_DONE (R168): what is left of the learns before the command, and of its sweep, is done by now. -/
def execFdbCmdDone (s : State) : Out :=
  .next <|
    match s.swc.fdbJob with
    | none => s
    | some j =>
      let s := (forEach (List.range j.ahead) (fun s _ => s.learnNext) s).fdbServe.fdbSweepTo 65792
      let (r, data) := match s.swc.fdbJob with | some j => (j.result.getD fdbInvalid, j.data) | none => (fdbInvalid, none)
      let s := { s with swc := { s.swc with fdbJob := none } }
      let s := match data with
        | none => s
        | some (e, i) =>
          let s := ((s.put fdbDataDest e.dest.toNat).putb fdbDataGroup e.group).putb fdbDataStatic e.static
          let s := (s.put fdbDataAge e.age.toNat).put fdbIndexIndex i
          let s := (s.setReg fdbKeyMacLo (BitVec.ofNat 32 e.mac.toNat)).put fdbKeyMacHiMac (e.mac.toNat / 2 ^ 32)
          s.put fdbKeyMacHiVid e.vid.toNat
      ((s.put fdbCmdResult r).putb fdbCmdBusy false).irq' pgFdb 1

/-! ## VLAN, group, filter and meter tables (R169-R172) -/

/-- A VLAN entry that no write has changed (Table 5-6). DEDUCED, assumption row 54. -/
def vlanFactory (v : Nat) : Dword := if v = 1 then 0x1FFFFFFFFFFFF else 0

def State.vlanOf (s : State) (v : Nat) : Dword := s.swc.vlan.rd (vlanFactory v) v
def State.groupOf (s : State) (g : Nat) : DestMap := s.swc.group.rd 0 g
def State.filterWord (s : State) (f w : Nat) : Nat := (s.swc.filter.rd 0 (8 * f + w)).toNat
def State.meterOf (s : State) (m : Nat) : Meter := s.swc.meter.rd {} m
def State.setMeter (s : State) (m : Nat) (v : Meter) : State :=
  { s with swc := { s.swc with meter := s.swc.meter.wr {} m v } }

/-- A write of TBL_CMD (R169). A lost supervisor bars table writes (R534). -/
def State.tblCmd (s : State) (p : Principal) (w : Word) : State :=
  let i := s.get swcTblSelIndex
  let g := s.bit swcTblSelTable
  if !bitN w.toNat 0 then
    let d : Nat := if g then (s.groupOf i).toNat else (s.vlanOf i).toNat
    let s := (s.setReg swcTblData0 (BitVec.ofNat 32 d)).setReg swcTblData1 (BitVec.ofNat 32 (d / 2 ^ 32))
    (s.putb swcTblCmdGenFull false).irq' pgSwc 3
  else if s.supLost then s.deny p swcTblCmd
  else if s.genFull then (s.putb swcTblCmdGenFull true).irq' pgSwc 3
  else
    let d := s.rn swcTblData0 + s.rn swcTblData1 * 2 ^ 32
    let s := if g then { s with swc := { s.swc with group := s.swc.group.wr 0 i (BitVec.ofNat 43 d) } }
      else { s with swc := { s.swc with vlan := s.swc.vlan.wr (vlanFactory i) i (BitVec.ofNat 64 (d % 2 ^ 49)) } }
    (s.genUp.putb swcTblCmdGenFull false).irq' pgSwc 3

/-- Meaning of SWC_TBL_READ. -/
def execSwcTblRead (p : Principal) (s : State) : Out := .next (s.access p swcTblCmd 0 fun s w => s.tblCmd p w)
/-- Meaning of SWC_TBL_WRITE. -/
def execSwcTblWrite (p : Principal) (s : State) : Out := .next (s.access p swcTblCmd 1 fun s w => s.tblCmd p w)

/-- Writing a meter fills both buckets (R172). -/
def Meter.filled (m : Meter) : Meter :=
  { m with c := bitsOf m.w2 0 20 * 312500, p := bitsOf m.w3 0 20 * 312500 }

/-- A write of STRM.CMD (R170-R172). -/
def State.strmCmdWrite (s : State) (p : Principal) (w : Word) : State :=
  let i := s.get strmSelIndex
  let meter := s.bit strmSelTable
  let bad := meter && decide (512 ≤ i)
  let done (s : State) (full : Bool) : State :=
    ((s.putb strmCmdInvalid bad).putb strmCmdGenFull full).irq' pgStrm 1
  if bitN w.toNat 0 && s.supLost then s.deny p strmCmd
  else if bad then done s false
  else if !bitN w.toNat 0 then
    let m := s.meterOf i
    let s := forEach (List.range 8) (fun s k =>
      s.setReg (strmData k) (if meter then [m.w0, m.w1, m.w2, m.w3].getD k 0 else BitVec.ofNat 32 (s.filterWord i k))) s
    done s false
  else if meter then
    let m := { s.meterOf i with w0 := s.reg (strmData 0), w1 := s.reg (strmData 1), w2 := s.reg (strmData 2),
                                w3 := s.reg (strmData 3) }
    done (s.setMeter i m.filled) false
  else if s.genFull then done s true
  else
    let s := forEach (List.range 8) (fun s k =>
      { s with swc := { s.swc with filter := s.swc.filter.wr 0 (8 * i + k) (s.reg (strmData k)) } }) s
    done s.genUp false

/-- Meaning of STRM_READ. -/
def execStrmRead (p : Principal) (s : State) : Out := .next (s.access p strmCmd 0 fun s w => s.strmCmdWrite p w)
/-- Meaning of STRM_WRITE. -/
def execStrmWrite (p : Principal) (s : State) : Out := .next (s.access p strmCmd 1 fun s w => s.strmCmdWrite p w)

/-- One refill step of a meter (R172). -/
def Meter.refill (m : Meter) : Meter :=
  { m with c := min (bitsOf m.w2 0 20 * 312500) (m.c + bitsOf m.w0 0 24)
           p := min (bitsOf m.w3 0 20 * 312500) (m.p + bitsOf m.w1 0 24) }

/-- Meaning of METER_REFILL: 16 S have passed. -/
def execMeterRefill (s : State) : Out :=
  .next <|
    if s.on pgStrm then forEach (s.swc.meter.map (·.1)) (fun s i => s.setMeter i (s.meterOf i).refill) s else s

/-- A frame of B bytes is metered: its colour and whether it is dropped (R171). DEDUCED, assumption row 51. -/
def State.meterFrame (s : State) (i b colour : Nat) : Nat × Bool × State :=
  let m := s.meterOf i
  if !bitN m.w0.toNat 31 then (colour, false, s)
  else
    let need := b * 312500
    let aware := bitN m.w0.toNat 24
    let c :=
      if aware ∧ colour = 2 then 2
      else if m.p < need then 2
      else if aware ∧ colour = 1 then 1
      else if m.c < need then 1
      else 0
    let drop := c == 2 && bitN m.w0.toNat 25
    let m' : Meter :=
      if c = 0 then { m with c := m.c - need, p := m.p - need, green := satAdd 0xFFFFFFFF m.green 1 }
      else if c = 1 then { m with p := m.p - need, yellow := satAdd 0xFFFFFFFF m.yellow 1 }
      else if drop then { m with redDrop := satAdd 0xFFFFFFFF m.redDrop 1 }
      else { m with red := satAdd 0xFFFFFFFF m.red 1 }
    (c, drop, s.setMeter i m')

/-! ## Lookup (R155-R159, R170, R173) -/

/-- Bits of a destination map. DEDUCED, assumption row 50. -/
def mapBit (i : Nat) : DestMap := BitVec.ofNat 43 (1 <<< i)
def hostBit : DestMap := mapBit 42

/-- What classification finds (R155). -/
structure Class where
  vid : Nat
  pcp : Nat
  dei : Nat
  cls : Nat
  colour : Nat
  tagged : Bool
deriving DecidableEq, Repr

/-- A field of an injection header. -/
def hdrBits (h : List Word) (w lo width : Nat) : Nat := bitsOf (h.getD w 0) lo width

/-- The frame is an injection in DIRECT mode (Table 5-4). -/
def isDirect (src : Nat) (h : List Word) : Bool := decide (24 ≤ src) && hdrBits h 0 14 2 == 1

/-- Classification of a received or injected frame (R155, Table 5-4). An injected frame without a tag has PCP 0 and DEI 0.
DESIGN CHOICE, assumption row 177. -/
def State.classify (s : State) (src : Nat) (h : List Word) (l : List Byte) : Class :=
  let tagged := isTagged l
  let tci := if tagged then fb16 l 14 else 0
  if 24 ≤ src then
    let v := tci % 0x1000
    ⟨if v = 0 then hdrBits h 1 16 12 else v, tci / 0x2000, tci / 0x1000 % 2, hdrBits h 0 20 3,
      min (hdrBits h 0 23 2) 2, tagged⟩
  else
    let v := tci % 0x1000
    let pcp := if tagged then tci / 0x2000 else s.get (swqPortCfgDefaultPcp src)
    let dei := tci / 0x1000 % 2
    let k := 2 * pcp + dei
    ⟨if v = 0 then s.get (swqPvidVid src) else v, pcp, dei, s.get (swqPcpMapClass src k),
      min (s.get (swqPcpMapColour src k)) 2, tagged⟩

/-- A stream filter matches (R170). DEDUCED, assumption row 49. -/
def State.filterHits (s : State) (f src : Nat) (l : List Byte) (vid : Nat) : Bool :=
  let w := s.filterWord f
  let da := fb48 l 0
  let fda := w 0 + w 1 % 0x10000 * 2 ^ 32
  let mask := w 2 + w 1 / 0x10000 * 2 ^ 32
  let et := fb16 l (etPos l)
  let app := fb16 l (etPos l + 2)
  bitN (w 6) 31 && (if src < 24 then bitN (w 6) src else bitN (w 6) 24)
    && (da &&& mask) == (fda &&& mask)
    && (!bitN (w 3) 12 || w 3 % 0x1000 == vid)
    && (et &&& (w 4 % 0x10000)) == (w 3 / 0x10000 &&& (w 4 % 0x10000))
    && (app &&& (w 5 % 0x10000)) == (w 4 / 0x10000 &&& (w 5 % 0x10000))

/-- The filters with a word written, ascending. -/
def State.filterHit (s : State) (src : Nat) (l : List Byte) (vid : Nat) : Option Nat :=
  if s.on pgStrm then
    (s.swc.filter.map fun (e : Nat × Word) => e.1 / 8).find? fun f => s.filterHits f src l vid
  else none

/-- SWQ page `n` takes frames: CTRL.EN = 1 and ON (R157, R184). -/
def State.swqOpen (s : State) (n : Nat) : Bool := s.bit (hdrCtrlEn (pgSwq n)) && s.on (pgSwq n)

/-- A map with the bits that a test keeps. -/
def keepBits (m : DestMap) (f : Nat → Bool) : DestMap :=
  (List.range 43).foldl (fun a i => if m.getLsbD i && f i then a ||| mapBit i else a) 0

/-- prune and prune_direct (R157): `vlan` none for prune_direct, `low` accepts BLOCKING and LEARNING. -/
def State.prune (s : State) (m : DestMap) (src cls : Nat) (vlan : Option Nat) (low : Bool) : DestMap :=
  keepBits m fun p =>
    if p < 24 then
      let st := s.get (swqPortCfgFwdState p)
      (match vlan with | some v => (s.vlanOf v).getLsbD p | none => true) && p != src
        && (st == 3 || (low && (st == 1 || st == 2))) && s.swqOpen p
        && (s.bit (macLinkUp p) || !s.bit swcCfgLinkdownPrune)
    else if p < 42 then s.swqOpen (p - 24)
    else s.swqOpen (18 + cls / 2)

/-- fdb_or_flood (R156, R163). An entry whose DEST names no endpoint gives an empty map. DESIGN CHOICE, assumption row 202. -/
def State.fdbOrFlood (s : State) (da : Nat) (vid : Nat) : DestMap :=
  let flood : DestMap :=
    BitVec.ofNat 43 ((s.vlanOf vid).toNat % 2 ^ 24 + s.get swcFloodExtraMap * 2 ^ 24)
  let hit := if s.on pgFdb then
    (s.fdbFind (BitVec.ofNat 12 vid) (BitVec.ofNat 48 da)).bind s.fdbAt else none
  match hit with
  | some e => if e.group then s.groupOf e.dest.toNat else mapBit e.dest.toNat
  | none =>
    if da = 2 ^ 48 - 1 then flood
    else if bitN da 40 ∧ s.bit swcCfgUmcDrop then 0
    else flood

/-- The discards of R156 that come before the stream filters: their SWC counter. -/
def State.early (s : State) (src : Nat) (l : List Byte) (vid : Nat) : Option Nat :=
  let port := decide (src < 24)
  if fb48 l 0 = 0x0180C2000001 then some 0
  else if port && s.get (swqPortCfgFwdState src) == 0 then some 5
  else if port && s.bit (swqPortCfgInFilter src) && !(s.vlanOf vid).getLsbD src then some 1
  else none

/-- The map of a frame, or the counter of the discard (R156). By its VID a frame reaches nothing where MEMBER = 0, engines and
host included (R169). DEDUCED, assumption row 172. A filter that redirects to no engine gives an empty map.
DESIGN CHOICE, assumption row 202. -/
def State.forward (s : State) (src : Nat) (l : List Byte) (c : Class) (hit : Option Nat) : Sum Nat (DestMap × Option Nat) :=
  let da := fb48 l 0
  let port := decide (src < 24)
  let st := if port then s.get (swqPortCfgFwdState src) else 3
  let w7 := match hit with | some f => s.filterWord f 7 | none => 0
  let target := w7 / 4 % 0x1000
  let copy := match hit with | some f => bitN (s.filterWord f 6) 25 | none => false
  let fin (m : DestMap) (q : Option Nat) : Sum Nat (DestMap × Option Nat) :=
    let m := if copy then m ||| hostBit else m
    if m = 0 then .inl 2 else .inr (m, q)
  match s.early src l c.vid with
  | some x => .inl x
  | none =>
    match w7 % 4 with
    | 3 => .inl 4
    | 1 => if target < 18 then fin (mapBit (24 + target)) (some (if bitN w7 14 then 1 else 0)) else fin 0 none
    | 2 => fin (s.prune (s.groupOf target) src c.cls none false) none
    | _ =>
      if st < 3 then .inl 5
      else
        let normal := if (s.vlanOf c.vid).toNat % 2 ^ 24 = 0 then 0
          else s.prune (s.fdbOrFlood da c.vid) src c.cls (some c.vid) false
        if da / 16 = 0x0180C200000 then
          let act := s.rn swcRsvAct / 2 ^ (2 * (da % 16)) % 4
          if act = 0 then .inl 3
          else fin ((if act % 2 = 1 then hostBit else 0) ||| (if 2 ≤ act then normal else 0)) none
        else fin normal none

/-- The mirror sessions that select a frame (R173). DEDUCED, assumption row 53. -/
def State.mirrorsOf (s : State) (src : Nat) (hit : Option Nat) (m : DestMap) : List Nat :=
  let inn := if src < 24 ∧ s.bit (swqPortCfgMirrorInEn src) then [s.get (swqPortCfgMirrorIn src)] else []
  let flt := match hit with
    | some f => if bitN (s.filterWord f 7) 31 then [s.filterWord f 7 / 2 ^ 29 % 4] else []
    | none => []
  let out := (List.range 24).filterMap fun p =>
    if m.getLsbD p && s.bit (swqPortCfgMirrorOutEn p) then some (s.get (swqPortCfgMirrorOut p)) else none
  (List.range 4).filter fun x => (inn ++ flt ++ out).contains x && s.bit (swcMirrorEn x)

/-- The result of lookup (R154-R158, R178). A DIRECT injection that pruning leaves without a destination is counted in
DISC_NO_DEST. DEDUCED, assumption row 40; DESIGN CHOICE, assumption row 173. -/
def State.lookup (s : State) (src : Nat) (h : List Word) (l : List Byte) : Lookup :=
  let gen := BitVec.ofNat 16 (s.get swcGenGen)
  if isDirect src h then
    let m := s.prune (s.groupOf (hdrBits h 1 16 12)) src (hdrBits h 0 20 3) none (hdrBits h 0 28 1 == 1)
    { map := m, queueSel := none, cls := hdrBits h 0 20 3, colour := min (hdrBits h 0 23 2) 2, vid := 0, pcp := 0, dei := 0,
      tagged := isTagged l, untag := 0, filter := none, meter := none, mirrors := [], gen := gen, direct := true,
      discard := if m = 0 then some 2 else none }
  else
    let c := s.classify src h l
    let hit := if (s.early src l c.vid).isSome then none else s.filterHit src l c.vid
    let w7 := match hit with | some f => s.filterWord f 7 | none => 0
    let c := if bitN w7 18 then { c with cls := w7 / 2 ^ 15 % 8 } else c
    let meter := if bitN w7 28 then some (w7 / 2 ^ 19 % 512) else none
    let mk (m : DestMap) (q : Option Nat) (x : Option Nat) : Lookup :=
      { map := m, queueSel := q, cls := c.cls, colour := c.colour, vid := c.vid, pcp := c.pcp, dei := c.dei,
        tagged := c.tagged, untag := (s.vlanOf c.vid).toNat / 2 ^ 24 % 2 ^ 24, filter := hit, meter := meter,
        mirrors := if x.isSome then [] else s.mirrorsOf src hit m, gen := gen, direct := false, discard := x }
    match s.forward src l c hit with
    | .inl x => mk 0 none (some x)
    | .inr (m, q) => mk m q none

/-- Replaces the first element that a test selects. -/
def replaceFirst {α : Type} (f : α → Bool) (g : α → α) : List α → List α
  | [] => []
  | x :: t => if f x then g x :: t else x :: replaceFirst f g t

/-- Removes the first element that a test selects. -/
def removeFirst {α : Type} (f : α → Bool) : List α → List α
  | [] => []
  | x :: t => if f x then t else x :: removeFirst f t

/-- An injection of a LENGTH outside 14-9,216 is not taken (R154). -/
def injLengthOk (h : List Word) (l : List Byte) : Bool :=
  let n := hdrBits h 0 0 14
  decide (14 ≤ n ∧ n ≤ 9216) && l.length == n

/-- A port is idle in the sense of R31: its egress queues are empty and its TX MAC sends nothing. -/
def State.portIdle (s : State) (p : Nat) : Bool :=
  (s.portOf p).tx.isNone && !s.laneBusy p && (List.range 8).all fun q => s.queueOf (8 * p + q) == []

/-- Head prefetch (R31, R34): the first 64 bytes of a frame all of whose destinations are idle ports go to their egress
staging, those of a redirected frame to the delivery queue of its engine. -/
def State.stageHeads (s : State) (src : Nat) (l : List Byte) (r : Lookup) : State :=
  let ds := (List.range 43).filter fun e => r.map.getLsbD e
  match r.discard, r.queueSel with
  | some _, _ => s
  | none, some j =>
    forEach (ds.filter fun e => decide (24 ≤ e ∧ e < 42)) (fun s e =>
      let m := s.serverOf (e - 24)
      if s.queueOf (192 + 2 * (e - 24) + j) = [] then s.setPe m { s.peOf m with staged := some (src, l.take 64) } else s) s
  | none, none =>
    if ds.all fun e => decide (e < 24) && s.portIdle e then
      forEach ds (fun s e => s.setPort e { s.portOf e with staged := some (src, l.take 64) }) s
    else s

/-- A commit ends the wait of staged heads: a bad frame's are discarded everywhere, a good one's where no queue of the port
took the frame, and another frame's where the port has become busy (R32). -/
def State.stageEnd (s : State) (src : Nat) (good : Bool) : State :=
  let s := forEach (List.range 24) (fun s e =>
    match (s.portOf e).staged with
    | some (x, _) =>
      let empty := (List.range 8).all fun q => s.queueOf (8 * e + q) == []
      if (x = src ∧ (!good ∨ empty)) ∨ (x ≠ src ∧ !empty) then s.setPort e { s.portOf e with staged := none } else s
    | none => s) s
  forEach (List.range 18) (fun s m =>
    match (s.peOf m).staged with
    | some (x, _) => if x = src ∧ !good then s.setPe m { s.peOf m with staged := none } else s
    | none => s) s

/-- The switch core works on the frames it has begun to take: it is ON, or STOPPING up to their ends (R183). -/
def State.swcTakes (s : State) : Bool := s.on pgSwc || s.st pgSwc == stStopping

/-- A frame whose source gives it now is taken: SWC is ON or, of a port, it was in reception as SWC's stop began (R183).
DEDUCED, assumption row 207. -/
def State.swcOpen (s : State) (src : Nat) : Bool :=
  s.on pgSwc || (s.st pgSwc == stStopping && decide (src < 24) && !s.swc.pastEnd.rd false src
    && !(s.swc.ingress.any fun i => i.src == src && i.ended.isNone))

/-- A frame is looked up: the oldest frame of its source without a result takes the result, and without one a frame that
its source gives with the lookup (R154, R156). -/
def State.frameLookup (s : State) (src : Nat) (h : List Word) (l : List Byte) : State :=
  let mine (i : Ingress) : Bool := i.src == src && i.look.isNone
  let set (l : List Byte) (r : Lookup) (s : State) : State :=
    match r.discard with
    | some x => s.count (swcDisc x)
    | none => s.stageHeads src l r
  if !s.swcTakes then s
  else
    match s.swc.ingress.find? mine with
    | some i =>
      let r := s.lookup src i.hdr i.bytes
      set i.bytes r { s with swc := { s.swc with ingress := replaceFirst mine (fun i => { i with look := some r }) s.swc.ingress } }
    | none =>
      if !s.swcOpen src ∨ (24 ≤ src ∧ !injLengthOk h l) then s
      else
        let r := s.lookup src h l
        let e : Ingress := ⟨src, h, l, some r, if src < 24 then none else some (true, s.nowStamp)⟩
        set l r { s with swc := { s.swc with ingress := s.swc.ingress ++ [e] } }

/-- Meaning of FRAME_LOOKUP. -/
def execFrameLookup (src : SrcIx) (hdr : List Word) (bytes : List Byte) (s : State) : Out :=
  .next (s.frameLookup src.val hdr bytes)

/-! ## Commit and admission (R146-R151, R164, R171-R177) -/

/-- One step of the 16-bit LFSR with polynomial x^16 + x^14 + x^13 + x^11 + 1 (R177): shifting right or left, its feedback
gathered from the taps or spread to them, as the implementation has it. DESIGN CHOICE, assumption row 188. -/
def lfsrNext (x : Half) : Half :=
  let b (i : Nat) : Bool := x.getLsbD i
  let bit (c : Bool) (k : Nat) : Half := if c then 1 <<< k else 0
  match Config.lfsrForm with
  | 0 => (x >>> 1) ||| bit (b 0 ^^ b 2 ^^ b 3 ^^ b 5) 15
  | 1 => (x <<< 1) ||| bit (b 15 ^^ b 13 ^^ b 12 ^^ b 10) 0
  | 2 => (x >>> 1) ^^^ (if b 0 then 0xB400 else 0)
  | 3 => (x <<< 1) ^^^ (if b 15 then 0x6801 else 0)

/-- LFSR of a pipeline after a number of S cycles (R177). -/
def lfsrAfter : Nat → Half → Half
  | 0, x => x
  | n + 1, x => lfsrAfter n (lfsrNext x)

/-- MIN, MAXP, MAX, EN of the random early drop of a queue for a colour (Table 5-13). -/
def State.redOf (s : State) (q colour : Nat) : Nat × Nat × Nat × Bool :=
  let (n, t) := qSlot q
  if colour = 0 then (s.get (swqRedGMinMin n t), s.get (swqRedGMinMaxp n t), s.get (swqRedGMaxMax n t), s.bit (swqRedGMaxEn n t))
  else if colour = 1 then (s.get (swqRedYMinMin n t), s.get (swqRedYMinMaxp n t), s.get (swqRedYMaxMax n t), s.bit (swqRedYMaxEn n t))
  else (s.get (swqRedRMinMin n t), s.get (swqRedRMinMaxp n t), s.get (swqRedRMaxMax n t), s.bit (swqRedRMaxEn n t))

/-- New average of a queue (R177). -/
def avgNext (avg occ w : Nat) : Nat := ((avg : Int) + ((occ : Int) * 256 - avg) / 2 ^ w).toNat

/-- The random early drop fires (R177). -/
def redFires (avg : Nat) (prof : Nat × Nat × Nat × Bool) (rnd : Nat) : Bool :=
  let (mn, maxp, mx, en) := prof
  if !en || decide (avg < mn * 256) then false
  else if mx ≤ mn ∨ mx * 256 ≤ avg then true
  else decide (rnd % 256 < maxp * (avg - mn * 256) / ((mx - mn) * 256))

/-- Which check of R175 refuses a frame of `c` cells: 0 none, 1 NO_BUFFER, 2 SHARED, 3 RED. -/
def State.refusal (s : State) (q c colour phys rnd avg : Nat) : Nat :=
  let occ := s.occ q
  let cs := (occ + c) - max occ (s.guar q)
  let sq := s.sharedOf q
  let (n, t) := qSlot q
  let dt := s.get (swqSharedLimDt n)
  -- alpha times Sfree, with alpha = 2^(DT - 3)
  let lim := min (s.get (swqPortMaxCells n)) (s.sfree * 2 ^ dt / 8)
  if s.sfree < cs ∨ phys < c ∨ s.swc.descFree = 0 then 1
  else if s.get (swqSharedMaxCells n t) < sq + cs then 2
  else if q < 192 ∧ lim < s.portUsed n + cs then 2
  else if redFires avg (s.redOf q colour) rnd then 3
  else 0

/-- A descriptor is offered to a queue (R174-R177). DEDUCED, assumption row 42. -/
def State.admitTo (s : State) (q phys rnd : Nat) (d : Desc) (bytes : List Byte) : State :=
  let (n, t) := qSlot q
  let avg := avgNext (s.get (swqAvgAvg n t)) (s.occ q) (s.get (swqWW n t))
  let s := s.put (swqAvgAvg n t) avg
  let c := cellsFor bytes.length
  match s.refusal q c d.colour phys rnd avg with
  | 1 => s.count (swqDropNobuf n t)
  | 2 => s.count (swqDropShared n t)
  | 3 => s.count (swqDropRed n t)
  | _ =>
    let (cells, s) :=
      match s.descs.find? (·.fid == d.fid) with
      | some e => (e.cells, s)
      | none =>
        let (cs, s) := s.takeCells c
        (cs, s.storeFrame cs bytes)
    let s := s.setQueue q (s.queueOf q ++ [{ d with cells := cells }])
    s.takeDesc.count (swqEnq n t)

/-- A committed frame's source address is queued for learning (R164). -/
def State.learnFrame (s : State) (i : Ingress) (r : Lookup) : State :=
  let sa := fb48 i.bytes 6
  let may := if i.src < 24 then
      s.bit (swqPortCfgLearn i.src) && decide (2 ≤ s.get (swqPortCfgFwdState i.src))
    else !r.direct && hdrBits i.hdr 0 29 1 == 0
  if bitN sa 40 || !s.bit fdbCfgLearnEn || !s.bit (hdrCtrlEn pgFdb) || !s.on pgFdb || !(s.vlanOf r.vid).getLsbD 48
      || !may then s
  else if 64 ≤ s.swc.learns.length then s.count (fdbStat 4)
  else
    let l : Learn := ⟨BitVec.ofNat 12 r.vid, BitVec.ofNat 48 sa, BitVec.ofNat 12 i.src⟩
    { s with swc := { s.swc with learns := s.swc.learns ++ [l] } }

/-- Queues of a lookup result, in ascending endpoint code. -/
def Lookup.queues (r : Lookup) : List Nat :=
  (List.range 43).filterMap fun e =>
    if r.map.getLsbD e then
      match r.queueSel with
      | some j => if 24 ≤ e ∧ e < 42 then some (192 + 2 * (e - 24) + j) else endQueue e r.cls
      | none => endQueue e r.cls
    else none

/-- A good frame commits (R146, R164, R171, R173-R175). One that its meter drops is not mirrored, and a mirror copy meets no test
but admission. DESIGN CHOICE, assumption rows 204, 205. -/
def State.commitFrame (s : State) (i : Ingress) (r : Lookup) (stamp : Stamp) (sCycles : Nat) : State :=
  let pipe := if i.src < 24 then i.src / 4 else 6
  let rnd := lfsrAfter sCycles (s.swc.lfsr.rd 0 pipe)
  let s := { s with swc := { s.swc with lfsr := s.swc.lfsr.wr 0 pipe rnd } }
  let s := s.learnFrame i r
  let strip := decide (i.src < 24) && s.bit (macCfgFcsStrip i.src)
  let fcs := if i.src < 24 then !strip else hdrBits i.hdr 0 25 1 == 1
  let bytes := if strip then i.bytes.take (i.bytes.length - 4) else i.bytes
  let len := i.bytes.length + (if i.src < 24 || fcs then 0 else 4)
  let (colour, drop, s) := match r.meter with
    | some m => if s.on pgStrm then s.meterFrame m len r.colour else (r.colour, false, s)
    | none => (r.colour, false, s)
  if r.discard.isSome || drop then s
  else
    let inj := decide (24 ≤ i.src)
    let fid := s.swc.nextFid
    let s := { s with swc := { s.swc with nextFid := fid + 1 } }
    let d : Desc := {
      cells := [], length := bytes.length, src := i.src, cls := r.cls, colour := colour, gen := r.gen,
      filter := r.filter, edit := if r.direct then none else some (r.vid, r.pcp, r.dei, r.tagged), untag := r.untag,
      fcsPresent := fcs, stamp := if inj then s.nowStamp else stamp,
      launch := if inj && hdrBits i.hdr 0 27 1 == 1 then some (hdrBits i.hdr 2 0 32 + hdrBits i.hdr 3 0 8 * 2 ^ 32) else none,
      txts := if inj && hdrBits i.hdr 0 26 1 == 1 then some (BitVec.ofNat 16 (hdrBits i.hdr 1 0 16)) else none,
      mirror := false, injected := inj, fid := fid }
    let phys := s.cellsFree
    let s := forEach r.queues (fun s q => s.admitTo q phys rnd.toNat d bytes) s
    forEach r.mirrors (fun s x =>
      match endQueue (s.get (swcMirrorDest x)) (s.get (swcMirrorClass x)) with
      | some q => s.admitTo q phys rnd.toNat { d with mirror := true, edit := none, launch := none, txts := none,
                                                      cls := s.get (swcMirrorClass x) } bytes
      | none => s) s

/-- The oldest frame of a source is at its end and past lookup: it commits, or its bad end discards it (R32, R146).
DEDUCED, assumption row 43. -/
def State.frameCommit (s : State) (src sCycles : Nat) : State :=
  match s.swc.ingress.find? (·.src == src) with
  | some i =>
    match i.look, i.ended with
    | some r, some (good, stamp) =>
      let s := { s with swc := { s.swc with ingress := removeFirst (·.src == src) s.swc.ingress } }
      let s := if good && s.swcTakes then s.commitFrame i r stamp sCycles else s
      (s.stageEnd src good).barrierCheck
    | _, _ => s
  | none => s

/-- Meaning of FRAME_COMMIT. -/
def execFrameCommit (src : SrcIx) (sCycles : Nat) (s : State) : Out := .next (s.frameCommit src.val sCycles)

/-! ## Buffer configuration, start and stop (R148, R149, R174, R183) -/

/-- A write of BUF_BANKS (R148). -/
def State.bufBanksWrite (s : State) (w : Word) : State :=
  let f := bitsOf w 0 8
  let c := bitsOf w 8 7
  if s.st pgSwc ≠ stOff then s
  else if c % 4 ≠ 0 ∨ c < 8 ∨ 64 < c ∨ 64 < f + c then s.err pgSwc 8
  else s.byCodes swcBufBanks w

/-- The guarantees exceed the buffer (R174). -/
def State.guarOver (s : State) : Bool := decide (s.get swcBufCellsTotal < 1548 + s.guarSum)

/-- GUAR_OVER at SWC's start, and at a GUAR write `f` that makes it so (R174). -/
def State.guarCheck (s : State) : State := if s.guarOver then s.err pgSwc 9 else s
def State.guarWrite (s : State) (f : State → State) : State := if s.guarOver then f s else (f s).guarCheck

/-- Banks of the range that are owned by SWC and have not failed (R149). -/
def State.workingBanks (s : State) : List Nat :=
  ((List.range (s.get swcBufBanksCount)).map (s.get swcBufBanksFirst + ·)).filter fun b =>
    s.ownerOf b == 0x20

/-- SWC builds its cell list (R149, R177); a bank of the range that is not working is the conflict of Table 3-8. -/
def State.swcPoint (s : State) : State :=
  let bs := s.workingBanks
  let s := { s with swc := { s.swc with
    cellBanks := bs, freshCell := 0, freed := [], ingress := [], queues := [], pastEnd := [], badLinks := [], badDescs := [],
    descFree := 65536, lfsr := (List.range 7).foldl (fun m p => m.wr 0 p (BitVec.ofNat 16 (0xACE1 + p))) [] } }
  let s := s.put swcBufCellsTotal (2048 * bs.length)
  let s := if bs.length < s.get swcBufBanksCount then s.conflict pgSwc 2 0x44 2 else s
  s.guarCheck

/-- SWC's stop releases every queued frame, and a reset of it the frames in transmission too (R20, R183). -/
def State.swcClear (s : State) : State :=
  let s := { s with swc := { s.swc with
    ingress := [], queues := [], descFree := 65536, learns := [], freshCell := 0, freed := [] } }
  (forEach (s.port.map (·.1)) (fun s n => s.setPort n { s.portOf n with tx := none }) s).barrierCheck

/-- The descriptor at the head of a queue is read and leaves it. DEDUCED, assumption row 41. -/
def State.dequeue (s : State) (q : Nat) : State :=
  let t := s.setQueue q (s.queueOf q).tail
  match (s.queueOf q).head?.bind (·.bad) with
  | some i => t.metaError false i true
  | none => t

/-- STRM starts with every bucket full (R172). -/
def State.strmPoint (s : State) : State :=
  forEach (s.swc.meter.map (·.1)) (fun s i => s.setMeter i (s.meterOf i).filled) s

end Sys2Proof.Machine
end

