-- ==== Sys2Proof/Machine/Ports.lean ====
section
/-! DEFINITION. Lanes and MACs: links, reception and its classification, PAUSE, egress selection with shaping and launch
times, transmission, counters, stamps and MDIO (R106-R145). -/
namespace Sys2Proof.Machine

/-! ## Modes and links -/

/-- Lane mode of port n. -/
def State.mode (s : State) (n : Nat) : Nat := s.get (laneCfgMode n)

/-- A lane mode the lane allows (Table 4-1). -/
def modeAllowed (n m : Nat) : Bool :=
  m == 0 || m == 2 || (decide (n < 20) && (m == 1 || m == 3 || m == 4 || m == 6)) || (decide (20 ≤ n) && (m == 5 || m == 7))

/-- Ethernet modes. -/
def modeEth (m : Nat) : Bool := decide (1 ≤ m ∧ m ≤ 5)

/-- Welt modes: the lane's MAC page has no function (R106). -/
def modeWelt (m : Nat) : Bool := m == 6 || m == 7

/-- LINK.SPEED code of a port (Table 4-4). -/
def State.speedCode (s : State) (n : Nat) : Nat :=
  match s.mode n with
  | 1 => (s.portOf n).sgmiiSpeed
  | 2 => 3
  | 3 => 4
  | 4 => 2
  | 5 => 5
  | _ => 0

/-- Port rate in kb/s (Table 4-1, R126). -/
def State.portRate (s : State) (n : Nat) : Nat :=
  match s.speedCode n with
  | 1 => 10000
  | 2 => 100000
  | 3 => 1000000
  | 4 => 2500000
  | 5 => 10000000
  | _ => 0

/-- The port's frames enter its through-lane: EN = 1, both MACs ON, one rate (R272). -/
def State.laneTakes (s : State) (k : Nat) : Bool :=
  let d := s.get (fabLaneCfgDst k)
  s.bit (fabLaneCfgEn k) && s.on (pgMac k) && s.on (pgMac d) && s.portRate k == s.portRate d

/-- RATE_MISMATCH (R272). -/
def State.laneMismatch (s : State) (k : Nat) : Bool :=
  s.bit (fabLaneCfgEn k) && s.portRate k != s.portRate (s.get (fabLaneCfgDst k))

/-- The engine of a lane runs: its role's engine reads ON and no takeover of it is in progress (R272, R294). -/
def State.laneEngineOn (s : State) (k : Nat) : Bool :=
  let n := s.get (fabLaneCfgEngine k)
  let m := s.serverOf n
  s.on pgFab && s.on (pgPe m) && s.fab.takeover.rd none n == none && s.fab.takeover.rd none m == none

/-- ACTIVE, IN_BYPASS (R272, R294). -/
def State.laneActive (s : State) (k : Nat) : Bool := s.laneTakes k && s.laneEngineOn k
/-- DEDUCED, assumption row 76. -/
def State.laneBypassed (s : State) (k : Nat) : Bool := s.laneTakes k && !s.laneEngineOn k

/-- The port is the TX end of a through-lane. -/
def State.laneEgress (s : State) (n : Nat) : Bool :=
  (List.range 24).any fun k => s.bit (fabLaneCfgEn k) && s.get (fabLaneCfgDst k) == n

/-- Bytes in the hold buffer (R278). -/
def State.laneOcc (s : State) (k : Nat) : Nat := ((s.laneOf k).out.map fun o => o.bytes.length - o.sent).sum

/-- Adds to a port counter (R133). -/
def State.cnt (s : State) (n i : Nat) (k : Nat := 1) : State :=
  let v := satAdd (2 ^ 64 - 1) (s.rn (macCntLo n i) + s.rn (macCntHi n i) * 2 ^ 32) k
  (s.setReg (macCntLo n i) (BitVec.ofNat 32 v)).setReg (macCntHi n i) (BitVec.ofNat 32 (v / 2 ^ 32))

/-- Preamble and SFD as the TX MAC sends them (R30, R122). -/
def preSfd : List Byte := List.replicate 7 0x55 ++ [0xD5]

/-- Copies of each byte on the port's line: 100 and 10 on SGMII at 10 and 100 Mb/s (R111). -/
def State.copies (s : State) (n : Nat) : Nat :=
  if s.mode n = 1 then (if s.speedCode n = 1 then 100 else if s.speedCode n = 2 then 10 else 1) else 1

/-- The first copy of each byte of a line that sends `c` copies (R111), of which `l` follows `phase` earlier copies. -/
def firstCopies (c : Nat) (l : List Byte) (phase : Nat := 0) : List Byte :=
  if c ≤ 1 then l
  else
    let l := l.drop ((c - phase % c) % c)
    (List.range ((l.length + c - 1) / c)).map fun i => l.getD (i * c) 0

/-- A frame leaves a port, behind a regenerated preamble and SFD (R30, R122). -/
def State.sendFrame (s : State) (n : Nat) (l : List Byte) (stomped aborted : Bool) : State :=
  s.emit (.frame n (s.copies n) (preSfd ++ l) stomped aborted)

/-- A queued frame stops in mid-transmission: the rest is not sent (R115). How much of it has left is not stated.
DEDUCED, assumption row 37. -/
def State.txAbort (s : State) (n : Nat) : State :=
  match (s.portOf n).tx with
  | none => s
  | some t =>
    let s := (s.setPort n { s.portOf n with tx := none }).sendFrame n [] false true
    (s.cnt n 39).release t.desc

/-- A lane frame stops in mid-transmission at its egress port (R115). -/
def State.laneAbort (s : State) (n : Nat) : State :=
  forEach (List.range 24) (fun s k =>
    match (s.laneOf k).out with
    | o :: t =>
      if s.get (fabLaneCfgDst k) = n ∧ 0 < o.sent then
        ((s.setLane k { s.laneOf k with out := t }).sendFrame n (o.bytes.take o.sent) false true).cnt n 39
      else s
    | [] => s) s

/-- The pause of a port ends. -/
def State.unpause (s : State) (n : Nat) : State :=
  (s.setPort n { s.portOf n with paused := false }).putb (macLinkPaused n) false

/-- The link of a port goes down (R115, R124, R167). -/
def State.linkDown (s : State) (n : Nat) : State :=
  if !s.bit (macLinkUp n) then s
  else
    let s := (s.putb (macLinkUp n) false).put (macLinkSpeed n) 0
    let s := (s.cnt n 21).irq' (pgMac n) 1
    (((s.txAbort n).laneAbort n).unpause n).fdbPortDown n

/-- The link of a port comes up with credits of 0, or changes speed (R129). -/
def State.linkUp (s : State) (n : Nat) : State :=
  let sp := s.speedCode n
  if s.bit (macLinkUp n) ∧ s.get (macLinkSpeed n) = sp then s
  else
    let up := s.bit (macLinkUp n)
    let s := (s.putb (macLinkUp n) true).put (macLinkSpeed n) sp
    let s := s.setPort n { s.portOf n with credit := [] }
    if up then s else s.irq' (pgMac n) 1

/-- The conditions under which a link is up (R111-R113, R143, R144). -/
def State.linkCan (s : State) (n : Nat) : Bool :=
  let p := s.portOf n
  s.on (pgMac n) && s.on (pgLane n) && s.bit (laneStatusAligned n) && !s.bit (macLinkRemoteFault n) &&
    match s.mode n with
    | 1 => p.sgmiiUp && s.bit (macLinkPhyPresent n)
    | 2 => p.anDone || !s.bit (macCfgAnEn n)
    | m => m == 3 || m == 4 || m == 5

/-- Meaning of LINK_UP. -/
def execLinkUp (n : PortIx) (s : State) : Out := .next (if s.linkCan n.val then s.linkUp n.val else s)

/-- The MAC answers a local fault of its receiver: remote fault in 10GBASE-R without block lock (R113), the far-end fault of
Clause 24 in 100BASE-FX without a signal while FEFI_EN = 1 (R114). -/
def State.faultCheck (s : State) (n : Nat) : State :=
  let want := s.on (pgMac n) && !s.bit (laneStatusAligned n) && (s.mode n == 5 || (s.mode n == 4 && s.bit (macCfgFefiEn n)))
  if want = (s.portOf n).localFault then s
  else (s.setPort n { s.portOf n with localFault := want }).emit (.linkFault n want)

/-- Clause 37 auto-negotiation begins over an aligned lane: full duplex, and symmetric PAUSE if PAUSE_ADV = 1 (R112).
DESIGN CHOICE, assumption row 158. -/
def State.anBegin (s : State) (n : Nat) : State :=
  if s.mode n = 2 && s.on (pgMac n) && s.bit (macCfgAnEn n) && s.bit (laneStatusAligned n) then
    s.emit (.advertise n (s.bit (macCfgPauseAdv n)))
  else s

/-- Loss of the received signal: alignment goes, and with it what the partner had told (R108, R112, R113).
DEDUCED, assumption row 31. -/
def State.signalLost (s : State) (n : Nat) : State :=
  let s := ((s.putb (laneStatusAligned n) false).putb (laneStatusCdrLock n) false).putb (laneStatusSignal n) false
  let s := s.setPort n { s.portOf n with anDone := false, sgmiiUp := false }
  s.faultCheck n

/-- Meaning of LINK_DOWN: the received signal is lost. -/
def execLinkDown (n : PortIx) (s : State) : Out := .next ((s.linkDown n.val).signalLost n.val)

/-- Meaning of LANE_ALIGNED (R108). DESIGN CHOICE, assumption row 34. -/
def execLaneAligned (n : PortIx) (s : State) : Out :=
  .next <|
    let n := n.val
    if s.on (pgLane n) && s.mode n != 0 then
      let was := s.bit (laneStatusAligned n)
      let s := ((s.putb (laneStatusAligned n) true).putb (laneStatusCdrLock n) true).putb (laneStatusSignal n) true
      let s := s.faultCheck n
      if was then s else s.anBegin n
    else s

/-- A write of CFG acts on the link as it stands: AN_EN set restarts Clause 37, so the link is down until it completes, and
cleared it lets an aligned link up (R112); FEFI_EN begins or ends the far-end fault in both directions (R114).
DEDUCED, assumption row 199. -/
def State.macCfgWrite (s : State) (n : Nat) (w : Word) : State :=
  let an := s.bit (macCfgAnEn n)
  let fefi := s.bit (macCfgFefiEn n)
  let s := s.byCodes (macCfg n) w
  let s :=
    if s.mode n != 2 || !s.on (pgMac n) || s.bit (macCfgAnEn n) == an then s
    else if an then (if s.linkCan n then s.linkUp n else s)
    else if s.bit (laneStatusAligned n) then
      ((s.setPort n { s.portOf n with anDone := false }).linkDown n).anBegin n
    else s
  if s.mode n != 4 || !s.on (pgMac n) || s.bit (macCfgFefiEn n) == fefi then s
  else
    let s := s.faultCheck n
    if !fefi then s
    else
      let s := s.putb (macLinkRemoteFault n) false
      if s.linkCan n then s.linkUp n else s

/-- Meaning of SGMII_CONTROL_WORD (R111, R129). -/
def execSgmiiControlWord (n : PortIx) (link : Bool) (speed : Fin 3) (fullDuplex : Bool) (s : State) : Out :=
  .next <|
    let n := n.val
    if s.mode n ≠ 1 ∨ !s.on (pgMac n) ∨ !s.bit (laneStatusAligned n) then s
    else
      let up := link && fullDuplex
      let s := s.setPort n { s.portOf n with sgmiiUp := up, sgmiiSpeed := if up then speed.val + 1 else 0 }
      let s := if link && !fullDuplex then s.err (pgMac n) 9 else s
      if s.linkCan n then s.linkUp n else s.linkDown n

/-- Meaning of AUTONEG_COMPLETE (R112). -/
def execAutonegComplete (n : PortIx) (fullDuplex pause : Bool) (s : State) : Out :=
  .next <|
    let n := n.val
    if s.mode n ≠ 2 ∨ !s.bit (macCfgAnEn n) ∨ !s.on (pgMac n) ∨ !s.bit (laneStatusAligned n) then s
    else
      let s := s.putb (macLinkPartnerPause n) pause
      let s := s.setPort n { s.portOf n with anDone := fullDuplex }
      if fullDuplex then (if s.linkCan n then s.linkUp n else s) else (s.err (pgMac n) 9).linkDown n

/-- Meaning of REMOTE_FAULT (R113), and of the far-end fault of 100BASE-FX (R114). DEDUCED, assumption row 32. -/
def execRemoteFault (n : PortIx) (present : Bool) (s : State) : Out :=
  .next <|
    let n := n.val
    if !s.on (pgMac n) ∨ !(s.mode n = 5 ∨ (s.mode n = 4 ∧ s.bit (macCfgFefiEn n))) then s
    else
      let was := s.bit (macLinkRemoteFault n)
      let s := s.putb (macLinkRemoteFault n) present
      let s := if present && !was then s.irq' (pgMac n) 6 else s
      if present then s.linkDown n else s

/-- A write of LANE.CFG: in any state but OFF it is ignored with MODE_BUSY, whatever MODE it carries (R106, R107).
DEDUCED, assumption row 33. -/
def State.laneModeSet (s : State) (n : Nat) (w : Word) : State :=
  let busy := decide (s.st (pgLane n) ≠ stOff)
  let bad := !modeAllowed n (bitsOf w 0 3)
  if busy || bad then
    let s := if busy then s.err (pgLane n) 8 else s
    if bad then s.err (pgLane n) 9 else s
  else s.byCodes (laneCfg n) w

/-- Meaning of LANE_MODE_WRITE. -/
def execLaneModeWrite (p : Principal) (n : PortIx) (v : Word) (s : State) : Out :=
  .next (s.access p (laneCfg n.val) v fun s w => s.laneModeSet n.val w)

/-! ## Reception (R116-R123, R136) -/

/-- MAXLEN as it acts (R117). -/
def State.maxLen (s : State) (n : Nat) : Nat := min (max (s.get (macMaxlenBytes n)) 64) 9216

/-- Index of a length range among the seven of Table 4-3. -/
def lenRange (n : Nat) : Nat :=
  if n ≤ 64 then 0 else if n ≤ 127 then 1 else if n ≤ 255 then 2 else if n ≤ 511 then 3 else if n ≤ 1023 then 4
  else if n ≤ 1518 then 5 else 6

/-- Index of a destination type: unicast, multicast, broadcast. -/
def castOf (l : List Byte) : Nat :=
  let da := fb48 l 0
  if da = 2 ^ 48 - 1 then 2 else if bitN da 40 then 1 else 0

/-- FCS of frame bytes, least significant byte first on the wire. -/
def fcsOf (l : List Byte) : List Byte := leBytes 4 (crc32 l)

/-- The frame ends in its own FCS. -/
def fcsGood (l : List Byte) : Bool := l.drop (l.length - 4) == fcsOf (l.take (l.length - 4))

/-- FRC at a strobe, and the raw stamp taken there (R35, R136). -/
def State.strobeFrc (s : State) (x : Strobe) : BitVec 48 := s.tb.frc - BitVec.ofNat 48 x.ago
def State.strobeRaw (s : State) (x : Strobe) : Stamp := BitVec.ofNat 53 ((s.strobeFrc x).toNat * 32 + x.fine.toNat)

/-- Unit interval of a lane mode in 1/100 ps (R136). -/
def unitInterval (mode : Nat) : Nat := if mode = 3 then 32000 else if mode = 5 then 9697 else 80000

/-- Position term of a strobe in 1/100 ps: bit count times unit interval (R136). -/
def State.strobePos (s : State) (n : Nat) (x : Strobe) : Int := (x.bits * unitInterval (s.mode n) : Nat)

/-- A signed field as it stood for a raw value taken in T cycle `t`: a write acts from 3 T after it on (R137). -/
def trimAt (t : Int) (now : Int) : List (Nat × Int) → Int
  | [] => now
  | (at', old) :: r => if (at' : Int) + 3 ≤ t then now else trimAt t old r

/-- A trim field (0 receive, 1 transmit, 2 asymmetry) in ps, for a raw value taken at a strobe. -/
def State.trimPs (s : State) (n i : Nat) (x : Strobe) : Int :=
  let f := if i = 0 then macStampRxTrimPs n else if i = 1 then macStampTxTrimPs n else macStampAsymPs n
  trimAt ((s.tb.ticks : Int) - x.ago) (s.geti f) ((s.portOf n).trims.rd [] i)

/-- A write of a trim register: the value it replaces still acts on stamps taken up to 3 T after it (R137).
DEDUCED, assumption row 159. -/
def State.trimWrite (s : State) (n i : Nat) (a : Nat) (w : Word) : State :=
  let f := if i = 0 then macStampRxTrimPs n else if i = 1 then macStampTxTrimPs n else macStampAsymPs n
  let p := s.portOf n
  let s := s.setPort n { p with trims := p.trims.wr [] i ((s.tb.ticks, s.geti f) :: p.trims.rd [] i) }
  s.byCodes a w

/-- Correction of a raw ingress stamp (R136, R137). -/
def State.stampIn (s : State) (n : Nat) (x : Strobe) : Stamp :=
  let d : Int := (Config.stampDesign (s.mode n)).1.toNat
  stampAdd (s.strobeRaw x) (psUnits100 (-((d + s.trimPs n 0 x + s.trimPs n 2 x) * 100 + s.strobePos n x)))

/-- Correction of a raw egress stamp (R136, R137). -/
def State.stampOut (s : State) (n : Nat) (x : Strobe) : Stamp :=
  let d : Int := (Config.stampDesign (s.mode n)).2.toNat
  stampAdd (s.strobeRaw x) (psUnits100 ((d + s.trimPs n 1 x - s.trimPs n 2 x) * 100 + s.strobePos n x))

/-- A frame is stamped in one direction (R35). -/
def State.stamped (s : State) (n : Nat) (tx : Bool) (t : Stamp) : State :=
  s.setPort n (if tx then { s.portOf n with stampTx := t } else { s.portOf n with stampRx := t })

/-- How a received frame of bytes `l` ends: 0 good, 1 runt, 2 fragment, 3 oversize, 4 bad (R116-R118). A frame over MAXLEN
that loss of link cuts is bad. DEDUCED, assumption row 38; DESIGN CHOICE, assumption row 160. -/
def State.rxClass (s : State) (n : Nat) (l : List Byte) (codeErrs : Nat) (linkLost : Bool) : Nat :=
  let len := l.length
  let good := !linkLost && codeErrs == 0 && fcsGood l
  if !linkLost && decide (s.maxLen n < len) then 3
  else if len < 64 then (if good then 1 else 2)
  else if good then 0 else 4

/-- The receive counters of a frame (Table 4-3). RX_OCTETS_ALL counts MAXLEN + 1 bytes of an oversize frame, at which the
MAC ends it (R117). DESIGN CHOICE, assumption row 160. -/
def State.rxCount (s : State) (n : Nat) (l : List Byte) (codeErrs cls : Nat) : State :=
  let len := l.length
  let got := if cls = 3 then s.maxLen n + 1 else len
  let s := s.cnt n 5 got
  let s := if codeErrs = 0 then s else (s.cnt n 7 codeErrs).count (laneCodeErr n) codeErrs
  match cls with
  | 0 =>
    let s := ((s.cnt n 0 len).cnt n 1).cnt n (2 + castOf l)
    let s := if isTagged l then s.cnt n 13 else s
    s.cnt n (14 + lenRange len)
  | 1 => s.cnt n 8
  | 2 => s.cnt n 9
  | 3 => s.cnt n 10
  | _ => s.cnt n 6

/-- The frame reaches, or is withheld from, the switch core's ingress, which while SWC stops takes the frame in reception to its
end (R183). Where SWC is not running the frame ends in the ingress DCQ, which is reset with its block: the last point of Table 1-4.
DEDUCED, assumption row 161. -/
def State.rxDeliver (s : State) (n : Nat) (bytes : List Byte) (cls : Nat) (stamp : Stamp) : State :=
  let open' := s.swcOpen n
  let s := if s.st pgSwc = stStopping then { s with swc := { s.swc with pastEnd := s.swc.pastEnd.wr false n true } } else s
  let mine (i : Ingress) : Bool := i.src == n && i.ended.isNone
  if cls = 1 ∨ cls = 2 then
    ({ s with swc := { s.swc with ingress := removeFirst mine s.swc.ingress } }).barrierCheck
  else if s.swc.ingress.any mine then
    { s with swc := { s.swc with
      ingress := replaceFirst mine (fun i => { i with bytes := bytes, ended := some (cls == 0, stamp) }) s.swc.ingress } }
  else if !open' then s
  else
    let e : Ingress := ⟨n, [], bytes, none, some (cls == 0, stamp)⟩
    { s with swc := { s.swc with ingress := s.swc.ingress ++ [e] } }

/-- The MAC receives: ON, or STOPPING up to the next frame boundary (R144). -/
def State.macReceives (s : State) (n : Nat) : Bool :=
  s.on (pgMac n) || (s.st (pgMac n) == stStopping && !(s.portOf n).rxOver)

/-- A frame has ended: in STOPPING the MAC receives no other (R144). -/
def State.rxBoundary (s : State) (n : Nat) : State :=
  if s.on (pgMac n) then s else s.setPort n { s.portOf n with rxOver := true }

/-- Pause time of a PAUSE frame, in quanta: destination, EtherType and opcode (R123). -/
def pauseOf (l : List Byte) : Option Half :=
  if fb48 l 0 = 0x0180C2000001 ∧ beNat ((l.drop 12).take 4) = 0x88080001 then some (BitVec.ofNat 16 (beNat ((l.drop 16).take 2)))
  else none

/-- A PAUSE frame acts on the TX MAC of its port (R123, R124). -/
def State.pauseAct (s : State) (n : Nat) (quanta : Half) : State :=
  let s := s.cnt n 11
  if s.bit (macCfgPauseRxEn n) && !s.laneEgress n then
    let s := s.cnt n 38 quanta.toNat
    if quanta = 0 then s.unpause n
    else (s.setPort n { s.portOf n with paused := true }).putb (macLinkPaused n) true
  else s.cnt n 12

/-- The RX MAC takes a frame of bytes `l` and class `cls` off the line: it counts it, stamps it, obeys a PAUSE frame, and
passes it to the switch core unless a through-lane alone takes it (R116-R123, R281). -/
def State.rxTake (s : State) (n : Nat) (l : List Byte) (codeErrs cls : Nat) (x : Strobe) : State :=
  let t := s.stampIn n x
  let s := (s.rxCount n l codeErrs cls).stamped n false t
  let s := if cls = 0 then s.ptpCount n l else s
  let s := match (if cls = 0 then pauseOf l else none) with | some q => s.pauseAct n q | none => s
  let bytes := if cls = 3 then l.take (s.maxLen n + 1) else l
  let s := if (s.laneTakes n || (s.laneOf n).entered) && !s.bit (fabLaneCfgTap n) then s else s.rxDeliver n bytes cls t
  (s.setLane n { s.laneOf n with entered := false }).rxBoundary n

/-- The port takes a frame: its MAC receives, in an Ethernet mode, on a link that is up or fails with this frame. -/
def State.rxOpens (s : State) (n : Nat) (linkLost : Bool) : Bool :=
  s.macReceives n && modeEth (s.mode n) && (s.bit (macLinkUp n) || linkLost)

/-- Meaning of RX_FRAME_END. A frame without a byte of preamble, or with a gap below 5 byte times, is not received (R122).
DESIGN CHOICE, assumption row 162. -/
def execRxFrameEnd (n : PortIx) (f : RxEnd) (s : State) : Out :=
  .next <|
    let n := n.val
    if !s.rxOpens n f.linkLost || f.preamble == 0 || decide (f.gap < 5) then s
    else
      let l := firstCopies (s.copies n) f.line
      s.rxTake n l f.codeErrs (s.rxClass n l f.codeErrs f.linkLost) f.stamp

/-- A PAUSE frame of 64 bytes from a source address. -/
def pauseBytes (sa : BitVec 48) (quanta : Half) : List Byte :=
  let l := beBytes 6 0x0180C2000001 ++ beBytes 6 sa.toNat ++ beBytes 4 0x88080001 ++ beBytes 2 quanta.toNat ++ List.replicate 42 0
  l ++ fcsOf l

/-- Meaning of PAUSE_FRAME: a good PAUSE frame of 64 bytes is received (R123, R124). -/
def execPauseFrame (n : PortIx) (f : PauseRx) (s : State) : Out :=
  .next (if s.rxOpens n.val false then s.rxTake n.val (pauseBytes f.sa f.quanta) 0 0 f.stamp else s)

/-- Meaning of PAUSE_EXPIRY. -/
def execPauseExpiry (n : PortIx) (s : State) : Out := .next (s.unpause n.val)

/-! ## Egress selection (R125-R132) -/

/-- idleSlope as it acts (R129). -/
def State.idleSlope (s : State) (n q : Nat) : Nat := min (s.get (macShapeQCfgIdleSlope n q)) (s.portRate n)

/-- Credit limits in bits times kb/s (R127, R128). -/
def State.creditHi (s : State) (n q : Nat) : Int :=
  (s.get (macShapeQMaxIntfBytes n q) + 20) * 8 * s.idleSlope n q
def State.creditLo (s : State) (n q : Nat) : Int :=
  -((s.get (macShapeQQmaxframeBytes n q) + 20) * 8 * ((s.portRate n : Int) - s.idleSlope n q))

def State.creditOf (s : State) (n q : Nat) : Int := (s.portOf n).credit.rd 0 q
def State.setCredit (s : State) (n q : Nat) (c : Int) : State :=
  s.setPort n { s.portOf n with credit := (s.portOf n).credit.wr 0 q (clipInt' (s.creditLo n q) (s.creditHi n q) c) }
where
  clipInt' (lo hi x : Int) : Int := if x < lo then lo else if hi < x then hi else x

/-- Credit of a queue after byte times empty and then byte times with frames waiting, at its idleSlope (R126): empty, it
rises to 0 at most and loses what it has above 0. -/
def creditIdle (c : Int) (slope empty waiting : Nat) : Int :=
  let c := if empty = 0 then c else if c < 0 then min (c + (slope * 8 * empty : Nat)) 0 else 0
  c + (slope * 8 * waiting : Nat)

/-- Credits after `bt` byte times in which the port sends `len` byte times from queue `sending`, or from none (R126, R128).
Of them, queue q had frames waiting for the last `waited[q]`, all of them where the list does not say.
DEDUCED, assumption row 36. -/
def State.creditRun (s : State) (n bt : Nat) (waited : List Nat) (sending : Option (Nat × Nat)) : State :=
  forEach (List.range 8) (fun s q =>
    if !s.bit (macShapeQCfgCbsEn n q) then s
    else
      let c := s.creditOf n q
      let none' := decide (s.queueOf (8 * n + q) = [])
      let w := if none' then 0 else min bt (waited.getD q bt)
      let idle := creditIdle c (s.idleSlope n q) (bt - w) w
      match sending with
      | some (k, len) =>
        if k = q then
          let c := c - ((s.portRate n : Int) - s.idleSlope n q) * 8 * len
          s.setCredit n q (if none' then min c 0 else c)
        else s.setCredit n q idle
      | none => s.setCredit n q idle) s

/-- Predicted pin time of a stamp point now, in 2^-32 ns modulo 2^72: HTBA moved on by the preamble and the transmit
latency (R130, R136). -/
def State.pinTime (s : State) (n : Nat) : BitVec 72 :=
  let lat : Int := (Config.stampDesign (s.mode n)).2.toNat + s.geti (macStampTxTrimPs n)
  let pre : Int := if s.portRate n = 0 then 0 else (64 * 1000000 * 2 ^ 32 / s.portRate n : Nat)
  (s.htbOf 2).v.setWidth 72 + BitVec.ofInt 72 (lat * 2 ^ 32 / 1000 + pre)

/-- Signed distance from a launch time to a 72-bit time, in 2^-32 ns. -/
def past (t : BitVec 72) (l : Nat) : Int := (t - BitVec.ofNat 72 (l * 2 ^ 32)).toInt

/-- A frame with launch time L is late (R131). -/
def State.isLate (s : State) (n l : Nat) : Bool :=
  decide (0 < past ((s.htbOf 2).v.setWidth 72) (l + s.get (macLateTolNs n)))

/-- The launch instant of a frame has been reached (R130). DEDUCED, assumption row 35. -/
def State.launchReached (s : State) (n q l : Nat) : Bool :=
  (s.portOf n).launched.rd false q || decide (0 ≤ past (s.pinTime n) l)

/-- Shaping lets a queue send. -/
def State.creditOk (s : State) (n q : Nat) : Bool := !s.bit (macShapeQCfgCbsEn n q) || decide (0 ≤ s.creditOf n q)

/-- Late frames at a queue's head are discarded with LATE_DROP = 1 (R131). -/
def State.dropLate (s : State) (n q : Nat) : Nat → State
  | 0 => s
  | k + 1 =>
    match s.queueOf (8 * n + q) with
    | [] => s
    | d :: _ =>
      match d.launch with
      | none => s
      | some l =>
        if s.bit (macCfgLateDrop n) && s.creditOk n q && s.isLate n l then
          let s := (s.dequeue (8 * n + q)).release d
          let s := s.setPort n { s.portOf n with launched := (s.portOf n).launched.wr false q false }
          State.dropLate ((s.cnt n 37).irq' (pgMac n) 4) n q k
        else s

/-- Bytes a frame puts on the wire, FCS included and preamble and gap apart (R122, R160). -/
def Desc.wireLen (d : Desc) (port : Nat) : Nat :=
  let raw := d.length - (if d.fcsPresent then 4 else 0)
  let len := match d.edit with
    | none => raw
    | some (_, _, _, tagged) =>
      if bitN d.untag port then (if tagged then raw - 4 else raw) else if tagged then raw else raw + 4
  max len 60 + 4

/-- The queue a head frame waits in for launch, with how far its launch instant lies ahead. -/
def State.waitingLaunch (s : State) (n q : Nat) : Option Int :=
  match s.queueOf (8 * n + q) with
  | [] => none
  | d :: _ =>
    match d.launch with
    | none => none
    | some l => if s.launchReached n q l || s.isLate n l then none else some (-(past (s.pinTime n) l))

/-- Time of a transmission of `len` bytes with its 20 bytes, in 2^-32 ns. -/
def State.sendTime (s : State) (n len : Nat) : Int :=
  if s.portRate n = 0 then 0 else ((len + 20) * 8 * 1000000 * 2 ^ 32 / s.portRate n : Nat)

/-- A queue is eligible (R125), and the launch guard lets its head frame start (R132). -/
def State.eligible (s : State) (n q : Nat) : Bool :=
  match s.queueOf (8 * n + q) with
  | [] => false
  | d :: _ =>
    s.creditOk n q && (match d.launch with | none => true | some l => s.launchReached n q l || s.isLate n l)
      && (!s.bit (macCfgLaunchGuard n) || (List.range 8).all fun k =>
        match s.waitingLaunch n k with
        | none => true
        | some ahead => decide (s.sendTime n (d.wireLen n) < ahead))

/-- The TX MAC may start a frame of its queues: none of SWC's once it stops (R125, R144, R183, R278). -/
def State.txReady (s : State) (n : Nat) : Bool :=
  s.on (pgMac n) && s.bit (macLinkUp n) && !(s.portOf n).paused && (s.portOf n).tx == none && !s.laneBusy n && s.on pgSwc

/-- The head frame of a queue starts (R125, R130, R131). TX_LAUNCHED counts each frame with a launch time that is not late.
DESIGN CHOICE, assumption row 163. -/
def State.txStart (s : State) (n q : Nat) : State :=
  match s.queueOf (8 * n + q) with
  | [] => s
  | d :: _ =>
    let late := match d.launch with | some l => s.isLate n l | none => false
    let s := s.dequeue (8 * n + q)
    let s := s.setPort n { s.portOf n with
      tx := some ⟨d, q, [], false, d.launch.isSome⟩, launched := (s.portOf n).launched.wr false q false, staged := none }
    if d.launch.isNone then s
    else if late then (s.cnt n 36).irq' (pgMac n) 4 else s.cnt n 35

/-- The delivery header of a frame (Table 5-3). -/
def Desc.header (d : Desc) (bad : Bool) : List Byte :=
  let w0 := d.length + d.src * 0x4000 + d.cls * 0x100000 + d.colour * 0x800000 + (if d.fcsPresent then 0x2000000 else 0)
    + (if d.mirror then 0x4000000 else 0) + (if bad then 0x8000000 else 0)
  let w1 := (match d.filter with | some f => f + 0x400 | none => 0) + d.gen.toNat * 0x10000
  leBytes 4 w0 ++ leBytes 4 w1 ++ leBytes 4 d.stamp.toNat ++ leBytes 4 (d.stamp.toNat / 2 ^ 32)

/-- The host takes the head frame of its highest queue that holds one: the spec names no step in which it does (R153, R182).
DESIGN CHOICE, assumption row 186. -/
def State.hostTake (s : State) : State :=
  match (List.range 8).reverse.find? fun h => s.queueOf (228 + h) != [] with
  | none => s
  | some h =>
    match s.queueOf (228 + h) with
    | [] => s
    | d :: _ =>
      let (l, bad, s) := s.loadFrame d.cells d.length
      (((s.dequeue (228 + h)).release d).emit (.hostFrame h (d.header bad ++ l))).barrierCheck

/-- Meaning of TX_SELECT, with the time since the port last sent. -/
def execTxSelect (n : TxIx) (t : TxTime) (s : State) : Out :=
  .next <|
    let n := n.val
    if n = 24 then (if s.on pgSwc then s.hostTake else s)
    else if !s.txReady n then s
    else
      let s := s.creditRun n t.byteTimes t.waited none
      let s := forEach (List.range 8) (fun s q => s.dropLate n q (s.queueOf (8 * n + q)).length) s
      match (List.range 8).reverse.find? fun q => s.eligible n q with
      | some q => (s.txStart n q).barrierCheck
      | none => s

/-- Meaning of LAUNCH_INSTANT (R130). -/
def execLaunchInstant (n : PortIx) (q : OctIx) (s : State) : Out :=
  .next <|
    match s.queueOf (8 * n.val + q.val) with
    | [] => s
    | d :: _ =>
      match d.launch with
      | some l =>
        if 0 ≤ past (s.pinTime n.val) l then
          s.setPort n.val { s.portOf n.val with launched := (s.portOf n.val).launched.wr false q.val true }
        else s
      | none => s

/-! ## Transmission (R122, R133, R139, R160) -/

/-- The egress edit of a stored frame (R119, R160). -/
def Desc.egress (d : Desc) (port : Nat) (l : List Byte) : List Byte :=
  let l := if d.fcsPresent then l.take (l.length - 4) else l
  match d.edit with
  | none => l
  | some (vid, pcp, dei, tagged) =>
    if bitN d.untag port then (if tagged then l.take 12 ++ l.drop 16 else l)
    else if tagged then l
    else l.take 12 ++ beBytes 2 0x8100 ++ beBytes 2 (pcp * 0x2000 + dei * 0x1000 + vid) ++ l.drop 12

/-- An egress stamp enters the TXTS FIFO (R139). -/
def State.txtsPush (s : State) (n : Nat) (tag : Half) (t : Stamp) : State :=
  if 16 ≤ (s.portOf n).txts.length then (s.putb (macTxtsStatOvf n) true).irq' (pgMac n) 3
  else (s.setPort n { s.portOf n with txts := (s.portOf n).txts ++ [⟨tag, t⟩] }).irq' (pgMac n) 2

/-- The transmit counters of a frame (Table 4-3). -/
def State.txCount (s : State) (n : Nat) (l : List Byte) : State :=
  (((s.cnt n 22 l.length).cnt n 23).cnt n (24 + castOf l)).cnt n (27 + lenRange l.length)

/-- A frame leaves whole (R122, R182), stamped at its strobe. -/
def State.txEnd (s : State) (n : Nat) (t : TxFrame) (x : Strobe) : State :=
  let d := t.desc
  let (l, bad, s) := s.loadFrame d.cells d.length
  let tOut := s.stampOut n x
  let (l, s) := (s.stamped n true tOut).ptpEgress n d bad (d.egress n l) tOut
  let short := decide (l.length < 60)
  let l := if short then l ++ List.replicate (60 - l.length) 0 else l
  let fcs := if bad then (fcsOf l).map (~~~ ·) else fcsOf l
  let s := if short then s.cnt n 34 else s
  let s := if bad then (s.count (swcDisc 7)).irq' pgSwc 2 else s
  let s := (s.txCount n (l ++ fcs)).sendFrame n (l ++ fcs) bad false
  let s := s.setPort n { s.portOf n with tx := none }
  let s := match d.txts with
    | some tag => s.txtsPush n tag tOut
    | none => s
  s.release d

/-- A lane frame leaves its egress port (R279, R280): stomped frames are not padded. Of an FCS whose stomp became known
after the data end, the bytes already sent stay as they are; how many is not stated. -/
def State.laneEmit (s : State) (n : Nat) (o : LaneOut) : State :=
  if o.raw then (s.txCount n o.bytes).sendFrame n o.bytes false false
  else
  let short := decide (o.bytes.length < 60) && !o.stomp
  let l := if short then o.bytes ++ List.replicate (60 - o.bytes.length) 0 else o.bytes
  let s := if short then s.cnt n 34 else s
  let s := if o.stomp then s.cnt n 41 else s
  let (keep, s) := if o.stomp && o.late then let (w, s) := s.draw 6; (w.toNat % 4, s) else (0, s)
  let fcs := if o.stomp then (fcsOf l).take keep ++ ((fcsOf l).drop keep).map (~~~ ·) else fcsOf l
  (s.txCount n (l ++ fcs)).sendFrame n (l ++ fcs) o.stomp false

/-- The TX MAC of a lane's egress sends: it is ON, or completes in STOPPING a frame it has begun (R144); its link is up and
no queue frame is in transmission (R278). -/
def State.laneSends (s : State) (n : Nat) (o : LaneOut) : Bool :=
  (s.on (pgMac n) || (s.st (pgMac n) == stStopping && decide (0 < o.sent))) && s.bit (macLinkUp n) && (s.portOf n).tx == none

/-! ## Reads with effects, snapshot -/

/-- A read of TXTS_HI removes the head entry (R139). -/
def State.txtsHiRead (s : State) (p : Principal) (n : Nat) : State :=
  match (s.portOf n).txts with
  | [] => s.answer p 0
  | e :: t => (s.setPort n { s.portOf n with txts := t }).answer p (stampHi e.stamp)

/-- Meaning of TXTS_HI_READ. -/
def execTxtsHiRead (p : Principal) (n : PortIx) (s : State) : Out :=
  .next (if s.reaches p then s.txtsHiRead p n.val else s)

/-- A read of CNT[i].LO (R134). -/
def State.cntLoRead (s : State) (p : Principal) (n i : Nat) : State :=
  let lo := s.reg (macCntLo n i)
  let hi := s.reg (macCntHi n i)
  let s := s.setPort n { s.portOf n with latch := (s.portOf n).latch.wr (42, 0) (pIdx p) (i, hi) }
  ((s.setReg (macCntLo n i) 0).setReg (macCntHi n i) 0).answer p lo

/-- Meaning of CNT_LO_READ. -/
def execCntLoRead (p : Principal) (n : PortIx) (i : Fin 42) (s : State) : Out :=
  .next (if s.reaches p then s.cntLoRead p n.val i.val else s)

/-- A read of CNT[i].HI (R134). An empty latch is one of index 42. -/
def State.cntHiRead (s : State) (p : Principal) (n i : Nat) : State :=
  let (j, w) := (s.portOf n).latch.rd (42, 0) (pIdx p)
  if j = i then
    (s.setPort n { s.portOf n with latch := (s.portOf n).latch.wr (42, 0) (pIdx p) (42, 0) }).answer p w
  else (s.err (pgMac n) 10).answer p 0

/-- Meaning of CNT_HI_READ. -/
def execCntHiRead (p : Principal) (n : PortIx) (i : Fin 42) (s : State) : Out :=
  .next (if s.reaches p then s.cntHiRead p n.val i.val else s)

/-- A write of STAT_SNAP (R135); the MAC page of a lane in a Welt mode has no function (R106). -/
def State.statSnap (s : State) (n : Nat) (w : Word) : State :=
  if bitN w.toNat 0 && !modeWelt (s.mode n) then
    forEach (List.range 42) (fun s i =>
      let s := (s.setReg (macCntsLo n i) (s.reg (macCntLo n i))).setReg (macCntsHi n i) (s.reg (macCntHi n i))
      (s.setReg (macCntLo n i) 0).setReg (macCntHi n i) 0) s
  else s

/-- Meaning of STAT_SNAP. -/
def execStatSnap (p : Principal) (n : PortIx) (v : Word) (s : State) : Out :=
  .next (s.access p (macStatSnap n.val) v fun s w => s.statSnap n.val w)

/-! ## MDIO (R141-R143) -/

/-- An operation enters the queue of its port's bus (R142). -/
def State.mdioPush (s : State) (n : Nat) (o : MdioOp) : State :=
  let bus := s.get (macPhyCfgBus n)
  { s with mdio := s.mdio.wr [] bus (s.mdio.rd [] bus ++ [o]) }

/-- The MAC reads its PHY's identifier registers: 2 and 3 in Clause 22, 1.2 and 1.3 in Clause 45 (R143). -/
def State.probePush (s : State) (n : Nat) : State :=
  let o (r : Nat) : MdioOp :=
    { port := n, clause45 := s.bit (macPhyCfgClause45 n), phy := s.get (macPhyCfgAddr n), op := 0, reg := r, devad := 1, data := 0,
      probe := true }
  (s.mdioPush n (o 2)).mdioPush n (o 3)

/-- Identifier reads of a port that its bus has still to perform. -/
def State.probesLeft (s : State) (n : Nat) : Bool :=
  [0, 1].any fun b => (s.mdio.rd [] b).any fun o => o.port == n && o.probe

/-- A write of MDIO_CMD queues an operation (R142); the MAC page of a lane in a Welt mode has no function (R106). OP 3 names no
operation, and OP 2 with CLAUSE45 = 0 is queued as a Clause 22 frame of op 2. DEDUCED, assumption row 39; DESIGN CHOICE,
assumption row 164. -/
def State.mdioWrite (s : State) (n : Nat) (w : Word) : State :=
  if modeWelt (s.mode n) then s
  else if s.bit (macMdioCmdBusy n) then s.err (pgMac n) 11
  else if bitsOf w 0 2 = 3 then s
  else
    let c45 := s.bit (macPhyCfgClause45 n)
    let reg := s.get (macMdioAddrReg n)
    (s.mdioPush n { port := n, clause45 := c45, phy := s.get (macPhyCfgAddr n), op := bitsOf w 0 2,
                    reg := if c45 then reg else reg % 32, devad := s.get (macMdioAddrDevad n),
                    data := BitVec.ofNat 16 (s.get (macMdioDataData n)), probe := false }).putb (macMdioCmdBusy n) true

/-- Meaning of MDIO_READ. -/
def execMdioRead (p : Principal) (n : PortIx) (s : State) : Out :=
  .next (s.access p (macMdioCmd n.val) 0 fun s w => s.mdioWrite n.val w)
/-- Meaning of MDIO_WRITE. -/
def execMdioWrite (p : Principal) (n : PortIx) (s : State) : Out :=
  .next (s.access p (macMdioCmd n.val) 1 fun s w => s.mdioWrite n.val w)
/-- Meaning of MDIO_READ_INC. -/
def execMdioReadInc (p : Principal) (n : PortIx) (s : State) : Out :=
  .next (s.access p (macMdioCmd n.val) 2 fun s w => s.mdioWrite n.val w)

/-- The frames of an operation on its bus: in Clause 45 an address frame and then the data frame; the preamble is left out
with PRE_SUPPRESS = 1 (R141). `data` is what the data frame carries. -/
def State.mdioFrames (s : State) (b : Nat) (o : MdioOp) (data : Nat) : State :=
  let pre := !s.bit (laneMdioBusPreSuppress b)
  if o.clause45 then
    (s.emit (.mdio b pre true o.phy 3 o.devad o.reg)).emit (.mdio b pre true o.phy o.op o.devad data)
  else s.emit (.mdio b pre false o.phy o.op o.reg data)

/-- A probe has ended: the PHY is present if it answered both reads, and the port may come up (R143).
DESIGN CHOICE, assumption row 165. -/
def State.probeEnd (s : State) (n : Nat) (answered : Bool) : State :=
  let s := s.setPort n { s.portOf n with phyAnswered := (s.portOf n).phyAnswered && answered }
  if s.probesLeft n then s
  else
    let ok := (s.portOf n).phyAnswered
    let s := s.setPort n { s.portOf n with probed := true, phyAnswered := true }
    if !ok then s
    else
      let s := s.putb (macLinkPhyPresent n) true
      if s.linkCan n then s.linkUp n else s

/-- Meaning of MDIO_DONE: the operation at the head of a bus's queue ends with the PHY's answer. -/
def execMdioDone (bus1 answered : Bool) (data : Half) (s : State) : Out :=
  .next <|
    let b := bus1.toNat
    match s.mdio.rd [] b with
    | [] => s
    | o :: t =>
      let got := if o.op = 1 then o.data.toNat else if answered then data.toNat else 0xFFFF
      let s := ({ s with mdio := s.mdio.wr [] b t }).mdioFrames b o got
      if o.probe then s.probeEnd o.port answered
      else
        let s := if o.op = 1 then s else s.put (macMdioDataData o.port) got
        let s := (s.putb (macMdioCmdNoAnswer o.port) (!answered)).putb (macMdioCmdBusy o.port) false
        s.irq' (pgMac o.port) 5

/-- Meaning of PHY_PROBE: `aCycles` A cycles after a probe without an answer; once they are 25,000,000 it is queued again
(R143). -/
def execPhyProbe (n : PortIx) (aCycles : Nat) (s : State) : Out :=
  .next <|
    let n := n.val
    if s.on (pgMac n) && s.mode n == 1 && !s.bit (macLinkPhyPresent n) && !s.probesLeft n && decide (25000000 ≤ aCycles) then
      s.probePush n
    else s

/-! ## Start and stop (R108, R143, R144) -/

/-- In SGMII mode the start sequence probes the PHY before the MAC reaches ON (R143). -/
def State.macProbes (s : State) (n : Nat) : Bool := s.mode n == 1 && !(s.portOf n).probed

/-- The start sequence queues the probe, once. -/
def State.macProbe (s : State) (n : Nat) : State := if s.probesLeft n then s else s.probePush n

/-- The MAC reaches ON. A PHY that has not answered at boot is the conflict of Table 3-8. -/
def State.macPoint (s : State) (n : Nat) : State :=
  let s := (s.faultCheck n).anBegin n
  if s.mode n = 1 ∧ !s.bit (macLinkPhyPresent n) ∧ !s.booted then s.conflict (pgMac n) 1 0x50 5 else s

/-- The MAC has stopped: no link, no pause and no fault signalled, its learned entries gone with its link (R167), its probe
forgotten, a frame in reception ended as a bad one, and the frame in transmission over. DEDUCED, assumption row 37. -/
def State.macClear (s : State) (n : Nat) : State :=
  let s := if s.bit (macLinkUp n) then s.fdbPortDown n else s
  let s := (s.put (macLink n |> fun k => ⟨k, 0, 8⟩) 0)
  let drop (l : List MdioOp) : List MdioOp := l.filter fun o => !(o.port == n && o.probe)
  let s := { s with mdio := (s.mdio.wr [] 0 (drop (s.mdio.rd [] 0))).wr [] 1 (drop (s.mdio.rd [] 1)) }
  let s := if (s.portOf n).localFault then s.emit (.linkFault n false) else s
  let s := { s with swc := { s.swc with ingress := s.swc.ingress.map fun (i : Ingress) =>
    if i.src = n ∧ i.ended.isNone then { i with ended := some (false, 0) } else i } }
  let p := s.portOf n
  let s := s.setLane n { s.laneOf n with entered := false }
  let s := s.setPort n { txts := p.txts, latch := p.latch, trims := p.trims, stampRx := p.stampRx, stampTx := p.stampTx }
  match p.tx with
  | some t => s.release t.desc
  | none => s

/-- The lane's calibration is done (R108). An adapted equaliser setting is a value the spec leaves open. -/
def State.lanePoint (s : State) (n : Nat) : State :=
  let s := s.putb (laneStatusCalDone n) true
  if s.bit (laneRxeqAdapt n) then
    let (w, s) := s.draw 4
    s.put (laneStatusCtleAdapted n) w.toNat
  else s

/-- The lane stops: its link goes down (R144). -/
def State.laneClear (s : State) (n : Nat) : State := ((s.linkDown n).signalLost n).setReg (laneStatus n) 0

end Sys2Proof.Machine
end

