-- ==== Sys2Proof/Machine/Streams.lean ====
section
/-! DEFINITION. Stream ports, their bindings, injections, and the frames of through-lanes (R269-R281, R294, R356-R362). -/
namespace Sys2Proof.Machine

/-! ## Bindings (R269) -/

def kindNone : Nat := 0
def kindQueue : Nat := 1
def kindEyelet : Nat := 2
def kindLane : Nat := 3

/-- KIND and ARG of a receive and of a transmit stream port of role n. -/
def State.rxBindOf (s : State) (n p : Nat) : Nat × Nat :=
  if p = 0 then (s.get (fabBindRx0Kind n), s.get (fabBindRx0Arg n)) else (s.get (fabBindRx1Kind n), s.get (fabBindRx1Arg n))
def State.txBindOf (s : State) (n p : Nat) : Nat × Nat :=
  if p = 0 then (s.get (fabBindTx0Kind n), s.get (fabBindTx0Arg n)) else (s.get (fabBindTx1Kind n), s.get (fabBindTx1Arg n))

/-- The engine's role has moved to a spare: the engine itself has no bindings (R296, R298). -/
def State.bindMoved (s : State) (m : Nat) : Bool := s.get (peServeServes m) == 31 && s.get (peServeServedBy m) != 31

/-- The bindings an engine works on are those of its role (R296). -/
def State.rxBind (s : State) (m p : Nat) : Nat × Nat := if s.bindMoved m then (0, 0) else s.rxBindOf (s.roleOf m) p
def State.txBind (s : State) (m p : Nat) : Nat × Nat := if s.bindMoved m then (0, 0) else s.txBindOf (s.roleOf m) p

/-- Stream pair p of engine m. -/
def State.strm (s : State) (m p : Nat) : Stream := if p = 0 then (s.peOf m).s0 else (s.peOf m).s1
def State.setStrm (s : State) (m p : Nat) (x : Stream) : State :=
  s.setPe m (if p = 0 then { s.peOf m with s0 := x } else { s.peOf m with s1 := x })

/-- Engine and pair that a lane's frames enter. -/
def State.laneAt (s : State) (k : Nat) : Nat × Nat := (s.serverOf (s.get (fabLaneCfgEngine k)), s.get (fabLaneCfgStream k))

/-! ## Output of a lane frame (R277-R280) -/

/-- The frame of lane k being stored, if any. -/
def State.laneNow (s : State) (k : Nat) : Option LaneOut := (s.laneOf k).out.getLast?

/-- Output bytes of the frame being stored. -/
def State.laneOutLen (s : State) (k : Nat) : Nat := match s.laneNow k with | some o => o.bytes.length | none => 0

/-- The frame being stored changes. -/
def State.laneLast (s : State) (k : Nat) (f : LaneOut → LaneOut) : State :=
  match s.laneNow k with
  | some o => s.setLane k { s.laneOf k with out := (s.laneOf k).out.dropLast ++ [f o] }
  | none => s

/-- A frame's output opens: as it becomes the engine's current frame, or as it passes under bypass (`raw`). A head staged for
the egress port is discarded, for the port is busy (R32). -/
def State.laneOpen (s : State) (k : Nat) (raw : Bool) : State :=
  let n := s.get (fabLaneCfgDst k)
  let s := s.setPort n { s.portOf n with staged := none }
  s.setLane k { s.laneOf k with out := (s.laneOf k).out ++ [{ bytes := [], raw := raw }] }

/-- Bytes enter the hold buffer, which stores none of a frame that has filled it to 12,224 bytes; the first byte of a frame has
its place in the 64 bytes above them (R278). -/
def State.laneStore (s : State) (k : Nat) (l : List Byte) : State :=
  let left := 12224 - s.laneOcc k
  s.laneLast k fun o =>
    let room := if o.bytes = [] then max left 1 else left
    if o.full || o.fin then o else { o with bytes := o.bytes ++ l.take room, full := decide (room ≤ l.length) }

/-- The frame being stored has filled the hold buffer: HOLD_BUFFER_CUT ends it. -/
def State.laneFull (s : State) (k : Nat) : Bool := match s.laneNow k with | some o => o.full && !o.fin | none => false

/-- Bytes are given to the output of the current frame. -/
def State.laneGive (s : State) (m p k : Nat) (l : List Byte) : State :=
  if (s.strm m p).outDone || (s.strm m p).frames == [] then s else s.laneStore k l

/-- The output of the current frame ends, stomped or not, after `len` of its bytes. -/
def State.laneFin (s : State) (m p k : Nat) (stomp late : Bool) (len : Nat) : State :=
  let s := s.setStrm m p { s.strm m p with outDone := true, stomped := (s.strm m p).stomped || stomp }
  s.laneLast k fun o =>
    { o with bytes := o.bytes.take len, sent := min o.sent len, fin := true, stomp := o.stomp || stomp, late := late }

/-- Smallest HOLD of a lane for frames without a declared end (Table 8-4). -/
def minHold (rate : Nat) : Nat :=
  if rate = 10000 then 2405 else if rate = 100000 then 245 else if rate = 1000000 then 29 else 16

/-- HOLD covers the received FCS: the end status comes before a byte of it could leave as data (R279). -/
def State.holdCovers (s : State) (k : Nat) : Bool := decide (minHold (s.portRate k) ≤ s.holdOf k)

/-- Output bytes at the received data end of a frame of `len` bytes: its length less 4 with the net insertion (R279, R357). -/
def Stream.dataEnd (st : Stream) (len : Nat) : Nat := (((len - 4 : Nat) : Int) + st.given + st.insd - st.taken).toNat

/-- The current frame's output ends at the received data end, which its output has reached. A received FCS byte that has left
already is END_LATE: the frame ends at the received end (R279, R280). -/
def State.laneAtEnd (s : State) (m p k : Nat) (bad late : Bool) (len : Nat) : State :=
  let st := s.strm m p
  let want := st.dataEnd len
  let sent := match s.laneNow k with | some o => o.sent | none => 0
  if want < sent then
    let s := s.laneFin m p k true late (s.laneOutLen k)
    if bad then s else s.count (fabLaneEndErr k)
  else s.laneFin m p k (st.stomped || bad) late want

/-- Nothing more is given to the current frame's output: its end mark is reached, or only deletions stand before it (R360). -/
def Stream.outOver (st : Stream) : Bool :=
  st.outEnd || (st.skips.all (·.deleting) && st.skips.any (·.endMark))

/-- The frame's output ends once its data end and its end status are known (R279, R280). `late` says that the end status came
after the declared end had been reached, `final` that the TX MAC has come to the first byte not given: an undeclared frame
ends there if its data end is reached. A frame received bad is not also an END_ERR. DESIGN CHOICE, assumption row 166. -/
def State.laneFinish (s : State) (m p k : Nat) (late final : Bool) : State :=
  let st := s.strm m p
  match st.frames with
  | [] => s
  | f :: _ =>
    match f.ended with
    | none => s
    | some bad =>
      let len := f.bytes.length
      if st.outDone || s.laneFull k then s
      else if st.declared then
        if !st.outEnd then s
        else
          match st.endAt with
          | some e =>
            let off := decide (e ≠ len - 4)
            let s := s.laneFin m p k (st.stomped || bad || off) late (s.laneOutLen k)
            if off && !bad then s.count (fabLaneEndErr k) else s
          | none => s.laneAtEnd m p k bad late len
      else if final && decide (st.dataEnd len ≤ s.laneOutLen k) then s.laneAtEnd m p k bad false len
      else s

/-! ## Received frames of a pair -/

/-- Engine queue a pair reads: j names one of the two of its role (Table 5-2). -/
def State.rxQueue (s : State) (m p : Nat) : Option Nat :=
  let (kind, j) := s.rxBind m p
  if kind = kindQueue ∧ j < 2 then some (192 + 2 * s.roleOf m + j) else none

/-- What an engine reads of a queued frame: header and bytes; the reads of its cells count their errors (R182). -/
def State.deliverFrame (s : State) (d : Desc) : RxFrame × State :=
  let (l, bad, s) := s.loadFrame d.cells d.length
  (⟨d.header bad ++ l, some bad, false, none, some d.fid⟩, s)

/-- The frame at a pair's read position, read or still in its queue. -/
def State.rxFrame (s : State) (m p : Nat) : Option RxFrame :=
  match (s.strm m p).frames with
  | f :: _ => some f
  | [] =>
    match s.rxQueue m p with
    | some q => match s.queueOf q with | d :: _ => some (s.deliverFrame d).1 | [] => none
    | none => none

/-- The pair begins to read the frame at the head of its queue, which keeps it until it has been read: no binding and no stop
loses it (R23, R299). DEDUCED, assumption row 167. -/
def State.rxOpen (s : State) (m p : Nat) : State :=
  if (s.strm m p).frames != [] then s
  else
    match s.rxQueue m p with
    | none => s
    | some q =>
      match s.queueOf q with
      | [] => s
      | d :: _ =>
        let (f, s) := s.deliverFrame d
        let s := s.setPe m { s.peOf m with staged := none }
        s.setStrm m p { s.strm m p with frames := [f] }

/-- The frame a pair reads leaves its engine queue. -/
def State.rxClose (s : State) (m p : Nat) : State :=
  match (s.strm m p).frames, s.rxQueue m p with
  | f :: _, some q =>
    match s.queueOf q with
    | d :: _ => if f.fid = some d.fid then ((s.dequeue q).release d).barrierCheck else s
    | [] => s
  | _, _ => s

/-! ## Skips and deletions (R276, R359) -/

/-- Data end at which a skip stops, with what has been received: the declared data end, else the received one of a lane or a
queue frame's last byte. An end mark makes its own end the data end. A lane keeps back the last four bytes received, which
may be the FCS, where HOLD covers them (R279). -/
def skipEnd (lane covers : Bool) (f : RxFrame) (endAt : Option Nat) (sk : Skip) : Nat :=
  let len := f.bytes.length
  if !lane || (sk.endMark && sk.count.isSome) then len
  else
    match endAt with
    | some e => min e len
    | none => if f.ended.isSome || covers then len - 4 else len

/-- Position at which the skip in progress stops: its count, and before it the data end. -/
def skipLim (lane covers : Bool) (f : RxFrame) (endAt : Option Nat) (hw : Nat) (sk : Skip) : Nat :=
  let fin := max (skipEnd lane covers f endAt sk) hw
  match sk.count with
  | some n => min (hw + (n - sk.passed)) fin
  | none => fin

/-- The switch core takes words of an injection: it is ON, or stops and the injection has begun (R183). Otherwise the transmit
stream port holds them (R24). -/
def State.injTakes (s : State) (m p : Nat) : Bool :=
  s.on pgSwc || (s.st pgSwc == stStopping && (s.strm m p).inj != [])

/-- A skip waits for the switch core: one that gives bytes to an injection. -/
def State.skipHeld (s : State) (m p : Nat) (lane : Bool) (sk : Skip) : Bool :=
  !lane && !sk.deleting && !sk.kill && !s.injTakes m p

/-- The skip in progress of a pair passes, or deletes, the bytes that have arrived (R276). -/
def State.skipRun (s : State) (m p : Nat) : State :=
  let st := s.strm m p
  match st.skips, st.frames with
  | sk :: t, f :: _ =>
    let (kind, k) := s.rxBind m p
    let lane := kind == kindLane
    let lim := skipLim lane (s.holdCovers k) f st.endAt st.hw sk
    let n := lim - st.hw
    if n = 0 || s.skipHeld m p lane sk then s
    else
      let l := (f.bytes.drop st.hw).take n
      let s := s.setStrm m p { st with
        skips := { sk with passed := sk.passed + n } :: t, hw := lim, taken := st.taken + n,
        given := if sk.deleting then st.given else st.given + n,
        inj := if sk.deleting || lane then st.inj else st.inj ++ l }
      if sk.deleting || !lane then s else s.laneGive m p k l
  | _, _ => s

/-! ## Injections (R270) -/

/-- An injection of engine m ends at its end mark: taken, or counted in INJ_BAD (R154, R270). -/
def State.injEnd (s : State) (m p : Nat) : State :=
  let st := s.strm m p
  let n := s.roleOf m
  let s := s.setStrm m p { st with inj := [] }
  let h := (List.range 4).map fun w => leWord st.inj w
  let l := st.inj.drop 16
  if 16 ≤ st.inj.length ∧ injLengthOk h l then
    let i : Ingress := ⟨24 + n, h, l, none, some (true, s.nowStamp)⟩
    { s with swc := { s.swc with ingress := s.swc.ingress ++ [i] } }
  else (s.count (fabInjBad n)).irq' (pgPe m) 3

/-- The skip in progress has reached its end for good: its whole count, short of what may be the received FCS, or the data end
of a frame that has ended. -/
def skipOver (lane : Bool) (f : RxFrame) (endAt : Option Nat) (hw : Nat) (sk : Skip) : Bool :=
  let open' := lane && endAt.isNone && !(sk.endMark && sk.count.isSome)
  f.ended.isSome || (decide (sk.count = some sk.passed) && decide (hw + (if open' then 4 else 0) ≤ f.bytes.length))
    || (match endAt with | some e => lane && decide (e ≤ hw) | none => false)

/-- Bytes that a skip gave to a lane's output and that prove to be received FCS bytes are taken out of it again, where none of
them has left; where one has, the frame ends at the received end as END_LATE (R279, R280, R357). A full hold buffer's cut stands.
DEDUCED, assumption row 200. -/
def State.laneTakeBack (s : State) (m p k excess : Nat) (bad : Bool) : State :=
  match s.laneNow k with
  | none => s
  | some o =>
    if (s.strm m p).outDone || o.full || excess = 0 then s
    else if o.sent + excess ≤ o.bytes.length then
      s.laneLast k fun o => { o with bytes := o.bytes.take (o.bytes.length - excess) }
    else
      let s := s.laneFin m p k true false o.bytes.length
      if bad then s else s.count (fabLaneEndErr k)

/-- A skip or deletion reaches its count or the data end (R359, R360); the next one starts where the program issued it, or
where the data end stopped this one. Bytes it passed beyond the received data end are received FCS bytes: they do not count as
passed. -/
def State.skipDone (s : State) (m p : Nat) : State :=
  let s := s.skipRun m p
  let st := s.strm m p
  match st.skips, st.frames with
  | sk :: t, f :: _ =>
    let (kind, k) := s.rxBind m p
    let lane := kind == kindLane
    if !skipOver lane f st.endAt st.hw sk || s.skipHeld m p lane sk then s
    else
      let lim := skipEnd lane true f st.endAt sk
      let excess := if f.ended.isSome then min sk.passed (st.hw - lim) else 0
      let hw := st.hw - excess
      let whole := decide (sk.count = some sk.passed) && excess == 0
      let given := if sk.deleting then st.given else st.given - excess
      let t := if whole then t else t.map fun x => { x with start := hw }
      let next := match t with | x :: _ => x.start | [] => hw
      let pos := if whole then st.pos else hw + (t.map fun x => x.count.getD 0).sum
      let s := if lane && !sk.deleting then s.laneTakeBack m p k excess (f.ended == some true) else s
      let st := { s.strm m p with skips := t, hw := next, pos := pos, taken := st.taken - excess, given := given }
      let s :=
        if !sk.endMark then s.setStrm m p st
        else if lane then
          (s.setStrm m p { st with outEnd := true, endAt := if sk.count.isSome then some hw else none }).laneFinish m p k false false
        else if sk.kill then s.setStrm m p { st with inj := [] }
        else (s.setStrm m p st).injEnd m p
      s.skipRun m p
  | _, _ => s

/-- Meaning of SKIP_COMPLETE. -/
def execSkipComplete (e : EngIx) (pair : Fin 2) (s : State) : Out := .next ((s.rxOpen e.val pair.val).skipDone e.val pair.val)

/-! ## Frames of a lane (R272-R274, R278, R281, R294) -/

/-- The pair's last frame, while it is arriving, changes. -/
def growLast (f : RxFrame → RxFrame) (l : List RxFrame) : List RxFrame :=
  match l.getLast? with
  | some x => if x.ended.isNone then l.dropLast ++ [f x] else l
  | none => l

/-- Bytes that the TX MAC may take of a lane's foremost frame: those given, short of what may be the received FCS while an
undeclared frame is arriving and HOLD covers it (R279). -/
def State.laneLimit (s : State) (k : Nat) (o : LaneOut) : Nat :=
  let (m, p) := s.laneAt k
  let st := s.strm m p
  if o.fin || o.raw || (s.laneOf k).out.length != 1 then o.bytes.length
  else
    match st.frames with
    | f :: _ =>
      if f.ended.isNone && !st.declared && s.holdCovers k then min (st.dataEnd f.bytes.length) o.bytes.length else o.bytes.length
    | [] => o.bytes.length

/-- The TX MAC of a lane's egress takes up to `bt` bytes of its foremost frame from the hold buffer (R278).
DESIGN CHOICE, assumption row 168. -/
def State.laneMove (s : State) (k bt : Nat) : State :=
  match (s.laneOf k).out with
  | [] => s
  | o :: t =>
    if s.laneSends (s.get (fabLaneCfgDst k)) o then
      s.setLane k { s.laneOf k with out := { o with sent := max o.sent (min (o.sent + bt) (s.laneLimit k o)) } :: t }
    else s

/-- The foremost frame of a lane leaves its egress port, if its end is known by now (R122, R279). -/
def State.laneLeave (s : State) (k n : Nat) (x : Strobe) : State :=
  let (m, p) := s.laneAt k
  let s := if (s.laneOf k).out.length = 1 then s.laneFinish m p k false true else s
  match (s.laneOf k).out with
  | o :: t =>
    if o.fin && s.laneSends n o then
      ((s.setLane k { s.laneOf k with out := t }).stamped n true (s.stampOut n x)).laneEmit n o
    else s
  | [] => s

/-- The lane whose egress is port n, with output waiting. -/
def State.laneInto (s : State) (n : Nat) : Option Nat :=
  (List.range 24).find? fun k => s.get (fabLaneCfgDst k) == n && (s.laneOf k).out != []

/-- Meaning of TX_FRAME_END: the queue frame in transmission ends, `byteTimes` byte times after it was chosen; with none, the
lane frame, during which queues gain credit as they wait (R126, R278). -/
def execTxFrameEnd (n : PortIx) (byteTimes : Nat) (waited : List Nat) (x : Strobe) (s : State) : Out :=
  .next <|
    match (s.portOf n.val).tx with
    | some t => (s.creditRun n.val byteTimes waited (some (t.queue, t.desc.wireLen n.val + 20))).txEnd n.val t x
    | none =>
      match s.laneInto n.val with
      | some k => (s.creditRun n.val byteTimes waited none).laneLeave k n.val x
      | none => s

/-- Bytes arriving at a lane: the RX MAC ends a frame at byte MAXLEN + 1 (R117, R120). -/
def RxFrame.grow (f : RxFrame) (maxLen : Nat) (l : List Byte) : RxFrame := { f with bytes := (f.bytes ++ l).take (maxLen + 1) }

/-- Meaning of LANE_FRAME: bytes of a frame arrive on Pk, its first ones with their strobe. A frame that has entered the lane is
received to its end also while a MAC of the lane stops (R144). -/
def execLaneFrame (k : PortIx) (starts : Option Strobe) (rx : LaneRx) (s : State) : Out :=
  .next <|
    let k := k.val
    let s := s.laneMove k rx.byteTimes
    let ln := s.laneOf k
    let (m, p) := s.laneAt k
    let ph := if starts.isSome then 0 else ln.line
    let bytes := firstCopies (s.copies k) rx.bytes ph
    let goesOn := if starts.isSome then s.laneTakes k else s.macReceives k
    if !goesOn || starts.isSome == ln.arriving then s
    else
      let ln := { ln with line := ph + rx.bytes.length, entered := true }
      let s := s.setLane k ln
      match starts with
      | some x =>
        let t := s.stampIn k x
        let s := (s.count (fabLaneFrames k)).stamped k false t
        let byp := s.laneBypassed k
        let s := s.setLane k { ln with arriving := true, bypass := byp }
        if byp then
          if s.bit (fabLaneCfgBypass k) then s else (s.laneOpen k true).laneStore k bytes
        else
          let st := s.strm m p
          let s := if st.frames = [] then s.laneOpen k false else s
          let f : RxFrame := (⟨[], none, false, some t, none⟩ : RxFrame).grow (s.maxLen k) bytes
          (s.setStrm m p { st with frames := st.frames ++ [f] }).skipRun m p
      | none =>
        if ln.bypass then (if s.bit (fabLaneCfgBypass k) then s else s.laneStore k bytes)
        else
          let st := s.strm m p
          (s.setStrm m p { st with frames := growLast (fun f => f.grow (s.maxLen k) bytes) st.frames }).skipRun m p

/-- Meaning of LANE_END_STATUS (R120, R279, R294): the frame has ended, with the error code-groups inside it and perhaps by
loss of link; it is bad by its length, its FCS and those (first row of Table 8-5). -/
def execLaneEndStatus (k : PortIx) (x : LaneEnd) (s : State) : Out :=
  .next <|
    let k := k.val
    let s := s.laneMove k x.byteTimes
    let ln := s.laneOf k
    let (m, p) := s.laneAt k
    if !ln.arriving then s
    else
      let s := s.setLane k { ln with arriving := false, bypass := false }
      if ln.bypass then
        if s.bit (fabLaneCfgBypass k) then s.count (fabLaneBypDisc k)
        else
          let s := if s.laneFull k then s else s.laneLast k fun o => { o with fin := true }
          s.count (fabLaneBypFwd k)
      else
        let st := s.strm m p
        let bad (f : RxFrame) : Bool := s.rxClass k f.bytes x.codeErrs x.linkLost != 0
        let s' := s.setStrm m p { st with frames := growLast (fun f => { f with ended := some (bad f) }) st.frames }
        if st.frames.length ≤ 1 then (s'.skipRun m p).laneFinish m p k st.outOver false else s'

/-- Meaning of LANE_UNDERRUN (R274, R280): the TX MAC comes to a byte that is not given. It is one of the current frame, or of
the next if the current one's output has ended; at the data end of an undeclared frame the frame ends (R279). -/
def execLaneUnderrun (k : PortIx) (s : State) : Out :=
  .next <|
    let k := k.val
    let (m, p) := s.laneAt k
    let s := s.laneFinish m p k false true
    let st := s.strm m p
    let d := s.get (fabLaneCfgDst k)
    match st.frames with
    | [] => s
    | f :: t =>
      if s.laneFull k then s
      else if !st.outDone then
        if st.outOver then s else (s.laneFin m p k true false (s.laneOutLen k)).cnt d 40
      else
        match t.findIdx? (fun g => !g.lost) with
        | none => s
        | some i =>
          let fs := f :: setAt t i { t.getD i ⟨[], none, false, none, none⟩ with lost := true }
          let s := s.setStrm m p { st with frames := fs }
          let s := s.setLane k { s.laneOf k with out := (s.laneOf k).out ++ [{ bytes := [], fin := true, stomp := true }] }
          s.cnt d 40

/-- The lane frame being stored is cut: one of the engine, or one passing under bypass. It ends after its stored bytes, or with
`atNext` at the next byte that the TX MAC takes (R278, R280). -/
def State.laneCut (s : State) (k : Nat) (atNext : Bool := false) : State :=
  let (m, p) := s.laneAt k
  match s.laneNow k with
  | none => s
  | some o =>
    if o.fin then s
    else
      let len := if atNext then o.sent else o.bytes.length
      let s := if o.raw then s.laneLast k fun o => { o with bytes := o.bytes.take len, fin := true, stomp := true, raw := false }
        else s.laneFin m p k true false len
      s.count (fabLaneCut k)

/-- An uncorrectable error in the hold buffer lies in the frame that the TX MAC takes bytes of: it ends at the next byte, be it
stored whole already (R280). DEDUCED, assumption row 201. -/
def State.laneStrike (s : State) (k : Nat) : State :=
  match (s.laneOf k).out with
  | [] => s
  | o :: t =>
    if t = [] && !o.fin then s.laneCut k true
    else
      let o := { o with bytes := o.bytes.take o.sent, fin := true, stomp := true, raw := false, late := false }
      (s.setLane k { s.laneOf k with out := o :: t }).count (fabLaneCut k)

/-- Meaning of HOLD_BUFFER_CUT (R278, R280): the hold buffer is full, or the window or hold buffer holds an uncorrectable
error. -/
def execHoldBufferCut (c : HoldCut) (s : State) : Out :=
  .next <|
    let k := c.lane.val
    match c.cause with
    | .full => if s.laneFull k then s.laneCut k else s
    | .window => s.laneCut k true
    | .buffer => s.laneStrike k

/-! ## Moves of a pair -/

/-- The receive side of a pair moves to its next frame (R361). -/
def State.rxNext (s : State) (m p : Nat) : State :=
  let s := s.rxClose m p
  let st := s.strm m p
  let s := s.setStrm m p { frames := st.frames.tail, inj := st.inj }
  let (kind, k) := s.rxBind m p
  if kind = kindLane then
    match st.frames.tail with
    | [] => s
    | f :: _ =>
      if f.lost then s.setStrm m p { s.strm m p with outDone := true, stomped := true }
      else s.laneOpen k false
  else s

/-- The frames in a lane at an engine's pair are stomped where they stand (R294). Those behind the current one leave with no
byte of theirs. DESIGN CHOICE, assumption row 169. -/
def State.laneDrop (s : State) (m p k : Nat) : State :=
  let st := s.strm m p
  match st.frames with
  | [] => s
  | _ :: t =>
    let s := if st.outDone then s else if s.laneFull k then s.laneCut k else s.laneFin m p k true false (s.laneOutLen k)
    let rest := (t.filter fun (g : RxFrame) => !g.lost).map fun _ => ({ bytes := [], fin := true, stomp := true } : LaneOut)
    s.setLane k { s.laneOf k with out := (s.laneOf k).out ++ rest }

/-- The stream contents of an engine are abandoned: its lane frames are stomped, the frame being read from a queue is lost, an
injection without its end mark is dropped (R294, R295, R299). -/
def State.dropStreams (s : State) (m : Nat) : State :=
  forEach [0, 1] (fun s p =>
    let (kind, k) := s.rxBind m p
    let s := if kind = kindLane then s.laneDrop m p k
      else if kind = kindQueue ∧ (s.strm m p).frames ≠ [] then (s.rxClose m p).count fabTkoLost
      else s
    s.setStrm m p {}) s

end Sys2Proof.Machine
end

