-- ==== Sys2Proof/Machine/Operands.lean ====
section
/-! DEFINITION. Awl operands: the register file and its window, results in flight, special registers, addresses and local
data (R304-R319, R330, R338, R343). -/
namespace Sys2Proof.Machine

/-! ## Register fields (Table 9-1) -/

/-- Physical register of a field value: K0-K7 at 0-7, W0-W255 at 8-263. -/
def physReg (wbase : BitVec 4) (f : BitVec 5) : Nat :=
  let i := f.toNat % 8
  if f.toNat < 8 then i
  else if f.toNat < 16 then 8 + 16 * ((wbase.toNat + 15) % 16) + 8 + i
  else if f.toNat < 24 then 8 + 16 * wbase.toNat + i
  else 8 + 16 * wbase.toNat + 8 + i

/-- Physical register of a field of engine e. -/
def State.physOf (s : State) (e : Nat) (f : BitVec 5) : Nat := physReg (s.peOf e).wbase f

/-- A hazard makes its register's value undefined for a reader (R306, R312, R313). -/
def Hazard.live (h : Hazard) : Bool := decide (0 < h.left) || h.tag.isSome

/-- A result for a register is in flight. -/
def Pe.inFlight (pe : Pe) (r : Nat) : Bool := pe.hazards.any fun h => h.reg == r && h.live

/-- Reads a physical register: K0 is 0; a register inside a hazard gives a free value (R304, R312, R313).
DEDUCED, assumption row 68. -/
def State.readPhys (s : State) (e r : Nat) : Word × State :=
  if r = 0 then (0, s)
  else if (s.peOf e).inFlight r then s.draw 1
  else ((s.peOf e).regs.rd 0 r, s)

/-- Reads the register of a field. -/
def State.readF (s : State) (e : Nat) (f : BitVec 5) : Word × State := s.readPhys e (s.physOf e f)

/-- Writes a physical register with a result that lands at distance `dist` (Table 9-3). A second write in flight makes the
register undefined: it then holds a free value (R306). -/
def State.writePhys (s : State) (e r : Nat) (v : Word) (dist : Nat) : State :=
  if r = 0 then s
  else
    let pe := s.peOf e
    let clash := pe.inFlight r
    let (v, s) := if clash then s.draw 1 else (v, s)
    let hs := if clash then pe.hazards.map fun h => if h.reg = r then { h with clash := true } else h else pe.hazards
    let hs := if 1 < dist then ⟨r, dist, none, clash⟩ :: hs else hs
    s.setPe e { pe with regs := pe.regs.wr 0 r v, hazards := hs, justW := r :: pe.justW }

/-- Writes the register of a field. -/
def State.writeF (s : State) (e : Nat) (f : BitVec 5) (v : Word) (dist : Nat) : State := s.writePhys e (s.physOf e f) v dist

/-- The second register of a pair (R338). -/
def pair1 (f : BitVec 5) : BitVec 5 := f + 1

/-- Register fields a pair, a quad may name (R338). -/
def pairOk (f : BitVec 5) : Bool := f.toNat % 2 == 0
def quadOk (f : BitVec 5) : Bool := f.toNat % 4 == 0

/-- A far load is in flight to registers: they stay unreadable until its flag is set (R305, R313). -/
def State.farPend (s : State) (e : Nat) (rs : List Nat) (tag : Nat) : State :=
  forEach (rs.filter (· != 0)) (fun s r =>
    let pe := s.peOf e
    let clash := pe.inFlight r
    let hs := if clash then pe.hazards.map fun h => if h.reg = r then { h with clash := true } else h else pe.hazards
    s.setPe e { pe with hazards := ⟨r, 0, some tag, clash⟩ :: hs }) s

/-- A far result lands in a register (R320). -/
def State.farLand (s : State) (e r tag : Nat) (v : Word) : State :=
  if r = 0 then s
  else
    let pe := s.peOf e
    let mine (h : Hazard) : Bool := h.reg == r && h.tag == some tag
    let clash := pe.hazards.any fun h => mine h && h.clash
    let (v, s) := if clash then s.draw 1 else (v, s)
    let pe := { pe with hazards := pe.hazards.filter fun h => !mine h }
    s.setPe e { pe with regs := pe.regs.wr 0 r v }

/-- `d` E cycles pass between two issues (R303): what the issue before wrote is closer than distance 2 only for
d = 1, and no instruction waits any more. -/
def State.ageE (s : State) (e d : Nat) : State :=
  let pe := s.peOf e
  s.setPe e { pe with
    hazards := (pe.hazards.map fun h => { h with left := h.left - d }).filter Hazard.live
    justW := [], prevW := if d < 2 then pe.justW else []
    spHaz := none, spPrev := if d < 2 then pe.spHaz else none
    waiting := none
    cycle := pe.cycle + BitVec.ofNat 32 d
    wdog := pe.wdog + d }

/-! ## Special registers (Table 9-6) -/

/-- FFLAG as it reads (R321). -/
def Pe.fflagWord (pe : Pe) : Nat :=
  pe.fflag.toNat + (if pe.stq = [] then 0x100 else 0) + (if pe.stq.length < 16 then 0x200 else 0)

/-- {IBANK, PC} as the return stack and EPC hold it. -/
def ibPc (ib : BitVec 3) (pc : BitVec 13) : Half := BitVec.ofNat 16 (ib.toNat * 0x2000 + pc.toNat)

/-- Special register n as it stands. -/
def State.special (s : State) (e n : Nat) : Word :=
  let pe := s.peOf e
  BitVec.ofNat 32 <|
    match n with
    | 0 => pe.rsopt.toNat + 2 * pe.farTrap.toNat
    | 1 => pe.dbank.toNat
    | 2 => pe.fbank.toNat
    | 3 => pe.ibank.toNat
    | 4 => pe.rpage.toNat
    | 5 => pe.wbase.toNat + pe.depth * 0x10 + pe.loops.length * 0x1000
    | 6 => pe.fflagWord
    | 7 => pe.ferrTag.toNat + (if pe.storeErr then 0x100 else 0) + pe.ferrCause.toNat * 0x10000
    | 8 => pe.ferrAddr.toNat
    | 9 => pe.tvec.toNat
    | 10 => pe.eclass.toNat + (if pe.tactive then 0x100 else 0)
    | 11 => pe.epc.toNat
    | 12 => pe.resumed.toNat + e * 0x100 + s.roleOf e * 0x10000
    | 13 => match pe.loops with | l :: _ => l.count | [] => 0
    | 14 => pe.cycle.toNat
    | _ => 0

/-- Special register n as an instruction at less than its distance from a write uses it: the old value or the new one
(Table 9-3). -/
def State.useSpecial (s : State) (e n : Nat) : Word × State :=
  match (s.peOf e).spPrev with
  | some (k, old) =>
    if k = n then
      let (w, s) := s.draw 2
      (if w.getLsbD 0 then old else s.special e n, s)
    else (s.special e n, s)
  | none => (s.special e n, s)

/-- Special register n is written: RO fields and reserved numbers discard the write (R330).
DEDUCED, assumption row 79. -/
def State.setSpecial (s : State) (e n : Nat) (w : Word) : State :=
  let pe := s.peOf e
  let v := w.toNat
  let old := s.special e n
  let haz := some (n, old)
  match n with
  | 0 => s.setPe e { pe with rsopt := bitN v 0, farTrap := bitN v 1, spHaz := haz }
  | 1 => s.setPe e { pe with dbank := BitVec.ofNat 4 v, spHaz := haz }
  | 2 => s.setPe e { pe with fbank := BitVec.ofNat 16 v, spHaz := haz }
  | 3 => s.setPe e { pe with ibank := BitVec.ofNat 3 v, spHaz := haz }
  | 4 => s.setPe e { pe with rpage := BitVec.ofNat 12 v, spHaz := haz }
  | 7 => s.setPe e { pe with
      ferrTag := pe.ferrTag &&& ~~~(BitVec.ofNat 8 v), storeErr := pe.storeErr && !bitN v 8, spHaz := haz }
  | 9 => s.setPe e { pe with tvec := BitVec.ofNat 13 v, spHaz := haz }
  | 12 => s.setPe e { pe with resumed := pe.resumed && !bitN v 0, spHaz := haz }
  | _ => s

/-! ## Local data (R314, R343) -/

/-- Device address of local address `la` of engine e. -/
def lmAddr (e la : Nat) : Nat := engBase e + 0x10000 + la % 0x10000

/-- Sign extension of the low `n` bits to 32 bits. -/
def sextW (n v : Nat) : Word := BitVec.ofInt 32 (signedN n v)

/-- LA of the register form: bits [15:0] of base plus signed offset. -/
def laOf (base : Word) (imm : Half) : Nat := (base + sextW 16 imm.toNat).toNat % 0x10000

/-- LA of the direct form: DBANK × 4,096 + A. -/
def laDirect (dbank : Word) (a : Nat) : Nat := (dbank.toNat % 16) * 4096 + a % 4096

/-- Little-endian number of `n` local bytes. -/
def State.lmRead (s : State) (e la n : Nat) : Nat := leNat (s.bytes (lmAddr e la) n)

/-- Stores the low `n` bytes of a word in local data. -/
def State.lmWrite (s : State) (e la n : Nat) (v : Word) : State := s.setBytes (lmAddr e la) (leBytes n v.toNat)

/-! ## Far addresses (R315, R317, R345) -/

/-- Address within the 4 KB page: (base + signed 11-bit offset) mod 4,096. -/
def pageOff (base : Word) (off : BitVec 11) : Nat := (base + sextW 11 off.toNat).toNat % 4096

/-- Device address of a far access, through FBANK. -/
def farAddr (fbank : Word) (po : Nat) : Nat := (0x10000000 + (fbank.toNat % 0x10000) * 4096 + po) % 2 ^ 32

/-- Register address of a register-space access, through RPAGE. -/
def regAddr (rpage : Word) (po : Nat) : Nat := (rpage.toNat % 0x1000) * 4096 + po

end Sys2Proof.Machine
end

