-- ==== Sys2Proof/Machine/Flags.lean ====
section
/-! DEFINITION. Awl has no condition flags (R339). Its flags are the far-access flags: FFLAG with STORES_DONE and STQ_SPACE,
FERR, and the answers that set them (R320, R321, R329). -/
namespace Sys2Proof.Machine

/-- The flag of a load tag is set. -/
def Pe.tagSet (pe : Pe) (t : Nat) : Bool := pe.fflag.getLsbD t

/-- A far access takes its tag: the flag clears (R320). -/
def State.tagClear (s : State) (e t : Nat) : State :=
  s.setPe e { s.peOf e with fflag := (s.peOf e).fflag &&& ~~~(BitVec.ofNat 8 (1 <<< t)) }

/-- A far access ends: its tag's flag is set (R320). -/
def State.tagDone (s : State) (e t : Nat) : State :=
  s.setPe e { s.peOf e with fflag := (s.peOf e).fflag ||| BitVec.ofNat 8 (1 <<< t) }

/-- Every flag a WAITF mask names is 1 (R321). -/
def Pe.flagsMet (pe : Pe) (mask : BitVec 10) : Bool := (BitVec.ofNat 10 pe.fflagWord &&& mask) == mask

/-- A far access failed: FERR_CAUSE and FERR_ADDR record it, and with FAR_TRAP = 1 a FAR trap is due (R320, R321, R329). -/
def State.ferr (s : State) (e cause addr : Nat) : State :=
  let pe := s.peOf e
  s.setPe e { pe with
    ferrCause := BitVec.ofNat 3 cause, ferrAddr := BitVec.ofNat 32 addr, farPending := pe.farPending || pe.farTrap }

/-- A far load failed (R320). -/
def State.ferrLoad (s : State) (e t cause addr : Nat) : State :=
  let s := s.ferr e cause addr
  s.setPe e { s.peOf e with ferrTag := (s.peOf e).ferrTag ||| BitVec.ofNat 8 (1 <<< t) }

/-- A far store failed (R321). -/
def State.ferrStore (s : State) (e cause addr : Nat) : State :=
  let s := s.ferr e cause addr
  s.setPe e { s.peOf e with storeErr := true }

/-- The data of a far load lands in its registers, a word each, and its flag is set (R305, R320). -/
def State.farDone (s : State) (e : Nat) (x : FarLoad) (ws : List Word) : State :=
  let s := s.setPe e { s.peOf e with far := removeFirst (fun y => y.tag == x.tag) (s.peOf e).far }
  let s := forEach (x.dst.zip ws) (fun s (r, w) => s.farLand e r x.tag w) s
  s.tagDone e x.tag

end Sys2Proof.Machine
end

