-- ==== Sys2Proof/Machine/Lace.lean ====
section
/-! DEFINITION. Lace: mailboxes, epochs, the mutual-wait detector and doorbells (R489-R499). -/
namespace Sys2Proof.Machine

/-- First page of the block an end's code stands for. -/
def codePage (c : Nat) : Option Nat :=
  if 1 ≤ c ∧ c ≤ 18 then some (pgPe (c - 1)) else if c = 0x20 then some pgSwc else if c = 0x21 then some pgWcap
  else if c = 0x22 then some pgShank else if c = 0x23 then some (pgWelt 0) else if c = 0x24 then some (pgWelt 1)
  else if c = 0x30 then some pgPcie else if c = 0x31 then some pgHostb else if c = 0x3F then some pgSup else none

/-- A code of Table 2-11 as a Lace end: reserved codes act as NONE (R58). -/
def endCode (c : Nat) : Nat := if (codePage c).isSome then c else 0

/-- Code of end A (false) or end B (true) of a channel. -/
def State.laceEnd (s : State) (m : Nat) (b : Bool) : Nat :=
  endCode (if b then s.get (laceChCfgEndB m) else s.get (laceChCfgEndA m))

/-- Sending end of direction d: A for 0, B for 1 (R489). -/
def State.sender (s : State) (m d : Nat) : Nat := s.laceEnd m (d == 1)
def State.receiver (s : State) (m d : Nat) : Nat := s.laceEnd m (d == 0)

/-- Epoch of a code (R495). -/
def State.epochOf (s : State) (c : Nat) : Byte := BitVec.ofNat 8 (bitsOf (s.reg (laceEpoch (c / 4))) (8 * (c % 4)) 8)

/-- FULL of a direction. -/
def State.laceFull (s : State) (m d : Nat) : Bool := decide (8 ≤ (s.laceQ m d).length)

/-- WAIT and EPOCH_CHG bits of a direction in CH[m].STAT. -/
def laceWait (m d : Nat) : Field := if d = 0 then laceChStatWait0 m else laceChStatWait1 m
def laceEpochChg (m d : Nat) : Field := if d = 0 then laceChStatEpochChg0 m else laceChStatEpochChg1 m

/-- FORCED: either end's block is STARTING, an end is under takeover, or TESTMODE = 1 (R493). -/
def State.laceForced (s : State) (m : Nat) : Bool :=
  let forced (c : Nat) : Bool :=
    (match codePage c with | some p => s.st p == stStarting | none => false)
      || (decide (1 ≤ c ∧ c ≤ 18)
        && (s.fab.takeover.rd none (c - 1) != none || s.fab.takeover.rd none (s.serverOf (c - 1)) != none))
  forced (s.laceEnd m false) || forced (s.laceEnd m true) || s.bit laceCfgTestmode

/-- Notifies end A (false) or B (true) of a channel (R494). -/
def State.laceNote (s : State) (m : Nat) (b : Bool) : State :=
  let en := if b then laceChNoteBEn m else laceChNoteAEn m
  let db := if b then laceChNoteBDb m else laceChNoteADb m
  let bit := if b then laceChNoteBBit m else laceChNoteABit m
  if s.bit en then s.ring (s.get db) (BitVec.ofNat 32 (1 <<< s.get bit)) else s

/-- Both directions are full and both wait (R496). -/
def State.mutualNow (s : State) (m : Nat) : Bool :=
  s.laceFull m 0 && s.laceFull m 1 && s.bit (laceWait m 0) && s.bit (laceWait m 1)

/-- The mutual-wait report is open again once its condition has ended (R496). -/
def State.mutualEnd (s : State) (m : Nat) : State :=
  if s.mutualNow m then s else { s with lace := { s.lace with reported := s.lace.reported.wr false m false } }

/-- A post: whether it found the direction full, and the state after (R490). DEDUCED, assumption row 124. -/
def State.lacePost (s : State) (m d : Nat) (w : Word) (last : Bool) : Bool × State :=
  if !s.on pgLace then (true, s)
  else if s.laceFull m d then (true, s.putb (laceWait m d) true)
  else
    let s := s.setLaceQ m d (s.laceQ m d ++ [⟨w, last, s.epochOf (s.sender m d)⟩])
    let s := s.putb (laceWait m d) false
    let s := if last then s.laceNote m (d == 0) else s
    (false, s.mutualEnd m)

/-- A read of a direction: the word, the bits of rd.1 and RXINFO, and the state after (R491, R492, R495). -/
def State.laceTake (s : State) (m d : Nat) : Word × Nat × State :=
  match s.laceQ m d with
  | [] => (0, 0, s)
  | h :: t =>
    let chg := s.bit (laceEpochChg m d)
    let info := 1 + (if h.last then 2 else 0) + (if h.epoch != s.epochOf (s.sender m d) then 4 else 0)
      + (if chg then 8 else 0)
    let s := (s.setLaceQ m d t).putb (laceEpochChg m d) false
    let s := if t = [] ∧ (s.bit (laceChCfgAck m) ∨ s.laceForced m) then
      let i := 2 * m + d
      (((s.orReg (laceEmptyPend (i / 32)) (BitVec.ofNat 32 (1 <<< (i % 32)))).irq' pgLace 1)).laceNote m (d == 1)
    else s
    (h.word, info, s.mutualEnd m)

/-- The epoch of a code increments (R495). -/
def State.epochUp (s : State) (c : Nat) : State :=
  if c = 0 then s
  else
    let i := 8 * (c % 4)
    let s := s.setReg (laceEpoch (c / 4)) (withBits (s.reg (laceEpoch (c / 4))) i 8 ((s.epochOf c).toNat + 1))
    forEach (List.range 64) (fun s m =>
      forEach [0, 1] (fun s d =>
        if s.receiver m d = c ∧ s.laceQ m d ≠ [] then (s.putb (laceEpochChg m d) true).irq' pgLace 3 else s) s) s

/-- LACE starts or stops: every direction empties, and at a start the pending bits and doorbells clear (R499). -/
def State.laceEmpty (s : State) : State :=
  forEach (List.range 64) (fun s m =>
    forEach [laceWait m 0, laceWait m 1, laceEpochChg m 0, laceEpochChg m 1] (fun s f => s.putb f false) s)
    { s with lace := {} }
/-- No doorbell counts as seen set. -/
def State.dbUnseen (s : State) : State :=
  { s with irq := { s.irq with seen := s.irq.seen.filter fun (e : Nat × Bool) => e.1 < 0x1000 } }
def State.lacePoint (s : State) : State :=
  let s := s.laceEmpty
  let s := forEach (List.range 4) (fun s w => s.setReg (laceEmptyPend w) 0) s
  let s := forEach (List.range 2) (fun s w => s.setReg (laceMwPend w) 0) s
  let s := s.dbUnseen
  forEach (List.range 64) (fun s d => s.setReg (laceDb d) 0) s

/-- A write of TX or TXLAST (R490). -/
def State.laceTxWrite (s : State) (m d : Nat) (w : Word) (last : Bool) : State :=
  let (full, s') := s.lacePost m d w last
  if full && s.on pgLace then s'.err pgLace 8 else s'

/-- Meaning of TX. -/
def execTx (p : Principal) (m : ChanIx) (dir : Bool) (w : Word) (s : State) : Out :=
  .next (s.access p (laceTx m.val dir.toNat) w fun s w => s.laceTxWrite m.val dir.toNat w false)

/-- Meaning of TXLAST. -/
def execTxlast (p : Principal) (m : ChanIx) (dir : Bool) (w : Word) (s : State) : Out :=
  .next (s.access p (laceTxlast m.val dir.toNat) w fun s w => s.laceTxWrite m.val dir.toNat w true)

/-- A read of RX takes the head word and loads the reader's RXINFO latch (R491). -/
def State.laceRxRead (s : State) (p : Principal) (m d : Nat) : State :=
  let (w, info, s) := s.laceTake m d
  (s.setReg (laceRxinfo (pIdx p) m d) (BitVec.ofNat 32 info)).answer p w

/-- Meaning of RX. -/
def execRx (p : Principal) (m : ChanIx) (dir : Bool) (s : State) : Out :=
  .next (if s.reaches p then s.laceRxRead p m.val dir.toNat else s)

/-- Meaning of MUTUAL_WAIT (R496). -/
def execMutualWait (m : ChanIx) (s : State) : Out :=
  .next <|
    if s.on pgLace && s.mutualNow m.val && !s.lace.reported.rd false m.val then
      let s := { s with lace := { s.lace with reported := s.lace.reported.wr false m.val true } }
      (s.orReg (laceMwPend (m.val / 32)) (BitVec.ofNat 32 (1 <<< (m.val % 32)))).irq' pgLace 2
    else s

/-! ## Doorbells -/

/-- Target kind of a doorbell as it acts (R498). -/
def State.dbKind (s : State) (d : Nat) : Nat := if 4 < s.get (laceRouteKind d) then 0 else s.get (laceRouteKind d)

/-- Whether a principal may clear a doorbell (R497, R498). -/
def State.dbMayClear (s : State) (p : Principal) (d : Nat) : Bool :=
  let e := s.get (laceRouteEngine d)
  let k := s.dbKind d
  p == .sup || k == 0 || (k == 1 && p == .ha) || (k == 2 && p == .hb)
    || (k == 4 && (match p with
      | .pe i => decide (e < 18) && if s.get (peServeServedBy e) = 31 then i.val == e else i.val == s.get (peServeServedBy e)
      | _ => false))

/-- A write of DB[d] (R497). DEDUCED, assumption row 125. -/
def State.dbWrite (s : State) (p : Principal) (d : Nat) (w : Word) : State :=
  if s.dbMayClear p d then
    let s := s.andnReg (laceDb d) w
    if s.reg (laceDb d) = 0 then { s with irq := { s.irq with seen := s.irq.seen.wr false (0x1000 + d) false } } else s
  else s.err pgLace 9

/-- Meaning of DB_SET. -/
def execDbSet (p : Principal) (d : ChanIx) (v : Word) (s : State) : Out :=
  .next (s.access p (laceDbSet d.val) v fun s w => s.ring d.val w)

/-- Meaning of DB_CLEAR. -/
def execDbClear (p : Principal) (d : ChanIx) (v : Word) (s : State) : Out :=
  .next (s.access p (laceDb d.val) v fun s w => s.dbWrite p d.val w)

/-! ## Epochs of blocks and soft resets of pages (R51, R495) -/

/-- Code whose epoch a start of the block at a page increments, 0 for none (R495). DEDUCED, assumption row 14. -/
def epochCode (p : Nat) : Nat :=
  match blkOf p with
  | some (.pe, n, _) => n + 1
  | some (.swc, _, _) => 0x20
  | some (.wcap, _, _) => 0x21
  | some (.shank, _, _) => 0x22
  | some (.welt, n, _) => 0x23 + n
  | some (.hostb, _, _) => 0x31
  | some (.sup, _, _) => 0x3F
  | _ => 0

/-- Registers a soft reset keeps though they are not retained (R51, R564, R298, R475, R484): STATE, ERR_CAUSE and SEQ of the
header, SERVE of an engine, what self-test and scrubbing found of a bank, the loss of the supervisor and the conditions of DEGRADED.
DEDUCED, assumption rows 13, 73. -/
def softKeeps (p a : Nat) : Bool :=
  a == hdrState p || a == hdrErrCause p || a == hdrSeq p
    || (match blkOf p with
      | some (.pe, n, _) => a == peServe n
      | some (.bank, _, _) => decide (bankBankst 0 ≤ a ∧ a ≤ bankBankst 191)
      | some (.flt, _, _) => a == fltSup || a == fltDegraded
      | _ => false)

/-- A soft reset's part that every block shares, its own state already discarded (R51): the held request ends, non-retained
fields take their reset values, IRQ_RAW clears, and the page enters OFF, and STARTING if EN is 1. In OFF with EN = 0 STATE stays
as it is, and IRQ_RAW bit 0 stays clear. DESIGN CHOICE, assumption row 190. -/
def State.resetPage (s : State) (p : Nat) : State :=
  let was := s.st p
  let s := { s with chip := { s.chip with heldSrst := s.chip.heldSrst.wr false p false } }
  let s := (s.clearPage p (softKeeps p)).fell p
  let s := if was = stOff then s else s.moveTo p stOff
  if s.bit (hdrCtrlEn p) then (s.moveTo p stStarting).epochUp (epochCode p) else s

end Sys2Proof.Machine
end

