-- ==== Sys2Proof/Machine/Prot.lean ====
section
/-! DEFINITION. Two-party changes: proposals, approvals, windows, holding during a commit (R63-R71). -/
namespace Sys2Proof.Machine

def ocApplied : Nat := 1
def ocSame : Nat := 2
def ocCrc : Nat := 3
def ocExpired : Nat := 4
def ocSuperseded : Nat := 5
def ocCancelled : Nat := 6
def ocDenied : Nat := 7
def ocBusy : Nat := 8
def ocFull : Nat := 9
def ocNoProposal : Nat := 10
def ocSupLost : Nat := 11

/-- Entry j of the staging table is an open proposal, or held (R69). -/
def State.stOpen (s : State) (j : Nat) : Bool := s.bit (protStageInfoOpen j)
def State.stHeld (s : State) (j : Nat) : Bool := s.bit (protStageInfoHeld j)

/-- The open proposal at an address. -/
def State.openAt (s : State) (a : Nat) : Option Nat :=
  (List.range 16).find? fun j => s.stOpen j && s.get (protStageAddrAddr j) == a

/-- A free entry of the staging table. -/
def State.freeEntry (s : State) : Option Nat := (List.range 16).find? fun j => !s.stOpen j && !s.stHeld j

/-- An outcome enters the log and LOCK.OUTCOME of the page (R66, Table 2-9). -/
def State.protLog (s : State) (a : Nat) (v : Word) (proposer approver oc : Nat) : State :=
  let k := s.get protLogHeadNext
  let s := (s.setReg (protLogAddr k) (BitVec.ofNat 32 a)).setReg (protLogValue k) v
  let s := s.setReg (protLogInfo k) (BitVec.ofNat 32 (proposer + approver * 0x100 + oc * 0x10000))
  let s := s.setReg (protLogTime k) (BitVec.ofNat 32 s.chip.aclk)
  (s.put protLogHeadNext (k + 1)).put (hdrLockOutcome (firstPage (a / 0x1000))) oc

/-- An entry is freed. -/
def State.freeStage (s : State) (j : Nat) : State :=
  forEach [protStageAddr j, protStageValue j, protStageInfo j, protStageRemain j] (fun s k => s.setReg k 0) s

/-- An open proposal is discarded with an outcome. -/
def State.discardStage (s : State) (j approver oc : Nat) : State :=
  (s.protLog (s.get (protStageAddrAddr j)) (s.reg (protStageValue j)) (s.get (protStageInfoProposer j)) approver oc).freeStage j

/-- PROT.WINDOW in A cycles (R64, Table 2-9). -/
def State.windowCycles (s : State) : Nat := min (max (s.get protWindowMs) 1) 10000 * 25000

/-- A proposal enters an entry, its window opening (R64). -/
def State.stageIn (s : State) (j : Nat) (p : Principal) (a : Nat) (v : Word) : State :=
  let s := (s.setReg (protStageAddr j) (BitVec.ofNat 32 a)).setReg (protStageValue j) v
  let s := s.setReg (protStageInfo j) (BitVec.ofNat 32 (pCode p + 0x100))
  (s.setReg (protStageRemain j) (BitVec.ofNat 32 s.windowCycles)).put (hdrLockProposer (firstPage (a / 0x1000))) (pCode p)

/-- A refused proposal: it is the most recent one all the same (R67, Table 2-1). -/
def State.stageRefused (s : State) (p : Principal) (a : Nat) (v : Word) (oc : Nat) : State :=
  let f := firstPage (a / 0x1000)
  ((s.protLog a v (pCode p) 0 oc).put (hdrLockProposer f) (pCode p)).err f errStageRefused

/-- A write to an RWS register that has passed the ACL (R64, R67). -/
def State.proposeAt (s : State) (p : Principal) (a : Nat) (v : Word) : State :=
  match s.openAt a with
  | some j =>
    if s.get (protStageInfoProposer j) = pCode p then
      (s.protLog a (s.reg (protStageValue j)) (pCode p) 0 ocSuperseded).stageIn j p a v
    else s.stageRefused p a v ocBusy
  | none =>
    match s.freeEntry with
    | some j => s.stageIn j p a v
    | none => s.stageRefused p a v ocFull

/-- A register of Table 2-7. SUP's row of the ACL is no RWS register (R60). -/
def isRws (a : Nat) : Bool :=
  (match regRow a with | some r => r.rws != 0 | none => false) && !(decide (protAcl 2 0 ≤ a ∧ a < protAcl 3 0))

/-- A write to an RWS register (R63, R71, R534). DEDUCED, assumption row 147. -/
def State.propose (s : State) (p : Principal) (a : Nat) (v : Word) : State :=
  if s.reaches p && s.mayWrite p (a / 0x1000) && s.supLost then (s.deny p a).stageRefused p a v ocSupLost
  else s.access p a v fun s w => s.proposeAt p a w

/-- Meaning of PROPOSAL. -/
def execProposal (p : Principal) (addr : BitVec 24) (v : Word) (s : State) : Out :=
  .next (if isRws addr.toNat then s.propose p addr.toNat v else s)

/-- A write of APPROVE_ADDR (R65). -/
def State.approveAddrWrite (s : State) (p : Principal) (w : Word) : State :=
  s.put (protApproveAddrAddr (pIdx p)) (bitsOf w 2 22)

/-- Meaning of APPROVE_ADDR. -/
def execApproveAddr (p : Principal) (v : Word) (s : State) : Out :=
  .next (s.access p (protApproveAddr (pIdx p)) v fun s w => s.approveAddrWrite p w)

/-- A write of APPROVE_CRC starts an evaluation (R65). -/
def State.approveCrcWrite (s : State) (p : Principal) (w : Word) : State :=
  let a : Approval := ⟨p, BitVec.ofNat 24 (s.get (protApproveAddrAddr (pIdx p)) * 4), BitVec.ofNat 16 w.toNat⟩
  { s with prot := { s.prot with approvals := s.prot.approvals ++ [a] } }

/-- Meaning of APPROVE_CRC. -/
def execApproveCrc (p : Principal) (v : Word) (s : State) : Out :=
  .next (s.access p protApproveCrc v fun s w => s.approveCrcWrite p w)

/-- DEBUG has become 0: the forced fault pin is released, and every halt of JTAG ends (R520, R532). -/
def State.debugOff (s : State) : State :=
  let s := s.putb fltFaultnForce false
  let s := forEach (s.fab.pe.map (·.1)) (fun s n => s.setPe n { s.peOf n with jtagHalt := false, jtagSteps := 0 }) s
  let s := forEach (s.eye.map (·.1)) (fun s n => s.setEye n { s.eyeOf n with jtagHalt := false, jtagSteps := 0 }) s
  { s with sup := { s.sup with jtagHalt := false, jtagSteps := 0, mem := [] } }

/-- A revoke fuse is burned, unless no fused slot would stay unrevoked (R519). DEDUCED, assumption row 136. -/
def State.burn (s : State) (i : Nat) : State :=
  let now := Config.keyRevoked ||| s.sup.revoked
  let left := (List.range 4).any fun j => j != i && Config.keyFused.getLsbD j && !now.getLsbD j
  if now.getLsbD i then s
  else if left then { s with sup := { s.sup with revoked := s.sup.revoked ||| BitVec.ofNat 4 (1 <<< i) } }
  else s.err pgSup 9

/-- A protected register takes its approved value (R63). -/
def State.protApply (s : State) (a : Nat) (v : Word) : State :=
  if bankAllow 0 ≤ a ∧ a ≤ bankAllow 191 then s.allowSet ((a - bankAllow 0) / 4) (v &&& 0x03FFFFFB)
  else
    let m := match regRow a with | some r => r.rws | none => 0
    let s := s.setReg a ((s.reg a &&& ~~~m) ||| (v &&& m))
    if a = supDebugEn ∧ !bitN v.toNat 0 then s.debugOff
    else if a = supKeyPolicy then (forEach [0, 1, 2, 3] (fun s i => if v.getLsbD i then s.burn i else s) s).svnAuto
    else s

/-- An entry's value takes effect (R66, R69). -/
def State.applyStage (s : State) (j : Nat) (by' : Principal) : State :=
  (s.protApply (s.get (protStageAddrAddr j)) (s.reg (protStageValue j))).discardStage j (pCode by') ocApplied

/-- INSOLE.COMMIT is capturing retained fields (R69): the slot of a revert captures none. -/
def State.capturing (s : State) : Bool := s.commit.any fun j => !j.factory

/-- The checks of Table 2-8. A NO_PROPOSAL entry of the log, which the spec gives no value and no proposer, holds 0 in both.
DESIGN CHOICE, assumption row 175. -/
def State.evaluate (s : State) (x : Approval) : State :=
  let a := x.addr.toNat
  match s.openAt a with
  | none => s.protLog a 0 0 (pCode x.who) ocNoProposal
  | some j =>
    let prop := s.get (protStageInfoProposer j)
    if !s.mayWrite x.who (a / 0x1000) then s.deny x.who a
    else if prop = pCode x.who then s.discardStage j (pCode x.who) ocSame
    else if !(match codePrincipal prop with | some q => s.mayWrite q (a / 0x1000) | none => false) then
      s.discardStage j (pCode x.who) ocDenied
    else if x.crc.toNat ≠ crc16Stage (s.reg (protStageValue j)) then s.discardStage j (pCode x.who) ocCrc
    else if s.get (protStageRemainACycles j) = 0 then s.discardStage j (pCode x.who) ocExpired
    else if s.capturing then
      let s := (s.putb (protStageInfoOpen j) false).putb (protStageInfoHeld j) true
      let s := s.setReg (protStageRemain j) 0
      { s with prot := { s.prot with held := s.prot.held ++ [(BitVec.ofNat 4 j |>.toFin, x.who)] } }
    else s.applyStage j x.who

/-- Meaning of APPROVAL_EVALUATION: one approval, in order of arrival; none while the supervisor restarts (R66, R533). -/
def execApprovalEvaluation (s : State) : Out :=
  .next <|
    if s.supRestarting then s
    else
      match s.prot.approvals with
      | [] => s
      | x :: t => { s with prot := { s.prot with approvals := t } }.evaluate x

/-- Held values take effect, in the order of their approvals (R69). -/
def State.applyHeld (s : State) : State :=
  let l := s.prot.held
  forEach l (fun s e => s.applyStage e.1.val e.2) { s with prot := { s.prot with held := [] } }

/-- Meaning of WINDOW_EXPIRY (R68). -/
def execWindowExpiry (j : HexIx) (s : State) : Out :=
  .next (if s.stOpen j.val && s.get (protStageRemainACycles j.val) == 0 then s.discardStage j.val 0 ocExpired else s)

/-- Open proposals of a proposer, or all of them, are discarded with an outcome (R71). -/
def State.cancelProposals (s : State) (who : Option Nat) (oc : Nat) : State :=
  forEach (List.range 16) (fun s j =>
    if s.stOpen j && (match who with | some c => s.get (protStageInfoProposer j) == c | none => true) then
      s.discardStage j 0 oc else s) s

/-- Held values are discarded when the supervisor is lost (R534). -/
def State.dropHeld (s : State) : State :=
  forEach s.prot.held (fun s e => s.discardStage e.1.val (pCode e.2) ocSupLost) { s with prot := { s.prot with held := [] } }

/-- The A tick reaches PROT's windows (R64). -/
def State.windowTick (s : State) : State :=
  forEach (List.range 16) (fun s j =>
    let r := s.get (protStageRemainACycles j)
    if s.stOpen j && r != 0 then s.put (protStageRemainACycles j) (r - 1) else s) s

end Sys2Proof.Machine
end

