-- ==== Sys2Proof/Machine/Fabric.lean ====
section
/-! DEFINITION. The engine fabric: spares, bindings, lane configuration, checkpoints, engine faults and takeover, the DDU,
and the starts and stops of PE, FAB and DDU (R268, R269, R273, R282-R301). -/
namespace Sys2Proof.Machine

/-! ## Spares (R268, R292) -/

/-- Engine n is named in SPARE_MASK. -/
def State.isSpare (s : State) (n : Nat) : Bool := bitN (s.get fabSpareMaskMask) n

/-- A takeover in progress has chosen engine n as its spare. -/
def State.chosenSpare (s : State) (n : Nat) : Bool :=
  s.fab.takeover.any fun e => match e.2 with | some t => t.spare == n | none => false

/-- A spare that is available: it serves no engine, is chosen by no takeover and has not faulted. -/
def State.idleSpare (s : State) (n : Nat) : Bool :=
  s.isSpare n && s.get (peServeServes n) == 31 && !s.chosenSpare n && s.st (pgPe n) != stFault

/-- The idle spares, ascending; none while FAB is not ON. -/
def State.idleSpares (s : State) : List Nat := if s.on pgFab then (List.range 18).filter fun n => s.idleSpare n else []

/-- IDLE_SPARES is brought up to date; its fall to 0 is NO_SPARE, `last` the engine whose takeover used the last spare
(Table 17-3). -/
def State.showSpares (s : State) (new last : Nat) : State :=
  let old := s.get fabIdleSparesMask
  let s := s.put fabIdleSparesMask new
  let s := if new = 0 ∧ old ≠ 0 ∧ s.get fabSpareMaskMask ≠ 0 then
      (s.irq' pgFab 2).fault 0x05 2 pgFab 0 (s.get fabSpareMaskMask) last
    else s
  s.degrade

/-- The spares that are idle now are shown. -/
def State.refreshSpares (s : State) (last : Nat) : State := s.showSpares ((s.idleSpares.map fun n => 1 <<< n).sum) last

/-- Role n has a binding that its engine itself still holds (R268, R298). -/
def State.hasBinding (s : State) (n : Nat) : Bool :=
  s.get (peServeServedBy n) == 31 && [0, 1].any fun p => (s.rxBindOf n p).1 != 0 || (s.txBindOf n p).1 != 0

/-- A write of SPARE_MASK (R268). -/
def State.spareMaskSet (s : State) (w : Word) : State :=
  let bad := (List.range 18).any fun n =>
    bitN w.toNat n && !s.isSpare n && (s.hasBinding n || s.get (peServeServes n) != 31)
  if bad then s.err pgFab 8 else (s.byCodes fabSpareMask w).refreshSpares (s.get fabTkoLastFailed)

/-- Meaning of SPARE_MASK_WRITE. -/
def execSpareMaskWrite (p : Principal) (v : Word) (s : State) : Out :=
  .next (s.access p fabSpareMask v fun s w => s.spareMaskSet w)

/-- The image a WARM field names, if any, and what a spare needs of it: cached, its CRC right, authenticated (R292). -/
def State.warmImage (s : State) (n : Nat) : Option DirEnt :=
  let name := s.reg (fabWarm n)
  let ver := BitVec.ofNat 16 (s.get (fabWarmVerVer n))
  match s.cacheFind name ver 1 with
  | some (_, d) => if s.isAuthentic name ver && s.imageCrcOk d then some d else none
  | none => none

def State.setWarm (s : State) (n : Nat) (v : Option (Word × Half)) : State :=
  { s with fab := { s.fab with warm := s.fab.warm.wr none n v } }

/-- Meaning of WARM_PRELOAD (R292). -/
def execWarmPreload (e : EngIx) (s : State) : Out :=
  .next <|
    let n := e.val
    if !s.on pgFab || !s.idleSpare n || s.reg (fabWarm n) == 0 then s
    else
      match s.warmImage n with
      | some d =>
        (s.loadImage n (s.imageBytes d)).setWarm n (some (s.reg (fabWarm n), BitVec.ofNat 16 (s.get (fabWarmVerVer n))))
      | none => (s.setWarm n none).err pgFab 9

/-! ## Bindings (R269) and lane configuration (R273) -/

/-- The four stream ports of BIND: low bit of KIND, low bit of ARG, receive, pair. -/
def bindPorts : List (Nat × Nat × Bool × Nat) := [(0, 2, true, 0), (8, 10, true, 1), (16, 18, false, 0), (24, 26, false, 1)]

/-- BIND as a write leaves it: a stream port of KIND 3 keeps its binding, and KIND 3 is not written (R269, Table 8-10). -/
def bindMerge (old w : Word) : Word :=
  bindPorts.foldl (fun v (x : Nat × Nat × Bool × Nat) =>
    if bitsOf old x.1 2 = 3 ∨ bitsOf w x.1 2 = 3 then v
    else withBits (withBits v x.1 2 (bitsOf w x.1 2)) x.2.1 5 (bitsOf w x.2.1 5)) old

/-- The sources and sinks a BIND word of engine e takes: receive or transmit, KIND, owner of the queue, ARG. Both queues
are the engine's own; its one injection path is one sink. -/
def bindUses (e : Nat) (w : Word) : List (Bool × Nat × Nat × Nat) :=
  bindPorts.filterMap fun x =>
    let k := bitsOf w x.1 2
    let a := bitsOf w x.2.1 5
    if k = kindQueue then some (x.2.2.1, k, e, if x.2.2.1 then a else 0)
    else if k = kindEyelet then some (x.2.2.1, k, 0, a)
    else none

/-- A list names something twice. -/
def hasDup {α : Type} [DecidableEq α] : List α → Bool
  | [] => false
  | x :: t => t.contains x || hasDup t

/-- The stream pairs of engine e whose binding a new BIND word changes start empty. DEDUCED, assumption row 78. -/
def State.bindApply (s : State) (e : Nat) (w : Word) : State :=
  let old := s.reg (fabBind e)
  let m := s.serverOf e
  let s := s.setReg (fabBind e) w
  forEach [0, 1] (fun s p =>
    let rx := bitsOf old (8 * p) 8 != bitsOf w (8 * p) 8
    let tx := bitsOf old (16 + 8 * p) 8 != bitsOf w (16 + 8 * p) 8
    let s := if rx then s.setStrm m p { inj := (s.strm m p).inj } else s
    if tx then s.setStrm m p { s.strm m p with inj := [] } else s) s

/-- A write of BIND[e] (R268, R269): a spare takes no binding, and a source that does not exist is refused too. -/
def State.bindSet (s : State) (e : Nat) (w : Word) : State :=
  let v := bindMerge (s.reg (fabBind e)) w
  let mine := bindUses e v
  let others := ((List.range 18).filter (· != e)).flatMap fun n => bindUses n (s.reg (fabBind n))
  let absent := mine.any fun x => if x.2.1 = kindEyelet then decide (16 ≤ x.2.2.2) else decide (2 ≤ x.2.2.2)
  if hasDup mine || (mine.any fun x => others.contains x) || (s.isSpare e && mine != []) || absent then s.err pgFab 8
  else (s.unkeep (fabBind e)).bindApply e v

/-- Meaning of BIND_WRITE. -/
def execBindWrite (p : Principal) (e : EngIx) (v : Word) (s : State) : Out :=
  .next (s.access p (fabBind e.val) v fun s w => s.bindSet e.val w)

/-- BIND of an engine with the pair of a lane bound to it, or unbound. -/
def bindLane (w : Word) (p : Nat) (k : Option Nat) : Word :=
  let (kind, arg) := match k with | some k => (3, k) | none => (0, 0)
  let w := withBits (withBits w (8 * p) 2 kind) (8 * p + 2) 5 arg
  withBits (withBits w (16 + 8 * p) 2 kind) (16 + 8 * p + 2) 5 arg

/-- A write of LANE[k].CFG (R272, R273). A change of an enabled lane stomps the frames in it.
DESIGN CHOICE, assumption row 169. -/
def State.laneCfgSet (s : State) (k : Nat) (w : Word) : State :=
  let en := bitN w.toNat 0
  let d := bitsOf w 1 5
  let e := bitsOf w 6 5
  let p := bitsOf w 11 1
  let oldEn := s.bit (fabLaneCfgEn k)
  let oldE := s.get (fabLaneCfgEngine k)
  let oldP := s.get (fabLaneCfgStream k)
  let same := oldEn && oldE == e && oldP == p
  let taken := !same && ((s.rxBindOf e p).1 != 0 || (s.txBindOf e p).1 != 0)
  let bad := decide (24 ≤ d) || decide (18 ≤ e) || d == k || s.isSpare e || taken
    || (List.range 24).any fun j => j != k && s.bit (fabLaneCfgEn j) && s.get (fabLaneCfgDst j) == d
  if en && bad then s.err pgFab 8
  else
    let changed := oldEn && !(en && same && s.get (fabLaneCfgDst k) == d)
    let (m, q) := s.laneAt k
    let s := if changed then (s.laneDrop m q k).setStrm m q { inj := (s.strm m q).inj } else s
    let s := if oldEn && !(en && same) then s.bindApply oldE (bindLane (s.reg (fabBind oldE)) oldP none) else s
    let s := if changed then s.setLane k { s.laneOf k with arriving := false, bypass := false } else s
    let s := s.byCodes (fabLaneCfg k) w
    if en && !same then s.bindApply e (bindLane (s.reg (fabBind e)) p (some k)) else s

/-- Meaning of LANE_CFG_WRITE. -/
def execLaneCfgWrite (p : Principal) (k : PortIx) (v : Word) (s : State) : Out :=
  .next (s.access p (fabLaneCfg k.val) v fun s w => s.laneCfgSet k.val w)

/-! ## Checkpoints (R288-R290) -/

/-- Device address of half h of slot n (R290). -/
def State.ckptAddr (s : State) (n h : Nat) : Nat := bankBase (s.get fabCkptBaseBank) + n * 0x1C000 + h * 0xE000

/-- Half h of slot n is valid: its MAGIC and CRC are correct (R289). -/
def State.ckptValid (s : State) (n h : Nat) : Bool :=
  let a := s.ckptAddr n h
  let w (o : Nat) : Nat := leNat (s.eccBytes (a + o) 4)
  w 0 == 0x434B5054 && decide (w 0x14 ≤ 53248) && w 0x3C == crc32 (s.eccBytes (a + 0x40) (0xFC0 + w 0x14))

/-- SEQ of a half. -/
def State.ckptSeqOf (s : State) (n h : Nat) : Word := BitVec.ofNat 32 (leNat (s.eccBytes (s.ckptAddr n h + 4) 4))

/-- Half h of slot n is read whole on behalf of an engine: what its checks find is reported (R473, R525).
DEDUCED, assumption row 217. -/
def State.ckptScan (s : State) (who n h : Nat) : State :=
  let a := s.ckptAddr n h
  let len := leNat (s.eccBytes (a + 0x14) 4)
  let k := if len ≤ 53248 then 0x1000 + len else 0x40
  forEach ((s.bank.ecc.map (·.1)).filter fun g => decide (a ≤ 8 * g ∧ 8 * g < a + k)) (fun s g => s.granRead who g) s

/-- Both halves of slot n are read. -/
def State.ckptReadBoth (s : State) (who n : Nat) : State := (s.ckptScan who n 0).ckptScan who n 1

/-- The half that is the checkpoint of role n: the newer valid one (R289). -/
def State.ckptBest (s : State) (n : Nat) : Option Nat :=
  match s.ckptValid n 0, s.ckptValid n 1 with
  | true, true => if 0 ≤ (s.ckptSeqOf n 0 - s.ckptSeqOf n 1).toInt then some 0 else some 1
  | true, false => some 0
  | false, true => some 1
  | false, false => none

/-- Free bytes: `n` words of them. The spec does not lay out the fixed state inside a checkpoint half. -/
def State.freeBytes (s : State) : Nat → List Byte × State
  | 0 => ([], s)
  | n + 1 =>
    let (w, s) := s.draw 5
    let (l, s) := s.freeBytes n
    (leBytes 4 w.toNat ++ l, s)

/-- Meaning of CKPT_DONE: the copy is written, its header last (R288, R289). -/
def execCkptDone (e : EngIx) (s : State) : Out :=
  .next <|
    match s.fab.ckptCopy.rd none e.val with
    | none => s
    | some c =>
      let n := s.roleOf e.val
      let s := s.ckptReadBoth (e.val + 1) n
      let best := s.ckptBest n
      let h := match best with | some b => 1 - b | none => 0
      let seq : Word := match best with | some b => s.ckptSeqOf n b + 1 | none => 1
      let a := s.ckptAddr n h
      let rs := (c.ranges.map (·.2)).flatten
      let (fixed, s) := s.freeBytes 1008
      let s := s.writeA (e.val + 1) (a + 0x40) (fixed ++ rs)
      let crc := crc32 (fixed ++ rs)
      let hd := leBytes 4 0x434B5054 ++ leBytes 4 seq.toNat ++ leBytes 4 n ++ leBytes 4 c.name.toNat ++ leBytes 4 c.ver.toNat
        ++ leBytes 4 rs.length ++ List.replicate 36 0 ++ leBytes 4 crc
      let s := s.writeA (e.val + 1) a hd
      let s := { s with fab := { s.fab with
        ckpt := s.fab.ckpt.wr none (2 * n + h) (some { c with fixed := fixed }), ckptCopy := s.fab.ckptCopy.wr none e.val none } }
      let s := s.setReg (peCkptStat e.val) (BitVec.ofNat 32 (1 + 4 * h))
      (s.setReg (peCkptSeq e.val) seq).irq' (pgPe e.val) 4

/-- Local bytes from an address up; addresses wrap within the 64 KB. -/
def State.lmBytes (s : State) (e la n : Nat) : List Byte := (List.range n).map fun i => s.byte (lmAddr e (la + i))

/-- The local ranges of role n on engine e, cut at 53,248 bytes in all, and whether they were cut (R288). -/
def State.ckptRanges (s : State) (e n : Nat) : List (Nat × List Byte) × Bool :=
  let want := (List.range 4).map fun r => (s.get (peCkptRangeStartAddr n r), s.get (peCkptRangeLenBytes n r))
  let (l, _) := want.foldl (fun (x : List (Nat × List Byte) × Nat) a =>
    let k := min a.2 x.2
    (x.1 ++ [(a.1, s.lmBytes e a.1 k)], x.2 - k)) ([], 53248)
  (l, decide (53248 < (want.map (·.2)).sum))

/-- An engine state whose every field is read from one of 1,008 free words: what fixed-state bytes the fabric did not
write stand for. DESIGN CHOICE, assumption row 75. -/
def freePe (l : List Byte) : Pe :=
  let w (i : Nat) : Nat := (leWord l i).toNat
  let d (i : Nat) : Dword := BitVec.ofNat 64 (w i + w (i + 1) * 2 ^ 32)
  { regs := (List.range 264).foldl (fun r i => r.wr 0 i (leWord l i)) []
    rstack := (List.range 16).foldl (fun r i => r.wr none i (some (BitVec.ofNat 16 (w (264 + i))))) []
    loops := (List.range (w 280 % 5)).map fun i =>
      ⟨BitVec.ofNat 13 (w (281 + 4 * i)), BitVec.ofNat 13 (w (282 + 4 * i)), BitVec.ofNat 3 (w (283 + 4 * i)),
        w (284 + 4 * i) % 0x10000⟩
    cam := (List.range 64).foldl (fun r i =>
      r.wr {} i ⟨bitN (w (304 + 6 * i)) 0, d (305 + 6 * i), d (307 + 6 * i), leWord l (309 + 6 * i)⟩) []
    wbase := BitVec.ofNat 4 (w 700), sp := BitVec.ofNat 4 (w 701), depth := w 702 % 17, pc := BitVec.ofNat 13 (w 703)
    ibank := BitVec.ofNat 3 (w 704), rsopt := bitN (w 705) 0, farTrap := bitN (w 705) 1, dbank := BitVec.ofNat 4 (w 706)
    fbank := BitVec.ofNat 16 (w 707), rpage := BitVec.ofNat 12 (w 708), ferrAddr := leWord l 709
    tvec := BitVec.ofNat 13 (w 710), eclass := BitVec.ofNat 4 (w 711), tactive := bitN (w 712) 0
    trapUp := w 713 % 18, epc := BitVec.ofNat 16 (w 714) }

/-- What half h of slot n restores on engine m: the state the fabric took, where the half still holds the bytes written
for it; else the state its fixed-state bytes stand for, which the spec does not lay out, with the ranges of its page. -/
def State.ckptRead (s : State) (m n h : Nat) : Pe × List (Nat × List Byte) × State :=
  match s.fab.ckpt.rd none (2 * n + h) with
  | some c =>
    if s.eccBytes (s.ckptAddr n h + 0x40) 0xFC0 = c.fixed then (c.pe, c.ranges, s)
    else
      let (l, s) := s.freeBytes 1008
      (freePe l, (s.ckptRanges m n).1, s)
  | none =>
    let (l, s) := s.freeBytes 1008
    (freePe l, (s.ckptRanges m n).1, s)

/-- A restored engine: the state of the CKPT cycle with the exceptions of R332. -/
def State.resume (s : State) (m : Nat) (c : Pe) : State :=
  let pe := s.peOf m
  s.setPe m { c with
    resumed := true, fflag := 0xFF, ferrTag := 0, storeErr := false, ferrCause := 0, cycle := 0, hazards := [], justW := []
    spHaz := none, prevW := [], spPrev := none, waiting := none, far := [], stq := [], seq := pe.seq, farPending := false, s0 := {}, s1 := {}, halted := false, wdog := 0
    jtagHalt := pe.jtagHalt, jtagSteps := pe.jtagSteps, image := pe.image, svn := pe.svn, entry := pe.entry }

/-- The ranges of a checkpoint at a device address go back into an engine's local data (R293). -/
def State.restoreRanges (s : State) (m : Nat) : Nat → List (Nat × List Byte) → State
  | _, [] => s
  | a, (la, old) :: t =>
    let l := s.eccBytes a old.length
    let s := forEach ((List.range l.length).zip l) (fun (s : State) (x : Nat × Byte) => s.setByte (lmAddr m (la + x.1)) x.2) s
    s.restoreRanges m (a + l.length) t

/-! ## Engine faults and takeover (R291-R297) -/

/-- The spare for a takeover of role n, and whether it is warm (R292). DEDUCED, assumption row 74. -/
def State.chooseSpare (s : State) (n e : Nat) : Option (Nat × Bool) :=
  let idle := s.idleSpares.filter (· != e)
  let want : Option (Word × Half) := some (s.reg (peImageName n), BitVec.ofNat 16 (s.get (peImageVerVer n)))
  let fits (m : Nat) : Bool := s.fab.warm.rd none m == want
    && want == some (s.reg (fabWarm m), BitVec.ofNat 16 (s.get (fabWarmVerVer m)))
  match idle.find? fits with
  | some m => some (m, true)
  | none => match idle with | m :: _ => some (m, false) | [] => none

def State.setTakeover (s : State) (e : Nat) (t : Option Takeover) : State :=
  { s with fab := { s.fab with takeover := s.fab.takeover.wr none e t } }

/-- The takeover that has chosen engine e as its spare: the engine taken over. -/
def State.takeoverBy (s : State) (e : Nat) : Option Nat :=
  (s.fab.takeover.find? fun x => match x.2 with | some t => t.spare == e | none => false).map (·.1)

/-- An engine stops or is reset: its stream contents go, and a spare that serves a role leaves it
(R295, R298, R299). A takeover of it ends with it. DESIGN CHOICE, assumption row 189. -/
def State.peClear (s : State) (e : Nat) : State :=
  let s := s.dropStreams e
  let n := s.get (peServeServes e)
  let s := if n = 31 then s else (s.put (peServeServedBy n) 31).put (peServeServes e) 31
  let pe := s.peOf e
  let s := s.setPe e { seq := pe.seq, jtagHalt := pe.jtagHalt, jtagSteps := pe.jtagSteps }
  let s := s.setTakeover e none
  { s with fab := { s.fab with
    ckptCopy := s.fab.ckptCopy.wr none e none, dduQ := s.fab.dduQ.filter (·.engine != e) } }.putb (peCkptStatBusy e) false

/-- A soft reset of a PE page (R51). -/
def State.peReset (s : State) (e : Nat) : State :=
  let s := (s.peClear e).resetPage (pgPe e)
  s.refreshSpares (s.get fabTkoLastFailed)

/-- An engine is declared faulted: its page enters FAULT, the fault is recorded and takeover begins (R291, R292, R295, R297).
A soft reset held in the sequence that the fault ends is then performed (R51). `cause`: 0 watchdog, 1 ECC, 2 trap, 3 lockstep,
4 self-test at boot, whose conflict of Table 3-8 is recorded ahead of NO_SPARE (R529). -/
def State.engineFault (s : State) (e cause tclass port : Nat) (inj : Bool := false) : State :=
  let victim := match s.takeoverBy e with | some x => x | none => e
  let mine := !(s.isSpare e && s.get (peServeServes e) == 31 && victim == e)
  let n := s.roleOf victim
  let s := s.dropStreams e
  let s := s.moveTo (pgPe e) stFault
  let s := s.setTakeover victim none
  let pick := s.chooseSpare n e
  let cls := if pick.isSome then 1 else 2
  let s := match pick with
    | some (m, w) =>
      if mine then (s.setTakeover victim (some ⟨m, w, cause⟩)).cancelProposals (some (victim + 1)) ocCancelled else s
    | none => s
  let d1 := match pick with
    | some (m, w) => if mine then m + (if w then 0x100 else 0) else 31
    | none => 31
  let s := s.fault 0x04 cls (pgPe e) e (cause + tclass * 0x100 + port * 0x1000) d1 inj
  let s := if pick.isNone then s.irq' pgFab 2 else s
  let s := if cause = 4 then s.conflict (pgPe e) (if (s.fab.takeover.rd none e).isSome then 1 else 2) 0x40 7 else s
  let s := s.refreshSpares victim
  if s.chip.heldSrst.rd false (pgPe e) then s.peReset e else s

/-- The block fault of a PE page applies in STARTING, ON and STOPPING, and a spare that is being brought up can fault too
(R292, Table 2-4). -/
def State.canFault (s : State) (e : Nat) : Bool :=
  let st := s.st (pgPe e)
  st == stStarting || st == stOn || st == stStopping || (s.chosenSpare e && st != stFault) || (s.idleSpare e && s.on pgFab)

/-- The watchdog of an engine expires (R291, R350). -/
def State.wdogExpire (s : State) (e : Nat) (inj : Bool) : State :=
  if s.canFault e then (s.irq' (pgPe e) 2).engineFault e 0 0 0 inj else s

/-- Meaning of WATCHDOG_EXPIRY: `d` E cycles after the engine's latest issue. -/
def execWatchdogExpiry (e : EngIx) (d : Nat) (s : State) : Out :=
  .next <|
    let us := s.get (peWdogUs (s.roleOf e.val))
    let pe := s.peOf e.val
    if s.on (pgPe e.val) && us != 0 && !pe.halted && decide (us * 1000 ≤ pe.wdog + d) then s.wdogExpire e.val false else s

/-- Meaning of LOCKSTEP_MISMATCH (R291). -/
def execLockstepMismatch (e : EngIx) (sp : Fin 4) (s : State) : Out :=
  .next (if s.canFault e.val then s.engineFault e.val 3 0 sp.val else s)

/-- The banks of a faulted engine go to the spare, or to NONE where the allow-list lacks it (R296, R485). -/
def State.moveBanks (s : State) (e m : Nat) : State :=
  let s := forEach (List.range 192) (fun s b =>
    if s.bit (bankBankstPending b) ∧ (s.ownerOf b = e + 1 ∨ s.get (bankBankstNext b) = e + 1) then
      (s.putb (bankBankstPending b) false).put (bankBankstNext b) 0 else s) s
  forEach (List.range 192) (fun s b =>
    if s.ownerOf b ≠ e + 1 then s
    else if s.allows b (m + 1) then s.own b (m + 1)
    else
      let s := s.own b 0
      let s := { s with flt := { s.flt with orphans := s.flt.orphans ++ [b] } }
      (s.fault 0x17 2 pgBank 0 b (e + m * 0x100)).degrade) s

/-- Step 4 of a takeover of engine e in role n by spare m (R293, R296, R495). -/
def State.takeRole (s : State) (e n m : Nat) (t : Takeover) (ns : Nat) : State :=
  let s := if e = n then s else s.put (peServeServes e) 31
  let s := (s.put (peServeServes m) n).put (peServeServedBy n) m
  let s := s.setTakeover e none
  let s := (s.moveTo (pgPe e) stTakenOver).moveTo (pgPe m) stOn
  let s := (s.moveBanks e m).epochUp (n + 1)
  let s := s.countF fabTkoCountCount
  let s := s.setReg fabTkoLast (BitVec.ofNat 32 (e + m * 0x100 + (if t.warm then 0 else 0x2000) + t.cause * 0x10000))
  let s := (s.setReg fabTkoTime (BitVec.ofNat 32 ns)).irq' pgFab 1
  (s.setWarm m none).refreshSpares e

/-- Meaning of TAKEOVER_COMPLETE: the steps of Table 8-8 are done after `ns` nanoseconds. -/
def execTakeoverComplete (e : EngIx) (ns : Nat) (s : State) : Out :=
  .next <|
    match s.fab.takeover.rd none e.val with
    | none => s
    | some t =>
      let n := s.roleOf e.val
      let m := t.spare
      let (ent, reason) := s.roleImage n
      let ok := t.warm || (reason == 0 && s.isAuthentic (s.reg (peImageName n)) (BitVec.ofNat 16 (s.get (peImageVerVer n))))
      if !ok then
        let s := (s.setTakeover e.val none).fault 0x06 2 (pgPe e.val) e.val (s.rn (peImageName n))
          (if reason = 0 then 6 else reason)
        ((s.err (pgPe e.val) 9).refreshSpares e.val).degrade
      else
        let s := if t.warm then s else
          match ent with | some d => s.loadImage m (s.imageBytes d) | none => s
        let s := s.ckptReadBoth (m + 1) n
        let s := match s.ckptBest n with
          | some h =>
            let (pe, ranges, s) := s.ckptRead m n h
            (s.restoreRanges m (s.ckptAddr n h + 0x1000) ranges).resume m pe
          | none => s.atEntry m
        s.takeRole e.val n m t ns

/-! ## Duplicate-discard unit (R282-R284) -/

/-- Indices of the four ways of a key's set. -/
def dduWays (g : BitVec 4) (sa : BitVec 48) (seq : Half) : List Nat :=
  (List.range 4).map (4 * (Config.dduSet g sa seq % 4096) + ·)

def State.dduAt (s : State) (i : Nat) : Option DduEntry := s.fab.ddu.rd none i
def State.dduPut (s : State) (i : Nat) (v : Option DduEntry) : State :=
  { s with fab := { s.fab with ddu := s.fab.ddu.wr none i v } }

/-- The entry of a key. -/
def State.dduFind (s : State) (g : BitVec 4) (sa : BitVec 48) (seq : Half) : Option (Nat × DduEntry) :=
  (dduWays g sa seq).findSome? fun i =>
    match s.dduAt i with
    | some x => if x.group = g ∧ x.sa = sa ∧ x.seq = seq then some (i, x) else none
    | none => none

/-- Age of a way's entry: the number it was created under. -/
def State.dduBorn (s : State) (i : Nat) : Nat := match s.dduAt i with | some x => x.born | none => 0

/-- The way that holds the oldest entry. -/
def State.dduOldest (s : State) (ways : List Nat) : Nat :=
  ways.foldl (fun a i => if s.dduBorn i < s.dduBorn a then i else a) (ways.headD 0)

/-- A query is served: FIRST, PATHS as they stood, and the state after (R282, R283). DEDUCED, assumption row 80. -/
def State.dduServe (s : State) (q : DduQuery) : Bool × BitVec 4 × State :=
  let s := s.count dduQueries
  let bit : BitVec 4 := BitVec.ofNat 4 (1 <<< (q.path % 4))
  match s.dduFind q.group q.sa q.seq with
  | some (i, x) => (false, x.paths, (s.dduPut i (some { x with paths := x.paths ||| bit })).count dduDuplicates)
  | none =>
    let ways := dduWays q.group q.sa q.seq
    let x : DduEntry := ⟨q.group, q.sa, q.seq, bit, s.fab.dduNext, s.tb.frc⟩
    let s := { s with fab := { s.fab with dduNext := s.fab.dduNext + 1 } }
    match ways.find? fun i => (s.dduAt i).isNone with
    | some i => (true, 0, (s.dduPut i (some x)).countF dduUsedEntries)
    | none => (true, 0, (s.dduPut (s.dduOldest ways) (some x)).count dduEvicts)

/-- Meaning of DDU_ANSWER: the oldest query is answered (R284, R346). -/
def execDduAnswer (s : State) : Out :=
  .next <|
    match s.fab.dduQ with
    | [] => s
    | q :: t =>
      if !s.on pgDdu then s
      else
        let (first, paths, s) := s.dduServe q
        let s := { s with fab := { s.fab with dduQ := t } }
        match (s.peOf q.engine).far.find? fun x => x.tag == q.tag && x.kind == 2 with
        | some x => s.farDone q.engine x [BitVec.ofNat 32 (paths.toNat * 0x10 + first.toNat)]
        | none => s

/-- FORGET_MS milliseconds have passed since an entry's creation, 0 acting as 1 (R283). -/
def State.dduAgedOut (s : State) (x : DduEntry) : Bool :=
  decide (max 1 (s.get dduForgetMsMs) * 250000 ≤ (s.tb.frc - x.made).toNat)

/-- Meaning of DDU_FORGET: entry i goes once it has lived FORGET_MS (R283). DEDUCED, assumption row 80. -/
def execDduForget (i : Fin 16384) (s : State) : Out :=
  .next <|
    match s.dduAt i.val with
    | some x =>
      if s.on pgDdu && s.bit dduCfgAgeEn && s.dduAgedOut x then
        ((s.dduPut i.val none).put dduUsedEntries (s.get dduUsedEntries - 1)).count dduAged
      else s
    | none => s

/-- A write of DDU.FLUSH (R284). -/
def State.dduFlushSet (s : State) (w : Word) : State :=
  if !bitN w.toNat 0 || !s.on pgDdu || s.bit dduFlushBusy then s
  else
    let g := if bitN w.toNat 8 then none else some (BitVec.ofNat 4 (bitsOf w 4 4))
    { s with fab := { s.fab with dduFlush := some (g, s.fab.dduNext) } }.putb dduFlushBusy true

/-- Meaning of DDU_FLUSH. -/
def execDduFlush (p : Principal) (v : Word) (s : State) : Out :=
  .next (s.access p dduFlush v fun s w => s.dduFlushSet w)

/-- Meaning of DDU_FLUSH_DONE: the entries that stood at the command are gone. -/
def execDduFlushDone (s : State) : Out :=
  .next <|
    match s.fab.dduFlush with
    | none => s
    | some (g, lim) =>
      let goes (x : DduEntry) : Bool := decide (x.born < lim) && (match g with | some k => x.group == k | none => true)
      let keep := s.fab.ddu.filter fun e => match e.2 with | some x => !goes x | none => false
      let s := { s with fab := { s.fab with ddu := keep, dduFlush := none } }
      ((s.put dduUsedEntries keep.length).putb dduFlushBusy false).irq' pgDdu 1

/-! ## Starts and stops (R299, R300) -/

/-- PE's start: the image is loaded and the engine stands at its entry point; without one the page enters FAULT (R299). -/
def State.pePoint (s : State) (e : Nat) : Bool × State :=
  if s.reg (peImageName e) = 0 then (false, (s.moveTo (pgPe e) stFault).err (pgPe e) 8)
  else
    match s.roleImage e with
    | (some d, 0) =>
      let s := s.addAuthentic d.name d.ver
      (true, (s.loadImage e (s.imageBytes d)).atEntry e)
    | (_, r) =>
      let s := ((s.moveTo (pgPe e) stFault).err (pgPe e) 9).fault 0x06 2 (pgPe e) e (s.rn (peImageName e)) r
      let s := if s.booted then s else s.conflict (pgPe e) 2 0x40 6
      let s := (s.setReg supRefuseName (s.reg (peImageName e))).setReg supRefuseInfo
        (BitVec.ofNat 32 (r + s.get (peImageVerVer e) * 0x10000))
      (false, s.degrade)

/-- The banks of the checkpoint region avoid failed banks (Table 3-8): the lowest run of four working engine-pool banks
outside the region, all four moving together. DESIGN CHOICE, assumption row 178. -/
def State.ckptPlace (s : State) : State :=
  let ok (b : Nat) : Bool := (List.range 4).all fun i => !s.bit (bankBankstFailed (b + i))
  if ok 32 then s.put fabCkptBaseBank 32
  else
    let s := match ((List.range 25).map (36 + ·)).find? ok with
      | some b => s.put fabCkptBaseBank b
      | none => s.put fabCkptBaseBank 32
    s.conflict pgFab 2 0x48 3

/-- FAB's start builds the checkpoint slots empty (R300). -/
def State.fabPoint (s : State) : State :=
  let s := s.ckptPlace
  let s := forEach (List.range 18) (fun s n =>
    forEach [0, 1] (fun s h => s.writeA 0 (s.ckptAddr n h) (List.replicate 64 0)) s) s
  { s with fab := { s.fab with ckpt := [], ckptCopy := [], takeover := [] } }

/-- FAB has stopped: no spare is available, none holds an image, and no takeover goes on (R300). -/
def State.fabClear (s : State) : State :=
  { s with fab := { s.fab with warm := [], takeover := [], ckptCopy := [] } }.showSpares 0 (s.get fabTkoLastFailed)

/-- DDU starts and stops empty (R300, R301). -/
def State.dduClear (s : State) : State :=
  { s with fab := { s.fab with ddu := [], dduFlush := none } }.setReg dduUsed 0 |>.putb dduFlushBusy false

end Sys2Proof.Machine
end

