-- ==== Sys2Proof/Machine/Awl.lean ====
section
/-! DEFINITION. How an Awl engine issues an instruction: waits, traps, delay slots, loops (R302-R311, R324-R329). -/
namespace Sys2Proof.Machine

/-- Trap classes (Table 9-5). -/
def trapRsovf : Nat := 0
def trapRsunf : Nat := 1
def trapLoopovf : Nat := 2
def trapLoopunf : Nat := 3
def trapAlign : Nat := 4
def trapIfetch : Nat := 5
def trapIllegal : Nat := 6
def trapFtag : Nat := 7
def trapFstq : Nat := 8
def trapFar : Nat := 9
def trapSoft : Nat := 10

/-- What an instruction does at its issue. -/
inductive AwlRes where
  /-- It waits: it does not issue now (R302). -/
  | wait
  /-- A trap of a class; the instruction is not performed (R328). -/
  | trap (c : Nat) (s : State)
  /-- It is performed. -/
  | done (s : State)
  /-- It is performed, and `f` acts on the state its issue leaves. -/
  | after (s : State) (f : State → State)
  /-- It opens two delay slots (R310). -/
  | slots (s : State) (x : Transfer)
  /-- The next instruction is not the following one (R324). -/
  | skipTo (s : State) (pc : BitVec 13)

/-- The engine executes: its page reads ON, it is not halted, and it is no idle spare (R268, R298, R350, R520). -/
def State.runs (s : State) (e : Nat) : Bool :=
  let pe := s.peOf e
  s.on (pgPe e) && !pe.halted && !(s.isSpare e && s.get (peServeServes e) == 31) && !s.bindMoved e

/-- The engine can issue: it executes and JTAG does not hold it (R520). -/
def State.issues (s : State) (e : Nat) : Bool :=
  s.runs e && (!(s.peOf e).jtagHalt || decide (0 < (s.peOf e).jtagSteps))

/-- Region of an instruction address: resident, overlay window, none (R318). -/
def regionOf (pc : BitVec 13) : Nat := if pc.toNat < 0x1000 then 0 else if pc.toNat < 0x1200 then 1 else 2

/-- The innermost loop ends at this instruction (R325). -/
def Pe.loopAt (pe : Pe) (ib : BitVec 3) (pc : BitVec 13) : Option LoopEntry :=
  match pe.loops with
  | l :: _ => if l.ibank = ib ∧ l.stop = pc then some l else none
  | [] => none

/-- A push on the return stack (R307, R308). -/
def Pe.pushRet (pe : Pe) (v : Half) : Pe :=
  { pe with
    rstack := pe.rstack.wr none pe.sp.toNat (some v), sp := pe.sp + 1, depth := min 16 (pe.depth + 1)
    trapUp := if pe.tactive then min 17 (pe.trapUp + 1) else pe.trapUp }

/-- The entry a RET pops, and the engine after: TACTIVE clears with the entry pushed at trap entry (R308, R328).
DEDUCED, assumption row 69. -/
def Pe.popRet (pe : Pe) : Option Half × Pe :=
  let sp := pe.sp - 1
  let last := pe.tactive && pe.trapUp == 1
  (pe.rstack.rd none sp.toNat, { pe with
    sp := sp, depth := pe.depth - 1, tactive := pe.tactive && !last
    trapUp := if pe.trapUp = 17 then 17 else pe.trapUp - 1 })

/-- The loop's action at its END: its entry after, and the next instruction (R325). -/
def Pe.loopStep (pe : Pe) (l : LoopEntry) (pc : BitVec 13) : Pe × BitVec 13 :=
  if 1 < l.count then ({ pe with loops := { l with count := l.count - 1 } :: pe.loops.tail }, l.start)
  else ({ pe with loops := pe.loops.tail }, pc + 1)

/-- The instruction after one that opens no slots. -/
def Pe.nextOf (pe : Pe) (ib : BitVec 3) (pc : BitVec 13) : Pe × BitVec 13 :=
  match pe.loopAt ib pc with
  | some l => pe.loopStep l pc
  | none => (pe, pc + 1)

/-- The delay slot ends: control transfers after the second one (R307, R310). -/
def Pe.slotDone (pe : Pe) (x : Transfer) : Pe :=
  if 1 < x.slots then { pe with xfer := some { x with slots := x.slots - 1 } }
  else
    match x.target with
    | some t => { pe with
        xfer := none, pc := t, wbase := pe.wbase + BitVec.ofNat 4 x.slide
        ibank := match x.ibank with | some i => i | none => pe.ibank }
    | none => { pe with xfer := none }

/-- A loop end meets a control transfer or a loop instruction: the outcome is undefined (R326). The next instruction is
free, and so is whether the loop acts and whether the transfer stands. -/
def State.loopClash (s : State) (e : Nat) (l : LoopEntry) (pc : BitVec 13) : State :=
  let (w, s) := s.draw 4
  let pe := s.peOf e
  let pe := if w.getLsbD 13 then (pe.loopStep l pc).1 else pe
  s.setPe e { pe with pc := w.setWidth 13, xfer := if w.getLsbD 14 then pe.xfer else none }

/-- A loop end that is the second slot of a transfer, which R326 allows (R310, R325): the loop acts. Control then goes to the
taken transfer's target; where the loop would go on at START, the spec gives both as the next instruction, and which it is
stays free. -/
def State.loopInSlot (s : State) (e : Nat) (l : LoopEntry) (pc : BitVec 13) (x : Transfer) : State :=
  let (pe, n) := (s.peOf e).loopStep l pc
  if x.target.isNone then s.setPe e { pe with pc := n, xfer := none }
  else if l.count ≤ 1 then s.setPe e (pe.slotDone x)
  else
    let (w, s) := s.draw 4
    s.setPe e (if w.getLsbD 0 then { pe with pc := n, xfer := none } else pe.slotDone x)

/-- The engine moves on from the instruction at `pc`, whose loop end was `l`: past it, or to `to'`. -/
def State.advance (s : State) (e : Nat) (l : Option LoopEntry) (pc to' : BitVec 13) (loopInstr : Bool) : State :=
  let pe := s.peOf e
  match l with
  | some l =>
    if loopInstr then s.loopClash e l pc
    else
      match pe.xfer with
      | some x => if 1 < x.slots then s.loopClash e l pc else s.loopInSlot e l pc x
      | none =>
        let (pe', n) := pe.loopStep l pc
        s.setPe e { pe' with pc := n }
  | none =>
    let pe := { pe with pc := to' }
    match pe.xfer with
    | some x => s.setPe e (pe.slotDone x)
    | none => s.setPe e pe

/-- A trap at the instruction at `pc` (R327-R329): fatal, it faults the engine; else the handler is entered. -/
def State.trapTo (s : State) (e c : Nat) (ib : BitVec 3) (pc : BitVec 13) : State :=
  let s := s.setReg (peTrapInfo e) (BitVec.ofNat 32 (c + pc.toNat * 0x10000))
  let s := s.irq' (pgPe e) 1
  let pe := s.peOf e
  if bitN (s.get (peTrapFatalMask (s.roleOf e))) c || pe.xfer.isSome || pe.tactive then
    if s.canFault e then s.engineFault e 2 c 0 else s
  else
    let (tv, s) := s.useSpecial e 9
    let (pe, at') := if 10 ≤ c then pe.nextOf ib pc else (pe, pc)
    let v := ibPc ib at'
    let pe := { pe with farPending := if c = trapFar then false else pe.farPending }
    let pe := { pe.pushRet v with
      epc := v, eclass := BitVec.ofNat 4 c, tactive := true, trapUp := 1, wbase := pe.wbase + 1
      pc := BitVec.ofNat 13 (tv.toNat % 0x1000) }
    s.setPe e pe

/-- A step JTAG allowed is used (R520). -/
def State.stepUsed (s : State) (e : Nat) : State :=
  let pe := s.peOf e
  if pe.jtagHalt then s.setPe e { pe with jtagSteps := pe.jtagSteps - 1 } else s

/-- Device address of the instruction at {ib, pc} (R318). -/
def imemAddr (e : Nat) (ib : BitVec 3) (pc : BitVec 13) : Nat :=
  engBase e + (if pc.toNat < 0x1000 then 4 * pc.toNat else 0x4000 + ib.toNat * 0x800 + (pc.toNat - 0x1000) * 4)

/-- The word the engine fetches at {ib, pc}. -/
def State.fetched (s : State) (e : Nat) (ib : BitVec 3) (pc : BitVec 13) : Word :=
  BitVec.ofNat 32 (leNat (s.bytes (imemAddr e ib pc) 4))

/-- The engine is free to issue instruction `i`: none waits, or it is the one that does (R302, R340). -/
def Pe.mayIssue (pe : Pe) (i : Instr) : Bool := pe.waiting.isNone || pe.waiting == some i

/-- The word the engine fetches at {ib, pc} encodes instruction `i`, whose gap is left out (R336, R337). -/
def State.encodes (s : State) (e : EngIx) (ib : BitVec 3) (pc : BitVec 13) (i : Instr) : Bool :=
  awlDecode e 0 (s.fetched e.val ib pc) == some i

/-- An engine issues instruction `i`, its gap left out, `d` E cycles after its previous issue. `barred` says that the
instruction is illegal in a delay slot (R311), `loopInstr` that it is a LOOP or LOOPR. The word in instruction memory decides:
one that encodes no instruction traps (R337), and over one that encodes another instruction nothing is issued (R336).
DESIGN CHOICE, assumption row 66; DEDUCED, assumption row 67. -/
def State.issue (s0 : State) (x : EngIx) (d : Nat) (i : Instr) (barred loopInstr : Bool) (body : State → AwlRes) : State :=
  let e := x.val
  if !s0.issues e || d == 0 || !(s0.peOf e).mayIssue i then s0
  else
    let s := (s0.ageE e d).stepUsed e
    let (ib, s) := s.useSpecial e 3
    let ib : BitVec 3 := ib.setWidth 3
    let (cfg, s) := s.useSpecial e 0
    let pe := s.peOf e
    let pc := pe.pc
    let l := pe.loopAt ib pc
    if pe.farPending && cfg.getLsbD 1 && pe.xfer.isNone && l.isNone then s.trapTo e trapFar ib pc
    else if regionOf pc = 2 then s.trapTo e trapIfetch ib pc
    else if !awlWordOk (s.fetched e ib pc) then s.trapTo e trapIllegal ib pc
    else if !s.encodes x ib pc i then s0
    else if barred && pe.xfer.isSome then s.trapTo e trapIllegal ib pc
    else
      match body s with
      | .wait => s0.setPe e { s0.peOf e with waiting := some i }
      | .trap c s => s.trapTo e c ib pc
      | .done s => s.advance e l pc (pc + 1) loopInstr
      | .after s f => f (s.advance e l pc (pc + 1) loopInstr)
      | .slots s x =>
        let s := s.setPe e { s.peOf e with xfer := some x }
        match l with
        | some l => s.loopClash e l pc
        | none => s.setPe e { s.peOf e with pc := pc + 1 }
      | .skipTo s t => s.advance e l pc t loopInstr

/-- An instruction with nothing special about where it stands. -/
def State.plain (s : State) (e : EngIx) (d : Nat) (i : Instr) (body : State → AwlRes) : State :=
  s.issue e d i false false body

/-- An instruction that raises ILLEGAL unless its fields are as the reference states (R337, R338). -/
def legal (ok : Bool) (s : State) (r : AwlRes) : AwlRes := if ok then r else .trap trapIllegal s

end Sys2Proof.Machine
end

