-- ==== Sys2Proof/Machine/AwlAlu.lean ====
section
/-! DEFINITION. Awl arithmetic, logic, bit fields, CRC, hash and CAM (R341, R342, R351-R353). -/
namespace Sys2Proof.Machine

/-- rd := f ra rb, landing at distance `dist`. -/
def State.alu3 (s : State) (e : EngIx) (d : Nat) (i : Instr) (rd ra rb : RegF) (dist : Nat) (f : Word → Word → Word) : State :=
  s.plain e d i fun s =>
    let (a, s) := s.readF e.val ra
    let (b, s) := s.readF e.val rb
    .done (s.writeF e.val rd (f a b) dist)

/-- rd := f ra. -/
def State.alu2 (s : State) (e : EngIx) (d : Nat) (i : Instr) (rd ra : RegF) (f : Word → Word) : State :=
  s.plain e d i fun s =>
    let (a, s) := s.readF e.val ra
    .done (s.writeF e.val rd (f a) 1)

/-- 1 or 0. -/
def flagW (b : Bool) : Word := if b then 1 else 0

/-- Meaning of ADD. -/
def execAdd (e : EngIx) (d : Nat) (rd ra rb : RegF) (s : State) : Out :=
  .next (s.alu3 e d (.add e 0 rd ra rb) rd ra rb 1 fun a b => a + b)
/-- Meaning of SUB. -/
def execSub (e : EngIx) (d : Nat) (rd ra rb : RegF) (s : State) : Out :=
  .next (s.alu3 e d (.sub e 0 rd ra rb) rd ra rb 1 fun a b => a - b)
/-- Meaning of AND. -/
def execAnd (e : EngIx) (d : Nat) (rd ra rb : RegF) (s : State) : Out :=
  .next (s.alu3 e d (.and e 0 rd ra rb) rd ra rb 1 fun a b => a &&& b)
/-- Meaning of OR. -/
def execOr (e : EngIx) (d : Nat) (rd ra rb : RegF) (s : State) : Out :=
  .next (s.alu3 e d (.or e 0 rd ra rb) rd ra rb 1 fun a b => a ||| b)
/-- Meaning of XOR. -/
def execXor (e : EngIx) (d : Nat) (rd ra rb : RegF) (s : State) : Out :=
  .next (s.alu3 e d (.xor e 0 rd ra rb) rd ra rb 1 fun a b => a ^^^ b)
/-- Meaning of NOR. -/
def execNor (e : EngIx) (d : Nat) (rd ra rb : RegF) (s : State) : Out :=
  .next (s.alu3 e d (.nor e 0 rd ra rb) rd ra rb 1 fun a b => ~~~(a ||| b))
/-- Meaning of SLT. -/
def execSlt (e : EngIx) (d : Nat) (rd ra rb : RegF) (s : State) : Out :=
  .next (s.alu3 e d (.slt e 0 rd ra rb) rd ra rb 1 fun a b => flagW (decide (a.toInt < b.toInt)))
/-- Meaning of SLTU. -/
def execSltu (e : EngIx) (d : Nat) (rd ra rb : RegF) (s : State) : Out :=
  .next (s.alu3 e d (.sltu e 0 rd ra rb) rd ra rb 1 fun a b => flagW (decide (a.toNat < b.toNat)))
/-- Meaning of SHL. -/
def execShl (e : EngIx) (d : Nat) (rd ra rb : RegF) (s : State) : Out :=
  .next (s.alu3 e d (.shl e 0 rd ra rb) rd ra rb 1 fun a b => a <<< (b.toNat % 32))
/-- Meaning of SHR. -/
def execShr (e : EngIx) (d : Nat) (rd ra rb : RegF) (s : State) : Out :=
  .next (s.alu3 e d (.shr e 0 rd ra rb) rd ra rb 1 fun a b => a >>> (b.toNat % 32))
/-- Meaning of SAR. -/
def execSar (e : EngIx) (d : Nat) (rd ra rb : RegF) (s : State) : Out :=
  .next (s.alu3 e d (.sar e 0 rd ra rb) rd ra rb 1 fun a b => a.sshiftRight (b.toNat % 32))
/-- Meaning of MIN. -/
def execMin (e : EngIx) (d : Nat) (rd ra rb : RegF) (s : State) : Out :=
  .next (s.alu3 e d (.min e 0 rd ra rb) rd ra rb 1 fun a b => if a.toInt < b.toInt then a else b)
/-- Meaning of MAX. -/
def execMax (e : EngIx) (d : Nat) (rd ra rb : RegF) (s : State) : Out :=
  .next (s.alu3 e d (.max e 0 rd ra rb) rd ra rb 1 fun a b => if a.toInt < b.toInt then b else a)
/-- Meaning of MUL. -/
def execMul (e : EngIx) (d : Nat) (rd ra rb : RegF) (s : State) : Out :=
  .next (s.alu3 e d (.mul e 0 rd ra rb) rd ra rb 3 fun a b => a * b)
/-- Meaning of MULH: bits [63:32] of the signed product. -/
def execMulh (e : EngIx) (d : Nat) (rd ra rb : RegF) (s : State) : Out :=
  .next (s.alu3 e d (.mulh e 0 rd ra rb) rd ra rb 3 fun a b => BitVec.ofInt 32 (a.toInt * b.toInt / 2 ^ 32))
/-- Meaning of MULHU: bits [63:32] of the unsigned product. -/
def execMulhu (e : EngIx) (d : Nat) (rd ra rb : RegF) (s : State) : Out :=
  .next (s.alu3 e d (.mulhu e 0 rd ra rb) rd ra rb 3 fun a b => BitVec.ofNat 32 (a.toNat * b.toNat / 2 ^ 32))

/-- Meaning of SHLI. -/
def execShli (e : EngIx) (d : Nat) (rd ra : RegF) (sh : BitVec 5) (s : State) : Out :=
  .next (s.alu2 e d (.shli e 0 rd ra sh) rd ra fun a => a <<< sh.toNat)
/-- Meaning of SHRI. -/
def execShri (e : EngIx) (d : Nat) (rd ra : RegF) (sh : BitVec 5) (s : State) : Out :=
  .next (s.alu2 e d (.shri e 0 rd ra sh) rd ra fun a => a >>> sh.toNat)
/-- Meaning of SARI. -/
def execSari (e : EngIx) (d : Nat) (rd ra : RegF) (sh : BitVec 5) (s : State) : Out :=
  .next (s.alu2 e d (.sari e 0 rd ra sh) rd ra fun a => a.sshiftRight sh.toNat)
/-- Meaning of ADDI. -/
def execAddi (e : EngIx) (d : Nat) (rd ra : RegF) (imm : Half) (s : State) : Out :=
  .next (s.alu2 e d (.addi e 0 rd ra imm) rd ra fun a => a + imm.signExtend 32)
/-- Meaning of ANDI. -/
def execAndi (e : EngIx) (d : Nat) (rd ra : RegF) (imm : Half) (s : State) : Out :=
  .next (s.alu2 e d (.andi e 0 rd ra imm) rd ra fun a => a &&& imm.zeroExtend 32)
/-- Meaning of ORI. -/
def execOri (e : EngIx) (d : Nat) (rd ra : RegF) (imm : Half) (s : State) : Out :=
  .next (s.alu2 e d (.ori e 0 rd ra imm) rd ra fun a => a ||| imm.zeroExtend 32)
/-- Meaning of XORI. -/
def execXori (e : EngIx) (d : Nat) (rd ra : RegF) (imm : Half) (s : State) : Out :=
  .next (s.alu2 e d (.xori e 0 rd ra imm) rd ra fun a => a ^^^ imm.zeroExtend 32)
/-- Meaning of LUI. -/
def execLui (e : EngIx) (d : Nat) (rd : RegF) (imm : Half) (s : State) : Out :=
  .next (s.plain e d (.lui e 0 rd imm) fun s => .done (s.writeF e.val rd (imm.zeroExtend 32 <<< 16) 1))
/-- Meaning of SLTI. -/
def execSlti (e : EngIx) (d : Nat) (rd ra : RegF) (imm : Half) (s : State) : Out :=
  .next (s.alu2 e d (.slti e 0 rd ra imm) rd ra fun a => flagW (decide (a.toInt < (imm.signExtend 32).toInt)))
/-- Meaning of SLTIU. -/
def execSltiu (e : EngIx) (d : Nat) (rd ra : RegF) (imm : Half) (s : State) : Out :=
  .next (s.alu2 e d (.sltiu e 0 rd ra imm) rd ra fun a => flagW (decide (a.toNat < (imm.signExtend 32).toNat)))

/-! ## Bit fields (R342) -/

/-- mask(len) as 32 bits. -/
def maskW (len : Nat) : Word := BitVec.ofNat 32 (2 ^ len - 1)

/-- Result of EXT. -/
def extW (a : Word) (pos len : Nat) : Word := (a >>> pos) &&& maskW len

/-- Result of EXTS: bit len − 1 is copied into bits [31:len]. -/
def extsW (a : Word) (pos len : Nat) : Word := sextW len (extW a pos len).toNat

/-- Result of INS. -/
def insW (old a : Word) (pos len : Nat) : Word :=
  let m := maskW len <<< pos
  (old &&& ~~~m) ||| ((a <<< pos) &&& m)

/-- Meaning of EXT. -/
def execExt (e : EngIx) (d : Nat) (rd ra : RegF) (pos len1 : BitVec 5) (s : State) : Out :=
  .next (s.alu2 e d (.ext e 0 rd ra pos len1) rd ra fun a => extW a pos.toNat (len1.toNat + 1))
/-- Meaning of EXTS. -/
def execExts (e : EngIx) (d : Nat) (rd ra : RegF) (pos len1 : BitVec 5) (s : State) : Out :=
  .next (s.alu2 e d (.exts e 0 rd ra pos len1) rd ra fun a => extsW a pos.toNat (len1.toNat + 1))
/-- Meaning of INS: rd is a source too. -/
def execIns (e : EngIx) (d : Nat) (rd ra : RegF) (pos len1 : BitVec 5) (s : State) : Out :=
  .next (s.alu3 e d (.ins e 0 rd ra pos len1) rd ra rd 1 fun a old => insW old a pos.toNat (len1.toNat + 1))

/-- Leading zeros of the low `n` bits. -/
def clzN (a : Word) : Nat → Nat
  | 0 => 0
  | n + 1 => if a.getLsbD n then 0 else 1 + clzN a n
/-- One bits among the low `n`. -/
def popN (a : Word) : Nat → Nat
  | 0 => 0
  | n + 1 => (if a.getLsbD n then 1 else 0) + popN a n

/-- Meaning of CLZ. -/
def execClz (e : EngIx) (d : Nat) (rd ra : RegF) (s : State) : Out :=
  .next (s.alu2 e d (.clz e 0 rd ra) rd ra fun a => BitVec.ofNat 32 (clzN a 32))
/-- Meaning of POPC. -/
def execPopc (e : EngIx) (d : Nat) (rd ra : RegF) (s : State) : Out :=
  .next (s.alu2 e d (.popc e 0 rd ra) rd ra fun a => BitVec.ofNat 32 (popN a 32))
/-- Meaning of BSWAP. -/
def execBswap (e : EngIx) (d : Nat) (rd ra : RegF) (s : State) : Out :=
  .next (s.alu2 e d (.bswap e 0 rd ra) rd ra fun a => BitVec.ofNat 32 (beNat (leBytes 4 a.toNat)))
/-- Meaning of BSWAPH. -/
def execBswaph (e : EngIx) (d : Nat) (rd ra : RegF) (s : State) : Out :=
  .next (s.alu2 e d (.bswaph e 0 rd ra) rd ra fun a => ((a >>> 8) &&& 0x00FF00FF) ||| ((a <<< 8) &&& 0xFF00FF00))

/-! ## CRC and hash (R351, R352) -/

/-- One CRC step over a byte for a row of Table 10-8. -/
def crcStep (poly : Nat) (c : Nat) (b : Byte) : Nat :=
  if poly = 0 then crcByteR 0xEDB88320 c b
  else if poly = 1 then crc16Byte 0x1021 c b
  else if poly = 2 then crcByteR 0x8408 c b
  else if poly = 3 then crcByteR 0xA001 c b
  else crcByteR 0xA6BC c b

/-- The accumulator after `n` bytes of a word; a 16-bit row uses and gives 16 bits. -/
def crcW (poly n : Nat) (acc a : Word) : Word :=
  let c := if poly = 0 then acc.toNat else acc.toNat % 0x10000
  BitVec.ofNat 32 ((leBytes n a.toNat).foldl (crcStep poly) c)

/-- Meaning of CRC. -/
def execCrc (e : EngIx) (d : Nat) (rd ra : RegF) (n : BitVec 5) (poly : BitVec 3) (s : State) : Out :=
  .next <| s.plain e d (.crc e 0 rd ra n poly) fun s =>
    legal (poly.toNat ≤ 4 && (n == 1 || n == 2 || n == 4)) s <|
      let (acc, s') := s.readF e.val rd
      let (a, s') := s'.readF e.val ra
      .done (s'.writeF e.val rd (crcW poly.toNat n.toNat acc a) 1)

/-- Meaning of HASH. -/
def execHash (e : EngIx) (d : Nat) (rd ra rb : RegF) (s : State) : Out :=
  .next <| s.plain e d (.hash e 0 rd ra rb) fun s =>
    let (acc, s) := s.readF e.val rd
    let (a, s) := s.readF e.val ra
    let (b, s) := s.readF e.val rb
    .done (s.writeF e.val rd (~~~(crcW 0 4 (crcW 0 4 acc a) b)) 2)

/-! ## CAM (R353) -/

/-- The lowest entry that matches. -/
def Pe.camFind (pe : Pe) (x : Dword) : Option (Nat × CamEntry) :=
  (List.range 64).findSome? fun i =>
    let c := pe.cam.rd {} i
    if c.valid && ((c.key ^^^ x) &&& c.mask) == 0 then some (i, c) else none

/-- Meaning of CAMS. -/
def execCams (e : EngIx) (d : Nat) (rd ra rb : RegF) (s : State) : Out :=
  .next <| s.plain e d (.cams e 0 rd ra rb) fun s =>
    legal (pairOk rd) s <|
      let (a, s') := s.readF e.val ra
      let (b, s') := s'.readF e.val rb
      let (r0, r1) : Word × Word :=
        match (s'.peOf e.val).camFind (b.zeroExtend 64 <<< 32 ||| a.zeroExtend 64) with
        | some (i, c) => (BitVec.ofNat 32 i, c.data)
        | none => (0x80000000, 0)
      .done ((s'.writeF e.val rd r0 3).writeF e.val (pair1 rd) r1 3)

/-- A CAM entry as its block of six words (Table 10-9). -/
def camBytes (c : CamEntry) : List Byte :=
  leBytes 8 c.key.toNat ++ leBytes 8 c.mask.toNat ++ leBytes 4 c.data.toNat ++ leBytes 4 c.valid.toNat

/-- Local bytes written from an address up, wrapping the same way. -/
def State.lmPut (s : State) (e la : Nat) (l : List Byte) : State :=
  forEach ((List.range l.length).zip l) (fun (s : State) (x : Nat × Byte) => s.setByte (lmAddr e (la + x.1)) x.2) s

/-- Meaning of CAMW. -/
def execCamw (e : EngIx) (d : Nat) (ra rb : RegF) (s : State) : Out :=
  .next <| s.plain e d (.camw e 0 ra rb) fun s =>
    let (a, s) := s.readF e.val ra
    let (b, s) := s.readF e.val rb
    let la := b.toNat % 0x10000
    if la % 4 ≠ 0 then .trap trapAlign s
    else
      let l := s.lmBytes e.val la 24
      let c : CamEntry := {
        key := BitVec.ofNat 64 (leNat (l.take 8)), mask := BitVec.ofNat 64 (leNat ((l.drop 8).take 8)),
        data := leWord l 4, valid := bitN (leWord l 5).toNat 0 }
      let pe := s.peOf e.val
      .done (s.setPe e.val { pe with cam := pe.cam.wr {} (a.toNat % 64) c })

/-- Meaning of CAMR. -/
def execCamr (e : EngIx) (d : Nat) (ra rb : RegF) (s : State) : Out :=
  .next <| s.plain e d (.camr e 0 ra rb) fun s =>
    let (a, s) := s.readF e.val ra
    let (b, s) := s.readF e.val rb
    let la := b.toNat % 0x10000
    if la % 4 ≠ 0 then .trap trapAlign s
    else .done (s.lmPut e.val la (camBytes ((s.peOf e.val).cam.rd {} (a.toNat % 64))))

end Sys2Proof.Machine
end

