-- ==== Sys2Proof/Machine/AwlMem.lean ====
section
/-! DEFINITION. Awl local memory, far accesses, duplicate queries, Lace and doorbells (R314-R322, R343-R346, R354, R355). -/
namespace Sys2Proof.Machine

/-! ## Local memory (R343, R344) -/

/-- The value a local load gives: zero-extended, or sign-extended. -/
def State.lmLoad (s : State) (e la n : Nat) (signed : Bool) : Word :=
  if signed then sextW (8 * n) (s.lmRead e la n) else BitVec.ofNat 32 (s.lmRead e la n)

/-- A local load of `n` bytes at an address that the operands give. -/
def State.loadAt (s : State) (e : Nat) (rd : RegF) (la n : Nat) (signed : Bool) : AwlRes :=
  if la % n ≠ 0 then .trap trapAlign s else .done (s.writeF e rd (s.lmLoad e la n signed) 3)

/-- A local store of the low `n` bytes of a register. -/
def State.storeAt (s : State) (e : Nat) (rs : RegF) (la n : Nat) : AwlRes :=
  if la % n ≠ 0 then .trap trapAlign s
  else
    let (v, s) := s.readF e rs
    .done (s.lmWrite e la n v)

/-- A load of the register form. -/
def State.loadReg (s : State) (e : EngIx) (d : Nat) (i : Instr) (rd ra : RegF) (imm : Half) (n : Nat) (signed : Bool) : State :=
  s.plain e d i fun s =>
    let (a, s) := s.readF e.val ra
    s.loadAt e.val rd (laOf a imm) n signed

/-- A store of the register form. -/
def State.storeReg (s : State) (e : EngIx) (d : Nat) (i : Instr) (rs ra : RegF) (imm : Half) (n : Nat) : State :=
  s.plain e d i fun s =>
    let (a, s) := s.readF e.val ra
    s.storeAt e.val rs (laOf a imm) n

/-- Meaning of LDB. -/
def execLdb (e : EngIx) (d : Nat) (rd ra : RegF) (imm : Half) (s : State) : Out := .next (s.loadReg e d (.ldb e 0 rd ra imm) rd ra imm 1 false)
/-- Meaning of LDBS. -/
def execLdbs (e : EngIx) (d : Nat) (rd ra : RegF) (imm : Half) (s : State) : Out := .next (s.loadReg e d (.ldbs e 0 rd ra imm) rd ra imm 1 true)
/-- Meaning of LDH. -/
def execLdh (e : EngIx) (d : Nat) (rd ra : RegF) (imm : Half) (s : State) : Out := .next (s.loadReg e d (.ldh e 0 rd ra imm) rd ra imm 2 false)
/-- Meaning of LDHS. -/
def execLdhs (e : EngIx) (d : Nat) (rd ra : RegF) (imm : Half) (s : State) : Out := .next (s.loadReg e d (.ldhs e 0 rd ra imm) rd ra imm 2 true)
/-- Meaning of LD. -/
def execLd (e : EngIx) (d : Nat) (rd ra : RegF) (imm : Half) (s : State) : Out := .next (s.loadReg e d (.ld e 0 rd ra imm) rd ra imm 4 false)
/-- Meaning of STB. -/
def execStb (e : EngIx) (d : Nat) (rs ra : RegF) (imm : Half) (s : State) : Out := .next (s.storeReg e d (.stb e 0 rs ra imm) rs ra imm 1)
/-- Meaning of STH. -/
def execSth (e : EngIx) (d : Nat) (rs ra : RegF) (imm : Half) (s : State) : Out := .next (s.storeReg e d (.sth e 0 rs ra imm) rs ra imm 2)
/-- Meaning of ST. -/
def execSt (e : EngIx) (d : Nat) (rs ra : RegF) (imm : Half) (s : State) : Out := .next (s.storeReg e d (.st e 0 rs ra imm) rs ra imm 4)

/-- Size in bytes of the direct form's SIZE field. -/
def ddSize (imm : Half) : Nat := 2 ^ (imm.toNat / 0x4000)

/-- The direct form's fields are as R344 states: SIZE not 3, bit 12 zero, SIGN only where it may be set. -/
def ddOk (imm : Half) (load : Bool) : Bool :=
  imm.toNat / 0x4000 != 3 && !imm.getLsbD 12 && (!imm.getLsbD 13 || (load && imm.toNat / 0x4000 != 2))

/-- Meaning of LDD. -/
def execLdd (e : EngIx) (d : Nat) (rd : RegF) (imm : Half) (s : State) : Out :=
  .next <| s.plain e d (.ldd e 0 rd imm) fun s =>
    legal (ddOk imm true) s <|
      let (b, s') := s.useSpecial e.val 1
      s'.loadAt e.val rd (laDirect b imm.toNat) (ddSize imm) (imm.getLsbD 13)

/-- Meaning of STD. -/
def execStd (e : EngIx) (d : Nat) (rs : RegF) (imm : Half) (s : State) : Out :=
  .next <| s.plain e d (.std e 0 rs imm) fun s =>
    legal (ddOk imm false) s <|
      let (b, s') := s.useSpecial e.val 1
      s'.storeAt e.val rs (laDirect b imm.toNat) (ddSize imm)

/-! ## Far accesses (R315-R322, R345) -/

/-- Registers of a far access of 2^size bytes from a field up: four for a quadword (R345). -/
def State.farRegs (s : State) (e : Nat) (r : RegF) (size : Nat) : List Nat :=
  if size = 3 then (List.range 4).map fun i => s.physOf e (r + BitVec.ofNat 5 i) else [s.physOf e r]

/-- Bytes of a far access. -/
def farBytes (size : Nat) : Nat := if size = 3 then 16 else 2 ^ size

/-- A far load enters: its flag clears and its registers are unreadable until it arrives (R320). -/
def State.farLoad (s : State) (e : Nat) (rd : RegF) (tag size kind addr err : Nat) : State :=
  let dst := s.farRegs e rd (if kind = 0 then size else 2)
  let s := (s.tagClear e tag).farPend e dst tag
  let pe := s.peOf e
  s.setPe e { pe with far := pe.far ++ [⟨tag, dst, addr, size, kind, err, pe.seq⟩], seq := pe.seq + 1 }

/-- A far store enters the store queue (R321). -/
def State.farStore (s : State) (e addr : Nat) (data : List Byte) (isReg : Bool) (err : Nat) : State :=
  let pe := s.peOf e
  s.setPe e { pe with stq := pe.stq ++ [⟨addr, data, isReg, err, pe.seq⟩], seq := pe.seq + 1 }

/-- Reads the registers of a list. -/
def State.readAll (s : State) (e : Nat) : List Nat → List Word × State
  | [] => ([], s)
  | r :: t =>
    let (w, s) := s.readPhys e r
    let (l, s) := s.readAll e t
    (w :: l, s)

/-- Meaning of FLD. -/
def execFld (e : EngIx) (d : Nat) (rd ra : RegF) (tag : OctIx) (size : BitVec 2) (off : BitVec 11) (s : State) : Out :=
  .next <| s.plain e d (.fld e 0 rd ra tag size off) fun s =>
    legal (size != 3 || quadOk rd) s <|
      let (a, s') := s.readF e.val ra
      let (fb, s') := s'.useSpecial e.val 2
      let po := pageOff a off
      let n := farBytes size.toNat
      let addr := farAddr fb po
      if po % n ≠ 0 then .trap trapAlign s'
      else if !(s'.peOf e.val).tagSet tag.val then .trap trapFtag s'
      else .done (s'.farLoad e.val rd tag.val size.toNat 0 addr (s'.portBErr (.pe e) addr n false))

/-- Meaning of FST. -/
def execFst (e : EngIx) (d : Nat) (rs ra : RegF) (tag : OctIx) (size : BitVec 2) (off : BitVec 11) (s : State) : Out :=
  .next <| s.plain e d (.fst e 0 rs ra tag size off) fun s =>
    legal (tag.val == 0 && (size != 3 || quadOk rs)) s <|
      let (a, s') := s.readF e.val ra
      let (fb, s') := s'.useSpecial e.val 2
      let po := pageOff a off
      let n := farBytes size.toNat
      let addr := farAddr fb po
      if po % n ≠ 0 then .trap trapAlign s'
      else if 16 ≤ (s'.peOf e.val).stq.length then .trap trapFstq s'
      else
        let (ws, s') := s'.readAll e.val (s'.farRegs e.val rs size.toNat)
        let l := (ws.flatMap fun w => leBytes 4 w.toNat).take n
        let (ib, s') := s'.useSpecial e.val 3
        let err := (s'.setPe e.val { s'.peOf e.val with ibank := ib.setWidth 3 }).portBErr (.pe e) addr n true
        .done (s'.farStore e.val addr l false err)

/-- Meaning of RLD. -/
def execRld (e : EngIx) (d : Nat) (rd ra : RegF) (tag : OctIx) (size : BitVec 2) (off : BitVec 11) (s : State) : Out :=
  .next <| s.plain e d (.rld e 0 rd ra tag size off) fun s =>
    let (a, s) := s.readF e.val ra
    let (rp, s) := s.useSpecial e.val 4
    let po := pageOff a off
    if size != 2 || po % 4 != 0 then .trap trapAlign s
    else if !(s.peOf e.val).tagSet tag.val then .trap trapFtag s
    else .done (s.farLoad e.val rd tag.val 2 1 (regAddr rp po) 0)

/-- Meaning of RST. -/
def execRst (e : EngIx) (d : Nat) (rs ra : RegF) (tag : OctIx) (size : BitVec 2) (off : BitVec 11) (s : State) : Out :=
  .next <| s.plain e d (.rst e 0 rs ra tag size off) fun s =>
    legal (tag.val == 0) s <|
      let (a, s') := s.readF e.val ra
      let (rp, s') := s'.useSpecial e.val 4
      let po := pageOff a off
      if size != 2 || po % 4 != 0 then .trap trapAlign s'
      else if 16 ≤ (s'.peOf e.val).stq.length then .trap trapFstq s'
      else
        let (w, s') := s'.readF e.val rs
        .done (s'.farStore e.val (regAddr rp po) (leBytes 4 w.toNat) true 0)

/-- Meaning of DDQ (R346). -/
def execDdq (e : EngIx) (d : Nat) (rd ra rb : RegF) (tag : OctIx) (path : BitVec 2) (s : State) : Out :=
  .next <| s.plain e d (.ddq e 0 rd ra rb tag path) fun s =>
    let (a, s) := s.readF e.val ra
    let (b, s) := s.readF e.val rb
    if !(s.peOf e.val).tagSet tag.val then .trap trapFtag s
    else
      let q : DduQuery := ⟨e.val, tag.val, BitVec.ofNat 4 (s.get (dduGroupGroup (s.roleOf e.val))),
        BitVec.ofNat 48 (a.toNat + b.toNat % 0x10000 * 2 ^ 32), BitVec.ofNat 16 (b.toNat / 0x10000), path.toNat⟩
      let s := s.farLoad e.val rd tag.val 2 2 0 0
      .done { s with fab := { s.fab with dduQ := s.fab.dduQ ++ [q] } }

/-! ## Lace and doorbells (R354, R355) -/

/-- Meaning of LPOST. -/
def execLpost (e : EngIx) (d : Nat) (rd ra : RegF) (m : ChanIx) (side last : Bool) (s : State) : Out :=
  .next <| s.plain e d (.lpost e 0 rd ra m side last) fun s =>
    let (a, s) := s.readF e.val ra
    let (full, s) := s.lacePost m.val side.toNat a last
    .done (s.writeF e.val rd (flagW full) 3)

/-- Meaning of LREAD. -/
def execLread (e : EngIx) (d : Nat) (rd : RegF) (m : ChanIx) (side : Bool) (s : State) : Out :=
  .next <| s.plain e d (.lread e 0 rd m side) fun s =>
    legal (pairOk rd) s <|
      let (w, info, s') := s.laceTake m.val side.toNat
      .done ((s'.writeF e.val rd w 3).writeF e.val (pair1 rd) (BitVec.ofNat 32 info) 3)

/-- Meaning of DBR. -/
def execDbr (e : EngIx) (d : Nat) (ra : RegF) (db : ChanIx) (s : State) : Out :=
  .next <| s.plain e d (.dbr e 0 ra db) fun s =>
    let (a, s) := s.readF e.val ra
    .done (s.ring db.val a)

end Sys2Proof.Machine
end

