-- ==== Sys2Proof/Machine/AwlFlow.lean ====
section
/-! DEFINITION. Awl control flow and system instructions (R302, R307, R308, R310, R321, R324, R325, R347-R350). -/
namespace Sys2Proof.Machine

/-- Condition of a branch on two registers, or on bit `n` of the first (Table 10-6). -/
def branchCond (cond n : Nat) (a b : Word) : Bool :=
  match cond with
  | 0 => a == b
  | 1 => a != b
  | 2 => decide (a.toInt < b.toInt)
  | 3 => decide (b.toInt ≤ a.toInt)
  | 4 => decide (a.toNat < b.toNat)
  | 5 => decide (b.toNat ≤ a.toNat)
  | 6 => a.getLsbD n
  | _ => !a.getLsbD n

/-- Meaning of B_COND. -/
def execBCond (e : EngIx) (d : Nat) (ra rb : RegF) (cond : BitVec 3) (target : BitVec 13) (s : State) : Out :=
  .next <| s.issue e d (.bCond e 0 ra rb cond target) true false fun s =>
    let (a, s) := s.readF e.val ra
    let (b, s) := if cond.toNat < 6 then s.readF e.val rb else (0, s)
    let take := branchCond cond.toNat rb.toNat a b
    .slots s ⟨if take then some target else none, 2, 0, none⟩

/-- Meaning of CALL (R307, R308). -/
def execCall (e : EngIx) (d : Nat) (target : BitVec 13) (s : State) : Out :=
  .next <| s.issue e d (.call e 0 target) true false fun s =>
    let (cfg, s) := s.useSpecial e.val 0
    let (ib, s) := s.useSpecial e.val 3
    let pe := s.peOf e.val
    if cfg.getLsbD 0 ∧ 14 ≤ pe.depth then .trap trapRsovf s
    else .slots (s.setPe e.val (pe.pushRet (ibPc (ib.setWidth 3) (pe.pc + 3)))) ⟨some target, 2, 1, none⟩

/-- Meaning of RET (R307, R308). An entry that nothing has written holds a value the spec does not state. -/
def execRet (e : EngIx) (d : Nat) (s : State) : Out :=
  .next <| s.issue e d (.ret e 0) true false fun s =>
    let (cfg, s) := s.useSpecial e.val 0
    let pe := s.peOf e.val
    if cfg.getLsbD 0 ∧ pe.depth = 0 then .trap trapRsunf s
    else
      let (v, pe') := pe.popRet
      let s := s.setPe e.val pe'
      let (h, s) : Half × State := match v with
        | some h => (h, s)
        | none => let (w, s) := s.draw 3; (w.setWidth 16, s)
      .slots s ⟨some (h.setWidth 13), 2, 15, some (BitVec.ofNat 3 (h.toNat / 0x2000))⟩

/-- Meaning of JR. -/
def execJr (e : EngIx) (d : Nat) (ra : RegF) (s : State) : Out :=
  .next <| s.issue e d (.jr e 0 ra) true false fun s =>
    let (a, s) := s.readF e.val ra
    .slots s ⟨some (a.setWidth 13), 2, 0, none⟩

/-- A loop of `count` starts (R324). -/
def State.loopPush (s : State) (e : Nat) (len : BitVec 10) (count : Nat) : AwlRes :=
  let (ib, s) := s.useSpecial e 3
  let pe := s.peOf e
  let start := pe.pc + 1
  let stop := pe.pc + len.zeroExtend 13
  if len = 0 ∨ 0x2000 ≤ pe.pc.toNat + len.toNat ∨ regionOf stop ≠ regionOf start then .trap trapIllegal s
  else if 4 ≤ pe.loops.length then .trap trapLoopovf s
  else if count = 0 then .skipTo s (stop + 1)
  else .done (s.setPe e { pe with loops := ⟨start, stop, ib.setWidth 3, count⟩ :: pe.loops })

/-- Meaning of LOOP. -/
def execLoop (e : EngIx) (d : Nat) (len : BitVec 10) (count : Half) (s : State) : Out :=
  .next <| s.issue e d (.loop e 0 len count) true true fun s => s.loopPush e.val len count.toNat

/-- Meaning of LOOPR: its count register written by the previous E cycle's issue gives an undefined count (Table 9-3). -/
def execLoopr (e : EngIx) (d : Nat) (len : BitVec 10) (ra : RegF) (s : State) : Out :=
  .next <| s.issue e d (.loopr e 0 len ra) true true fun s =>
    let fresh := (s.peOf e.val).prevW.contains (s.physOf e.val ra)
    let (a, s) := if fresh then s.draw 1 else s.readF e.val ra
    s.loopPush e.val len (a.toNat % 0x10000)

/-- Meaning of LPOP. -/
def execLpop (e : EngIx) (d : Nat) (s : State) : Out :=
  .next <| s.issue e d (.lpop e 0) true false fun s =>
    let pe := s.peOf e.val
    match pe.loops with
    | [] => .trap trapLoopunf s
    | l :: t =>
      let (ib, s) := s.useSpecial e.val 3
      if l.ibank = ib.setWidth 3 ∧ l.stop = pe.pc then
        -- the entry's own END: it is gone whether it would iterate or end
        .after s fun s => if 1 < l.count then s.setPe e.val { s.peOf e.val with loops := t } else s
      else .done (s.setPe e.val { pe with loops := t })

/-- Meaning of NOP. -/
def execNop (e : EngIx) (d : Nat) (s : State) : Out := .next (s.plain e d (.nop e 0) fun s => .done s)

/-- Meaning of HALT (R350). -/
def execHalt (e : EngIx) (d : Nat) (s : State) : Out :=
  .next <| s.issue e d (.halt e 0) true false fun s => .done (s.setPe e.val { s.peOf e.val with halted := true })

/-- Meaning of SYNC: the watchdog restarts. -/
def execSync (e : EngIx) (d : Nat) (s : State) : Out :=
  .next <| s.plain e d (.sync e 0) fun s => .done (s.setPe e.val { s.peOf e.val with wdog := 0 })

/-- Meaning of TRAP. -/
def execTrap (e : EngIx) (d : Nat) (c : BitVec 5) (s : State) : Out :=
  .next <| s.plain e d (.trap e 0 c) fun s => legal (c.toNat ≤ 5) s (.trap (trapSoft + c.toNat) s)

/-- Meaning of WAITF (R321). -/
def execWaitf (e : EngIx) (d : Nat) (mask : BitVec 10) (s : State) : Out :=
  .next <| s.plain e d (.waitf e 0 mask) (fun s => if (s.peOf e.val).flagsMet mask then .done s else .wait)

/-- Meaning of MFS. -/
def execMfs (e : EngIx) (d : Nat) (rd : RegF) (n : BitVec 4) (s : State) : Out :=
  .next <| s.plain e d (.mfs e 0 rd n) fun s =>
    let (w, s) := s.useSpecial e.val n.toNat
    .done (s.writeF e.val rd w 1)

/-- Meaning of MTS. -/
def execMts (e : EngIx) (d : Nat) (n : BitVec 4) (ra : RegF) (s : State) : Out :=
  .next <| s.plain e d (.mts e 0 n ra) fun s =>
    let (a, s) := s.readF e.val ra
    .done (s.setSpecial e.val n.toNat a)

/-- The E-domain copy of the FRC as an engine reads it (R191): a multiple of 1 ns within ±1 ns of the E cycle's stamp. From
one load of the copy to the next it advances by 1 ns per E cycle; at a load, one for each T cycle, it takes a free place within
those bounds, not before the latest reading unless the FRC has started anew. A frozen FRC is read as it stands (R224).
DEDUCED, assumption row 181. -/
def State.eCopy (s : State) (e : Nat) : Stamp × State :=
  let c := (s.peOf e).cycle
  let f := s.tb.frc
  let k := s.tb.ticks
  let keep (t : Stamp) (s : State) : Stamp × State := (t, s.setPe e { s.peOf e with tsr := some (k, f, c, t) })
  let near (w : Word) (k : Nat) : Int := ((w.toNat % k : Nat) : Int)
  let fresh : Stamp × State :=
    let (w, s) := s.draw 10
    keep (stampAdd s.nowStamp (8 * near w 6 - 8)) s
  if !s.tb.runs then (s.nowStamp, s)
  else match (s.peOf e).tsr with
    | some (k', f', c', t) =>
      let go : Int := 8 * ((c - c').toNat : Int)
      let base := stampDiff s.nowStamp t
      if f' + BitVec.ofNat 48 (k - k') ≠ f then fresh
      else if k' = k then keep (stampAdd t (min go (base + 32))) s
      else
        let (w, s) := s.draw 10
        let u := go + 8 * near w 5 - 16
        keep (stampAdd t (max 0 (min (max u (base - 8)) (base + 32)))) s
    | none => fresh

/-- Meaning of TSR (R191). -/
def execTsr (e : EngIx) (d : Nat) (rd : RegF) (s : State) : Out :=
  .next <| s.plain e d (.tsr e 0 rd) fun s =>
    legal (pairOk rd) s <|
      let (t, s') := s.eCopy e.val
      .done ((s'.writeF e.val rd (BitVec.ofNat 32 t.toNat) 2).writeF e.val (pair1 rd) (BitVec.ofNat 32 (t.toNat / 2 ^ 32)) 2)

/-- Registers whose result has not landed hold values the checkpoint does not state. -/
def State.hazSettle (s : State) (e : Nat) : List Hazard → Pe × State
  | [] => (s.peOf e, s)
  | h :: t =>
    let (pe, s) := s.hazSettle e t
    if h.tag.isNone && h.live then
      let (w, s) := s.draw 1
      ({ pe with regs := pe.regs.wr 0 h.reg w }, s)
    else (pe, s)

/-- The engine state `pe` with the special register that the issue before wrote as CKPT finds it: old or new (Table 9-3). -/
def State.spSettle (s : State) (e : Nat) (pe : Pe) : Pe × State :=
  match (s.peOf e).spPrev with
  | some (k, _) =>
    let (w, s) := s.useSpecial e k
    (match k with
      | 7 => { pe with ferrTag := w.setWidth 8, storeErr := w.getLsbD 8 }
      | 12 => { pe with resumed := w.getLsbD 0 }
      | _ => ((s.setPe e pe).setSpecial e k w).peOf e, s)
  | none => (pe, s)

/-- CKPT takes the engine's state; the copy begins (R288). DESIGN CHOICE, assumption row 75. -/
def State.takeCkpt (s : State) (e : Nat) : State :=
  let n := s.roleOf e
  let (ranges, cut) := s.ckptRanges e n
  let (pe, s) := s.hazSettle e (s.peOf e).hazards
  let (pe, s) := s.spSettle e pe
  let c : Ckpt := ⟨pe, s.reg (peImageName n), BitVec.ofNat 16 (s.get (peImageVerVer n)), ranges, []⟩
  let s := { s with fab := { s.fab with ckptCopy := s.fab.ckptCopy.wr none e (some c) } }
  let s := s.putb (peCkptStatBusy e) true
  if cut then s.err (pgPe e) 11 else s

/-- Meaning of CKPT. -/
def execCkpt (e : EngIx) (d : Nat) (s : State) : Out :=
  .next <| s.issue e d (.ckpt e 0) true false fun s =>
    if (s.fab.ckptCopy.rd none e.val).isSome then .wait else .after s fun s => s.takeCkpt e.val

end Sys2Proof.Machine
end

