-- ==== Sys2Proof/Machine/AwlStream.lean ====
section
/-! DEFINITION. Awl stream instructions (R355-R362, Tables 10-11 to 10-13). -/
namespace Sys2Proof.Machine

/-- Count field N[3:0], and the offset N[10:4] of SPEEK. -/
def cntOf (n : BitVec 11) : Nat := n.toNat % 16
def offOf (n : BitVec 11) : Nat := n.toNat / 16

/-- The count of SRD, SWR and SINS is 1-8, BE only up to 4, a pair from 5 up (R338, Table 10-11). -/
def cntOk (r : RegF) (be : Bool) (n : BitVec 11) : Bool :=
  n.toNat / 16 == 0 && decide (1 ≤ cntOf n ∧ cntOf n ≤ 8) && (!be || decide (cntOf n ≤ 4)) && (decide (cntOf n ≤ 4) || pairOk r)

/-- Words that `n` stream bytes give (R357). -/
def packWords (be : Bool) (l : List Byte) : Word × Word :=
  if be then (BitVec.ofNat 32 (beNat l), 0)
  else (BitVec.ofNat 32 (leNat (l.take 4)), BitVec.ofNat 32 (leNat (l.drop 4)))

/-- Stream bytes that words give (R357). -/
def unpackWords (be : Bool) (n : Nat) (a b : Word) : List Byte :=
  if be then beBytes n a.toNat else (leBytes 4 a.toNat ++ leBytes 4 b.toNat).take n

/-- Writes what a stream read gives: r, and r.1 beyond four bytes. -/
def State.streamOut (s : State) (e : Nat) (r : RegF) (be : Bool) (n : Nat) (l : List Byte) : State :=
  let (a, b) := packWords be l
  let s := s.writeF e r a 2
  if 4 < n then s.writeF e (pair1 r) b 2 else s

/-- Reads the register, or pair, a stream write gives. DEDUCED, assumption row 77. -/
def State.streamIn (s : State) (e : Nat) (r : RegF) (be : Bool) (n : Nat) : List Byte × State :=
  let (a, s) := s.readF e r
  let (b, s) := if 4 < n then s.readF e (pair1 r) else (0, s)
  (unpackWords be n a b, s)

/-- `n` bytes of a frame from a position; bytes beyond its last one read as 0 (R357). -/
def RxFrame.slice (f : RxFrame) (pos n : Nat) : List Byte :=
  let l := (f.bytes.drop pos).take n
  l ++ List.replicate (n - l.length) 0

/-- A skip to the data end is incomplete: the read position is not known yet. -/
def Stream.atRest (st : Stream) : Bool := st.skips.any fun x => x.count.isNone

/-- `n` bytes at `off` beyond the read position can be read: they are there, or the frame has ended. While a counted skip is
incomplete the read position is certain only if it lies short of what may be the received FCS of a lane frame (R359). -/
def Stream.readable (st : Stream) (lane : Bool) (f : RxFrame) (off n : Nat) : Bool :=
  let sure := st.skips == [] || decide (st.pos + (if lane then 4 else 0) ≤ f.bytes.length)
  !st.atRest && ((f.ended.isSome && st.skips == []) || (sure && decide (st.pos + off + n ≤ f.bytes.length)))

/-- Words of an Eyelet FIFO in that a stream port finds: none while wave capture is its sink (R446). -/
def State.eyeIn (s : State) (a : Nat) : List Word := if s.bit (eyeSinkWcap a) then [] else (s.eyeOf a).fin

/-- Meaning of SRD. -/
def execSrd (e : EngIx) (d : Nat) (r : RegF) (pair : Fin 2) (be : Bool) (n : BitVec 11) (s : State) : Out :=
  .next <| s.plain e d (.srd e 0 r pair be n) (fun s =>
    let (m, p) := (e.val, pair.val)
    let (kind, a) := s.rxBind m p
    legal (cntOk r be n && (kind != kindEyelet || cntOf n == 4)) s <|
      if kind = kindNone then .wait
      else if kind = kindEyelet then
        match s.eyeIn a with
        | [] => .wait
        | w :: t => .done ((s.setEye a { s.eyeOf a with fin := t }).streamOut m r be 4 (leBytes 4 w.toNat))
      else
        let s := s.rxOpen m p
        let st := s.strm m p
        match st.frames with
        | [] => .wait
        | f :: _ =>
          let k := cntOf n
          if !st.readable (kind == kindLane) f 0 k then .wait
          else
            let pos := min (st.pos + k) f.bytes.length
            let s := s.setStrm m p { st with pos := pos, taken := st.taken + (pos - st.pos) }
            .done (s.streamOut m r be k (f.slice st.pos k)))

/-- Meaning of SPEEK. -/
def execSpeek (e : EngIx) (d : Nat) (r : RegF) (pair : Fin 2) (be : Bool) (n : BitVec 11) (s : State) : Out :=
  .next <| s.plain e d (.speek e 0 r pair be n) (fun s =>
    let (m, p) := (e.val, pair.val)
    let (kind, _) := s.rxBind m p
    let k := cntOf n
    legal (decide (1 ≤ k ∧ k ≤ 4) && kind != kindEyelet) s <|
      let st := s.strm m p
      match s.rxFrame m p with
      | none => .wait
      | some f =>
        if kind = kindNone ∨ !st.readable (kind == kindLane) f (offOf n) k then .wait
        else .done (s.streamOut m r be k (f.slice (st.pos + offOf n) k)))

/-- The end mark of an SWR or SINS in a lane: the data end follows the bytes just given; K orders a stomp (R360). -/
def State.laneMark (s : State) (m p k : Nat) (kill : Bool) : State :=
  let st := s.strm m p
  let s := s.setStrm m p { st with
    declared := true, outEnd := true, endAt := some st.taken, stomped := st.stomped || kill }
  let s := if kill then s.count (peKills m) else s
  s.laneFinish m p k false false

/-- Meaning of SWR. -/
def execSwr (e : EngIx) (d : Nat) (r : RegF) (pair : Fin 2) (be : Bool) (n : BitVec 11) (endMark kill : Bool) (s : State) : Out :=
  .next <| s.plain e d (.swr e 0 r pair be n endMark kill) (fun s =>
    let (m, p) := (e.val, pair.val)
    let (kind, a) := s.txBind m p
    let k := cntOf n
    let st := s.strm m p
    legal (cntOk r be n && (!kill || endMark) && (kind != kindEyelet || (k == 4 && !endMark))
        && !(kind == kindLane && st.declared)) s <|
      if kind = kindNone then .done s
      else if st.skips ≠ [] then .wait
      else if kind = kindEyelet then
        if !dcqCredit .eyeletOut (s.eyeOf a).fout.length then .wait
        else
          let (l, s) := s.streamIn m r be 4
          .done (s.setEye a { s.eyeOf a with fout := (s.eyeOf a).fout ++ [BitVec.ofNat 32 (leNat l)] })
      else if kind = kindQueue then
        if !s.injTakes m p then .wait
        else
          let (l, s) := s.streamIn m r be k
          let s := s.setStrm m p { st with inj := st.inj ++ l }
          if !endMark then .done s
          else if kill then .done (s.setStrm m p { st with inj := [] })
          else .done (s.injEnd m p)
      else if st.taken < st.given + k then .trap trapIllegal s
      else
        let (l, s) := s.streamIn m r be k
        let s := (s.setStrm m p { s.strm m p with given := st.given + k }).laneGive m p a l
        .done (if endMark then s.laneMark m p a kill else s))

/-- Meaning of SINS (R358). -/
def execSins (e : EngIx) (d : Nat) (r : RegF) (pair : Fin 2) (be : Bool) (n : BitVec 11) (endMark kill : Bool) (s : State) : Out :=
  .next <| s.plain e d (.sins e 0 r pair be n endMark kill) (fun s =>
    let (m, p) := (e.val, pair.val)
    let (kind, a) := s.txBind m p
    let k := cntOf n
    let st := s.strm m p
    legal (cntOk r be n && (!kill || endMark) && kind == kindLane && !st.declared) s <|
      if st.skips ≠ [] ∨ st.frames = [] then .wait
      else if 8192 < s.laneOcc a + k then .done (s.setStrm m p { st with insRefused := true })
      else
        let (l, s) := s.streamIn m r be k
        let s := (s.setStrm m p { s.strm m p with insd := st.insd + k }).laneGive m p a l
        .done (if endMark then s.laneMark m p a kill else s))

/-- A skip or deletion is issued: its read position moves at once, the bytes follow as they arrive (R359). -/
def State.skipIssue (s : State) (m p count : Nat) (deleting endMark kill : Bool) : State :=
  let s := s.rxOpen m p
  let st := s.strm m p
  let c := if count = 0 then none else some count
  let lane := (s.rxBind m p).1 == kindLane
  let s := s.setStrm m p { st with
    skips := st.skips ++ [⟨c, st.pos, 0, deleting, endMark, kill⟩], hw := if st.skips = [] then st.pos else st.hw
    pos := st.pos + count, declared := st.declared || endMark, stomped := st.stomped || (kill && lane) }
  (if kill && lane then s.count (peKills m) else s).skipRun m p

/-- Count of SDEL and SSKIP: N, or ra[13:0] with RN = 1 (R356). -/
def State.skipCount (s : State) (e : Nat) (ra : RegF) (rn : Bool) (n : BitVec 11) : Nat × State :=
  if rn then let (a, s) := s.readF e ra; (a.toNat % 0x4000, s) else (n.toNat, s)

/-- Fields of SDEL and SSKIP that must be zero (R356). -/
def skipOk (ra : RegF) (rn : Bool) (n : BitVec 11) (endMark kill : Bool) : Bool :=
  (if rn then n == 0 else ra == 0) && (!kill || endMark)

/-- Meaning of SDEL. -/
def execSdel (e : EngIx) (d : Nat) (ra : RegF) (pair : Fin 2) (rn : Bool) (n : BitVec 11) (endMark kill : Bool)
    (s : State) : Out :=
  .next <| s.plain e d (.sdel e 0 ra pair rn n endMark kill) fun s =>
    let (m, p) := (e.val, pair.val)
    let (kind, _) := s.rxBind m p
    let ok := (kind == kindLane && !(endMark && (s.strm m p).declared)) || (kind == kindQueue && !endMark)
    legal (skipOk ra rn n endMark kill && ok) s <|
      let (c, s') := s.skipCount m ra rn n
      .done (s'.skipIssue m p c true endMark kill)

/-- Meaning of SSKIP. -/
def execSskip (e : EngIx) (d : Nat) (ra : RegF) (pair : Fin 2) (rn : Bool) (n : BitVec 11) (endMark kill : Bool)
    (s : State) : Out :=
  .next <| s.plain e d (.sskip e 0 ra pair rn n endMark kill) fun s =>
    let (m, p) := (e.val, pair.val)
    let rx := s.rxBind m p
    let tx := s.txBind m p
    let ok := (rx.1 == kindLane && tx == rx && !(s.strm m p).declared) || (rx.1 == kindQueue && tx.1 == kindQueue)
    legal (skipOk ra rn n endMark kill && ok) s <|
      let (c, s') := s.skipCount m ra rn n
      .done (s'.skipIssue m p c false endMark kill)

/-- The status word of a pair (Table 10-13). -/
def State.seofWord (s : State) (m p : Nat) : Nat :=
  let (kind, a) := s.rxBind m p
  let (tk, b) := s.txBind m p
  if kind = kindNone then 0
  else if kind = kindEyelet then
    (s.eyeIn a).length + (if tk = kindEyelet then (16 - (s.eyeOf b).fout.length) * 0x100 else 0)
  else
    let st := s.strm m p
    let f := (s.rxFrame m p).getD ⟨[], none, false, none, none⟩
    let bit (i : Nat) (c : Bool) : Nat := if c then 1 <<< i else 0
    bit 0 (f.bytes != []) + bit 1 f.ended.isSome
      + bit 2 (f.ended.isSome && !st.atRest && decide (f.bytes.length ≤ st.pos))
      + bit 3 (f.ended == some true) + bit 4 st.declared + bit 5 st.insRefused + bit 6 (st.skips != [])
      + bit 7 (kind == kindLane && (st.stomped || f.ended == some true)) + f.bytes.length % 0x4000 * 0x10000

/-- Meaning of SEOF. -/
def execSeof (e : EngIx) (d : Nat) (r : RegF) (pair : Fin 2) (s : State) : Out :=
  .next <| s.plain e d (.seof e 0 r pair) fun s => .done (s.writeF e.val r (BitVec.ofNat 32 (s.seofWord e.val pair.val)) 2)

/-- Meaning of SNXT (R361). -/
def execSnxt (e : EngIx) (d : Nat) (pair : Fin 2) (s : State) : Out :=
  .next <| s.plain e d (.snxt e 0 pair) (fun s =>
    let (m, p) := (e.val, pair.val)
    let (kind, k) := s.rxBind m p
    legal (kind == kindLane || kind == kindQueue) s <|
      let s := s.rxOpen m p
      let st := s.strm m p
      match st.frames with
      | [] => .wait
      | f :: _ =>
        if f.ended.isNone ∨ st.skips ≠ [] then .wait
        else
          let s := if kind = kindLane then (if s.laneFull k then s.laneCut k else s.laneFinish m p k false true) else s
          let s := if kind = kindLane ∧ !(s.strm m p).outDone then
              (s.laneFin m p k true false (s.laneOutLen k)).cnt (s.get (fabLaneCfgDst k)) 40
            else s
          .done (s.rxNext m p))

end Sys2Proof.Machine
end

