-- ==== Sys2Proof/Machine/Eyelet.lean ====
section
/-! DEFINITION. Eyelet pin state machines: steps, actions, stalls, program changes, starting (R427-R454). -/
namespace Sys2Proof.Machine

/-! ## Configuration as it acts -/

/-- RX_LEN and TX_LEN: 0 and values above 32 act as 32 (R435). -/
def lenOf (v : Nat) : Nat := if v = 0 ∨ 32 < v then 32 else v
def State.rxLen (s : State) (n : Nat) : Nat := lenOf (s.get (eyeCfgRxLen n))
def State.txLen (s : State) (n : Nat) : Nat := lenOf (s.get (eyeCfgTxLen n))

/-- DIV as it acts (R427). -/
def State.eyeDiv (s : State) (n : Nat) : Nat := max 1 (s.get (eyeClkdivDiv n))

/-- The four output bits of an engine: DEFAULT_OUT unless it is ON (R438). -/
def State.eyeOut (s : State) (n : Nat) : Nat := if s.on (pgEye n) then (s.eyeOf n).out.toNat else s.get (eyeCfgDefaultOut n)

/-- Output bit of code 4m + b. -/
def State.outBit (s : State) (code : Nat) : Bool := bitN (s.eyeOut (code / 4)) (code % 4)

/-- Level of a pin after IN_INV (R449). -/
def State.pinIn (s : State) (pins : Dword) (p : Nat) : Bool := decide (p < 64) && (pins.getLsbD p != s.bit (eyepPinInInv p))

/-- Engines of one clock group: aligned by the same restart, with equal DIV (R428). -/
def State.sameGroup (s : State) (n m : Nat) : Bool :=
  (s.eyeOf m).group != 0 && (s.eyeOf m).group == (s.eyeOf n).group && s.eyeDiv m == s.eyeDiv n

/-- Output bit of code 4m + b as engine `n` reads it: of another engine of its clock group, the bit set in an earlier
Y cycle (R433). DEDUCED, assumption row 214. -/
def State.outRead (s : State) (n code : Nat) : Bool :=
  let m := code / 4
  let x := s.eyeOf m
  if s.sameGroup n m && s.on (pgEye m) && decide ((s.eyeOf n).cycles < x.cycles) then bitN x.outWas.toNat (code % 4)
  else s.outBit code

/-- What a pad is driven with, none while it is released (Table 13-5, R451). -/
def State.padOut (s : State) (p : Nat) : Option Bool :=
  if !s.on pgEyep || s.chip.clockLost || !s.chip.powered then none
  else
    let src := s.get (eyepPinOutSrc p)
    let v := (if src < 64 then s.outBit src else src == 65) != s.bit (eyepPinOutInv p)
    match s.get (eyepPinOeMode p) with
    | 0 => none
    | 1 => some v
    | 2 => if s.outBit (s.get (eyepPinOeSrc p)) then some v else none
    | _ => if v then none else some false

/-- TXS holds no bit still to send: at the start, and while TXN equals TX_LEN (R435). -/
def State.txsEmpty (s : State) (n : Nat) : Bool := (s.eyeOf n).txEmpty || (s.eyeOf n).txn == s.txLen n

/-- An input of a row, at the start of the step (Table 13-3). DESIGN CHOICE, assumption row 104. -/
def State.eyeInput (s : State) (n : Nat) (pins : Dword) (code : Nat) : Bool :=
  let x := s.eyeOf n
  if code < 0x40 then s.pinIn pins code
  else if code < 0x80 then s.outRead n (code - 0x40)
  else match code with
    | 0x80 => x.rxh.isSome
    | 0x81 => x.txh.isNone && x.fout.isEmpty
    | 0x82 => x.cnt0 == 0
    | 0x83 => x.cnt1 == 0
    | 0x84 => x.rxn != 0
    | 0x85 => s.txsEmpty n
    | 0x87 => true
    | _ => decide (0x88 ≤ code ∧ code < 0x98) && x.latches.getLsbD (code - 0x88)

/-! ## Arcs (Table 13-2) -/

def arcNext (a : Word) : BitVec 5 := BitVec.ofNat 5 (bitsOf a 0 5)
def arcFall (a : Word) : Bool := a.getLsbD 5
def arcOut (a : Word) : BitVec 4 := BitVec.ofNat 4 (bitsOf a 6 4)
def arcKeep (a : Word) : Bool := a.getLsbD 10
def arcAct (a : Word) : Nat := bitsOf a 12 4
def arcArg (a : Word) : Nat := bitsOf a 16 8

/-- The row of a state as the registers hold it. -/
def State.eyeRow (s : State) (n st : Nat) : List Word :=
  s.reg (eyeRowSel n st) :: (List.range 4).map fun a => s.reg (eyeRowArc n st a)

/-- The engine enters the arc's next state and loads its row; a wrap takes a staged circuit over (R430, R439, R440). -/
def State.eyeEnter (s : State) (n : Nat) (arc : Word) : State :=
  let x := s.eyeOf n
  let last := s.get (eyeCircuitLast n)
  let (st, s) : BitVec 5 × State :=
    if !arcFall arc then (arcNext arc, s)
    else if x.state.toNat ≠ last then (x.state + 1, s)
    else match x.staged with
      | some (f, l) =>
        let s := ((s.put (eyeCircuitFirst n) f.toNat).put (eyeCircuitLast n) l.toNat).putb (eyeCircuitPending n) false
        (f, s.setEye n { x with staged := none })
      | none => (BitVec.ofNat 5 (s.get (eyeCircuitFirst n)), s)
  s.setEye n { s.eyeOf n with
    state := st, row := s.eyeRow n st.toNat, stall := none, stallAct := 0, waitLeft := 0, wordReady := none, stampHeld := none }

/-! ## Actions (Table 13-4) -/

/-- A word right-aligned from `k` bits of RXS (R435). -/
def rxWord (msb : Bool) (rxs : Word) (k : Nat) : Word :=
  if k = 0 then 0 else if msb then BitVec.ofNat 32 (rxs.toNat % 2 ^ k) else BitVec.ofNat 32 (rxs.toNat / 2 ^ (32 - k))

/-- A completed word moves to RXH, or stalls in RXS; the flag says it stalls. -/
def Eye.complete (x : Eye) (w : Word) : Eye × Bool :=
  if x.rxh.isNone then ({ x with rxh := some w, rxs := 0, rxn := 0 }, false) else ({ x with wordReady := some w }, true)

/-- Bits SIN takes: how many and their value. DEDUCED, assumption row 105. -/
def State.sinBits (s : State) (n arg : Nat) (in0 : Bool) (pins : Dword) : Nat × Nat :=
  if arg = 0 then (1, if in0 then 1 else 0)
  else
    let w := min arg 16
    let base := s.get (eyeInBasePin n)
    (w, ((List.range w).map fun i => if s.pinIn pins (base + i) then 2 ^ i else 0).sum)

/-- SIN (R435). -/
def State.eyeSin (s : State) (n arg : Nat) (in0 : Bool) (pins : Dword) : State × Nat :=
  let x := s.eyeOf n
  let (w, v) := s.sinBits n arg in0 pins
  let msb := s.bit (eyeCfgMsbFirst n)
  let rxs : Word := if msb then BitVec.ofNat 32 (x.rxs.toNat * 2 ^ w + v) else BitVec.ofNat 32 (x.rxs.toNat / 2 ^ w + v * 2 ^ (32 - w))
  let x := { x with rxs := rxs, rxn := x.rxn + w }
  if s.rxLen n ≤ x.rxn then
    let (x, st) := x.complete (rxWord msb rxs (s.rxLen n))
    (s.setEye n x, if st then 1 else 0)
  else (s.setEye n x, 0)

/-- FLUSH (R435). -/
def State.eyeFlush (s : State) (n : Nat) : State × Nat :=
  let x := s.eyeOf n
  let (x, st) := x.complete (rxWord (s.bit (eyeCfgMsbFirst n)) x.rxs x.rxn)
  (s.setEye n x, if st then 1 else 0)

/-- LOAD: none where no transmit word is ready (R435). -/
def Eye.load (x : Eye) : Option Eye :=
  x.txh.map fun w => { x with txs := w, txn := 0, txEmpty := false, txh := none }

/-- SOUT takes one bit of TXS to output bit `b` (R435). -/
def State.sendBit (s : State) (n : Nat) (x : Eye) (b : Nat) : Eye :=
  let len := s.txLen n
  let msb := s.bit (eyeCfgMsbFirst n)
  let v := x.txs.getLsbD (if msb then len - 1 else 0)
  { x with
    txs := if msb then x.txs <<< 1 else x.txs >>> 1, txn := x.txn + 1
    out := if v then x.out ||| BitVec.ofNat 4 (1 <<< b) else x.out &&& ~~~BitVec.ofNat 4 (1 <<< b) }

/-- SOUT and LOAD. -/
def State.eyeSout (s : State) (n b : Nat) : State × Nat :=
  let x := s.eyeOf n
  if !s.txsEmpty n then (s.setEye n (s.sendBit n x b), 0)
  else match x.load with
    | some x => (s.setEye n (s.sendBit n x b), 0)
    | none => (s, 2)
def State.eyeLoad (s : State) (n : Nat) : State × Nat :=
  match (s.eyeOf n).load with
  | some x => (s.setEye n x, 0)
  | none => (s, 2)

/-- Words of a stamp, the low word first (R447). -/
def stampWords (t : Stamp) : List Word := [BitVec.ofNat 32 t.toNat, BitVec.ofNat 32 (t.toNat / 2 ^ 32)]

/-- A stamp enters the FIFO in if it has two credits and RXH is empty. -/
def Eye.stampIn (x : Eye) (t : Stamp) : Option Eye :=
  if x.rxh.isNone ∧ x.fin.length ≤ 14 then some { x with fin := x.fin ++ stampWords t } else none

/-- STAMP (R447). -/
def State.eyeStamp (s : State) (n arg : Nat) : State × Nat :=
  let x := s.eyeOf n
  let t := s.nowStamp
  if arg % 2 = 0 then
    if x.stamps.length < 4 then (s.setEye n { x with stamps := x.stamps ++ [t] }, 0)
    else ((s.putb (eyeStampStatOvf n) true).irq' (pgEye n) 1, 0)
  else match x.stampIn t with
    | some x => (s.setEye n x, 0)
    | none => (s.setEye n { x with stampHeld := some t }, 4)

/-- IRQ (R448). -/
def State.eyeIrq (s : State) (n arg : Nat) : State :=
  let s := (s.irq' (pgEye n) (4 + arg % 4)).trigSource 4 n 0
  if bitN arg 2 && s.bit (eyeIrqDbEn n) then s.ring (s.get (eyeIrqDbDb n)) (BitVec.ofNat 32 (1 <<< s.get (eyeIrqDbBit n))) else s

/-- Output bit `b` keeps its value of `was`: that of a stalled SOUT waits for the load (R437). -/
def Eye.keepBit (x : Eye) (b : Nat) (was : BitVec 4) : Eye :=
  let m := BitVec.ofNat 4 (1 <<< b)
  { x with out := (x.out &&& ~~~m) ||| (was &&& m) }

/-- An action: the state after it, and the kind of stall it begins, 0 for none (STALL_ACT of Table 13-9). -/
def State.eyeAct (s : State) (n act arg : Nat) (in0 : Bool) (pins : Dword) : State × Nat :=
  let x := s.eyeOf n
  match act with
  | 0 => (s, 0)
  | 1 => s.eyeSin n arg in0 pins
  | 2 => s.eyeSout n (arg % 4)
  | 3 => s.eyeFlush n
  | 4 => s.eyeLoad n
  | 5 => (s.setEye n { x with cnt0 := x.cnt0 - 1 }, 0)
  | 6 => (s.setEye n { x with cnt1 := x.cnt1 - 1 }, 0)
  | 7 => (s.setEye n { x with cnt0 := BitVec.ofNat 16 (s.get (eyeCountInitCnt0Init n)) }, 0)
  | 8 => (s.setEye n { x with cnt1 := BitVec.ofNat 16 (s.get (eyeCountInitCnt1Init n)) }, 0)
  | 9 => (s.setEye n { x with waitLeft := arg }, if arg = 0 then 0 else 3)
  | 10 => (s.eyeIrq n arg, 0)
  | 11 => s.eyeStamp n arg
  | _ => (s.err (pgEye n) 10, 0)

/-- The engine latches an arc whose action stalls or waits (R437). DEDUCED, assumption row 102. -/
def State.eyeStall (s : State) (n : Nat) (arc : Word) (kind : Nat) : State :=
  s.setEye n { s.eyeOf n with stall := some arc, stallAct := kind }

/-! ## Steps (R430, R442) -/

/-- The engine is ON with RUN = 1 and is not held by JTAG or BOOT_SYNC. -/
def State.eyeRuns (s : State) (n : Nat) : Bool :=
  let x := s.eyeOf n
  s.on (pgEye n) && s.bit (eyeCfgRun n) && !x.waitsBootSync && (!x.jtagHalt || decide (0 < x.jtagSteps))

/-- A step that JTAG allowed is used (R520). -/
def State.eyeStepUsed (s : State) (n : Nat) : State :=
  let x := s.eyeOf n
  if x.jtagHalt then s.setEye n { x with jtagSteps := x.jtagSteps - 1 } else s

/-- The pads' levels become known. -/
def State.pinsSeen (s : State) (pins : Dword) : State := { s with chip := { s.chip with pads := pins } }

/-- Level of a pad: as it is driven, else as last seen from outside. DESIGN CHOICE, assumption row 104. -/
def State.padLevel (s : State) (p : Nat) : Bool := (s.padOut p).getD (s.chip.pads.getLsbD p)

/-- PIN_IN_LO or PIN_IN_HI: the pads' levels after IN_INV, of 32 pins from `base` (R449). -/
def State.pinWord (s : State) (base : Nat) : Word :=
  BitVec.ofNat 32 (((List.range 32).map fun i => if s.padLevel (base + i) != s.bit (eyepPinInInv (base + i)) then 2 ^ i else 0).sum)

/-- A Y cycle of an engine passes, whether or not it makes a step. -/
def State.eyeCycle (s : State) (n : Nat) (pins : Dword) : State :=
  let x := s.eyeOf n
  (s.pinsSeen pins).setEye n { x with cycles := x.cycles + 1, outWas := BitVec.ofNat 4 (s.eyeOut n) }

/-- One step of an engine that is not stalled: its one-shot arc, else the arc its inputs choose. -/
def State.eyeStep (s : State) (n : Nat) (pins : Dword) : State :=
  let x := s.eyeOf n
  let sel := x.row.headD 0
  let c0 := bitsOf sel 0 8
  let c1 := bitsOf sel 8 8
  let i0 := s.eyeInput n pins c0
  let i1 := s.eyeInput n pins c1
  let used (c : Nat) (v : Bool) : Half := if v ∧ 0x88 ≤ c ∧ c < 0x98 then BitVec.ofNat 16 (1 <<< (c - 0x88)) else 0
  let (arc, in0, clear, s) : Word × Bool × Half × State :=
    match x.once with
    | some a =>
      -- A one-shot step reads no input: the bit its SIN would shift is open.
      let (w, s) := s.draw 4
      (a, w.getLsbD 0, 0, s)
    | none => (x.row.getD (1 + (if i1 then 2 else 0) + (if i0 then 1 else 0)) 0, i0, used c0 i0 ||| used c1 i1, s)
  let s := s.setEye n { x with
    once := none, stepped := true, latches := x.latches &&& ~~~clear, out := if arcKeep arc then x.out else arcOut arc }
  let s := s.count (eyeSteps n)
  let (s, kind) := s.eyeAct n (arcAct arc) (arcArg arc) in0 pins
  if kind = 0 then s.eyeEnter n arc
  else if kind = 2 ∧ arcAct arc = 2 then (s.setEye n ((s.eyeOf n).keepBit (arcArg arc % 4) x.out)).eyeStall n arc kind
  else s.eyeStall n arc kind

/-- Meaning of EYELET_STEP: one Y cycle of an engine, a step where it runs. While it stalls or waits, the cycle only
counts (R437).
DESIGN CHOICE, assumption row 101. -/
def execEyeletStep (n : HexIx) (pins : Dword) (s : State) : Out :=
  .next <|
    let n := n.val
    if !s.eyeRuns n then s.eyeCycle n pins
    else
      let s := (s.eyeCycle n pins).eyeStepUsed n
      let x := s.eyeOf n
      if x.stall.isNone then s.eyeStep n pins
      else if x.stallAct = 3 then s.setEye n { x with waitLeft := x.waitLeft - 1 }
      else s.count (eyeStalls n)

/-- An action by itself: its effect on an engine that runs and does not stall. One that stalls keeps the engine in its
state. -/
def State.actAlone (s : State) (n act arg : Nat) (in0 : Bool) (pins : Dword) : State :=
  let x := s.eyeOf n
  if !s.eyeRuns n || x.stall.isSome then s
  else
    let (s, kind) := (if act = 1 then s.pinsSeen pins else s).eyeAct n act arg in0 pins
    if kind = 0 then s
    else s.eyeStall n (BitVec.ofNat 32 (x.state.toNat + 0x400 + act * 0x1000 + arg * 0x10000)) kind

/-- Meaning of NONE. -/
def execNone (n : HexIx) (s : State) : Out := .next (s.actAlone n.val 0 0 false 0)
/-- Meaning of SIN. -/
def execSin (n : HexIx) (arg : Byte) (in0 : Bool) (pins : Dword) (s : State) : Out :=
  .next (s.actAlone n.val 1 arg.toNat in0 pins)
/-- Meaning of SOUT. -/
def execSout (n : HexIx) (arg : Byte) (s : State) : Out := .next (s.actAlone n.val 2 arg.toNat false 0)
/-- Meaning of FLUSH. -/
def execFlush (n : HexIx) (s : State) : Out := .next (s.actAlone n.val 3 0 false 0)
/-- Meaning of LOAD. -/
def execLoad (n : HexIx) (s : State) : Out := .next (s.actAlone n.val 4 0 false 0)
/-- Meaning of DEC0. -/
def execDec0 (n : HexIx) (s : State) : Out := .next (s.actAlone n.val 5 0 false 0)
/-- Meaning of DEC1. -/
def execDec1 (n : HexIx) (s : State) : Out := .next (s.actAlone n.val 6 0 false 0)
/-- Meaning of SET0. -/
def execSet0 (n : HexIx) (s : State) : Out := .next (s.actAlone n.val 7 0 false 0)
/-- Meaning of SET1. -/
def execSet1 (n : HexIx) (s : State) : Out := .next (s.actAlone n.val 8 0 false 0)
/-- Meaning of WAIT. DEDUCED, assumption row 103. -/
def execWait (n : HexIx) (arg : Byte) (s : State) : Out := .next (s.actAlone n.val 9 arg.toNat false 0)
/-- Meaning of IRQ. -/
def execIrq (n : HexIx) (arg : Byte) (s : State) : Out := .next (s.actAlone n.val 10 arg.toNat false 0)
/-- Meaning of STAMP. -/
def execStamp (n : HexIx) (arg : Byte) (s : State) : Out := .next (s.actAlone n.val 11 arg.toNat false 0)

/-! ## The end of stalls, and the holding registers (R435, R437, R447) -/

/-- Meaning of WAIT_END: the WAIT's cycles have run out. -/
def execWaitEnd (n : HexIx) (s : State) : Out :=
  .next <|
    let n := n.val
    let x := s.eyeOf n
    match x.stall with
    | some arc => if s.eyeRuns n ∧ x.stallAct = 3 ∧ x.waitLeft = 0 then s.eyeEnter n arc else s
    | none => s

/-- Meaning of STALL_END: the stalled action completes where it now can. -/
def execStallEnd (n : HexIx) (s : State) : Out :=
  .next <|
    let n := n.val
    let x := s.eyeOf n
    match x.stall with
    | none => s
    | some arc =>
      if !s.eyeRuns n then s
      else match x.stallAct with
        | 1 =>
          match x.rxh, x.wordReady with
          | none, some w => (s.setEye n { x with rxh := some w, rxs := 0, rxn := 0 }).eyeEnter n arc
          | _, _ => s
        | 2 =>
          match x.load with
          | some x => (s.setEye n (if arcAct arc = 2 then s.sendBit n x (arcArg arc % 4) else x)).eyeEnter n arc
          | none => s
        | 4 =>
          match x.stampHeld with
          | some t => match x.stampIn t with
            | some x => (s.setEye n x).eyeEnter n arc
            | none => s
          | none => s
        | _ => s

/-- Meaning of RXH_DELIVER. DEDUCED, assumption row 110. -/
def execRxhDeliver (n : HexIx) (s : State) : Out :=
  .next <|
    let n := n.val
    let x := s.eyeOf n
    match x.rxh with
    | some w => if s.on (pgEye n) ∧ dcqCredit .eyeletIn x.fin.length then s.setEye n { x with fin := x.fin ++ [w], rxh := none } else s
    | none => s

/-- Meaning of TXH_FILL. -/
def execTxhFill (n : HexIx) (s : State) : Out :=
  .next <|
    let n := n.val
    let x := s.eyeOf n
    match x.txh, x.fout with
    | none, w :: t => if s.on (pgEye n) then s.setEye n { x with txh := some w, fout := t } else s
    | _, _ => s

/-- Meaning of EVENT_LATCH: a trigger of EVi, or from 8 on a rise at doorbell input i − 8, reaches its latch (R432).
DEDUCED, assumption row 109. -/
def execEventLatch (n : HexIx) (i : Fin 16) (s : State) : Out :=
  .next <|
    let n := n.val
    let x := s.eyeOf n
    if !s.on (pgEye n) || !x.arriving.contains i.val then s
    else
      let x := { x with arriving := x.arriving.erase i.val }
      if x.latches.getLsbD i.val then (s.setEye n x).count (eyeEvMerged n)
      else s.setEye n { x with latches := x.latches ||| BitVec.ofNat 16 (1 <<< i.val) }

/-! ## Changing a running program (R427, R440-R442) -/

/-- A write of CLKDIV, accepted only in OFF (R427). -/
def State.clkdivWrite (s : State) (n : Nat) (w : Word) : State :=
  if s.st (pgEye n) = stOff then s.byCodes (eyeClkdiv n) w else s.err (pgEye n) 8

/-- A write of CIRCUIT (R440). -/
def State.circuitWrite (s : State) (n : Nat) (w : Word) : State :=
  let x := s.eyeOf n
  if s.on (pgEye n) && x.stepped then
    (s.setEye n { x with staged := some (BitVec.ofNat 5 (bitsOf w 0 5), BitVec.ofNat 5 (bitsOf w 8 5)) }).putb (eyeCircuitPending n) true
  else s.byCodes (eyeCircuit n) w

/-- Meaning of CIRCUIT_WRITE. -/
def execCircuitWrite (p : Principal) (n : HexIx) (v : Word) (s : State) : Out :=
  .next (s.access p (eyeCircuit n.val) v fun s w => s.circuitWrite n.val w)

/-- A write of ROW_COMMIT (R441). -/
def State.rowCommit (s : State) (n : Nat) (w : Word) : State :=
  let st := bitsOf w 0 5
  let s := s.put (eyeRowSelSel n st) (bitsOf (s.reg (eyeRowStage n 0)) 0 16)
  forEach (List.range 4) (fun s a => s.setReg (eyeRowArc n st a) (s.reg (eyeRowStage n (a + 1)))) s

/-- Meaning of ROW_COMMIT. -/
def execRowCommit (p : Principal) (n : HexIx) (v : Word) (s : State) : Out :=
  .next (s.accessLost p (eyeRowCommit n.val) v fun s w => s.rowCommit n.val w)

/-- A write of ONCE (R442). -/
def State.onceWrite (s : State) (n : Nat) (w : Word) : State :=
  let x := s.eyeOf n
  if x.once.isSome then s.err (pgEye n) 9 else s.setEye n { x with once := some w }

/-- Meaning of ONCE. -/
def execOnce (p : Principal) (n : HexIx) (v : Word) (s : State) : Out :=
  .next (s.access p (eyeOnce n.val) v fun s w => s.onceWrite n.val w)

/-! ## Starting and synchronising (R444, R445, R428) -/

/-- A write of CFG: RUN = 0 stops the engine's steps, RUN = 1 resumes them; all else of the engine stays (R444). -/
def State.eyeCfgWrite (s : State) (n : Nat) (w : Word) : State := s.byCodes (eyeCfg n) w

/-- Meaning of RUN_STOP. -/
def execRunStop (p : Principal) (n : HexIx) (v : Word) (s : State) : Out :=
  .next (s.access p (eyeCfg n.val) v fun s w => s.eyeCfgWrite n.val w)
/-- Meaning of RUN_RESUME. -/
def execRunResume (p : Principal) (n : HexIx) (v : Word) (s : State) : Out :=
  .next (s.access p (eyeCfg n.val) v fun s w => s.eyeCfgWrite n.val w)

/-- The dividers of engines restart together (R444). -/
def State.realign (s : State) (l : List Nat) : State :=
  let k := ((List.range 16).map fun n => (s.eyeOf n).group).foldl max 0 + 1
  forEach l (fun s n => s.setEye n { s.eyeOf n with group := k, cycles := 0, waitsBootSync := false }) s

/-- YGROUP of an engine: the lowest member of its clock group, and 0, the reset value, for one that no restart has
aligned (R428). DEDUCED, assumption row 107. -/
def State.ygroup (s : State) (n : Nat) : Nat :=
  if (s.eyeOf n).group = 0 then 0 else ((List.range 16).find? fun m => s.sameGroup n m).getD n

/-- A write of EYEP.START (R444). DEDUCED, assumption row 106. -/
def State.eyepStartWrite (s : State) (w : Word) : State :=
  let l := (List.range 16).filter fun n => w.getLsbD n && s.on (pgEye n)
  if w.getLsbD 16 then s.realign l
  else forEach l (fun s n => (s.putb (eyeCfgRun n) true).setEye n { s.eyeOf n with waitsBootSync := false }) s

/-- Meaning of EYEP_START. -/
def execEyepStart (p : Principal) (mask : Half) (s : State) : Out :=
  .next (s.access p eyepStart (mask.setWidth 32) fun s w => s.eyepStartWrite w)
/-- Meaning of EYEP_START_RESTART. -/
def execEyepStartRestart (p : Principal) (mask : Half) (s : State) : Out :=
  .next (s.access p eyepStart (mask.setWidth 32 ||| 0x10000) fun s w => s.eyepStartWrite w)

/-- Meaning of BOOT_SYNC_START: every engine of the mask with EN = 1 is ON, or has failed to start (R445). -/
def execBootSyncStart (s : State) : Out :=
  .next <|
    let l := (List.range 16).filter fun n => bitN (s.get eyepBootSyncMask) n && s.bit (hdrCtrlEn (pgEye n))
    let wait := (List.range 16).filter fun n => (s.eyeOf n).waitsBootSync
    if wait ≠ [] ∧ l.all fun n => s.on (pgEye n) || s.st (pgEye n) == stFault then
      s.realign (l.filter fun n => s.on (pgEye n))
    else s

/-- EYE[n] reaches its first consistent point (R445, R452). -/
def State.eyePoint (s : State) (n : Nat) : State :=
  let st := s.get (eyeCfgStartState n)
  let s := (s.putb (eyeCircuitPending n) false).setReg (eyeSteps n) 0
  s.setEye n {
    state := BitVec.ofNat 5 st, row := s.eyeRow n st, out := BitVec.ofNat 4 (s.get (eyeCfgDefaultOut n))
    cnt0 := BitVec.ofNat 16 (s.get (eyeCountInitCnt0Init n)), cnt1 := BitVec.ofNat 16 (s.get (eyeCountInitCnt1Init n))
    waitsBootSync := s.bit (eyeCfgRun n) && bitN (s.get eyepBootSyncMask) n, jtagHalt := (s.eyeOf n).jtagHalt }

/-- EYE[n] stops or is reset (R452). -/
def State.eyeClear (s : State) (n : Nat) : State :=
  (s.putb (eyeCircuitPending n) false).setEye n { jtagHalt := (s.eyeOf n).jtagHalt }

/-- STATUS of an engine (Table 13-9). -/
def State.eyeStatusNow (s : State) (n : Nat) : Word :=
  let x := s.eyeOf n
  let b (i : Nat) (c : Bool) : Nat := if c then 2 ^ i else 0
  BitVec.ofNat 32 (x.state.toNat + b 5 x.stall.isSome + b 6 x.once.isSome
    + b 7 (s.on (pgEye n) && s.bit (eyeCfgRun n)) + s.eyeOut n * 2 ^ 8 + x.rxn % 64 * 2 ^ 12 + x.txn % 64 * 2 ^ 18
    + x.stallAct * 2 ^ 24 + b 27 x.rxh.isSome + b 28 x.txh.isSome)

end Sys2Proof.Machine
end

