-- ==== Sys2Proof/Machine/Host.lean ====
section
/-! DEFINITION. The host interfaces: PCIe link and its resets, BAR2, DMA channels, the flash master's commands and JTAG
halts (R76, R500-R507, R520, R522). -/
namespace Sys2Proof.Machine

/-! ## Link (R76, R500, R504) -/

/-- DMA channels end without a write-back (R504, R523). -/
def State.dmaAbort (s : State) : State :=
  forEach (List.range 8) (fun s c => s.putb (pcieDmaStatActive c) false) { s with host := { s.host with dma := [] } }

/-- PCIE returns to its factory link state: Host A's accesses end, the page's fields that are not retained take their reset
values, MSI-X is disabled. STATE moves only as Table 2-4 states, and PERST_COUNT counts on.
DEDUCED, assumption row 127. -/
def State.pcieReset (s : State) : State :=
  let up := s.get pcieLinkSpeed != 0
  let s := s.dmaAbort
  let s := (s.clearPage pgPcie fun a => a == hdrState pgPcie || a == hdrSeq pgPcie || a == pciePerstCount).fell pgPcie
  let s := { s with irq := { s.irq with msixOn := false } }
  if up then s.irq' pgPcie 1 else s

/-- Meaning of HOST_A_LINK_RESET (R76). While REFCLK_25 is lost only the level of the pin changes: the H domain is in reset
(R78). -/
def execHostALinkReset (s : State) : Out :=
  .next <|
    if !s.chip.powered || s.chip.perst then s
    else
      let s := { s with chip := { s.chip with perst := true } }
      if s.chip.clockLost then s else ((s.countF rstPerstCountCount).countF pciePerstCountCount).pcieReset

/-- Meaning of PCIE_HOT_RESET: as PERST_N, until the link trains again (R504). -/
def execPcieHotReset (s : State) : Out :=
  .next <|
    if !s.chip.powered || s.chip.perst || s.chip.clockLost then s else s.pcieReset.epochUp 0x30

/-- Meaning of PERST_N_RELEASE: the retained fields act as they stand, and the HA epoch increments (R76, R495). -/
def execPerstNRelease (s : State) : Out :=
  .next <|
    if !s.chip.perst then s
    else
      let s := { s with chip := { s.chip with perst := false } }
      if s.chip.clockLost then s else s.epochUp 0x30

/-- What the configuration space of the endpoint function says of it (R500, R501, R503): IDs, sizes in bytes, the sizes of
BAR0 and BAR2, and MSI-X: entries, offsets of table and pending bits in BAR0, enable. It has no other capability to
interrupt, and none of SR-IOV, ATS and peer-to-peer. -/
structure PcieConfig where
  deviceId : Half := 0x2496
  classCode : Half := 0x0880
  maxPayload : Nat := 256
  maxReadRequest : Nat := 512
  bar0 : Nat := 2 ^ 24
  bar2 : Nat := 2 ^ 28
  msixEntries : Nat := 64
  msixTable : Nat := 0x1000 * pgPcie + 0x800
  msixPba : Nat := 0x1000 * pgPcie + 0xC00
  msixEnable : Bool
deriving DecidableEq, Repr

/-- The answer to a configuration request: Configuration Request Retry Status (none) until step 2 of the boot sequence has
chosen the Last (R500). -/
def State.pcieConfig (s : State) : Option PcieConfig :=
  if 3 ≤ s.get devBootStep then some { msixEnable := s.irq.msixOn } else none

/-- Meaning of PCIE_LINK_UP: within CFG, speed 1 to 4 and 1, 2 or 4 lanes (R500). -/
def execPcieLinkUp (speed width : BitVec 3) (s : State) : Out :=
  .next <|
    let v := speed.toNat
    let w := width.toNat
    if s.on pgPcie && s.chip.powered && !s.chip.clockLost && !s.chip.perst && decide (1 ≤ v ∧ v ≤ 4)
        && decide (v ≤ s.get pcieCfgMaxSpeed) && (w == 1 || w == 2 || w == 4) && decide (w ≤ s.get pcieCfgMaxWidth) then
      ((s.put pcieLinkSpeed v).put pcieLinkWidth w).irq' pgPcie 1
    else s

/-! ## BAR2 (R501, R502) -/

/-- A refused or poisoned BAR2 access. -/
def State.bar2Err (s : State) (cause a : Nat) : State :=
  let s := (s.put pcieBar2ErrCause cause).setReg pcieBar2ErrAddr (BitVec.ofNat 32 a)
  (s.count pcieBar2ErrCount).irq' pgPcie 4

/-- Meaning of BAR2_READ. -/
def execBar2Read (off : BitVec 28) (len : Nat) (s : State) : Out :=
  .next <|
    if !s.reaches .ha then s
    else
      let a := 0x10000000 + off.toNat
      let (e, l, s) := s.portBRead .ha a len
      if e = errNone then s.emit (.bar2 l false)
      else if e = errEcc then (s.bar2Err e a).emit (.bar2 l true)
      else (s.bar2Err e a).emit (.bar2 (List.replicate len 0xFF) false)

/-- Meaning of BAR2_WRITE. -/
def execBar2Write (off : BitVec 28) (bytes : List Byte) (s : State) : Out :=
  .next <|
    if !s.reaches .ha then s
    else
      let a := 0x10000000 + off.toNat
      let (e, s) := s.portBWrite .ha a bytes
      if e = errNone then s else s.bar2Err e a

/-! ## DMA (R505-R507) -/

def dmaOk : Nat := 0
def dmaHostErr : Nat := 6
def dmaStopped : Nat := 7
def dmaAlign : Nat := 8

/-- A power of two from 2 to 4,096. -/
def ringSizeOk (n : Nat) : Bool := (List.range 12).any fun i => n == 2 ^ (i + 1)

/-- A channel with an invalid ring size stays idle and reports it (R505). -/
def State.ringCheck (s : State) (c : Nat) : State :=
  if s.bit (pcieDmaCtrlEn c) && !ringSizeOk (s.get (pcieDmaRingSizeEntries c)) then s.err pgPcie 8 else s

/-- A write of TAIL. -/
def State.dmaTailWrite (s : State) (c : Nat) (w : Word) : State := (s.byCodes (pcieDmaTail c) w).ringCheck c

/-- Meaning of DMA_TAIL. -/
def execDmaTail (p : Principal) (c : OctIx) (v : Word) (s : State) : Out :=
  .next (s.access p (pcieDmaTail c.val) v fun s w => s.dmaTailWrite c.val w)

/-- The rules of Table 16-2 hold for a descriptor. -/
def dmaDescOk (d : DmaDesc) : Bool :=
  let a := d.devAddr.toNat
  a % 16 == 0 && decide (0x10000000 ≤ a ∧ a ≤ 0x1FFFFFFF) && decide (4 ≤ d.length ∧ d.length ≤ 16777212) && d.length % 4 == 0
    && d.word6 == 0 && d.word7 == 0

/-- Host data goes to the device in 16-byte words: the first failing word's error and the bytes before it. -/
def State.dmaIn (s : State) (a done : Nat) : Nat → List Byte → Nat × Nat × State
  | 0, _ => (dmaOk, done, s)
  | n + 1, l =>
    if l = [] then (dmaOk, done, s)
    else
      let (e, s) := s.portBWrite .ha a (l.take 16)
      if e ≠ errNone then (e, done, s) else s.dmaIn (a + 16) (done + (l.take 16).length) n (l.drop 16)

/-- Device data is read in 16-byte words: the error, the bytes before the failing word. -/
def State.dmaOut (s : State) (a left : Nat) (acc : List Byte) : Nat → Nat × List Byte × State
  | 0 => (dmaOk, acc, s)
  | n + 1 =>
    if left = 0 then (dmaOk, acc, s)
    else
      let k := min 16 left
      let (e, l, s) := s.portBRead .ha a k
      if e ≠ errNone then (e, acc, s) else s.dmaOut (a + 16) (left - k) (acc ++ l) n

/-- The channel takes a descriptor: enabled, not halted, idle, its ring valid and not empty, and the link up. -/
def State.dmaReady (s : State) (c : Nat) : Bool :=
  s.reaches .ha && s.on pgPcie && s.bit (pcieDmaCtrlEn c) && !s.bit (pcieDmaStatHalted c)
    && (s.host.dma.rd none c).isNone && ringSizeOk (s.get (pcieDmaRingSizeEntries c))
    && s.get (pcieDmaHeadIndex c) != s.get (pcieDmaTailIndex c) % s.get (pcieDmaRingSizeEntries c)

/-- Bus address of the descriptor at HEAD, in the ring of RING_LO and RING_HI (R505, Table 16-6). -/
def State.dmaDescAddr (s : State) (c : Nat) : Nat :=
  (s.rn (pcieDmaRingLo c) + s.rn (pcieDmaRingHi c) * 2 ^ 32) / 32 * 32 + 32 * s.get (pcieDmaHeadIndex c)

def State.setDma (s : State) (c : Nat) (j : Option DmaJob) : State :=
  { s with host := { s.host with dma := s.host.dma.wr none c j } }

/-- Bytes of a descriptor that the host lets move: all, or what came before its error, in whole words (R506). -/
def DmaJob.limit (j : DmaJob) : Nat :=
  if j.hostErr then min j.desc.length (j.host.length / 16 * 16) else j.desc.length

/-- Channel `c` sends one TLP: at most 256 bytes of its transfer move (R500, R506, R507). -/
def State.dmaTlp (s : State) (c : Nat) (j : DmaJob) : State :=
  let a := j.desc.devAddr.toNat + j.done
  let n := min 256 (j.limit - j.done)
  let (r, k, s) : Nat × Nat × State :=
    if j.desc.toDevice then s.dmaIn a 0 16 ((j.host.drop j.done).take n)
    else
      let (r, l, s) := s.dmaOut a n [] 16
      (r, l.length, if l = [] then s else s.emit (.hostMem (j.desc.hostAddr.toNat + j.done) l))
  let done := j.done + k
  let r := if r = dmaOk ∧ j.limit ≤ done ∧ j.hostErr then dmaHostErr else r
  let s := s.setDma c (some { j with result := r, done := done, ended := decide (r ≠ dmaOk ∨ j.limit ≤ done) })
  { s with host := { s.host with dmaLast := c } }

/-- The channel whose turn it is: the next after the one that sent last, of those that have something to move. -/
def State.dmaTurn (s : State) : Option (Nat × DmaJob) :=
  (List.range 8).findSome? fun i =>
    let c := (s.host.dmaLast + 1 + i) % 8
    match s.host.dma.rd none c with
    | some j => if j.ended then none else some (c, j)
    | none => none

/-- The channels share the link in rotation, one TLP at a time, until channel `c` has moved `k` TLPs or has none left
(R507). -/
def State.dmaRun (s : State) (c : Nat) : Nat → Nat → State
  | 0, _ => s
  | fuel + 1, k =>
    let busy := match s.host.dma.rd none c with | some j => !j.ended | none => false
    if !busy || k == 0 then s
    else match s.dmaTurn with
      | none => s
      | some (d, j) => (s.dmaTlp d j).dmaRun c fuel (if d = c then k - 1 else k)

/-- Meaning of DMA_DESCRIPTOR: the channel reads the descriptor at HEAD and its transfer begins; `host` is the data the host
gives, or as much as it takes, before its error if there is one (R506). DEDUCED, assumption row 129. -/
def execDmaDescriptor (c : OctIx) (desc : DmaDesc) (host : List Byte) (hostErr : Bool) (s : State) : Out :=
  .next <|
    let c := c.val
    if !s.dmaReady c then s
    else
      let s := (s.emit (.dmaRead c (s.dmaDescAddr c))).putb (pcieDmaStatActive c) true
      let j : DmaJob := ⟨desc, host, hostErr, dmaOk, 0, false⟩
      s.setDma c (some (if !dmaDescOk desc then { j with result := dmaAlign, ended := true }
        else if j.limit = 0 then { j with result := dmaHostErr, ended := true } else j))

/-- A write of CTRL.EN: 1 after 0 starts the channel and ends a halt; 0 ends a transfer with STOPPED after the TLP in
progress (R506, R507). DEDUCED, assumption row 130. How many TLPs it has then moved is a free value.
DESIGN CHOICE, assumption row 198. -/
def State.dmaEnSet (s : State) (c : Nat) (w : Word) : State :=
  let old := s.bit (pcieDmaCtrlEn c)
  let s := s.byCodes (pcieDmaCtrl c) w
  if w.getLsbD 0 then (if old then s else s.putb (pcieDmaStatHalted c) false).ringCheck c
  else
    match s.host.dma.rd none c with
    | some j =>
      if j.ended then s
      else
        let (w, s) := s.draw 11
        let s := s.dmaRun c (8 * 65537) (1 + w.toNat % 65536)
        match s.host.dma.rd none c with
        | some j => if j.result = dmaOk then s.setDma c (some { j with result := dmaStopped, ended := true }) else s
        | none => s
    | none => s

/-- Meaning of DMA_EN_WRITE. -/
def execDmaEnWrite (p : Principal) (c : OctIx) (v : Word) (s : State) : Out :=
  .next (s.access p (pcieDmaCtrl c.val) v fun s w => s.dmaEnSet c.val w)

/-- Word 3 of a descriptor written back, OWN cleared (Table 16-2). -/
def dmaWord3 (d : DmaDesc) : Word :=
  BitVec.ofNat 32 (d.length % 2 ^ 24 + (if d.toDevice then 2 ^ 24 else 0) + (if d.irq then 2 ^ 25 else 0))

/-- Meaning of DMA_DESCRIPTOR_DONE: what is left of the transfer moves, and the descriptor is written back (R505, R506,
R507). -/
def execDmaDescriptorDone (c : OctIx) (s : State) : Out :=
  .next <|
    let c := c.val
    let s := s.dmaRun c (8 * 65537) 65537
    match s.host.dma.rd none c with
    | none => s
    | some j =>
      let s := s.setDma c none
      let s := s.emit (.dmaWriteBack c (s.dmaDescAddr c + 12) [dmaWord3 j.desc, BitVec.ofNat 32 j.result, BitVec.ofNat 32 j.done])
      let s := s.putb (pcieDmaStatActive c) false
      let s := s.put (pcieDmaHeadIndex c) ((s.get (pcieDmaHeadIndex c) + 1) % s.get (pcieDmaRingSizeEntries c))
      if j.result = dmaOk then
        let s := s.count (pcieDmaDone c)
        if j.desc.irq then s.irq' pgPcie 2 else s
      else if j.result = dmaStopped then s.put (pcieDmaStatResult c) j.result
      else ((s.put (pcieDmaStatResult c) j.result).putb (pcieDmaStatHalted c) true).irq' pgPcie 3

/-! ## Flash commands (R522) -/

/-- The supervisor reads flash for a FETCH. -/
def State.fetching (s : State) : Bool := match s.sup.svc with | some j => j.code == 3 && !j.early | none => false

/-- A write of CMD_GO. DEDUCED, assumption row 131. -/
def State.cmdGo (s : State) (w : Word) : State :=
  if !w.getLsbD 0 then s
  else if !s.on pgFlash || !s.booted || s.fetching || s.bit flashCmdStatBusy then s.putb flashCmdStatRefused true
  else
    let n := min (s.get flashCmdOpLen) 256
    let data := ((List.range 64).flatMap fun w => leBytes 4 (s.rn (flashData w))).take n
    let write := s.bit flashCmdOpWrite
    let s := { s.putb flashCmdStatBusy true with host := { s.host with flashCmd := some (write, n) } }
    s.emit (.flash (s.get flashCmdOpOpcode) (if s.bit flashCmdOpHasAddr then some (s.rn flashCmdAddr) else none) n
      (if write then some data else none) (s.reg flashCfg))

/-- Meaning of CMD_GO. -/
def execCmdGo (p : Principal) (v : Word) (s : State) : Out := .next (s.access p flashCmdGo v fun s w => s.cmdGo w)

/-- Bytes put in DATA from its first byte on. -/
def State.flashFill (s : State) (w : Nat) : Nat → List Byte → State
  | 0, _ => s
  | n + 1, l =>
    if l = [] then s
    else
      let old := leBytes 4 (s.rn (flashData w))
      (s.setReg (flashData w) (BitVec.ofNat 32 (leNat (l.take 4 ++ old.drop (l.take 4).length)))).flashFill (w + 1) n (l.drop 4)

/-- Meaning of FLASH_CMD_DONE: `data` is what the flash answered to a reading command. -/
def execFlashCmdDone (data : List Byte) (s : State) : Out :=
  .next <|
    match s.host.flashCmd with
    | none => s
    | some (write, n) =>
      let s := { s with host := { s.host with flashCmd := none } }
      let s := (s.putb flashCmdStatBusy false).irq' pgFlash 1
      if write then s else s.flashFill 0 64 (data.take n)

/-! ## JTAG (R520) -/

/-- Debug access is open. -/
def State.debugOn (s : State) : Bool := s.bit supDebugEnDebug && s.chip.powered && !s.chip.clockLost

/-- Meaning of JTAG_HALT. -/
def execJtagHalt (t : JtagTarget) (s : State) : Out :=
  .next <|
    if !s.debugOn then s
    else match t with
      | .engine n => s.setPe n.val { s.peOf n.val with jtagHalt := true, jtagSteps := 0 }
      | .eyelet n => s.setEye n.val { s.eyeOf n.val with jtagHalt := true, jtagSteps := 0 }
      | .supervisor => { s with sup := { s.sup with jtagHalt := true, jtagSteps := 0 } }
      | .idcode => s

/-- Meaning of JTAG_STEP: a halted core may take one step more. -/
def execJtagStep (t : JtagTarget) (s : State) : Out :=
  .next <|
    if !s.debugOn then s
    else match t with
      | .engine n => let x := s.peOf n.val; if x.jtagHalt then s.setPe n.val { x with jtagSteps := x.jtagSteps + 1 } else s
      | .eyelet n => let x := s.eyeOf n.val; if x.jtagHalt then s.setEye n.val { x with jtagSteps := x.jtagSteps + 1 } else s
      | .supervisor => if s.sup.jtagHalt then { s with sup := { s.sup with jtagSteps := s.sup.jtagSteps + 1, mem := [] } } else s
      | .idcode => s

end Sys2Proof.Machine
end

