-- ==== Sys2Proof/Machine/ShankNum.lean ====
section
/-! DEFINITION. Block-floating arithmetic of Shank: exact values, the stage storing rule and BF32 words (R365-R368). -/
namespace Sys2Proof.Machine

/-- The exact value of an integer. -/
def Dy.ofInt (v : Int) : Dy := ⟨v, 0⟩

/-- Mantissa of a value at an exponent not above its own. -/
def Dy.at' (a : Dy) (x : Int) : Int := a.m * (2 ^ (a.x - x).toNat : Nat)

/-- Exact sum, difference and product. -/
def Dy.add (a b : Dy) : Dy := let x := min a.x b.x; ⟨a.at' x + b.at' x, x⟩
def Dy.sub (a b : Dy) : Dy := a.add ⟨-b.m, b.x⟩
def Dy.mul (a b : Dy) : Dy := ⟨a.m * b.m, a.x + b.x⟩

/-- Exact comparisons (R368). -/
def Dy.lt (a b : Dy) : Bool := let x := min a.x b.x; decide (a.at' x < b.at' x)
def Dy.le (a b : Dy) : Bool := let x := min a.x b.x; decide (a.at' x ≤ b.at' x)
def Dy.same (a b : Dy) : Bool := a.le b && b.le a

/-- clip(a, lo, hi) = max(lo, min(a, hi)) (R363). -/
def Dy.clip (a lo hi : Dy) : Dy :=
  let b := if hi.lt a then hi else a
  if b.lt lo then lo else b

/-- The value times 2^k. -/
def Dy.scale (a : Dy) (k : Int) : Dy := ⟨a.m, a.x + k⟩

/-- m / 2^k to nearest, ties to even. -/
def roundShift (m : Int) (k : Nat) : Int :=
  let b : Int := (2 ^ k : Nat)
  let q := m / b
  let r := m % b
  if 2 * r < b then q else if b < 2 * r then q + 1 else if q % 2 = 0 then q else q + 1

/-- Mantissa of a value rounded to an exponent. -/
def Dy.roundTo (a : Dy) (x : Int) : Int := if x ≤ a.x then a.at' x else roundShift a.m (x - a.x).toNat

/-- Exponent field X of a stage: the smallest at which every value, rounded, has |m| below the bound (R367). -/
def stageExp (bias bound : Nat) (l : List Dy) : Option Nat :=
  (List.range 256).find? fun X => l.all fun v => decide ((v.roundTo ((X : Int) - bias)).natAbs < bound)

/-- A stage is stored: its values under one exponent, the exponent field, and whether one did not fit (R367). -/
def stageStore (bias bound : Nat) (l : List Dy) : List Dy × Nat × Bool :=
  match stageExp bias bound l with
  | some X => (l.map fun v => ⟨v.roundTo ((X : Int) - bias), (X : Int) - bias⟩, X, false)
  | none =>
    let x : Int := (255 : Int) - bias
    (l.map fun v =>
      let m := v.roundTo x
      ⟨if m.natAbs < bound then m else if m < 0 then -(bound - 1 : Nat) else (bound - 1 : Nat), x⟩, 255, true)

/-- The ordinary stages, and the integrator (R365, R367). -/
def store24 (l : List Dy) : List Dy × Nat × Bool := stageStore 150 (2 ^ 22) l
def store40 (l : List Dy) : List Dy × Nat × Bool := stageStore 166 (2 ^ 38) l

/-- A stage of one value. -/
def store1 (v : Dy) : Dy × Nat × Bool := let (l, X, o) := store24 [v]; (l.headD v, X, o)

/-- Value of a BF32 word (R365). -/
def dyOf (w : Word) : Dy := ⟨signedN 24 w.toNat, (bitsOf w 24 8 : Int) - 150⟩

/-- BF32 word of a stage value. -/
def bf32 (v : Dy) : Word := BitVec.ofNat 32 ((v.x + 150).toNat % 256 * 2 ^ 24 + wrapN 24 v.m)

/-- A value as a BF32 word of the stage rule. -/
def bf32Round (v : Dy) : Word := bf32 (store1 v).1

/-- y × 2^-scale as a signed 32-bit number, to nearest with ties to even, saturating (R384). -/
def rawOf (y : Dy) (scale : Int) : Word :=
  let r := (y.scale (-scale)).roundTo 0
  BitVec.ofInt 32 (if r < -(2 ^ 31) then -(2 ^ 31) else if 2 ^ 31 - 1 < r then 2 ^ 31 - 1 else r)

end Sys2Proof.Machine
end

