-- ==== Sys2Proof/Machine/SlotBuf.lean ====
section
/-! DEFINITION. Welt slot buffers: where they lie, which half is newer, their age (R405-R409). -/
namespace Sys2Proof.Machine

/-- Owner code of a Welt port (Table 2-11). -/
def weltCode (n : Nat) : Nat := 0x23 + n

/-- Address of half h of buffer b of port n (R405). -/
def State.halfAddr (s : State) (n b h : Nat) : Nat := bankBase (s.get (weltBufFirst n)) + (2 * b + h) * 0x800

/-- The CYCLE words of both halves say that half 0 is the newer: on equal words half 1 is (R406). -/
def newerIs0 (w0 w1 : Word) : Bool := decide (0 < (w0 - w1).toInt)

/-- The newer half of a buffer (R406). -/
def State.newerHalf (s : State) (n b : Nat) : Nat :=
  if newerIs0 (s.word (s.halfAddr n b 0)) (s.word (s.halfAddr n b 1)) then 0 else 1

/-- AGE of a buffer (R407). -/
def State.bufAge (s : State) (n b : Nat) : Nat := bitsOf (s.reg (weltAge n (b / 4))) (8 * (b % 4)) 8
def State.setBufAge (s : State) (n b v : Nat) : State :=
  s.setReg (weltAge n (b / 4)) (withBits (s.reg (weltAge n (b / 4))) (8 * (b % 4)) 8 v)

/-- STALE of a buffer (R407). -/
def State.bufStale (s : State) (n b : Nat) : Bool := decide (max 1 (s.get (weltLimitsAgeMax n)) ≤ s.bufAge n b)

/-- A 32-bit word of the newer half of a receive buffer, read with the bank's checks (R369, R408). -/
def State.slotWord (s : State) (n b word hi : Nat) : Word × State :=
  let (l, _, s) := s.eccRead (weltCode n) (s.halfAddr n b (s.newerHalf n b) + 0x40 + 8 * word + 4 * hi) 4
  (BitVec.ofNat 32 (leNat l), s)

/-- The published half of a transmit buffer (R409). -/
def State.txHalf (s : State) (n b : Nat) : Nat := bitsOf (s.reg (weltTxHalf n (b / 32))) (b % 32) 1

/-- A 32-bit word written into the published half of a transmit buffer (R384, R409). -/
def State.slotPut (s : State) (n b word hi : Nat) (w : Word) : State :=
  if s.on (pgWelt n) then
    s.writeA (weltCode n) (s.halfAddr n b (s.txHalf n b) + 0x40 + 8 * word + 4 * hi) (leBytes 4 w.toNat)
  else s

end Sys2Proof.Machine
end

