-- ==== Sys2Proof/Machine/Tread.lean ====
section
/-! DEFINITION. Tread: the generators that steer the hardware timebases, their stages, references, segment tables and
the follower, and the T tick in which they and the timebases move (R227, R239-R265). -/
namespace Sys2Proof.Machine

def stIdle : Nat := 0
def stSeek : Nat := 1
def stFreq : Nat := 2
def stPhase : Nat := 3
def stLocked : Nat := 4
def stHoldover : Nat := 5

/-- STAGE of a generator (Table 7-4). -/
def State.stage (s : State) (g : Nat) : Nat := s.get (treadStatStage g)

/-- CTRL.SRC as it acts: 2 acts as 0 on generators 0 and 1 (R247). -/
def State.treadSrc (s : State) (g : Nat) : Nat :=
  let v := s.get (treadCtrlSrc g)
  if v = 2 ∧ g ≠ 2 then 0 else v

/-- The generator takes ticks: TREAD is ON and its HTB page is ON (R265). -/
def State.genRuns (s : State) (g : Nat) : Bool := s.on pgTread && s.on (pgHtb g)

/-- ppb as a frequency in 2^-64 ns per tick, rounded toward zero (R246). -/
def ppbUnits (x : Nat) : Nat := x * 2 ^ 66 / 1000000000

/-- The rate limit a, in 2^-64 ns per tick per tick (R246). -/
def State.rateLim (s : State) (g : Nat) : Nat :=
  min (s.get (treadSlewRatePpbS g)) 10000 * 2 ^ 66 / (1000000000 * 250000000)

/-- FMAX in 2^-64 ns per tick (R246). -/
def State.fmax (s : State) (g : Nat) : Nat := ppbUnits (min (s.get (treadSlewFmaxPpb g)) 200000)

/-- FREQ_CORR in 2^-64 ns per tick. -/
def State.freqCorr (s : State) (g : Nat) : Int := (s.reg (treadFreqCorr g)).toInt * 2 ^ 32

/-- ADJ of a frequency: rounded toward zero to 2^-32 ns (R246). -/
def adjOf (f : Int) : Int := f.tdiv (2 ^ 32)

def clipInt (lo hi x : Int) : Int := if x < lo then lo else if hi < x then hi else x

/-- One tick of f by the pseudocode of R248: `e` is the phase still to be covered, none without a phase target. -/
def moveF (a fmax f ft : Int) (e : Option Int) : Int :=
  let f' := match e with
    | some e =>
      let v := f - ft
      -- 2a times (e − s), with s the phase covered while v is brought to 0
      let d := 2 * a * e - v * v.natAbs
      if (e.natAbs : Int) ≤ a ∧ (v.natAbs : Int) ≤ a then ft
      else if 0 < d then f + a
      else if d < 0 then f - a
      else f - v.sign * min a (v.natAbs : Int)
    | none => f + clipInt (-a) a (ft - f)
  clipInt (-fmax) fmax f'

/-- Event outputs are enabled on an HTB (R254). -/
def State.outputsOn (s : State) (g : Nat) : Bool :=
  (List.range 8).any fun n => s.evHtb n == g && s.bit (evtEvStatArmed n) && !s.bit (evtEvStatWaiting n)

/-- Steps are barred (R254, R260). -/
def State.stepsBarred (s : State) (g : Nat) : Bool :=
  s.outputsOn g || (s.bit (treadStatLockedOnce g) && s.treadSrc g != 2) || s.bit (treadStatStepsBarred g)

/-- A request for coefficient set b of channel c; one for the active set cancels a pending swap (R243, R380). -/
def State.askSet (s : State) (c b : Nat) : State :=
  let pend := s.get (shchCfgSet c) != b
  (s.setChan c { s.chanOf c with swapPend := pend }).put (shchStatSwapPend c) (if pend then 1 else 0)

/-- A transition of Table 7-4 and what every one does: STAGE_CHG, counts restart, the coefficient set of the stage
entered is requested (R243, R253). -/
def State.toStage (s : State) (g st : Nat) : State :=
  let s := s.setGen g { s.genOf g with good := 0 }
  let s := s.put (treadStatStage g) st
  let s := if g < 2 ∧ st = stFreq then s.askSet (60 + g) 1 else if g < 2 ∧ st = stPhase then s.askSet (60 + g) 0 else s
  let s := if st = stLocked then s.putb (treadStatTimeConverging g) false else s
  let s := if st = stLocked ∧ s.treadSrc g = 0 then s.putb (treadStatLockedOnce g) true else s
  let s := if g = 2 ∧ s.treadSrc 2 = 2 then
    (s.putb (treadStatSlewing 2) (st != stLocked)).putb (treadStatTimeConverging 2) (st != stLocked) else s
  s.irq' pgTread 1

/-- SEEK with the reference qualified and steps barred goes to FREQ (Table 7-4). -/
def State.seekCheck (s : State) (g : Nat) : State :=
  if s.treadSrc g = 0 ∧ s.stage g = stSeek ∧ s.bit (treadStatRefOk g) ∧ !s.bit (treadStatRefChatter g)
      ∧ s.stepsBarred g then (s.toStage g stFreq).putb (treadStatSeekBlocked g) true
  else s

/-- Entry to SEEK with f_t := FREQ_CORR, as the start of TREAD does (Table 7-4, R247). -/
def State.enterSeek (s : State) (g : Nat) : State :=
  let s := s.setGen g { s.genOf g with ft := s.freqCorr g }
  (s.toStage g stSeek).seekCheck g

/-- Distance HTBx − HTBA of the follower in 2^-32 ns (R260). -/
def State.followGap (s : State) : Int :=
  ((s.htbOf (s.get (treadFollowActive 2))).v - (s.htbOf 2).v).toInt

/-- Magnitude rounded up to whole units of 2^k. -/
def ceilShift (x k : Nat) : Nat := (x + 2 ^ k - 1) / 2 ^ k

/-- PHASE_ERR in 2^-16 ns (R240). -/
def State.phaseErr (s : State) (g : Nat) : Int :=
  signedN 48 (s.rn (treadPhaseErrLo g) + s.get (treadPhaseErrHiErr g) * 2 ^ 32)

/-- HOLD_TIME in ms (R259). -/
def State.holdMs (s : State) (g : Nat) : Nat := if s.stage g = stHoldover then (s.genOf g).holdTicks / 250000 else 0

/-- EST_ERR of a domain's generator (R263). -/
def State.estErrDomain (s : State) (g : Nat) : Nat :=
  if !s.on pgTread then 0xFFFFFFFF
  else if s.stage g = stPhase ∨ s.stage g = stLocked then
    min (ceilShift ((s.phaseErr g).natAbs) 16 + s.rn (treadRefInacc g)) 0xFFFFFFFF
  else if s.stage g = stHoldover then
    let t := s.holdMs g
    -- ps terms over 2,000,000,000 with t in ms
    let num := (s.genOf g).holdE0 * 2000000000 + s.rn (treadHoldDrift g) * t * 2000 + s.rn (treadHoldAge g) * t * t
    min ((num + 1999999999) / 2000000000) 0xFFFFFFFF
  else 0xFFFFFFFF

/-- EST_ERR of a generator (R263). -/
def State.estErr (s : State) (g : Nat) : Nat :=
  if g = 2 ∧ s.treadSrc 2 = 2 ∧ s.on pgTread then
    if s.stage 2 = stIdle ∨ s.stage 2 = stSeek then 0xFFFFFFFF
    else min (s.estErrDomain (s.get (treadFollowActive 2)) + ceilShift s.followGap.natAbs 32) 0xFFFFFFFF
  else s.estErrDomain g

/-- A phase limit in 2^-64 ns (R252). -/
def State.phaseLim (s : State) (g : Nat) (hi : Bool) : Int :=
  (s.reg (if hi then treadPhaseLimHi g else treadPhaseLimLo g)).toInt * 2 ^ 64

/-- 2a times ACC after f is brought to `ft` at the limit rate (R252). -/
def reach (a acc f ft : Int) : Int := 2 * a * acc + (f + ft) * ((f - ft).natAbs : Int)

/-- The targets in force in a tick: the phase still to be covered and the frequency target, with the limits of R252
applied. A limit does not move, so as a target it has f_t = 0, and the room to stop at it is kept too. `gap` is the
follower's distance before the tick, `ftFollow` its frequency target (R260). DEDUCED, assumption row 182. -/
def State.targets (s : State) (g : Nat) (gap ftFollow : Int) : Option Int × Int :=
  let v := s.genOf g
  let acc := v.acc * 2 ^ 32
  let (phi, ft) : Option Int × Int :=
    if s.treadSrc g = 2 then (some (acc + gap * 2 ^ 32), ftFollow)
    else if s.treadSrc g = 1 then
      match v.tab with
      | some (p, t) => (p, clipInt (-(s.fmax g)) (s.fmax g) t)
      | none => (none, v.ft)
    else (none, v.ft)
  if !s.bit (treadCtrlLimEn g) then (phi.map (· - acc), ft)
  else
    let lo := s.phaseLim g false
    let hi := s.phaseLim g true
    let a : Int := s.rateLim g
    let far := max (reach a acc v.f ft) (reach a acc v.f 0)
    let near := min (reach a acc v.f ft) (reach a acc v.f 0)
    if 2 * a * hi < far then (some (hi - acc), 0)
    else if near < 2 * a * lo then (some (lo - acc), 0)
    else match phi with
      | some p => (some (clipInt lo hi p - acc), if clipInt lo hi p = p then ft else 0)
      | none => (none, ft)

/-- f of a tick with the limits in force: where the tick would leave too little room to stop at a limit, f moves toward 0
at the limit rate instead (R252). DEDUCED, assumption row 182. -/
def State.limitF (s : State) (g : Nat) (f : Int) : Int :=
  let v := s.genOf g
  let a : Int := s.rateLim g
  let r := reach a (v.acc * 2 ^ 32 + f) f 0
  if s.bit (treadCtrlLimEn g) && ((decide (0 < f) && decide (2 * a * s.phaseLim g true < r))
      || (decide (f < 0) && decide (r < 2 * a * s.phaseLim g false))) then
    v.f + clipInt (-a) a (-v.f)
  else f

/-- AT_LIM as it stands after a tick: no whole unit of ADJ can be delivered toward the limit and stopped before it
(R252). DEDUCED, assumption row 182. -/
def State.atLimit (s : State) (g : Nat) : Bool :=
  let acc := (s.genOf g).acc * 2 ^ 32
  let near (x : Int) : Bool := acc == x || (s.rateLim g != 0 && decide (2 * s.rateLim g * (acc - x).natAbs ≤ 2 ^ 64))
  s.bit (treadCtrlLimEn g) && (near (s.phaseLim g false) || near (s.phaseLim g true)) && adjOf (s.genOf g).f == 0

/-- The DAC code of a frequency (R245). -/
def State.ocxCode (s : State) (g : Nat) (f : Int) : Word :=
  let x := (s.reg (treadOcxBias g)).toInt + adjOf f * (s.reg (treadOcxGain g)).toInt / 2 ^ 16
  BitVec.ofInt 32 (clipInt (-(2 ^ 31)) (2 ^ 31 - 1) x)

/-- The table ends: its last targets stay in force (R250). -/
def State.tableEnd (s : State) (g : Nat) : State := (s.putb (treadStatTableRun g) false).irq' pgTread 5

/-- Segment k begins, or ends the table with DURATION 0 (R250). -/
def State.segBegin (s : State) (g k : Nat) : State :=
  let w (i : Nat) : Nat := s.rn (treadSeg g k i)
  if w 0 = 0 then s.tableEnd g
  else
    let v := s.genOf g
    let phase := signedN 48 (w 1 + w 2 % 0x10000 * 2 ^ 32) * 2 ^ 48
    let phi := if bitN (w 2) 16 then some (if bitN (w 2) 17 then v.acc * 2 ^ 32 + phase else phase) else none
    let ft := (s.reg (treadSeg g k 3)).toInt * 2 ^ 32
    let s := s.setGen g { v with tab := some (phi, ft), segTicks := 0 }
    (s.putb (treadStatTableRun g) true).put (treadStatSeg g) k

/-- What a write of CTRL that takes SRC from `old` to `new` does (R246, R247, R250, R253, R259). -/
def State.treadAct (s : State) (g old new : Nat) (w : Word) : State :=
  let onNow := s.on pgTread
  let s := if g = 2 ∧ old = 2 ∧ new ≠ 2 then
    (s.putb (treadStatSlewing 2) false).putb (treadStatTimeConverging 2) false else s
  let s :=
    if !onNow || old == new then s
    else if new = 0 ∨ new = 2 then s.enterSeek g
    else
      let s := s.put (treadStatStage g) stIdle
      if new = 3 then s.setGen g { s.genOf g with ft := (s.genOf g).f } else s
  let s := if bitN w.toNat 11 then s.setGen g { s.genOf g with acc := 0 } else s
  let s := if bitN w.toNat 9 && onNow && s.bit (treadStatTableRun g) then s.tableEnd g else s
  let s := if bitN w.toNat 8 && onNow then s.segBegin g 0 else s
  if bitN w.toNat 10 && onNow then
    let s := (s.putb (treadStatLockedOnce g) false).putb (treadStatStepsBarred g) false
    if new = 0 ∨ new = 2 then (s.toStage g stSeek).seekCheck g else s
  else s

/-- A generator's next tick: the writes of CTRL since its last one act, first the change of SRC from what the last tick saw to
what stands now, then the actions in their order (R247, R250, R265). -/
def State.treadDue (s : State) (g : Nat) : State :=
  match (s.genOf g).due with
  | [] => s
  | (old, w) :: l =>
    if !s.genRuns g then s
    else
      let new := s.treadSrc g
      let s := (s.setGen g { s.genOf g with due := [] }).treadAct g old new 0
      (forEach (w :: l.map (·.2)) (fun s w => s.treadAct g new new w) s).degrade

/-- The timers of a generator move by one T (R250, R255, R257, R259, R261). -/
def State.genTimers (s : State) (g : Nat) : State :=
  let v := s.genOf g
  let valid := s.bit (treadRefValid g)
  let lockedIn (x : Nat) : Bool := s.stage x == stLocked
  let act := s.get (treadFollowActive 2)
  let lost := s.stage act == stHoldover || s.stage act == stSeek || s.stage act == stIdle
  let pref := s.get (treadFollowPrefer 2)
  s.setGen g { v with
    segTicks := v.segTicks + 1, sampleTicks := v.sampleTicks + 1, qualTicks := v.qualTicks + 1
    validTicks := if valid then v.validTicks + 1 else 0
    dropTicks := if valid then 0 else v.dropTicks + 1
    chatTicks := v.chatTicks + 1
    holdTicks := v.holdTicks + 1
    autoTicks := if g = 2 ∧ lost ∧ lockedIn (1 - act) then v.autoTicks + 1 else 0
    preferTicks := if g = 2 ∧ s.bit (treadFollowRevertive 2) ∧ lockedIn pref ∧ act ≠ pref then v.preferTicks + 1 else 0 }

/-- The follower's stages (R260). DEDUCED, assumption row 63. -/
def State.followStage (s : State) (gap ft : Int) : State :=
  let close := decide (gap.natAbs ≤ s.get (treadPhaseLockTolNs 2) * 2 ^ 32)
    && decide (((s.genOf 2).f - ft).natAbs ≤ ppbUnits (s.get (treadFreqLockTolPpb 2)))
  let far := decide (s.get (treadUnlockTolNs 2) * 2 ^ 32 < gap.natAbs)
  let st := s.stage 2
  if st = stSeek then
    if s.stepsBarred 2 then s.toStage 2 (if close then stLocked else stPhase)
    else
      let s := if gap = 0 then s else s.htbStep 2 gap
      s.toStage 2 (if s.followGap.natAbs ≤ s.get (treadPhaseLockTolNs 2) * 2 ^ 32
        ∧ ((s.genOf 2).f - ft).natAbs ≤ ppbUnits (s.get (treadFreqLockTolPpb 2)) then stLocked else stPhase)
  else if st = stLocked then (if far then s.toStage 2 stPhase else s)
  else if st = stPhase ∨ st = stFreq ∨ st = stHoldover then (if close then s.toStage 2 stLocked else s)
  else s

/-- One tick of a generator and its HTB (R246, R248). `s0` is the state before the tick. DEDUCED, assumption row 61. OCX_CFG.SRC
of 3 selects neither servo (R245). DESIGN CHOICE, assumption row 209. -/
def State.genTick (s0 s : State) (g : Nat) : State :=
  if !s.on (pgHtb g) then s
  else if !s.on pgTread || s.chip.clockLost then s.htbTick g 0
  else
    let x := s0.get (treadFollowActive 2)
    let gap := s0.followGap
    let adjx := if s0.genRuns x then (s.htbOf x).adj else 0
    let ftF : Int := (adjx + s0.incr x - s0.incr 2) * 2 ^ 32
    let (e, ft) := s0.targets g gap ftF
    let v := s.genOf g
    let f := s0.limitF g (moveF (s0.rateLim g) (s0.fmax g) v.f ft e)
    let ocx := g < 2 ∧ s.get tbOcxCfgSrc = g + 1
    let adj := if ocx then 0 else adjOf f
    let tab := v.tab.map fun (p, t) => (p.map (· + clipInt (-(s0.fmax g)) (s0.fmax g) t), t)
    let s := s.setGen g { v with f := f, acc := v.acc + adj, tab := tab }
    let s := if ocx ∧ s.reg tbOcxValue ≠ s.ocxCode g f then s.ocxValue (s.ocxCode g f) else s
    let s := s.htbTick g adj
    let was := s.bit (treadStatAtLim g)
    let lim := s.atLimit g
    let s := if lim && !was then s.irq' pgTread 6 else s
    let s := s.putb (treadStatAtLim g) lim
    let s := s.genTimers g
    if g = 2 ∧ s.treadSrc 2 = 2 then s.followStage s.followGap ft else s.seekCheck g

/-- The event units compare in a tick of their HTB (R202). -/
def State.evCompare (s : State) (n : Nat) : State :=
  let v := s.evOf n
  let cmp := s.bit (evtEvStatArmed n) && !s.bit (evtEvStatWaiting n) && v.aligning == none && s.on (pgHtb (s.evHtb n))
  let age := if cmp then min 2 (v.age + 1) else if s.on (pgHtb (s.evHtb n)) then v.age else 0
  s.setEv n { v with now := none, age := age }

/-- Meaning of HTB_TICK: one T cycle (R188, R198, R246). -/
def execHtbTick (s : State) : Out :=
  .next <|
    let s := forEach [0, 1, 2] (fun s g => s.treadDue g) s
    let s0 := s
    let s := if s.tb.runs then { s with tb := { s.tb with frc := s.tb.frc + 1 } } else s
    let s := { s with tb := { s.tb with capBusy := [], ticks := s.tb.ticks + 1 } }
    let s := (forEach [0, 1, 2] (fun s g => (State.genTick s0 s g).htbMark g) s).viewsFresh
    forEach (List.range 8) (fun s n => s.evCompare n) s

/-! ## Samples and servo outputs -/

/-- Reference lost (R255-R257, Table 7-4). -/
def State.refLost (s : State) (g : Nat) : State :=
  let s := s.putb (treadStatRefOk g) false
  let s := s.setGen g { s.genOf g with validTicks := 0 }
  if s.treadSrc g ≠ 0 then s
  else
    let st := s.stage g
    if st = stLocked ∨ (st = stPhase ∧ s.bit (treadStatLockedOnce g)) then
      let e0 := s.estErr g
      let s := s.setGen g { s.genOf g with ft := s.freqCorr g, holdTicks := 0, holdE0 := e0 }
      let s := s.toStage g stHoldover
      let s := if g < 2 then s.fault 0x0C 2 pgTread g st e0 else s
      s.degrade
    else if st = stSeek ∨ st = stFreq ∨ st = stPhase then
      let s := s.setGen g { s.genOf g with ft := (s.genOf g).f }
      let s := s.toStage g stSeek
      (s.putb (treadStatAcqAbort g) true).irq' pgTread 2
    else s

/-- A sample that meets or misses its stage's condition: the transition after `n` in a row.
DEDUCED, assumption row 62. -/
def State.countSample (s : State) (g : Nat) (ok : Bool) (n : Nat) (go : State → State) : State :=
  let v := s.genOf g
  if !ok then s.setGen g { v with good := 0 }
  else if n ≤ v.good + 1 then go s
  else s.setGen g { v with good := v.good + 1 }

/-- A servo sample (R240, R253, R258). -/
def State.treadSample (s : State) (g : Nat) (v : Word) : State :=
  let err : Int := v.toInt * 2 ^ 8
  let gen := s.genOf g
  let now := s.tb.frc
  let s := s.setGen g { gen with sampleTicks := 0 }
  if s.bit (treadStatRefChatter g) then s
  else
    let s := s.setReg (treadPhaseErrLo g) (BitVec.ofInt 32 err)
    let s := s.put (treadPhaseErrHiErr g) (wrapN 48 err / 2 ^ 32)
    let s := s.setGen g { s.genOf g with lastErr := some (err, now) }
    if s.treadSrc g ≠ 0 ∨ !s.bit (treadStatRefOk g) then s
    else
      let st := s.stage g
      if st = stFreq then
        match gen.lastErr with
        | none => s
        | some (o, since) =>
          let dt := (now - since).toNat
          if dt = 0 ∨ s.get (treadTimeoutMs g) * 250000 < dt then s.setGen g { s.genOf g with good := 0 }
          else
            -- the error in 2^-64 ns per tick against the tolerance converted as R246 says
            let ok := decide ((err - o).natAbs * 2 ^ 48 ≤ ppbUnits (s.get (treadFreqLockTolPpb g)) * dt)
            s.countSample g ok (s.get (treadFreqLockCount g)) fun s => s.toStage g stPhase
      else if st = stPhase then
        s.countSample g (decide (err.natAbs ≤ s.get (treadPhaseLockTolNs g) * 2 ^ 16)) (s.get (treadPhaseLockCount g))
          fun s => s.toStage g stLocked
      else if st = stLocked then
        s.countSample g (decide (s.get (treadUnlockTolNs g) * 2 ^ 16 < err.natAbs)) (s.get (treadUnlockCount g))
          fun s => (s.toStage g stPhase).putb (treadStatTimeConverging g) true
      else s

/-- Meaning of TREAD_SAMPLE: the oldest copy of a PV post to the servo channel, whose value v is, reaches its generator
(R240). Samples of a suspended or stopped generator are discarded (R265). DEDUCED, assumption row 61. -/
def execTreadSample (g : GenIx) (v : Word) (s : State) : Out :=
  .next <|
    let x := s.genOf g.val
    if x.samples.head? = some v then
      let s := s.setGen g.val { x with samples := x.samples.tail }
      if s.genRuns g.val then s.treadSample g.val v else s
    else s

/-- A servo output in 2^-32 ns per tick reaches its generator (R241, R244). -/
def State.servoOutput (s : State) (g : Nat) (v : Int) : State :=
  let st := s.stage g
  if !s.genRuns g || s.treadSrc g ≠ 0 || s.bit (treadStatRefChatter g) || !s.bit (treadStatRefOk g)
      || !(st == stFreq || st == stPhase || st == stLocked) then s
  else
    let s := s.setGen g { s.genOf g with ft := v * 2 ^ 32 }
    if st = stLocked then
      let c := (s.reg (treadFreqCorr g)).toInt
      s.setReg (treadFreqCorr g) (BitVec.ofInt 32 (c + (v - c) / 2 ^ s.get (treadTimeoutFilt g)))
    else s

/-- Meaning of SERVO_OUTPUT: the oldest output sent to the generator, whose word v is, reaches it (R241).
DEDUCED, assumption row 61. -/
def execServoOutput (g : GenIx) (v : Word) (s : State) : Out :=
  .next <|
    let x := s.genOf g.val
    if x.outs.head? = some v then (s.setGen g.val { x with outs := x.outs.tail }).servoOutput g.val v.toInt else s

/-! ## The segment table -/

/-- Meaning of SEGMENT_END: the segment's DURATION has elapsed (R250). -/
def execSegmentEnd (g : GenIx) (s : State) : Out :=
  .next <|
    let g := g.val
    let k := s.get (treadStatSeg g)
    if s.genRuns g && s.bit (treadStatTableRun g)
        && decide (s.rn (treadSeg g k 0) * 250 ≤ (s.genOf g).segTicks) then
      if bitN (s.rn (treadSeg g k 2)) 31 || k == 63 then s.tableEnd g else s.segBegin g (k + 1)
    else s

/-! ## Writes -/

/-- A write of CTRL of a generator. While TREAD is ON what it does waits for the generator's next tick, which a suspended one
does not take (R247, R250, R265). DESIGN CHOICE, assumption row 183. -/
def State.treadCtrlWrite (s : State) (g : Nat) (w : Word) : State :=
  let old := s.treadSrc g
  let s := (s.put (treadCtrlSrc g) (bitsOf w 0 2)).putb (treadCtrlLimEn g) (bitN w.toNat 2)
  if s.on pgTread then s.setGen g { s.genOf g with due := (s.genOf g).due ++ [(old, w)] }
  else s.treadAct g old (s.treadSrc g) w

/-- A write to CTRL that leaves its retained fields as they are and sets one bit. -/
def State.treadBit (s : State) (p : Principal) (g bit : Nat) : State :=
  s.access p (treadCtrl g) (s.reg (treadCtrl g) ||| BitVec.ofNat 32 (1 <<< bit)) fun s w => s.treadCtrlWrite g w

/-- Meaning of TREAD_RUN. -/
def execTreadRun (p : Principal) (g : GenIx) (s : State) : Out := .next (s.treadBit p g.val 8)
/-- Meaning of STOP_TABLE. -/
def execStopTable (p : Principal) (g : GenIx) (s : State) : Out := .next (s.treadBit p g.val 9)
/-- Meaning of REACQUIRE. -/
def execReacquire (p : Principal) (g : GenIx) (s : State) : Out := .next (s.treadBit p g.val 10)
/-- Meaning of ACC_CLR. -/
def execAccClr (p : Principal) (g : GenIx) (s : State) : Out := .next (s.treadBit p g.val 11)
/-- Meaning of TREAD_SRC_WRITE: the word carries every field of CTRL. -/
def execTreadSrcWrite (p : Principal) (g : GenIx) (v : Word) (s : State) : Out :=
  .next (s.access p (treadCtrl g.val) v fun s w => s.treadCtrlWrite g.val w)

/-- A change of REF.VALID counts toward chatter and restarts the reference times (R255, R257). -/
def State.refValid (s : State) (g : Nat) (v : Bool) : State :=
  if v == s.bit (treadRefValid g) then s
  else
    let s := s.putb (treadRefValid g) v
    let gen := s.genOf g
    let s := s.setGen g { gen with validTicks := 0, dropTicks := 0, chatCount := gen.chatCount + 1 }
    if s.on pgTread && decide (s.get (treadChatterMax g) < gen.chatCount + 1) && !s.bit (treadStatRefChatter g) then
      let s := s.setGen g { s.genOf g with ft := if s.treadSrc g = 0 then (s.genOf g).f else (s.genOf g).ft }
      (s.putb (treadStatRefChatter g) true).irq' pgTread 3
    else s

/-- Meaning of REF_VALID_WRITE. -/
def execRefValidWrite (p : Principal) (g : GenIx) (v : Word) (s : State) : Out :=
  .next (s.access p (treadRef g.val) v fun s w => s.refValid g.val (bitN w.toNat 0))

/-- Meaning of REF_QUALIFIED (R255, Table 7-4). -/
def execRefQualified (g : GenIx) (s : State) : Out :=
  .next <|
    let g := g.val
    if s.genRuns g && s.bit (treadRefValid g) && !s.bit (treadStatRefOk g)
        && decide (s.get (treadQualStableMs g) * 250000 ≤ (s.genOf g).validTicks) then
      let s := s.putb (treadStatRefOk g) true
      let s := s.setGen g { s.genOf g with qualTicks := 0 }
      if s.bit (treadStatRefChatter g) || s.treadSrc g != 0 then s
      else if s.stage g = stHoldover then
        ((s.toStage g stPhase).putb (treadStatTimeConverging g) true).degrade
      else s.seekCheck g
    else s

/-- Meaning of REF_LOST: REF.VALID has read 0 for DROP_MS (R255). -/
def execRefLost (g : GenIx) (s : State) : Out :=
  .next <|
    if s.genRuns g.val && s.bit (treadStatRefOk g.val) && !s.bit (treadRefValid g.val)
        && decide (s.get (treadQualDropMs g.val) * 250000 ≤ (s.genOf g.val).dropTicks) then s.refLost g.val
    else s

/-- Meaning of SAMPLE_TIMEOUT (R255). -/
def execSampleTimeout (g : GenIx) (s : State) : Out :=
  .next <|
    let v := s.genOf g.val
    if s.genRuns g.val && s.bit (treadStatRefOk g.val)
        && decide (s.get (treadTimeoutMs g.val) * 250000 ≤ min v.sampleTicks v.qualTicks) then s.refLost g.val
    else s

/-- Meaning of CHATTER_WINDOW_END (R257). -/
def execChatterWindowEnd (g : GenIx) (s : State) : Out :=
  .next <|
    let g := g.val
    let v := s.genOf g
    if s.genRuns g && decide (max (s.get (treadChatterWinMs g)) 1 * 250000 ≤ v.chatTicks) then
      let excess := decide (s.get (treadChatterMax g) < v.chatCount)
      let was := s.bit (treadStatRefChatter g)
      let s := s.setGen g { v with chatTicks := 0, chatCount := 0 }
      if excess && !was then
        let s := s.setGen g { s.genOf g with ft := if s.treadSrc g = 0 then v.f else v.ft }
        (s.putb (treadStatRefChatter g) true).irq' pgTread 3
      else if !excess && was then
        let s := s.setGen g { s.genOf g with validTicks := 0 }
        (s.putb (treadStatRefChatter g) false).putb (treadStatRefOk g) false
      else s
    else s

/-- A write of SEEK_OFS_HI (R254). DEDUCED, assumption row 64. -/
def State.seekOfs (s : State) (g : Nat) (v : Word) : State :=
  if s.genRuns g && s.treadSrc g == 0 && s.stage g == stSeek && s.bit (treadStatRefOk g)
      && !s.bit (treadStatRefChatter g) && !s.stepsBarred g then
    let s := s.setReg (treadSeekOfsHi g) v
    let ofs := signedN 64 (s.rn (treadSeekOfsLo g) + v.toNat * 2 ^ 32)
    let s := if s.rn (treadSeekMin g) ≤ ofs.natAbs then s.htbStep g (-ofs * 2 ^ 32) else s
    s.toStage g stFreq
  else s

/-- Meaning of SEEK_OFS_WRITE. -/
def execSeekOfsWrite (p : Principal) (g : GenIx) (v : Word) (s : State) : Out :=
  .next (s.access p (treadSeekOfsHi g.val) v fun s w => s.seekOfs g.val w)

/-- The followed domain changes (R261). -/
def State.switchTo (s : State) (x : Nat) : State :=
  let s := s.put (treadFollowActive 2) x
  let s := s.setGen 2 { s.genOf 2 with autoTicks := 0, preferTicks := 0 }
  (s.count (treadSwitches 2)).irq' pgTread 4

/-- The domain an automatic change that is due names (R261). -/
def State.autoDue (s : State) : Option Nat :=
  let v := s.genOf 2
  let delay := s.get (treadFollowSwitchDelayMs 2) * 250000
  if !s.genRuns 2 || !s.bit (treadFollowAuto 2) then none
  else if 0 < v.autoTicks ∧ delay ≤ v.autoTicks then some (1 - s.get (treadFollowActive 2))
  else if 0 < v.preferTicks ∧ delay ≤ v.preferTicks then some (s.get (treadFollowPrefer 2))
  else none

/-- A write of FOLLOW of generator 2: it stands against an automatic change due in the same cycle, whose conditions
are then counted afresh (R261). -/
def State.followWrite (s : State) (v : Word) : State :=
  let x := bitsOf v 0 1
  let old := s.get (treadFollowActive 2)
  let due := s.autoDue.isSome
  let s := s.byCodes (treadFollow 2) (withBits v 0 1 old)
  if x ≠ old then s.switchTo x
  else if due then s.setGen 2 { s.genOf 2 with autoTicks := 0, preferTicks := 0 }
  else s

/-- Meaning of FOLLOW_ACTIVE_WRITE. -/
def execFollowActiveWrite (p : Principal) (v : Word) (s : State) : Out :=
  .next (s.access p (treadFollow 2) v fun s w => s.followWrite w)

/-- Meaning of AUTO_SWITCH (R261). -/
def execAutoSwitch (s : State) : Out :=
  .next (match s.autoDue with
    | some x => s.switchTo x
    | none => s)

/-! ## Start and stop of TREAD (R259, R265) -/

/-- TREAD reaches its first consistent point. -/
def State.treadPoint (s : State) : State :=
  forEach [0, 1, 2] (fun s g =>
    let fc := s.freqCorr g
    let kept := s.chip.keptTime && !s.chip.timeOwed
    let s := s.setGen g { f := if kept then 0 else fc, ft := fc }
    let s := if kept then s.putb (treadStatStepsBarred g) true else s
    if s.treadSrc g = 0 ∨ s.treadSrc g = 2 then s.enterSeek g else s.put (treadStatStage g) stIdle) s

/-- TREAD's stop is complete. -/
def State.treadStop (s : State) : State :=
  (forEach [0, 1, 2] (fun s g =>
    let s := s.put (treadStatStage g) stIdle
    let s := forEach [treadStatRefOk g, treadStatRefChatter g, treadStatTimeConverging g, treadStatAtLim g,
      treadStatTableRun g, treadStatSlewing g] (fun s f => s.putb f false) s
    s.setGen g { acc := (s.genOf g).acc }) s).degrade

end Sys2Proof.Machine
end

