-- ==== Sys2Proof/Machine/Shank.lean ====
section
/-! DEFINITION. Shank control engine: posts, triggers, evaluations, groups, outputs and lanes (R363-R393). -/
namespace Sys2Proof.Machine

/-! ## Channels and their modes -/

def modeOff : Nat := 0
def modeAuto : Nat := 1
def modeManual : Nat := 2

/-- MODE as it acts: 3 acts as OFF (R378). -/
def State.chMode (s : State) (c : Nat) : Nat := if s.get (shchCfgMode c) = 3 then modeOff else s.get (shchCfgMode c)

/-- TREAD has CTRL.EN = 1: C60-C63 and G6-G7 are reserved (R387). -/
def State.reserved (s : State) : Bool := s.bit (hdrCtrlEn pgTread)

/-- Members of a group that are not OFF, ascending (R381, R382). -/
def State.groupLive (s : State) (g : Nat) : List Nat :=
  ((List.range 16).filter fun i => bitN (s.get (shankGroupCfgMembers g)) i && s.chMode (48 + i) != modeOff).map (48 + ·)

/-- The acting group of a channel (R381). -/
def State.groupOf' (s : State) (c : Nat) : Option Nat :=
  if c < 48 then none
  else (List.range 8).find? fun g => s.bit (shankGroupCfgEn g) && bitN (s.get (shankGroupCfgMembers g)) (c - 48)

/-- The channel's triggers start a job: it is not OFF, and in a group it is the trigger member (R374, R382). -/
def State.mayTrigger (s : State) (c : Nat) : Bool :=
  s.chMode c != modeOff &&
    (match s.groupOf' c with
    | some g => (s.groupLive g).head? == some c
    | none => true)

/-! ## Triggers (R373, R374) -/

/-- A trigger reaches a channel. -/
def State.shTrigger (s : State) (c : Nat) : State :=
  if !s.on pgShank || !s.mayTrigger c then s
  else if s.shank.pend.contains c then ((s.count (shchOverruns c)).count shankOverruns).irq' pgShank 4
  else { s with shank := { s.shank with pend := s.shank.pend ++ [c] } }

/-- A write of TRIG_LO or TRIG_HI. -/
def State.shTrigWrite (s : State) (high : Bool) (w : Word) : State :=
  forEach (List.range 32) (fun s i => if w.getLsbD i then s.shTrigger (i + if high then 32 else 0) else s) s

/-- Meaning of SHANK_TRIG_WRITE. -/
def execShankTrigWrite (p : Principal) (high : Bool) (v : Word) (s : State) : Out :=
  .next (s.access p (if high then shankTrigHi else shankTrigLo) v fun s w => s.shTrigWrite high w)

/-- Meaning of CHANNEL_TRIGGER: the trigger of an event unit, doorbell bit, Welt slot or Eyelet engine that TRIG named
(Table 11-3) reaches the channel. DEDUCED, assumption row 83. -/
def execChannelTrigger (c : ChanIx) (s : State) : Out :=
  .next <|
    if s.shank.arriving.contains c.val then
      { s with shank := { s.shank with arriving := s.shank.arriving.erase c.val } }.shTrigger c.val
    else s

/-! ## Arrivals and posts (R369-R371) -/

/-- A PV arrival with its raw value; those of a channel in OFF do not start its age (R375). -/
def State.pvArrival (s : State) (c : Nat) (raw : Word) : State :=
  let x := s.chanOf c
  let x := { x with
    arrived := if s.chMode c = modeOff then x.arrived else some s.tb.ticks
    sameRaw := if x.sameRaw ≠ 0 ∧ x.lastRaw = raw then min (x.sameRaw + 1) 15 else 1
    lastRaw := raw }
  s.setChan c x

/-- A Welt receive buffer has been updated by a valid slot: arrivals of the channels that read it (Table 11-2). -/
def State.weltArrivals (s : State) (n b : Nat) : State :=
  forEach (List.range 64) (fun s c =>
    if s.get (shchInPvKind c) = 1 ∧ s.get (shchInPvWport c) = n ∧ s.get (shchInPvArg c) = b then
      let raw := s.word (s.halfAddr n b (s.newerHalf n b) + 0x40 + 8 * s.get (shchInPvWord c) + 4 * s.get (shchInPvHi32 c))
      s.pvArrival c raw
    else s) s

/-- An evaluation of channel c has completed: arrivals and triggers of the channels that follow it. -/
def State.chanArrivals (s : State) (c : Nat) : State :=
  let s := forEach (List.range 64) (fun s x =>
    if s.get (shchInPvKind x) = 2 ∧ s.get (shchInPvArg x) % 64 = c then s.pvArrival x (bf32 (s.chanOf c).y) else s) s
  forEach (List.range 64) (fun s x =>
    if s.get (shchTrigKind x) = 6 ∧ s.get (shchTrigArgA x) % 64 = c then s.shTrigger x else s) s

/-- The copy of a PV post to C60 or C61 that Tread receives (R240, R370). -/
def State.treadCopy (s : State) (c slot : Nat) (w : Word) : State :=
  if (c = 60 ∨ c = 61) ∧ (slot = 0 ∨ slot = 3) ∧ s.on pgTread then
    s.setGen (c - 60) { s.genOf (c - 60) with samples := (s.genOf (c - 60)).samples ++ [w] }
  else s

/-- A post with its writer's qualifier reaches the sample DCQ, or the latch before it (R370, R371). -/
def State.shPost (s : State) (p : Principal) (c slot : Nat) (w : Word) : State :=
  let s := s.treadCopy c slot w
  if !s.on pgShank then s
  else
    let q := s.rn (shchPostQual (pIdx p))
    let x : Post := ⟨c, slot, w, BitVec.ofNat 6 q, bitN q 6, bitN q 7⟩
    if dcqCredit .shankSample s.shank.dcq.length ∧ s.shank.held = [] then
      { s with shank := { s.shank with dcq := s.shank.dcq ++ [x] } }
    else if s.shank.held.any fun h => h.chan == c && h.slot == slot then
      { s with shank := { s.shank with held := s.shank.held.map fun (h : Post) => if h.chan = c ∧ h.slot = slot then x else h } }.count
        shankPostMerged
    else { s with shank := { s.shank with held := s.shank.held ++ [x] } }

/-- Meaning of SHANK_POST. DEDUCED, assumption row 84. -/
def execShankPost (p : Principal) (c : ChanIx) (sl : Fin 4) (v : Word) (s : State) : Out :=
  .next (s.access p (shchPost c.val sl.val) v fun s w => s.shPost p c.val sl.val w)

/-- Input slot a post goes to, and the register that configures it. -/
def postSlot (slot : Nat) : Nat := if slot = 3 then 0 else slot
def shchIn (c slot : Nat) : Nat := shchInPv c + 4 * slot

/-- A post enters its channel (R370, R371). -/
def State.postIn (s : State) (x : Post) : State :=
  let k := postSlot x.slot
  if s.rn (shchIn x.chan k) % 4 ≠ 0 then s.count shankPostUnused
  else
    let s := s.setChan x.chan { s.chanOf x.chan with
      posts := (s.chanOf x.chan).posts.wr ⟨0, 0, 0, 0, false, false⟩ k x }
    let s := if k = 0 then s.pvArrival x.chan x.raw else s
    if x.slot = 3 ∧ s.get (shchTrigKind x.chan) = 5 then s.shTrigger x.chan else s

/-- Meaning of POST_ENTRY: one post per K cycle; a held post then takes the freed place. -/
def execPostEntry (s : State) : Out :=
  .next <|
    match s.shank.dcq with
    | [] => s
    | x :: t =>
      let (q, h) := match s.shank.held with
        | y :: r => (t ++ [y], r)
        | [] => (t, [])
      if s.on pgShank then { s with shank := { s.shank with dcq := q, held := h } }.postIn x else s

/-! ## Inputs and loss at dispatch (R369, R372, R375) -/

/-- Value of an input slot, its raw word, and for WELT its AGE and STALE. DESIGN CHOICE, assumption row 85. -/
def State.shInput (s : State) (c slot : Nat) : Dy × State :=
  let w := s.rn (shchIn c slot)
  let scale := signedN 8 (w / 0x100)
  let arg := w / 0x10000 % 512
  match w % 4 with
  | 0 => (⟨((s.chanOf c).posts.rd ⟨0, 0, 0, 0, false, false⟩ slot).raw.toInt, scale⟩, s)
  | 1 =>
    let (r, s) := s.slotWord (w / 4 % 2) arg (w / 0x2000000) (w / 16 % 2)
    (⟨r.toInt, scale⟩, s)
  | 2 => ((s.chanOf (arg % 64)).y.scale scale, s)
  | _ => (if slot = 0 then ⟨0, 0⟩ else dyOf (s.reg (if slot = 1 then shchConstSp c else shchConstFf c)), s)

/-- T cycles since the last PV arrival. DEDUCED, assumption row 81. -/
def State.pvAge (s : State) (c : Nat) : Option Nat :=
  (s.chanOf c).arrived.map fun a => s.tb.ticks - a

/-- AGE_US at dispatch (R375). -/
def State.pvAgeUs (s : State) (c : Nat) : Nat :=
  if s.get (shchInPvKind c) = 3 then 0
  else match s.pvAge c with
    | some t => min (t / 250) 0xFFFF
    | none => 0xFFFF

/-- Loss causes of a channel under set b: bits AGED, SRC, QUAL, FROZEN (R375). DEDUCED, assumption row 82. -/
def State.lossCauses (s : State) (c b : Nat) : Nat :=
  let kind := s.get (shchInPvKind c)
  let x := s.chanOf c
  let post := x.posts.rd ⟨0, 0, 0, 0, false, false⟩ 0
  let maxAge := s.get (shchLossMaxAgeUs c b)
  let aged := kind != 3 && maxAge != 0 &&
    (match s.pvAge c with | some t => decide (maxAge * 250 < t) | none => true)
  let n := s.get (shchInPvWport c)
  let buf := s.get (shchInPvArg c)
  let src := (kind == 0 && decide (s.get (shchLossSrcAgeMax c b) < post.srcAge.toNat))
    || (kind == 1 && (decide (s.get (shchLossSrcAgeMax c b) < min (s.bufAge n buf) 63) || s.bufStale n buf))
  let qual := kind == 0 && ((s.bit (shchCfgQualChk c) && post.invalid) || (post.test && !s.bit (shchCfgTestOk c)))
  let fn := s.get (shchLossFreezeN c b)
  let frozen := fn != 0 && decide (max fn 2 ≤ x.sameRaw)
  (if aged then 1 else 0) + (if src then 2 else 0) + (if qual then 4 else 0) + (if frozen then 8 else 0)

/-! ## The channel law (R363, R364, R377) -/

/-- A biquad's five coefficients. -/
structure Bq where
  b0 : Dy
  b1 : Dy
  b2 : Dy
  a1 : Dy
  a2 : Dy
deriving DecidableEq, Repr

/-- Section k of a set. -/
def State.section' (s : State) (c b k : Nat) : Bq :=
  let r (j : Nat) : Dy := dyOf (s.reg (shchBq c b k j))
  ⟨r 0, r 1, r 2, r 3, r 4⟩

/-- The sections in order from input u: their outputs, and the states after (R364). -/
def bqRun : List Bq → List Dy → List Dy → Dy → List Dy × List Dy × List Dy
  | q :: qs, z1 :: r1, z2 :: r2, u =>
    let w := (q.b0.mul u).add z1
    let n1 := ((q.b1.mul u).sub (q.a1.mul w)).add z2
    let n2 := (q.b2.mul u).sub (q.a2.mul w)
    let (ws, l1, l2) := bqRun qs r1 r2 w
    (w :: ws, n1 :: l1, n2 :: l2)
  | _, z1, z2, _ => ([], z1, z2)

/-- Section states of a preset to v (R377). -/
def bqPreset : List Bq → List Dy → List Dy → Dy → List Dy × List Dy
  | q :: qs, _ :: r1, _ :: r2, v =>
    let (l1, l2) := bqPreset qs r1 r2 v
    ((((q.b1.add q.b2).sub q.a1).sub q.a2).mul v :: l1, (q.b2.sub q.a2).mul v :: l2)
  | _, z1, z2, _ => (z1, z2)

/-- Number of sections that act (R364). -/
def State.nbq (s : State) (c : Nat) : Nat := min (s.get (shchCfgNbq c)) 4

/-- How an evaluation gives its output. -/
inductive EvalKind where
  | law
  | preset (t : Dy)
  | hold
  | safe
  | manual
deriving DecidableEq, Repr

/-- Stage exponents that a channel's registers show. -/
def State.expsOf (s : State) (c : Nat) : List Nat :=
  [s.get (shchExpInput c), s.get (shchExpError c), s.get (shchExpP c), s.get (shchIHiX c), s.get (shchExpD c),
    s.get (shchExp2Sum c), s.get (shchExp2Output c)]

/-- Values after the sum: v, sections and output (R363, R364, R366). DEDUCED, assumption row 87. -/
def State.sumStage (s : State) (c b : Nat) (x : Chan) (v : Dy) (z1 z2 : List Dy) : Chan × Nat × Nat × Bool :=
  let qs := (List.range (s.nbq c)).map (s.section' c b)
  let (ws, n1, n2) := bqRun qs z1 z2 v
  let out := (ws.getLast?.getD v).clip (dyOf (s.reg (shchOmin c b))) (dyOf (s.reg (shchOmax c b)))
  let inner := ws.dropLast
  let (l, X, o1) := store24 (v :: (inner ++ n1 ++ n2))
  let (y, Y, o2) := store1 out
  let zs := l.drop (1 + inner.length)
  ({ x with v := l.headD v, z1 := zs.take n1.length, z2 := zs.drop n1.length, y := y }, X, Y, o1 || o2)

/-- One evaluation of channel c with set b: the channel after it, its stage exponents, whether a stage overflowed, and
whether a preset's integrator clip acted (R363, R376-R378). DEDUCED, assumption row 86. -/
def State.evaluate' (s : State) (c b : Nat) (kind : EvalKind) (pv sp ff : Dy) : Chan × List Nat × Bool × Bool :=
  let x := s.chanOf c
  let k (f : Nat → Nat → Nat) : Dy := dyOf (s.reg (f c b))
  let only (y : Dy) : Chan × List Nat × Bool × Bool :=
    let (y, Y, o) := store1 y
    ({ x with y := y }, (s.expsOf c).take 6 ++ [Y], o, false)
  match kind with
  | .hold => (x, s.expsOf c, false, false)
  | .safe => only (k shchSafeOut)
  | .manual => only ((dyOf (s.reg (shchMan c))).clip (k shchOmin) (k shchOmax))
  | _ =>
    let (li, X0, o0) := store24 [sp, pv, ff]
    let sp := li.getD 0 sp
    let pv := li.getD 1 pv
    let ff := li.getD 2 ff
    let e := if s.bit (shchCfgReverse c) then pv.sub sp else sp.sub pv
    let xe := if s.bit (shchCfgDOnPv c) then (Dy.ofInt 0).sub pv else e
    let (le, X1, o1) := store24 [e, xe]
    let e := le.getD 0 e
    let xe := le.getD 1 xe
    let (p, X2, o2) := store1 ((k shchKp).mul e)
    let f := (k shchKff).mul ff
    let lo := k shchImin
    let hi := k shchImax
    match kind with
    | .preset t =>
      let t := t.clip (k shchOmin) (k shchOmax)
      let want := (t.sub p).sub f
      let i := want.clip lo hi
      let (i', X3, o3) := let (l, X, o) := store40 [i]; (l.headD i, X, o)
      let v := (p.add i').add f
      let qs := (List.range (s.nbq c)).map (s.section' c b)
      let (z1, z2) := bqPreset qs x.z1 x.z2 v
      let x := { x with pv := pv, sp := sp, ff := ff, e := e, xPrev := xe, p := p, i := i', d := ⟨0, -150⟩ }
      let (x, X5, X6, o5) := s.sumStage c b x v z1 z2
      (x, [X0, X1, X2, X3, 0, X5, X6], o0 || o1 || o2 || o3 || o5, !i.same want)
    | _ =>
      let (d, X4, o4) := store1 (((k shchDpole).mul x.d).add ((k shchKd).mul (xe.sub x.xPrev)))
      let di := (k shchKi).mul e
      let zero := Dy.ofInt 0
      let stop := ((k shchOmax).le x.y && zero.lt di) || (x.y.le (k shchOmin) && di.lt zero)
      let i := (x.i.add (if stop then zero else di)).clip lo hi
      let (i', X3, o3) := let (l, X, o) := store40 [i]; (l.headD i, X, o)
      let v := ((p.add i').add d).add f
      let x := { x with pv := pv, sp := sp, ff := ff, e := e, xPrev := xe, p := p, i := i', d := d }
      let (x, X5, X6, o5) := s.sumStage c b x v x.z1 x.z2
      (x, [X0, X1, X2, X3, X4, X5, X6], o0 || o1 || o2 || o3 || o4 || o5, false)

/-- A channel is evaluated in a job (R363, R375-R380). -/
def State.evalChannel (s : State) (c : Nat) : ShEval × State :=
  let x := s.chanOf c
  let old := s.get (shchCfgSet c)
  let b := if x.swapPend then 1 - old else old
  let auto := s.chMode c == modeAuto
  let causes := s.lossCauses c b
  let clean := if causes ≠ 0 then 0 else x.clean + 1
  let lost := causes != 0 || (x.lost && decide (clean < max 1 (s.get (shchLossRecoverN c b))))
  let act := s.get (shchLossAct c b)
  let (pv, s) := s.shInput c 0
  let (sp, s) := s.shInput c 1
  let (ff, s) := s.shInput c 2
  let man := dyOf (s.reg (shchMan c))
  let kind : EvalKind :=
    if x.fresh then .preset man
    else if !auto then (if c < 48 then .preset man else .manual)
    else if x.swapPend then .preset x.y
    else if lost && act != 2 then (if act = 1 then .safe else .hold)
    else if x.heldAct && !lost then .preset (if (s.groupOf' c).isSome then x.groupOut else x.y)
    else if x.wasMan && decide (c < 48) then .preset x.y
    else .law
  let (n, exps, ovf, pc) := s.evaluate' c b kind pv sp ff
  let k (f : Nat → Nat → Nat) (b : Nat) : Dy := dyOf (s.reg (f c b))
  let target := if auto && !x.fresh then x.y else man
  let clampSwap := x.swapPend &&
    (x.y.same (k shchOmin old) || x.y.same (k shchOmax old)
      || !(target.clip (k shchOmin b) (k shchOmax b)).same target || pc)
  let n := { n with
    lost := lost, clean := if lost && causes == 0 then clean else 0
    heldAct := kind == .hold || kind == .safe }
  (⟨c, n, exps, clampSwap, pc, ovf, causes, b, x.swapPend, auto, s.pvAgeUs c, rawOf n.y (signedN 8 (s.get (shchOutDestScale c))),
    n.y.same (k shchOmin b) || n.y.same (k shchOmax b), false, s.bit (shchCfgManTrack c), s.reg (shchOutDest c),
    s.reg (shchOutDb c)⟩, s)

/-! ## Jobs (R372, R381-R383, R386) -/

/-- K cycles of a channel's part of a job (R386). DEDUCED, assumption row 88. -/
def State.jobCost (s : State) (c : Nat) : Nat := 24 + 8 * s.nbq c

/-- The evaluations of a job's channels in order. -/
def State.evalAll (s : State) : List Nat → List ShEval × State
  | [] => ([], s)
  | c :: t =>
    let (e, s) := s.evalChannel c
    let (l, s) := s.evalAll t
    (e :: l, s)

/-- The evaluation with the lowest output, the lower channel on a tie (R382). -/
def lowest : List ShEval → Option ShEval
  | [] => none
  | e :: t =>
    match lowest t with
    | some m => if m.st.y.lt e.st.y then some m else some e
    | none => some e

/-- Back-calculation of a member toward the group output g (R383). -/
def State.track (s : State) (g : Dy) (winner : Nat) (e : ShEval) : ShEval :=
  let e := { e with st := { e.st with groupOut := g } }
  if !e.auto || e.st.lost || e.chan == winner then e
  else
    let k (f : Nat → Nat → Nat) : Dy := dyOf (s.reg (f e.chan e.set))
    let want := e.st.i.add ((k shchKt).mul (g.sub e.st.y))
    let i := want.clip (k shchImin) (k shchImax)
    let (l, X, o) := store40 [i]
    { e with
      st := { e.st with i := l.headD i }, exps := e.exps.take 3 ++ [X] ++ e.exps.drop 4
      numOvf := e.numOvf || o, tracking := i.same want }

/-- What Tread sets before the job of a reserved group: ceiling and OMIN (R242, R387). -/
def State.servoSet (s : State) (c : Nat) : State :=
  if !(c == 60 || c == 61) || !s.reserved || !s.on pgTread then s
  else
    let g := c - 60
    let locked := s.stage g == stLocked || (s.stage g == stPhase && s.bit (treadStatLockedOnce g))
    let band : Int := ppbUnits (s.get (treadConvBandPpb g))
    let fmax : Int := s.fmax g
    let corr : Int := s.freqCorr g
    let hi := if locked then corr + band else fmax
    let lo := if locked then corr - band else -fmax
    let s := s.setReg (shchMan (c + 2)) (bf32Round ⟨hi, -32⟩)
    forEach [0, 1] (fun s b => s.setReg (shchOmin c b) (bf32Round ⟨lo, -32⟩)) s

/-- Errors of the state memory are met as the job reads it (R388). -/
def State.stateWord (s : State) (c : Nat) : State :=
  let x := s.chanOf c
  if x.stateErr = 0 then s
  else if x.stateErr = 1 then (s.setChan c { x with stateErr := 0 }).fault 0x0B 0 pgShch 0 c 0 true
  else (s.setChan c { x with stateErr := 0, fresh := true, arrived := none }).fault 0x0B 1 pgShch 0 c 1 true

/-- Channel of the next job: highest PRIO, then earliest trigger, then lowest number (R386). -/
def State.nextJob (s : State) : Option Nat :=
  let top := s.shank.pend.foldl (fun m c => max m (s.get (shchCfgPrio c))) 0
  s.shank.pend.find? fun c => s.get (shchCfgPrio c) == top

/-- A job runs while a lane is active and both pages are ON (R390-R392). -/
def State.shRuns (s : State) : Bool := s.on pgShank && s.on pgShch && s.get shankLaneStatAct0 != 3

/-- Meaning of JOB_DISPATCH. -/
def execJobDispatch (s : State) : Out :=
  .next <|
    if !s.shRuns || s.shank.job.isSome then s
    else
      match s.nextJob with
      | none => s
      | some c =>
        let s := { s with shank := { s.shank with pend := s.shank.pend.filter (· != c) } }
        if !s.mayTrigger c then s
        else
          let s := s.servoSet c
          let grp := s.groupOf' c
          let cs := match grp with
            | some g => s.groupLive g
            | none => [c]
          let s := forEach cs State.stateWord s
          let fresh := cs.filter fun c => (s.chanOf c).fresh
          let (es, s) := s.evalAll cs
          let cost := (cs.map s.jobCost).sum
          let s := forEach cs (fun s c => s.setChan c { s.chanOf c with fresh := false, wasMan := false }) s
          let es := es.map fun e => { e with st := { e.st with fresh := fresh.contains e.chan } }
          let job : ShJob :=
            match grp, lowest es with
            | some _, some m =>
              let es := es.map (s.track m.st.y m.chan)
              ⟨es, c, grp, m.chan, rawOf m.st.y (signedN 8 (s.get (shchOutDestScale c))), cost + 2⟩
            | _, _ => ⟨es, c, none, c, (es.head?.map ShEval.raw).getD 0, cost⟩
          { s with shank := { s.shank with job := some job } }

/-! ## Commit of a job -/

/-- STAT bits that a job writes, W1C bits kept set (Table 11-8). -/
def State.statOf (s : State) (e : ShEval) (winning : Bool) : Word :=
  let old := s.rn (shchStat e.chan)
  let b (i : Nat) (c : Bool) : Nat := if c then 2 ^ i else 0
  BitVec.ofNat 32 (b 0 e.st.lost + e.causes * 2 + b 10 (bitN old 10 || e.coefClamp) + b 11 (bitN old 11 || e.presetClamp)
    + b 12 (bitN old 12 || e.numOvf) + b 13 winning + b 14 e.tracking)

/-- The results of one evaluation are written. Posts and requests that came during the job stay (R372). -/
def State.commitEval (s : State) (winner : Option Nat) (e : ShEval) : State :=
  let c := e.chan
  let now := s.chanOf c
  let rise := e.st.lost && !s.bit (shchStatLost c)
  let pend := if e.swapped then !now.swapPend else now.swapPend
  let s := s.setChan c { e.st with
    posts := now.posts, arrived := now.arrived, lastRaw := now.lastRaw, sameRaw := now.sameRaw, fresh := now.fresh
    wasMan := now.wasMan, stateErr := now.stateErr, swapPend := pend }
  let s := if e.swapped then s.put (shchCfgSet c) e.set else s
  let s := s.setReg (shchStat c) (s.statOf e (winner == some c))
  let s := s.put (shchStatSwapPend c) (if pend then 1 else 0)
  let s := (s.count (shchEvals c)).put (shchAgeUsUs c) e.ageUs
  let ex (i : Nat) : Nat := e.exps.getD i 0
  let s := s.setReg (shchY c) (bf32 e.st.y)
  let s := (s.setReg (shchV c) (bf32 e.st.v)).setReg (shchE c) (bf32 e.st.e)
  let s := s.setReg (shchILo c) (BitVec.ofInt 32 e.st.i.m)
  let s := s.setReg (shchIHi c) (BitVec.ofNat 32 (wrapN 40 e.st.i.m / 2 ^ 32 + ex 3 * 2 ^ 24))
  let s := s.setReg (shchExp c) (BitVec.ofNat 32 (ex 0 + ex 1 * 2 ^ 8 + ex 2 * 2 ^ 16 + ex 4 * 2 ^ 24))
  let s := s.setReg (shchExp2 c) (BitVec.ofNat 32 (ex 5 + ex 6 * 2 ^ 8))
  let s := s.setReg (shankOut c) e.raw
  let s := if e.manTrack && e.auto then s.setReg (shchMan c) (bf32 e.st.y) else s
  let s := if rise then s.irq' pgShank 5 else s
  let s := if e.coefClamp then s.irq' pgShank 6 else s
  if e.numOvf then s.irq' pgShank 7 else s

/-- An output word reaches the output DCQ, or is held before it (R385). -/
def State.shOut (s : State) (o : ShOut) : State :=
  let swap (l : List ShOut) : List ShOut := l.map fun (h : ShOut) => if h.chan = o.chan then o else h
  if dcqCredit .shankOutput s.shank.outQ.length ∧ s.shank.outHeld = [] then
    { s with shank := { s.shank with outQ := s.shank.outQ ++ [o] } }
  else if s.shank.outHeld.any (·.chan == o.chan) then
    { s with shank := { s.shank with outHeld := swap s.shank.outHeld } }.count shankOutMerged
  else { s with shank := { s.shank with outHeld := s.shank.outHeld ++ [o] } }

/-- A job's results are committed (R382, R384, R389). -/
def State.commitJob (s : State) (j : ShJob) : State :=
  let s := forEach j.evals (fun s e => s.commitEval (if j.group.isSome then some j.winner else none) e) s
  let s := match j.group with
    | some g => (s.put (shankGroupStatWinner g) j.winner).putb (shankGroupStatValid g) true
    | none => s
  let s := s.setReg (shankOut j.trigger) j.raw
  -- Every member's OUT shows its own y; the trigger member's destination takes the group output (R382, R384).
  let s := match j.evals.find? fun e => e.chan == j.trigger with
    | some e =>
      let s := if j.group.isSome then s.setReg (shankOut j.trigger) e.raw else s
      s.shOut ⟨j.trigger, j.raw, e.st.lost, !e.auto, e.atLimit, e.dest, e.db⟩
    | none => s
  forEach j.evals (fun s e => s.chanArrivals e.chan) s

/-- A job's results are discarded: its channels are as before it. -/
def State.dropJob (s : State) (j : ShJob) : State :=
  forEach j.evals (fun s e =>
    let x := s.chanOf e.chan
    s.setChan e.chan { x with fresh := x.fresh || e.st.fresh, wasMan := x.wasMan || e.st.wasMan }) s

/-! ## Lanes (R388-R390) -/

/-- The active lanes as DETAIL1 of SHANK_RETRY shows them. -/
def State.actLanes (s : State) : Nat := s.get shankLaneStatAct0 + 4 * s.get shankLaneStatAct1

/-- Two active lanes are compared. -/
def State.compared (s : State) : Bool := s.get shankLaneStatAct1 != 3

def State.setLanes (s : State) (a0 a1 sp : Nat) (ok : Bool) : State :=
  (((s.put shankLaneStatAct0 a0).put shankLaneStatAct1 a1).put shankLaneStatSpare sp).putb shankLaneStatSpareOk ok

/-- TESTING: a self-test is in progress. -/
def State.testShown (s : State) : State :=
  s.putb shankLaneStatTesting (!s.shank.testing.isEmpty || s.shank.spareTest.isSome)

/-- Shank runs on without a spare, a lane having failed: IRQ and record, once for each such loss (R390). -/
def State.noSpare (s : State) : State :=
  match s.shank.failing.getLast? with
  | none => s
  | some l =>
    ({ s with shank := { s.shank with failing := [] } }.irq' pgShank 3).fault 0x16 2 pgShank 0 l (s.get shankLaneStatFailed)

/-- The working lanes that are left take their places: two active and a spare, two active, one alone, or none. While a
third lane is still under self-test nothing more is decided (R390). DESIGN CHOICE, assumption row 184. -/
def State.settleLanes (s : State) (work : List Nat) : State :=
  let s := (s.setLanes (work.getD 0 3) (work.getD 1 3) (work.getD 2 3) (decide (2 < work.length)))
  let s := if work.length = 2 then s.noSpare else s
  if s.shank.spareTest.isSome then s else
  match work with
  | [] =>
    let s := { s with shank := { s.shank with pend := [], job := none } }
    let s := s.moveTo pgShank stFault
    (s.fault 0x0A 2 pgShank 0 0 (s.get shankLaneStatFailed)).degrade
  | [a] =>
    let s := (s.putb shankLaneStatSingle true).irq' pgShank 3
    (s.fault 0x09 2 pgShank 0 a (s.get shankLaneStatFailed)).degrade
  | _ => (s.putb shankLaneStatSingle false).degrade

/-- The active lanes are to be tested one after the other, Shank running on the other alone (R390). -/
def State.testPair (s : State) : State :=
  let a := s.get shankLaneStatAct0
  let b := s.get shankLaneStatAct1
  let s := (s.put shankLaneStatAct0 b).put shankLaneStatAct1 3
  { s with shank := { s.shank with testing := [a, b], passed := [] } }.testShown.degrade

/-- The spare takes a lane's place, and the lane is removed for self-test; an injection into it ends (R389, R537). -/
def State.swapLane (s : State) (second : Bool) (inj : Bool) : State :=
  let bad := if second then s.get shankLaneStatAct1 else s.get shankLaneStatAct0
  let sp := s.get shankLaneStatSpare
  let s := if second then s.put shankLaneStatAct1 sp else s.put shankLaneStatAct0 sp
  let s := (s.put shankLaneStatSpare 3).putb shankLaneStatSpareOk false
  let s := { s with shank := { s.shank with
    spareTest := some bad, injLane := s.shank.injLane.filter fun x => x.1 != bad } }.testShown
  ((s.countF shankSwapsCount).irq' pgShank 1).fault 0x08 1 pgShank 0 bad sp inj

/-- The verdict a job meets: an injected lane error decides it while that lane takes part (R536). -/
def State.verdictOf (s : State) (r : LaneVerdict) : LaneVerdict × Bool :=
  match s.shank.injLane with
  | some (l, keep) =>
    if l = s.get shankLaneStatAct0 ∨ l = s.get shankLaneStatAct1 then
      (if keep then .spareAgrees (decide (l = s.get shankLaneStatAct0)) else .rerunAgrees, true)
    else (r, false)
  | none => (r, false)

/-- A lane that runs alone with an injected error gives results nothing compares: their words are free (R390, R536). -/
def State.corrupt (s : State) (j : ShJob) : ShJob × State :=
  let (w, s) := s.draw 4
  let (v, s) := s.draw 4
  let y := dyOf v
  ({ j with raw := w, evals := j.evals.map fun e => { e with raw := w, st := { e.st with y := y } } }, s)

/-- Runs of a job that meets a verdict: a lone lane runs it once, and without a spare nothing follows the rerun
(R386, R389). -/
def State.jobRuns (s : State) (r : LaneVerdict) : Nat :=
  if !s.compared then 1
  else match r with
    | .agree => 1
    | .rerunAgrees => 2
    | _ => if s.bit shankLaneStatSpareOk then 3 else 2

/-- Meaning of JOB_END. -/
def execJobEnd (r : LaneVerdict) (s : State) : Out :=
  .next <|
    match s.shank.job with
    | none => s
    | some j =>
      let (r', inj) := s.verdictOf r
      let keepInj := match s.shank.injLane with
        | some (l, true) => some (l, true)
        | _ => none
      let frc := s.tb.frc.toNat
      let runs := s.jobRuns r'
      let s := { s with shank := { s.shank with
        job := none, injLane := keepInj
        busy := (s.shank.busy.filter fun x => decide ((frc + 2 ^ 48 - x.1) % 2 ^ 48 < 250000)) ++ [(frc, runs * j.cost)] } }
      if !s.compared then
        if inj then
          let (j, s) := s.corrupt j
          s.commitJob j
        else s.commitJob j
      else
        let retry (s : State) : State := (s.count shankRetries).irq' pgShank 2
        match r' with
        | .agree => s.commitJob j
        | .rerunAgrees => ((retry s).fault 0x07 0 pgShank 0 j.trigger s.actLanes inj).commitJob j
        | .spareAgrees withSecond =>
          if s.bit shankLaneStatSpareOk then ((retry s).swapLane (!withSecond) inj).commitJob j
          else ((retry s).dropJob j).testPair
        | .unresolved =>
          if s.bit shankLaneStatSpareOk then (((retry s).dropJob j).count shankUnresolved).testPair
          else ((retry s).dropJob j).testPair

/-- Meaning of LANE_TEST: a ready spare is self-tested (R390). -/
def State.laneTest (s : State) (w : Word) : State :=
  if w.getLsbD 0 && s.on pgShank && s.bit shankLaneStatSpareOk && !s.bit shankLaneStatTesting then
    let s := s.putb shankLaneStatSpareOk false
    { s with shank := { s.shank with spareTest := some (s.get shankLaneStatSpare) } }.testShown
  else s

def execLaneTest (p : Principal) (v : Word) (s : State) : Out :=
  .next (s.access p shankLaneTest v fun s w => s.laneTest w)

/-- A lane is marked FAILED. -/
def State.failLane (s : State) (l : Nat) : State :=
  { s with shank := { s.shank with failing := s.shank.failing ++ [l] } }.put shankLaneStatFailed
    (s.get shankLaneStatFailed ||| 1 <<< l)

/-- The lane tested alone ends its self-test: it becomes the spare, or joins what is left of the pair (R390). -/
def State.spareTested (s : State) (l : Nat) (passed : Bool) : State :=
  let s := { s with shank := { s.shank with spareTest := none } }.testShown
  if s.compared ∨ s.shank.testing ≠ [] then
    if passed then ((s.put shankLaneStatSpare l).putb shankLaneStatSpareOk true).degrade
    else
      let s := s.put shankLaneStatSpare 3
      (if s.compared then s.noSpare else s).degrade
  else
    let left := [s.get shankLaneStatAct0].filter (· != 3)
    s.settleLanes (if passed then left ++ [l] else left)

/-- A lane of the pair ends its self-test (R390). -/
def State.pairTested (s : State) (l : Nat) (rest : List Nat) (passed : Bool) : State :=
  let ok := if passed then s.shank.passed ++ [l] else s.shank.passed
  let s := { s with shank := { s.shank with testing := rest, passed := ok } }.testShown
  let spare := if s.bit shankLaneStatSpareOk then [s.get shankLaneStatSpare] else []
  if rest = [] then s.settleLanes (ok ++ spare)
  else s.put shankLaneStatAct0 ((ok ++ spare).headD 3)

/-- Meaning of LANE_SELFTEST_DONE (R390). -/
def execLaneSelftestDone (lane : GenIx) (passed : Bool) (s : State) : Out :=
  .next <|
    let l := lane.val
    let judged (s : State) : State := if passed then s else s.failLane l
    if !s.on pgShank then s
    else if s.shank.spareTest = some l then (judged s).spareTested l passed
    else match s.shank.testing with
      | [] => s
      | t :: rest => if t = l then (judged s).pairTested l rest passed else s

/-! ## Outputs (R384, R385) -/

/-- Eyelet FIFO out an output goes to. -/
def outEye (o : ShOut) : Option Nat := if bitsOf o.dest 0 3 = 3 then some (bitsOf o.dest 16 4) else none

/-- The destination has no room: a full FIFO out of an engine that is ON. -/
def State.outBlocked (s : State) (o : ShOut) : Bool :=
  match outEye o with
  | some n => s.on (pgEye n) && !dcqCredit .eyeletOut (s.eyeOf n).fout.length
  | none => false

/-- An output goes to its destination and doorbell (R384). -/
def State.outDeliver (s : State) (o : ShOut) : State :=
  let arg := bitsOf o.dest 16 9
  let s :=
    match bitsOf o.dest 0 3 with
    | 1 => s.slotPut (bitsOf o.dest 3 1) arg (bitsOf o.dest 25 7) (bitsOf o.dest 5 1) o.raw
    | 2 =>
      let (full, s) := s.lacePost (arg % 64) (arg / 64 % 2) o.raw true
      if full then s.count shankOutDrop else s
    | 3 =>
      let n := arg % 16
      if s.on (pgEye n) then s.setEye n { s.eyeOf n with fout := (s.eyeOf n).fout ++ [o.raw] } else s
    | 4 =>
      if o.chan = 60 ∨ o.chan = 61 then
        s.setGen (o.chan - 60) { s.genOf (o.chan - 60) with outs := (s.genOf (o.chan - 60)).outs ++ [o.raw] }
      else s
    | _ => s
  s.notify o.db

/-- Meaning of SHANK_OUTPUT: a word that waited for its FIFO goes first, then the head of the DCQ.
DEDUCED, assumption row 90. -/
def execShankOutput (s : State) : Out :=
  .next <|
    match s.shank.outWait.find? fun o => !s.outBlocked o with
    | some o =>
      { s with shank := { s.shank with outWait := s.shank.outWait.filter fun (x : ShOut) => x.chan != o.chan } }.outDeliver o
    | none =>
      match s.shank.outQ with
      | [] => s
      | o :: t =>
        let (q, h) := match s.shank.outHeld with
          | y :: r => (t ++ [y], r)
          | [] => (t, [])
        let s := { s with shank := { s.shank with outQ := q, outHeld := h } }
        if !s.outBlocked o then s.outDeliver o
        else if s.shank.outWait.any (·.chan == o.chan) then
          { s with shank := { s.shank with
            outWait := s.shank.outWait.map fun (x : ShOut) => if x.chan = o.chan then o else x } }.count shankOutMerged
        else { s with shank := { s.shank with outWait := s.shank.outWait ++ [o] } }

/-! ## Configuration (R378, R380, R381, R387) -/

/-- Bits of a configuration word of a channel that Tread reserves (Table 11-6). DEDUCED, assumption row 89. -/
def State.reservedBits (s : State) (c k : Nat) : Word :=
  if !s.reserved || decide (c < 60) then 0
  else
    let servo := c == 60 || c == 61
    if k = shchCfg c then (if servo then 0x7 else 0x3)
    else if k = shchTrig c ∨ k = shchInPv c ∨ k = shchInSp c ∨ k = shchInFf c ∨ k = shchConstSp c ∨ k = shchConstFf c then
      0xFFFFFFFF
    else if servo && (k == shchOutDest c || k == shchOmin c 0 || k == shchOmin c 1) then 0xFFFFFFFF
    else if !servo && k == shchMan c then 0xFFFFFFFF
    else 0

/-- A write of a channel's word as R387 lets it act: reserved fields keep their values and set RESERVED. -/
def State.shchWord (s : State) (c k : Nat) (w : Word) : Word × State :=
  let m := s.reservedBits c k
  if m = 0 then (w, s) else ((w &&& ~~~m) ||| (s.reg k &&& m), s.err pgShch 9)

/-- A change of MODE out of or into OFF makes the next evaluation the channel's initialisation; one from MANUAL to AUTO marks the
next evaluation as the first after it (R378). -/
def State.modeChange (s : State) (c old new : Nat) : State :=
  if old = new then s
  else if old = modeOff ∨ new = modeOff then
    s.setChan c { s.chanOf c with fresh := true, arrived := none, wasMan := false }
  else s.setChan c { s.chanOf c with wasMan := new == modeAuto }

/-- A write of CFG of channel c (R378, R380). -/
def State.shchCfgWrite (s : State) (c : Nat) (w : Word) : State :=
  let (w, s) := s.shchWord c (shchCfg c) w
  let old := s.chMode c
  let set := s.get (shchCfgSet c)
  let s := s.byCodes (shchCfg c) w
  let want := bitsOf w 2 1
  let s := if old = modeOff then s else s.put (shchCfgSet c) set
  let pend := old != modeOff && want != set
  let s := if s.reserved && (c == 60 || c == 61) then s
    else (s.setChan c { s.chanOf c with swapPend := pend }).put (shchStatSwapPend c) (if pend then 1 else 0)
  s.modeChange c old (s.chMode c)

/-- A write of another word of channel c's window or sets. -/
def State.shchWrite (s : State) (c k : Nat) (w : Word) : State :=
  if k = shchCfg c then s.shchCfgWrite c w
  else
    let (w, s) := s.shchWord c k w
    s.byCodes k w

/-- Channel a principal's SEL names. -/
def State.selOf (s : State) (p : Principal) : Nat := s.get (shchSelChan (pIdx p))

/-- Meaning of SET_WRITE. -/
def execSetWrite (p : Principal) (v : Word) (s : State) : Out :=
  .next (s.access p (shchCfg (s.selOf p)) v fun s w => s.shchCfgWrite (s.selOf p) w)

/-- A write of GROUP[g].CFG (R381, R387). -/
def State.groupCfg (s : State) (g : Nat) (w : Word) : State :=
  let m := bitsOf w 0 16
  let n := ((List.range 16).filter (bitN m)).length
  let shared := (List.range 8).any fun h => h != g && s.get (shankGroupCfgMembers h) &&& m != 0
  if s.reserved && decide (6 ≤ g) then s.err pgShank 9
  else if 4 < n ∨ shared then s.err pgShank 8
  else s.byCodes (shankGroupCfg g) w

/-- Meaning of GROUP_CFG_WRITE. -/
def execGroupCfgWrite (p : Principal) (g : OctIx) (v : Word) (s : State) : Out :=
  .next (s.access p (shankGroupCfg g.val) v fun s w => s.groupCfg g.val w)

/-- Tread configures the reserved channels and groups (Table 11-6). -/
def State.shankReserve (s : State) : State :=
  let s := forEach [60, 61, 62, 63] (fun (s : State) c =>
    let servo := c < 62
    let old := s.chMode c
    let s := s.put (shchCfgMode c) (if servo then modeAuto else modeManual)
    let s := s.put (shchTrigKind c) (if servo then 5 else 0)
    let s := s.put (shchInPvKind c) (if servo then 0 else 3)
    let s := if servo then s.put (shchInPvScale c) 0xF8 else s
    let s := (s.put (shchInSpKind c) 3).put (shchInFfKind c) 3
    let s := (s.setReg (shchConstSp c) 0).setReg (shchConstFf c) 0
    let s := if servo then (s.put (shchOutDestKind c) 4).put (shchOutDestScale c) 0 else s
    s.modeChange c old (s.chMode c)) s
  (s.setReg (shankGroupCfg 6) 0x80005000).setReg (shankGroupCfg 7) 0x8000A000

/-! ## Start and stop (R391, R392) -/

/-- SHANK reaches its first consistent point: the lanes that passed take their places, the state memory is clear; it
enters FAULT without a working lane (R391, Table 3-8). -/
def State.shankPoint (s : State) (failed : BitVec 3) : State :=
  let work := [0, 1, 2].filter fun i => !failed.getLsbD i
  let s := s.setReg shankLaneStat (BitVec.ofNat 32 (failed.toNat * 0x100))
  -- what Tread asked of C60 and C61 stands (R243)
  let asked := [60, 61].filter fun c => s.reserved && (s.chanOf c).swapPend
  let s := { s with shank := {} }
  let s := forEach (List.range 64) (fun s c =>
    forEach [shchStat c, shchAgeUs c, shchY c, shchV c, shchE c, shchILo c, shchIHi c, shchExp c, shchExp2 c]
      (fun s k => s.setReg k 0) s) s
  let s := forEach asked (fun s c => (s.setChan c { s.chanOf c with swapPend := true }).put (shchStatSwapPend c) 1) s
  match work with
  | [_, _] =>
    let l := failed.toNat
    let bad := if l = 1 then 0 else if l = 2 then 1 else 2
    let s := s.setLanes (if bad = 0 then 2 else 0) (if bad = 1 then 2 else 1) 3 false
    let s := if bad < 2 then s.fault 0x08 1 pgShank 0 bad 2 else s
    (s.fault 0x16 2 pgShank 0 bad (s.get shankLaneStatFailed)).conflict pgShank 2 0x40 8
  | _ => if work.length = 3 then s.setLanes 0 1 2 true else (s.settleLanes work).conflict pgShank 2 0x40 8

/-- SHANK stops: the running job completes; pending triggers and held posts are discarded (R391). -/
def State.shankClear (s : State) : State :=
  let s := match s.shank.job with
    | some j => s.commitJob j
    | none => s
  { s with shank := { s.shank with arriving := [], pend := [], held := [], dcq := [], job := none, testing := [], passed := [], spareTest := none } }

end Sys2Proof.Machine
end

