-- ==== Sys2Proof/Machine/Wave.lean ====
section
/-! DEFINITION. Wave capture and front detection (R455-R469). Times are in 2^-32 ns unless a name says otherwise. -/
namespace Sys2Proof.Machine

/-- Owner code of WCAP (Table 2-11). -/
def wcapCode : Nat := 0x21

/-! ## Configuration as it acts -/

/-- Channels of a frame (R460). -/
def State.wWidth (s : State) : Nat := 2 ^ s.get wcapCfgWidth
/-- Frame size in bytes. -/
def State.wFs (s : State) : Nat := 2 * s.wWidth
/-- The channel is enabled: within the width and not refused at the start (R455, R460). -/
def State.wEn (s : State) (c : Nat) : Bool := s.bit (wcapChCfgEn c) && decide (c < s.wWidth) && !s.wcap.refused.contains c
/-- Frames the buffer holds. -/
def State.wNf (s : State) : Nat := s.wcap.banks.length * 524288 / s.wFs
/-- LAG_MAX as it acts (R457). -/
def State.wLag (s : State) : Nat := max 1 (s.get wcapCfgLagMax)
/-- The source engine sends its words elsewhere (R455). -/
def State.wSrcOff (s : State) (c : Nat) : Bool := !s.bit (eyeSinkWcap (s.get (wcapChCfgSrc c)))
/-- PRE and POST as they act (R464). -/
def State.wPrePost (s : State) : Nat × Nat :=
  let pre := s.get wcapPreFrames
  let post := s.get wcapPostFrames
  let half := s.wNf / 2
  if half < pre + post then (min pre half, half - min pre half) else (pre, post)

/-- Device address of frame n's slot (R460). -/
def State.wSlot (s : State) (n : Nat) : Nat :=
  let q := n % max 1 s.wNf * s.wFs
  bankBase (s.wcap.banks.getD (q / 524288) 0) + q % 524288

/-! ## Records (R464-R466) -/

def State.recOf (s : State) (r : Nat) : Option WRec := s.wcap.recs.rd none r

/-- A record changes, with the registers that show it (Table 14-3). -/
def State.setRec (s : State) (r : Nat) (x : WRec) : State :=
  let s := { s with wcap := { s.wcap with recs := s.wcap.recs.wr none r (some x) } }
  let b (i : Nat) (c : Bool) : Nat := if c then 2 ^ i else 0
  let w (v : Nat) : Word := BitVec.ofNat 32 v
  let s := (s.setReg (wcapRecFirstLo r) (w x.first)).setReg (wcapRecFirstHi r) (w (x.first / 2 ^ 32))
  let s := (s.put (wcapRecTrigOfsFrames r) (x.trig - x.first)).put (wcapRecLenFrames r) x.len
  let s := (s.setReg (wcapRecArrLo r) (w x.arrival.toNat)).setReg (wcapRecArrHi r) (w (x.arrival.toNat / 2 ^ 32))
  s.setReg (wcapRecInfo r) (w (x.src + x.chan * 16 + b 8 x.isOpen + b 9 x.held + b 10 x.truncated + b 11 x.gap
    + b 12 x.pausedIn + b 13 x.lost + min x.triggers 0xFFFF * 2 ^ 16))

/-- The open record. -/
def State.openRec (s : State) : Option (Nat × WRec) :=
  (List.range 64).findSome? fun r => match s.recOf r with
    | some x => if x.isOpen then some (r, x) else none
    | none => none

/-- The record is being exported: it stays HELD (R467). -/
def State.exporting (s : State) (r : Nat) : Bool := match s.wcap.exporting with | some (k, _) => k == r | none => false

/-- Flags of a record's frames: a filled sample, a discarded frame (R466). -/
def State.recFlags (s : State) (x : WRec) : WRec :=
  let has (l : List Nat) : Bool := l.any fun n => decide (x.first ≤ n ∧ n < x.first + x.len)
  { x with gap := x.gap || has s.wcap.gaps, pausedIn := x.pausedIn || has s.wcap.dropped }

/-- A record reads HELD (R464). -/
def State.holdRec (s : State) (r : Nat) (x : WRec) : State :=
  (s.setRec r (s.recFlags { x with isOpen := false, held := true })).irq' pgWcap 2

/-- A held record is lost and released (Table 14-2). DEDUCED, assumption row 116. -/
def State.loseRec (s : State) (r : Nat) (x : WRec) : State :=
  ((s.setRec r { x with held := false, lost := true }).count wcapRecLost).irq' pgWcap 4

/-- The open record shows its flags, and ends once its last frame has been written. -/
def State.checkDone (s : State) : State :=
  match s.openRec with
  | some (r, x) =>
    if x.first + x.len ≤ s.wcap.nextFrame then s.holdRec r x
    else if s.recFlags x = x then s
    else s.setRec r (s.recFlags x)
  | none => s

/-- Nanoseconds, to nearest with halves up, of (base × 4096 × 1000 + rest) / (2^32 × 4096 × 1000) (R462).
DEDUCED, assumption row 118. -/
def roundNs (num : Int) : Int := let d : Int := 2 ^ 32 * 4096 * 1000; (2 * num + d) / (2 * d)

/-- Time of index n + φ/4096 on channel c in ns (R456, R462). -/
def State.wTime (s : State) (c : Nat) (n phi : Nat) : Int :=
  let t0 : Int := s.wcap.t0
  let p : Int := s.wcap.period
  roundNs ((t0 + (n : Int) * p) * 4096000 + (phi : Int) * p * 1000 + (s.reg (wcapChDelay c)).toInt * 2 ^ 32 * 4096)

/-- A trigger at index nt: it adds to an open record, or opens one (R464-R466). Answers the record that holds it. -/
def State.wTrigger (s : State) (nt src c : Nat) (arrival : Int) : Option Nat × State :=
  let (pre, post) := s.wPrePost
  let nf := s.wNf
  match s.openRec with
  | some (r, x) =>
    let x := { x with
      triggers := min (x.triggers + 1) 0xFFFF
      len := if s.bit wcapCfgExtend then min (nt + x.post - x.first) (nf / 2) else x.len }
    (some r, (s.setRec r x).checkDone)
  | none =>
    let r := s.wcap.nextRec
    let held := match s.recOf r with | some x => x.held | none => false
    if held && (s.bit wcapCfgFull || s.exporting r) then (none, (s.count wcapTrigLost).irq' pgWcap 4)
    else
      let s := match s.recOf r with
        | some x => if x.held then s.loseRec r x else s
        | none => s
      let first := max (nt - pre) (s.wcap.nextFrame + 1 - nf)
      let x : WRec := {
        first := first, trig := nt, len := nt + post - first, arrival := BitVec.ofInt 64 arrival, src := src, chan := c
        isOpen := true, held := false, truncated := false, gap := false, pausedIn := false, lost := false, triggers := 0
        post := post }
      let s := { s with wcap := { s.wcap with nextRec := (r + 1) % 64 } }
      (some r, (s.setRec r x).checkDone)

/-- A trigger that is no front: at the index of the next frame, dated on WC0 (R464, Table 14-3). -/
def State.wOther (s : State) (src : Nat) : State :=
  if s.wcap.capturing then (s.wTrigger s.wcap.nextFrame src 0 (s.wTime 0 s.wcap.nextFrame 0)).2 else s

/-- The trigger of TRIG's doorbell that has risen (R464). DEDUCED, assumption row 111. -/
def State.wDoorbell (s : State) : State :=
  if s.wcap.trigPend then { s with wcap := { s.wcap with trigPend := false } }.wOther 2 else s

/-! ## Frames (R460, R466) -/

/-- The held record whose frames hold index n. -/
def State.heldAt (s : State) (n : Nat) : Option (Nat × WRec) :=
  (List.range 64).findSome? fun r => match s.recOf r with
    | some x => if x.held ∧ x.first ≤ n ∧ n < x.first + x.len then some (r, x) else none
    | none => none

/-- The frame that the slot of frame n still holds: the latest before it that was not discarded. -/
def State.inSlot (s : State) (n : Nat) : Nat → Option Nat
  | 0 => none
  | k + 1 =>
    if n < s.wNf then none
    else if s.wcap.dropped.contains (n - s.wNf) then s.inSlot (n - s.wNf) k
    else some (n - s.wNf)

/-- The held record a frame of which frame n would overwrite (Table 14-2). -/
def State.slotHeld (s : State) (n : Nat) : Option (Nat × WRec) := (s.inSlot n (s.wcap.dropped.length + 1)).bind s.heldAt

/-- Every held record that frame n would overwrite gives way, unless one bars the write. -/
def State.freeSlot (s : State) (n : Nat) : Nat → Bool × State
  | 0 => (true, s)
  | k + 1 =>
    match s.slotHeld n with
    | none => (true, s)
    | some (r, x) => if s.bit wcapCfgFull || s.exporting r then (false, s) else (s.loseRec r x).freeSlot n k

/-- PAUSED ends when no held record blocks the slot of the next frame (R466). -/
def State.resumed (s : State) : State :=
  match s.slotHeld s.wcap.nextFrame with
  | some (r, _) => if s.bit wcapCfgFull || s.exporting r then s else s.putb wcapStatPaused false
  | none => s.putb wcapStatPaused false

/-- Value of channel c in the pending frame n, and whether it was filled. -/
def State.pendingAt (s : State) (n c : Nat) : Option (Half × Bool) :=
  (s.wcap.pending.find? fun x => x.1 == n && x.2.1 == c).map fun x => (x.2.2.1, x.2.2.2)

/-- The next frame is written, or discarded against a held record, and the index advances. -/
def State.writeFrame (s : State) : State :=
  let n := s.wcap.nextFrame
  let vals := (List.range s.wWidth).map fun c => (s.pendingAt n c).getD (0, false)
  let (ok, s) := s.freeSlot n 64
  let s :=
    if ok then (s.writeA wcapCode (s.wSlot n) (vals.flatMap fun v => leBytes 2 v.1.toNat)).putb wcapStatPaused false
    else
      let s := if s.bit wcapStatPaused then s else s.irq' pgWcap 5
      (((s.count wcapDropped).irq' pgWcap 4).putb wcapStatPaused true)
  let w := s.wcap
  let old (l : List Nat) : List Nat := l.filter fun m => decide (n < m + s.wNf)
  let slot (m : Nat) : Nat := m % max 1 s.wNf
  let s := { s with wcap := { w with
    nextFrame := n + 1
    pending := w.pending.filter fun x => x.1 != n
    dropped := if ok then w.dropped.filter fun m => slot m != slot n else w.dropped ++ [n]
    gaps := if vals.any (·.2) then old w.gaps ++ [n] else old w.gaps } }
  s.checkDone

/-- Every enabled channel has its sample of the next frame. -/
def State.frameReady (s : State) : Bool :=
  (List.range 8).any s.wEn && (List.range 8).all fun c => !s.wEn c || decide (s.wcap.nextFrame < (s.wchanOf c).next)

/-- Complete frames are written in order. -/
def State.writeFrames (s : State) : Nat → State
  | 0 => s
  | k + 1 => if s.frameReady then s.writeFrame.writeFrames k else s

/-! ## Front detection and reports (R461-R463) -/

/-- d at lag j back from the newest sample, where both samples are received. -/
def dAt (l : List Sample) (k j : Nat) : Option Int :=
  match l[j]?, l[j + k]? with
  | some a, some b => if a.received ∧ b.received then some (a.v.toInt - b.v.toInt) else none
  | _, _ => none

/-- A front report enters the report FIFO (R463). DEDUCED, assumption row 117. -/
def State.wReport (s : State) (l : List Word) : State :=
  if s.wcap.reports.length < 16 then { s with wcap := { s.wcap with reports := s.wcap.reports ++ [l] } }
  else s.count wcapReportLost

/-- A channel fires at index n. -/
def State.wFire (s : State) (c n : Nat) (d1 d0 : Int) (th : Nat) : State :=
  let phi := 4096 * (th - d1.natAbs) / (d0.natAbs - d1.natAbs)
  let t := s.wTime c (n - 1) phi
  let s := ((s.putb (wcapChStatFired c) true).count (wcapChFronts c)).irq' pgWcap 1
  let s := s.setWchan c { s.wchanOf c with lastFire := some n }
  let (r, s) : Option Nat × State :=
    if bitN (s.get wcapCfgTrigMask) c then s.wTrigger n 0 c t else (s.openRec.map (·.1), s)
  let holds := match r.bind s.recOf with | some x => decide (x.first ≤ n ∧ n < x.first + x.len) | none => false
  let w0 := c + (if d0 < 0 then 8 else 0) + r.getD 0 * 256 + (if holds then 0 else 0x4000)
  let w (v : Int) : Word := BitVec.ofInt 32 v
  s.wReport [BitVec.ofNat 32 w0, BitVec.ofNat 32 n, BitVec.ofNat 32 (n / 2 ^ 32), w t, w (t / 2 ^ 32), BitVec.ofNat 32 phi,
    w d1, w d0]

/-- The detector looks at the index just stored (R461). -/
def State.wDetect (s : State) (c n : Nat) : State :=
  let x := s.wchanOf c
  let k := min (max (s.get (wcapChKK c)) 1) 16
  let th := s.get (wcapChThreshThresh c)
  let clear := match x.lastFire with
    | some m => decide (m + s.get (wcapChHoldoffIndices c) < n)
    | none => true
  match dAt x.recent k 0, dAt x.recent k 1 with
  | some d0, some d1 =>
    if s.bit (wcapChCfgDetEn c) && clear && decide (d1.natAbs ≤ th ∧ th < d0.natAbs) then s.wFire c n d1 d0 th else s
  | _, _ => s

/-- The sample of the channel's next index: stored, watched, and its frames written (R457, R460, R461). -/
def State.wSample (s : State) (c : Nat) (v : Half) (filled : Bool) : State :=
  let x := s.wchanOf c
  let n := x.next
  let s := s.setWchan c { x with
    next := n + 1, prevVal := v, recent := (⟨v, !filled⟩ :: x.recent).take 18, outstanding := x.outstanding - 1 }
  let s := { s with wcap := { s.wcap with pending := s.wcap.pending ++ [(n, c, v, filled)] } }
  let s := s.wDetect c n
  s.writeFrames (s.wLag + 1)

/-- The oldest outstanding index of a channel is filled (R457). -/
def State.wFill (s : State) (c : Nat) : State :=
  let s := (s.putb (wcapChStatGap c) true).countF (wcapChSlipsGaps c)
  s.wSample c (s.wchanOf c).prevVal true

/-! ## The sample timeline (R456-R458) -/

/-- Capture ends: the open record is closed as TRUNCATED (R458, R468). -/
def State.wEnd (s : State) : State :=
  let s := s.wDoorbell
  let s := { s with wcap := { s.wcap with capturing := false, trigPend := false } }
  let s := s.putb wcapStatCapturing false
  match s.openRec with
  | some (r, x) => s.holdRec r { x with truncated := true, len := min x.len (s.wcap.nextFrame - x.first) }
  | none => s

/-- The timeline breaks (R458). -/
def State.wBreak (s : State) (cause : Nat) : State :=
  let s := (s.wEnd.err pgWcap 10).moveTo pgWcap stFault
  (s.fault 0x0F 2 pgWcap 0 (s.wcap.firings % 2 ^ 32) cause).degrade

/-- A firing seen: every enabled channel owes one more sample (R457). DEDUCED, assumption row 112. -/
def State.wCount (s : State) : State :=
  let s := { s with wcap := { s.wcap with firings := s.wcap.firings + 1 } }
  forEach ((List.range 8).filter s.wEn) (fun s c =>
    let x := s.wchanOf c
    let s := s.setWchan c { x with outstanding := x.outstanding + 1 }
    if s.wLag < x.outstanding + 1 then s.wFill c else s) s

/-- The sample unit has been disarmed. -/
def State.wDisarmed (s : State) : State := if s.wcap.capturing then s.wBreak 0 else s

/-- Capture begins at the firing at `tgt`: T0 and P are latched (R456). -/
def State.wBegin (s : State) (tgt : BitVec 72) : State :=
  let h := s.htbOf 2
  let t0 := ((h.v.toNat : Int) - evDiff h.v tgt).toNat
  let p := s.evPeriod (s.get wcapCfgEv)
  let r (v : Nat) : Word := BitVec.ofNat 32 v
  let s := { s with wcap := { s.wcap with capturing := true, t0 := t0, period := p } }
  let s := ((s.setReg wcapT0NsLo (r (t0 / 2 ^ 32))).setReg wcapT0NsHi (r (t0 / 2 ^ 64))).setReg wcapT0Frac (r t0)
  ((s.setReg wcapPeriodNs (r (p / 2 ^ 32))).setReg wcapPeriodFrac (r p)).putb wcapStatCapturing true

/-- The sample unit has fired at `tgt`. A target it counts as MISSED is skipped by a LATE firing (R207). -/
def State.wFiring (s : State) (tgt : BitVec 72) (late : Bool) : State :=
  let w := s.wcap
  let n := s.get wcapCfgEv
  if !w.capturing then
    if s.evMode n = 2 ∧ s.evHtb n = 2 then
      let s := s.wBegin tgt
      if late then s.wBreak 1 else s.wCount
    else s
  else if late then s.wBreak 1
  else if BitVec.ofNat 72 (w.t0 + w.firings * w.period) ≠ tgt then s.wBreak 3
  else s.wCount

/-- Meaning of SAMPLE_FIRING: wave capture sees the next firing of the sample unit, or its disarming. -/
def execSampleFiring (disarmed : Bool) (s : State) : Out :=
  .next <|
    let s := s.wDoorbell
    let w := s.wcap
    if !s.on pgWcap then s
    else match w.due with
      | none :: l => if disarmed then { s with wcap := { w with due := l } }.wDisarmed else s
      | some (tgt, late) :: l => if disarmed then s else { s with wcap := { w with due := l } }.wFiring tgt late
      | [] => s

/-- Meaning of WCAP_WORD: a channel takes the word at the head of its FIFO. DEDUCED, assumption row 114. -/
def execWcapWord (c : OctIx) (s : State) : Out :=
  .next <|
    let s := s.wDoorbell
    let c := c.val
    let e := s.get (wcapChCfgSrc c)
    let y := s.eyeOf e
    if !s.on pgWcap || !s.wEn c || s.wSrcOff c then s
    else match y.fin with
      | [] => s
      | v :: t =>
        let s := s.setEye e { y with fin := t }
        let v : Half := v.setWidth 16 ^^^ (if s.bit (wcapChCfgOffsetBin c) then 0x8000 else 0)
        if !s.wcap.capturing ∨ (s.wchanOf c).outstanding = 0 then s.countF (wcapChSlipsExtra c) else s.wSample c v false

/-- Directions the reports go to: mailbox and side (R463). -/
def State.wDests (s : State) : List (Nat × Nat) :=
  (if s.bit wcapReportEngEn then [(s.get wcapReportEngMailbox, s.get wcapReportEngSide)] else [])
    ++ (if s.bit wcapReportHostEn then [(s.get wcapReportHostMailbox, s.get wcapReportHostSide)] else [])

/-- A report is posted as one message, LAST on its last word. -/
def State.postWords (s : State) (m d : Nat) : List Word → State
  | [] => s
  | [w] => (s.lacePost m d w true).2
  | w :: t => (s.lacePost m d w false).2.postWords m d t

/-- A report is posted to each destination in turn that has room for its eight words; the others are kept. -/
def State.postTo (s : State) (l : List Word) : List (Nat × Nat) → List (Nat × Nat) × State
  | [] => ([], s)
  | x :: t =>
    if s.on pgLace && s.laceQ x.1 x.2 == [] then (s.postWords x.1 x.2 l).postTo l t
    else
      let (left, s) := s.postTo l t
      (x :: left, s)

/-- Meaning of REPORT_POST: the head report leaves once it has been posted to every destination. -/
def execReportPost (s : State) : Out :=
  .next <|
    match s.wcap.reports with
    | [] => s
    | l :: t =>
      let (left, s) := s.postTo l (s.wcap.reportLeft.getD s.wDests)
      if left = [] then { s with wcap := { s.wcap with reports := t, reportLeft := none } }
      else { s with wcap := { s.wcap with reportLeft := some left } }

/-! ## Writes (R464, R466-R468) -/

/-- A write of TRIG. -/
def State.trigWrite (s : State) (w : Word) : State :=
  let s := s.wDoorbell.byCodes wcapTrig w
  if w.getLsbD 0 then s.wOther 1 else s

/-- Meaning of TRIG_SW. -/
def execTrigSw (p : Principal) (v : Word) (s : State) : Out :=
  .next (s.access p wcapTrig v fun s w => s.trigWrite w)

/-- A write of RELEASE (R466). -/
def State.releaseWrite (s : State) (w : Word) : State :=
  (forEach (List.range 64) (fun s r =>
    if w.getLsbD 8 || r == bitsOf w 0 6 then
      match s.recOf r with
      | some x => if x.held && !s.exporting r then s.setRec r { x with held := false } else s
      | none => s
    else s) s.wDoorbell).resumed

/-- Meaning of RELEASE. -/
def execRelease (p : Principal) (v : Word) (s : State) : Out :=
  .next (s.access p wcapRelease v fun s w => s.releaseWrite w)

/-- A write of EXPORT_CTRL (R467). DESIGN CHOICE, assumption row 115. -/
def State.exportGo (s : State) (p : Principal) (w : Word) : State :=
  let s := s.wDoorbell
  let r := s.get wcapExportRecRecord
  let result (v : Nat) : State := s.put wcapExportCtrlResult v
  if !w.getLsbD 0 then s
  else if s.bit wcapExportCtrlBusy then s.err pgWcap 11
  else if !(s.on pgWcap || s.st pgWcap == stFault || s.st pgWcap == stOff)
      || !s.wcap.banks.all fun b => s.ownerOf b == wcapCode then s
  else match s.recOf r with
    | none => result 1
    | some x =>
      let a := s.rn wcapExportDest / 16 * 16
      let n := x.len * s.wFs
      let inBanks := if n = 0 ∨ !isBank a then [] else (banksOf a n).filter (· < 192)
      if !x.held then result 1
      else if inBanks.any fun b => s.ownerOf b != pCode p then result 2
      else if !isBank a ∨ bankEnd < a + n then result 3
      else
        let s := (s.putb wcapExportCtrlBusy true).putb wcapStatExportBusy true
        { s with wcap := { s.wcap with exporting := some (r, a) } }

/-- Meaning of EXPORT. -/
def execExportRec (p : Principal) (v : Word) (s : State) : Out :=
  .next (s.access p wcapExportCtrl v fun s w => s.exportGo p w)

/-- Frames copied in index order. -/
def State.copyFrames (s : State) (n dest : Nat) : Nat → State
  | 0 => s
  | k + 1 =>
    let (l, _, s) := s.eccRead wcapCode (s.wSlot n) s.wFs
    (s.writeA wcapCode dest l).copyFrames (n + 1) (dest + s.wFs) k

/-- Meaning of EXPORT_DONE. -/
def execExportDone (s : State) : Out :=
  .next <|
    match s.wcap.exporting with
    | none => s
    | some (r, a) =>
      let s := match s.recOf r with
        | some x => s.copyFrames x.first a x.len
        | none => s
      let s := { s with wcap := { s.wcap with exporting := none } }
      let s := (s.putb wcapExportCtrlBusy false).putb wcapStatExportBusy false
      ((s.put wcapExportCtrlResult 0).irq' pgWcap 3).resumed

/-- A write of CFG, BUF or a channel's CFG, accepted only in OFF (R468). -/
def State.wCfgWrite (s : State) (k : Nat) (w : Word) : State :=
  if s.st pgWcap = stOff then s.byCodes k w else s.err pgWcap 12

/-! ## Start and stop (R459, R468) -/

/-- The banks of the buffer's range (R459). -/
def State.wRange (s : State) : List Nat :=
  let n := min (max (s.get wcapBufCount) 1) 128
  ((List.range n).map (s.get wcapBufFirst + ·)).filter (· < 192)

/-- Channels that name an engine another enabled channel names (R455). DEDUCED, assumption row 113. -/
def State.wTwice (s : State) : List Nat :=
  let l := (List.range 8).filter fun c => s.bit (wcapChCfgEn c) && decide (c < s.wWidth)
  l.filter fun c => l.any fun d => d != c && s.get (wcapChCfgSrc d) == s.get (wcapChCfgSrc c)

/-- The start sequence claims the banks of the range (R459). -/
def State.wcapClaims (s : State) : State := forEach s.wRange (fun s b => s.claim b wcapCode) s

/-- A claimed bank is still being zeroed, or still asleep (R484, R486). -/
def State.wcapWaits (s : State) : Bool :=
  s.wRange.any fun b => (s.bit (bankBankstScrubbing b) && (s.bank.scrubNext.rd 0 b).toNat == wcapCode)
    || (s.ownerOf b == wcapCode && s.bit (bankBankstAsleep b))

/-- WCAP reaches its first consistent point, or FAULT if it ends with no bank. -/
def State.wcapPoint (s : State) : State :=
  let banks := s.wRange.filter fun b => s.ownerOf b == wcapCode
  let twice := s.wTwice
  let s := { s with wcap := { banks := banks, refused := twice } }
  let s := forEach (List.range 8) (fun s c => (s.setReg (wcapChFronts c) 0).setReg (wcapChSlips c) 0) s
  let s := forEach (List.range 64) (fun s r => forEach (List.range 7) (fun s i => s.setReg (wcapRecFirstLo r + 4 * i) 0) s) s
  let s := forEach (List.range 6) (fun s w => s.setReg (wcapBankMap w)
    (BitVec.ofNat 32 ((banks.map fun b => if b / 32 = w then 2 ^ (b % 32) else 0).sum))) s
  let s := s.put wcapCapacityFrames s.wNf
  let s := s.setReg wcapStat 0
  let s := (s.putb wcapExportCtrlBusy false)
  let s := if twice ≠ [] then s.err pgWcap 9 else s
  let s := if banks.length < min (max (s.get wcapBufCount) 1) 128 then
      let s := s.err pgWcap 8
      if s.booted then s else s.conflict pgWcap 2 0x44 4
    else s
  (if banks = [] then s.moveTo pgWcap stFault else s).degrade

/-- STAT (Table 14-3). -/
def State.wcapStatNow (s : State) : Word :=
  let held := ((List.range 64).filter fun r => match s.recOf r with | some x => x.isOpen || x.held | none => false).length
  BitVec.ofNat 32 ((s.rn wcapStat) % 8 + s.wcap.nextRec * 2 ^ 8 + held * 2 ^ 16 + s.wcap.reports.length * 2 ^ 24)

/-- WCAP stops (R468). -/
def State.wcapClear (s : State) : State := s.wEnd.degrade

end Sys2Proof.Machine
end

