-- ==== Sys2Proof/Machine/Pattern.lean ====
section
/-! DEFINITION. Welt Patterns: entries, wire times, the checks of Table 12-4, edit and active copies (R401-R404, R425). -/
namespace Sys2Proof.Machine

/-- A Pattern entry (Table 12-3). -/
structure PatEntry where
  start : Nat
  len : Nat
  valid : Bool
  owner : Nat
  buffer : Nat
  mirror : Bool
  typ : Nat
  notify : Bool
deriving DecidableEq, Repr

/-- An entry from its two words. -/
def patEntry (w0 w1 : Word) : PatEntry :=
  ⟨bitsOf w0 0 20, bitsOf w0 20 7, w0.getLsbD 31, bitsOf w1 0 8, bitsOf w1 8 9, w1.getLsbD 17, bitsOf w1 18 2, w1.getLsbD 20⟩

/-- Payload bytes of an entry. -/
def PatEntry.bytes (e : PatEntry) : Nat := 8 * (e.len + 1)

/-- Key of a word of the active Pattern of channel c: page 3 of PAT shows one channel at a time (Table 12-8). -/
def patActKey (n c e w : Nat) : Nat := c * 0x50000000 + patActive n e w
/-- Key of a word of the edit copy of channel c. -/
def patEditKey (n c e w : Nat) : Nat := if c = 0 then patEditA n e w else patEditB n e w

/-- Entry e of channel c of the active Pattern of port n. -/
def State.pat (s : State) (n c e : Nat) : PatEntry := patEntry (s.reg (patActKey n c e 0)) (s.reg (patActKey n c e 1))

/-- The valid entries of a copy of a Pattern with their numbers, ascending. -/
def State.patList (s : State) (key : Nat → Nat → Nat) : List (Nat × PatEntry) :=
  ((List.range 512).map fun e => (e, patEntry (s.reg (key e 0)) (s.reg (key e 1)))).filter fun x => x.2.valid

/-! ## Times, in 1/165 ns where rates meet -/

/-- CYCLE_NS as it acts (R399). -/
def State.cycleNs (s : State) (n : Nat) : Nat := min (max (s.get (weltCycleNsNs n)) 2000) 1000000

/-- The precision window as it acts, in ns (R404). -/
def State.piNs (s : State) (n : Nat) : Nat := max (max (s.get (weltPiNs n)) 8) (if s.bit (weltCfgRate n) then 13 else 26)

/-- Wire time of a payload of N bytes (Table 12-1). -/
def State.wire165 (s : State) (n bytes : Nat) : Nat :=
  if s.bit (weltCfgRate n) then (bytes / 8 + 3) * 1056 else (bytes + 14) * 528

/-- The gap g = Π + 8 W (R402). -/
def State.gap165 (s : State) (n : Nat) : Nat := s.piNs n * 165 + (if s.bit (weltCfgRate n) then 8192 else 16896)

/-! ## The checks of Table 12-4 -/

/-- A failing check: rule, channel, entry. -/
abbrev PatFail := Nat × Nat × Nat

/-- Neighbouring elements of a list. -/
def pairs {α : Type} : List α → List (α × α)
  | a :: b :: t => (a, b) :: pairs (b :: t)
  | _ => []

/-- Rule 1: START ascending and below CYCLE_NS. -/
def patRule1 (cyc c : Nat) (l : List (Nat × PatEntry)) : Option PatFail :=
  match l.find? fun x => decide (cyc ≤ x.2.start) || (pairs l).any fun p => p.2.1 == x.1 && decide (x.2.start ≤ p.1.2.start) with
  | some x => some (1, c, x.1)
  | none => none

/-- Rule 2: the gap between neighbours. -/
def State.patRule2 (s : State) (n c : Nat) (l : List (Nat × PatEntry)) : Option PatFail :=
  match (pairs l).find? fun p =>
      decide (p.2.2.start * 165 < p.1.2.start * 165 + s.wire165 n p.1.2.bytes + s.gap165 n) with
  | some p => some (2, c, p.2.1)
  | none => none

/-- Rule 3: the gap over the end of the cycle. -/
def State.patRule3 (s : State) (n c : Nat) (l : List (Nat × PatEntry)) : Option PatFail :=
  match l.head?, l.getLast? with
  | some f, some z =>
    if (s.cycleNs n + f.2.start) * 165 < z.2.start * 165 + s.wire165 n z.2.bytes + s.gap165 n then some (3, c, z.1) else none
  | _, _ => none

/-- Rules 4 to 7 on the entries of one channel, beside those of the other. -/
def patRule4 (c : Nat) (l o : List (Nat × PatEntry)) : Option PatFail :=
  match l.find? fun x =>
      (l.any fun y => decide (y.1 < x.1) && y.2.buffer == x.2.buffer)
        || (!x.2.mirror && o.any fun y => y.2.buffer == x.2.buffer) with
  | some x => some (4, c, x.1)
  | none => none
def patRule5 (c : Nat) (l o : List (Nat × PatEntry)) : Option PatFail :=
  match l.find? fun x => x.2.mirror && !o.any fun y =>
      y.2.mirror && y.2.start == x.2.start && y.2.len == x.2.len && y.2.owner == x.2.owner
        && y.2.buffer == x.2.buffer && y.2.typ == x.2.typ with
  | some x => some (5, c, x.1)
  | none => none
def patRule6 (c : Nat) (l : List (Nat × PatEntry)) : Option PatFail :=
  match l.find? fun x => x.2.typ == 3 || (x.2.typ == 2 && x.2.len != 16) with
  | some x => some (6, c, x.1)
  | none => none
def patRule7 (c : Nat) (l : List (Nat × PatEntry)) : Option PatFail :=
  match l.find? fun x => x.2.owner == 255 with
  | some x => some (7, c, x.1)
  | none => none

/-- The first check a copy of a Pattern fails, rule by rule, channel A before B (R402). DEDUCED, assumption row 95. -/
def State.patCheckCopy (s : State) (n : Nat) (key : Nat → Nat → Nat → Nat) : Option PatFail :=
  let a := s.patList (key 0)
  let b := s.patList (key 1)
  let cyc := s.cycleNs n
  [patRule1 cyc 0 a, patRule1 cyc 1 b, s.patRule2 n 0 a, s.patRule2 n 1 b, s.patRule3 n 0 a, s.patRule3 n 1 b,
    patRule4 0 a b, patRule4 1 b a, patRule5 0 a b, patRule5 1 b a, patRule6 0 a, patRule6 1 b, patRule7 0 a,
    patRule7 1 b].findSome? id

/-- CHECK shows an outcome (Table 12-8). -/
def State.patReport (s : State) (n : Nat) (r : Option PatFail) : State :=
  match r with
  | none => s.setReg (patCheck n) 0
  | some (rule, c, e) => s.setReg (patCheck n) (BitVec.ofNat 32 (e + c * 0x200 + rule * 0x1000))

/-- Every word of a Pattern copied. -/
def State.patCopy (s : State) (to' from' : Nat → Nat → Nat → Nat) : State :=
  forEach [0, 1] (fun s c => forEach (List.range 512) (fun s e => forEach [0, 1] (fun s w =>
    s.setReg (to' c e w) (s.reg (from' c e w))) s) s) s

/-- The edit copy becomes the active Pattern (R403). -/
def State.patInstall (s : State) (n : Nat) : State :=
  let s := s.patCopy (patActKey n) (patEditKey n)
  (s.putb (patApplyPending n) false).setReg (patAppliedAt n) (s.reg (weltCycle n))

/-- A write of APPLY (R403). -/
def State.patGo (s : State) (n : Nat) (w : Word) : State :=
  if !w.getLsbD 0 then s
  else
    let r := s.patCheckCopy n (patEditKey n)
    let s := s.patReport n r
    if r.isSome then s.putb (patApplyRefused n) true
    else
      let s := s.putb (patApplyRefused n) false
      if s.on (pgWelt n) then s.putb (patApplyPending n) true else s.patInstall n

/-- Meaning of PAT_APPLY. -/
def execPatApply (p : Principal) (n : WeltIx) (v : Word) (s : State) : Out :=
  .next (s.accessLost p (patApply n.val) v fun s w => s.patGo n.val w)

/-- A write of the edit copy (R403). -/
def State.patEditWrite (s : State) (n k : Nat) (w : Word) : State :=
  if s.bit (patApplyPending n) then s.err (pgPat n) 8 else s.byCodes k w

/-- PAT[n] reaches its first consistent point, or FAULT if the restored Pattern fails its check (R425). -/
def State.patPoint (s : State) (n : Nat) : State :=
  let r := s.patCheckCopy n (patActKey n)
  let s := (s.patReport n r).patCopy (patEditKey n) (patActKey n)
  if r.isSome then s.moveTo (pgPat n) stFault else s

end Sys2Proof.Machine
end

