-- ==== Sys2Proof/Machine/Welt.lean ====
section
/-! DEFINITION. Welt time-triggered link: reception, the guardian, synchronisation, states, hubs (R394-R426). Positions
are in units of 125 ps of the port's cycle. -/
namespace Sys2Proof.Machine

def nodeOff : Nat := 0
def nodeListen : Nat := 1
def nodeColdstart : Nat := 2
def nodeIntegrating : Nat := 3
def nodeActive : Nat := 4
def nodePassive : Nat := 5
def hubOff : Nat := 0
def hubUnsynced : Nat := 1
def hubCsLock : Nat := 2
def hubGuarded : Nat := 3

/-- Frame types (Table 12-2). -/
def wtData : Nat := 0
def wtSync : Nat := 1
def wtColdstart : Nat := 2
def wtHubSync : Nat := 3

/-- Number of a channel. -/
def chN (b : Bool) : Nat := if b then 1 else 0

/-! ## Configuration -/

def State.isHub (s : State) (n : Nat) : Bool := s.bit (weltCfgRole n)
def State.node (s : State) (n : Nat) : Nat := s.get (weltStateNode n)
def hubField (n : Nat) (ch : Bool) : Field := if ch then weltStateHubB n else weltStateHubA n
def State.hub (s : State) (n : Nat) (ch : Bool) : Nat := s.get (hubField n ch)
def State.nodeId (s : State) (n : Nat) : Nat := s.get (weltCfgNodeId n)

/-- UP lane of a channel, if enabled (R394). -/
def State.upLane (s : State) (n : Nat) (ch : Bool) : Option Nat :=
  if s.bit (if ch then weltUpBEn n else weltUpAEn n) then some (s.get (if ch then weltUpLaneB n else weltUpLaneA n)) else none

/-- DOWN lanes of a channel of a hub, ascending (R395). -/
def State.downLanes (s : State) (n : Nat) (ch : Bool) : List Nat :=
  if s.isHub n then (List.range 24).filter (bitN (s.get (if ch then weltDownBMask n else weltDownAMask n))) else []

/-- The registers of a port that assign lanes, in the order of their offsets (R394). -/
def weltLaneRegs (n : Nat) : List Nat := [weltUp n, weltDownA n, weltDownB n]

/-- The lanes one of these registers assigns, with repeats: DOWN_A and DOWN_B in hub role only (R394, R395). -/
def State.lanesIn (s : State) (n k : Nat) : List Nat :=
  if k = weltUp n then (s.upLane n false).toList ++ (s.upLane n true).toList
  else s.downLanes n (k == weltDownB n)

/-- The lanes assigned to a port, with repeats. DEDUCED, assumption row 98. -/
def State.weltLanes (s : State) (n : Nat) : List Nat := (weltLaneRegs n).flatMap (s.lanesIn n)

/-- A write that assigns lanes, or that gives the port the role in which DOWN_A and DOWN_B assign them: ignored where it
would assign one twice over both ports (R394). -/
def State.weltLaneWrite (s : State) (n k : Nat) (w : Word) : State :=
  let t := s.byCodes k w
  let l := t.weltLanes 0 ++ t.weltLanes 1
  if l.length = l.eraseDups.length then t else s.err (pgWelt n) 8

/-- The port uses a channel. -/
def State.usesCh (s : State) (n : Nat) (ch : Bool) : Bool := (s.upLane n ch).isSome || s.downLanes n ch != []

/-- Lanes of a channel that the port sends on, but for `src`: all of it but a lane that a hub isolates (R396, R419, R423). -/
def State.sendLanes (s : State) (n : Nat) (ch : Bool) (src : Option Nat) : List Nat :=
  ((s.upLane n ch).toList ++ s.downLanes n ch).filter fun l =>
    some l != src && !(s.weltOf n).isolated.any fun i => i.lane == l && i.chanB == ch

/-- DELAY of an owner; lane that NODE_MAP names below the hub (R400, R411). -/
def State.delayOf (s : State) (n o : Nat) : Nat := if o = 255 then 0 else s.get (weltNodeMapDelay n o)
def State.belowLane (s : State) (n : Nat) (ch : Bool) (o : Nat) : Option Nat :=
  if o = 255 then none
  else if s.bit (if ch then weltNodeMapBBelow n o else weltNodeMapABelow n o) then
    some (s.get (if ch then weltNodeMapLaneB n o else weltNodeMapLaneA n o))
  else none

/-- Lane an owner's frames come in on at a hub: its DOWN lane, else the UP lane (R411). -/
def State.ownerLane (s : State) (n : Nat) (ch : Bool) (o : Nat) : Option Nat :=
  match s.belowLane n ch o with
  | some l => some l
  | none => s.upLane n ch

/-- Valid entries of a channel. -/
def State.patOf (s : State) (n : Nat) (ch : Bool) : List (Nat × PatEntry) := s.patList (patActKey n (chN ch))

/-- Expected arrival of an entry's frame, and the half and whole of Π (R400, R404). -/
def State.expected (s : State) (n : Nat) (e : PatEntry) : Int := 8 * ((e.start + s.delayOf n e.owner : Nat) : Int)
def State.halfPi (s : State) (n : Nat) : Int := 4 * (s.piNs n : Int)

/-- Close of an entry's window less its opening, in 1/165 ns; opening in 125 ps (R411). -/
def State.opens (s : State) (n : Nat) (e : PatEntry) : Int := s.expected n e - s.halfPi n
def State.beforeClose (s : State) (n : Nat) (e : PatEntry) (pos : Int) : Bool :=
  decide ((pos - s.opens n e) * 165 < 8 * ((s.piNs n * 165 + s.wire165 n e.bytes : Nat) : Int))

/-- The entry in whose window a position lies. -/
def State.windowAt (s : State) (n : Nat) (ch : Bool) (pos : Int) : Option (Nat × PatEntry) :=
  (s.patOf n ch).find? fun x => decide (s.opens n x.2 ≤ pos) && s.beforeClose n x.2 pos

/-! ## States (Table 12-6, R419, R424) -/

/-- The condition of WELT_CHANNEL holds on a port (Table 17-5). -/
def State.weltDegraded (s : State) : Bool := (s.weltOf 0).lostChan != [] || (s.weltOf 1).lostChan != []

/-- A hub's channel changes state. -/
def State.toHub (s : State) (n : Nat) (ch : Bool) (st : Nat) : State :=
  if s.hub n ch = st then s else (s.put (hubField n ch) st).irq' (pgWelt n) 2

/-- Every buffer's AGE is 255 (R407). -/
def State.agesOld (s : State) (n : Nat) : State :=
  forEach (List.range 128) (fun s k => s.setReg (weltAge n k) 0xFFFFFFFF) s

/-- The port's node state changes. -/
def State.toNode (s : State) (n st : Nat) : State :=
  let old := s.node n
  if old = st then s
  else
    let s := (s.put (weltStateNode n) st).irq' (pgWelt n) 1
    let s := if old = nodeActive ∧ (st = nodePassive ∨ st = nodeListen) then
      s.fault 0x0D 1 (pgWelt n) n st (s.get (weltEdgeCntCount n)) ((s.weltOf n).injShift != 0) else s
    let s := if st = nodeActive then s.setWelt n { s.weltOf n with lossCount := 0 }
      else if st = nodeListen then
        (s.agesOld n).setWelt n { s.weltOf n with quiet := 0, lossCount := 0, passCount := 0 }
      else if st = nodeIntegrating then s.setWelt n { s.weltOf n with integ := 0, foreign := false, vals := [] }
      else if st = nodePassive then s.setWelt n { s.weltOf n with passCount := 0 }
      else s
    let s := if st = nodeActive ∧ s.isHub n then
        forEach [false, true] (fun s ch => if s.hub n ch = hubCsLock then s.toHub n ch hubGuarded else s) s
      else s
    if st = nodeColdstart then s.putb (weltStateAlone n) true
    else if old = nodeColdstart then s.putb (weltStateAlone n) false else s

/-- ISOLATING follows the isolated lanes (R423). -/
def State.isolateTo (s : State) (n : Nat) (l : List Isolated) : State :=
  (s.setWelt n { s.weltOf n with isolated := l }).putb (weltStateIsolating n) (decide (l ≠ []))

/-- A hub gives up its schedule: its channels are UNSYNCED, its clock listens, its lanes are open (R419, R423). -/
def State.hubDrop (s : State) (n : Nat) : State :=
  let s := forEach [false, true] (fun s ch => if s.hub n ch = hubOff then s else s.toHub n ch hubUnsynced) s
  let s := s.setWelt n { s.weltOf n with rejoin := none, csWin := [], csLane := [], csQuiet := [] }
  (s.isolateTo n []).toNode n nodeListen

/-- CYCLE_NS in 2^-32 ns. -/
def State.cycleUnits (s : State) (n : Nat) : Int := (s.cycleNs n : Int) * 2 ^ 32

/-- HTBA at `sub` (2^-32 ns of TCLK time) after the start of a tick, in 2^-32 ns (R417). -/
def State.htbaWhen (s : State) (tick : Nat) (sub : Int) : Nat :=
  let f := BitVec.ofNat 48 tick
  let x := s.htbRun 2 f
  ((((x.at' f).toNat : Int) + sub * x.e / 2 ^ 34) % 2 ^ 96).toNat

/-- Fields of a received header (Table 12-2). -/
def wrTyp (f : WeltRx) : Nat := (f.header.extractLsb' 0 4).toNat
def wrOwner (f : WeltRx) : Nat := (f.header.extractLsb' 8 8).toNat
def wrEntry (f : WeltRx) : Nat := (f.header.extractLsb' 16 9).toNat
def wrCycle (f : WeltRx) : Word := f.header.extractLsb' 32 32

/-- The frame's CRC is that of its header and payload (R83, R397). -/
def wrCrcGood (f : WeltRx) : Bool := f.crc == BitVec.ofNat 32 (crc32 (leBytes 8 f.header.toNat ++ f.payload))

/-- A stamp in the port's cycle position, in whole units of 125 ps (R415). DESIGN CHOICE, assumption row 91. -/
def State.weltPosOf (s : State) (n : Nat) (t : Stamp) : Int :=
  let x := s.weltOf n
  (stampDiff t (BitVec.ofNat 53 (x.cycFrc * 32)) * 2 ^ 29 - x.cycSub) / 2 ^ 29

/-- A port adopts the schedule of a frame of entry e (R418). -/
def State.adopt (s : State) (n : Nat) (e : PatEntry) (f : WeltRx) : State :=
  let s := s.setReg (weltCycle n) (wrCycle f)
  let start : Int := (f.stamp.toNat : Int) - s.expected n e
  let tick := ((start / 32) % 2 ^ 48).toNat
  let sub := start % 32 * 2 ^ 29
  let s := s.setWelt n { s.weltOf n with
    cycFrc := tick, cycSub := sub, htbaAt := s.htbaWhen tick sub, len := s.cycleUnits n }
  s.toNode n nodeIntegrating

/-! ## Reception (R398, R406, R410, R414, R415, R420) -/

/-- The frame fits entry e apart from its time and cycle (R398). -/
def frameFits (e : PatEntry) (f : WeltRx) : Bool :=
  f.delimited && !f.codeError && wrCrcGood f && e.valid && wrOwner f == e.owner && f.header.getLsbD 4 == f.chanB
    && f.header.getLsbD 5 == e.mirror && f.payload.length == e.bytes
    && (if e.typ = 0 then wrTyp f == wtData
      else if e.typ = 1 then wrTyp f == wtSync || wrTyp f == wtColdstart || wrTyp f == wtData
      else wrTyp f == wtHubSync)

/-- The frame lies within Π/2 of its expected arrival and carries the port's cycle number. -/
def State.frameTimely (s : State) (n : Nat) (e : PatEntry) (pos : Int) (f : WeltRx) : Bool :=
  decide ((pos - s.expected n e).natAbs ≤ (s.halfPi n).natAbs) && wrCycle f == s.reg (weltCycle n)

/-- Older half of a buffer (R406). DEDUCED, assumption row 92. -/
def State.olderHalf (s : State) (n b : Nat) : Nat := 1 - s.newerHalf n b

/-- A valid frame is written to a half: payload, then the header, CYCLE last (R406). -/
def State.writeHalf (s : State) (n b h : Nat) (f : WeltRx) : State :=
  let a := s.halfAddr n b h
  let who := weltCode n
  let w (v : Nat) : List Byte := leBytes 4 v
  let s := s.writeA who (a + 0x40) f.payload
  let s := s.writeA who (a + 4) (w (if f.chanB then 0x100 else 0))
  let s := s.writeA who (a + 8) (w f.stamp.toNat)
  let s := s.writeA who (a + 12) (w (f.stamp.toNat / 2 ^ 32))
  s.writeA who a (w (wrCycle f).toNat)

/-- The mirrored entry of entry e on the other channel (Table 12-4 rule 5). -/
def State.partner (s : State) (n : Nat) (ch : Bool) (e : PatEntry) : Option Nat :=
  ((s.patOf n !ch).find? fun x => x.2.mirror && x.2.start == e.start && x.2.buffer == e.buffer).map (·.1)

/-- The other channel's copy of a mirrored entry was valid in this cycle. -/
def State.partnerGot (s : State) (n : Nat) (ch : Bool) (e : PatEntry) : Bool :=
  e.mirror && (match s.partner n ch e with | some k => (s.weltOf n).got.contains (!ch, k) | none => false)

/-- The copy of a mirrored frame at position `pos` ended before the one written: it began before it, being as long, or at the
same instant on channel A (R406). -/
def State.endsFirst (s : State) (n b : Nat) (chanB : Bool) (pos : Int) : Bool :=
  match (s.weltOf n).wrote.find? (·.1 == b) with
  | some (_, _, p) => decide (pos < p) || (pos == p && !chanB)
  | none => false

/-- A valid frame of entry k reaches its buffer: the older half, or of a second mirrored copy the comparison, and the half that
the first was written to where this one ended first (R406). DEDUCED, assumption row 210. -/
def State.weltFill (s : State) (n : Nat) (e : PatEntry) (f : WeltRx) (pos : Int) : State :=
  let b := e.buffer
  let wrote (s : State) : State :=
    s.setWelt n { s.weltOf n with wrote := (b, f.chanB, pos) :: (s.weltOf n).wrote.filter (·.1 != b) }
  if s.partnerGot n f.chanB e then
    let h := s.newerHalf n b
    let (l, _, s) := s.eccRead (weltCode n) (s.halfAddr n b h + 0x40) f.payload.length
    let s := if l = f.payload then s else s.count (weltMirrorDiff n)
    if s.endsFirst n b f.chanB pos then wrote (s.writeHalf n b h f) else s
  else
    let s := (s.writeHalf n b (s.olderHalf n b) f).weltArrivals n b
    if e.mirror then wrote s else s

/-- A valid frame of entry k, each copy of a mirrored one, reaches its buffer and then its notify doorbell and the channels that
its entry triggers (R406, R410). -/
def State.weltStore (s : State) (n k : Nat) (e : PatEntry) (f : WeltRx) (pos : Int) : State :=
  let s := s.weltFill n e f pos
  let s := if e.notify then s.trigSource 3 (n + 2 * chN f.chanB) k else s
  if e.notify && s.bit (weltNotifyEn n) then
    s.ring (s.get (weltNotifyDb n)) (BitVec.ofNat 32 (1 <<< s.get (weltNotifyBit n)))
  else s

/-- Verdict on entry k in a HUB_SYNC payload (R413). -/
def verdictIn (payload : List Byte) (k : Nat) : Nat := (payload.getD (8 + k / 4) 0).toNat / 4 ^ (k % 4) % 4

/-- The node reads the verdicts of its own entries in turn, and enters PASSIVE as EDGE_CNT exceeds EDGE_MAX (R414). -/
def State.readVerdicts (s : State) (n : Nat) (f : WeltRx) : State :=
  let mine := (s.patOf n f.chanB).filter fun x => x.2.owner == s.nodeId n
  forEach mine (fun s x =>
    let v := verdictIn f.payload x.1
    let s := if v = 1 then s.setReg (weltEdgeCnt n) 0 else if 2 ≤ v then s.countF (weltEdgeCntCount n) else s
    if s.node n = nodeActive ∧ s.get (weltLimitsEdgeMax n) < s.get (weltEdgeCntCount n) then s.toNode n nodePassive else s) s

/-- HOP after a HUB_SYNC: as received, one more in hub role from the UP lane (R421). -/
def State.hopFrom (s : State) (n : Nat) (f : WeltRx) : State :=
  let h := (f.payload.headD 0).toNat
  if !s.isHub n then s.put (weltStateHop n) h
  else if s.upLane n f.chanB = some f.lane.val then s.put (weltStateHop n) (min (h + 1) 255) else s

/-- REJOIN and GUARDED of a HUB_SYNC. -/
def hsRejoin (f : WeltRx) : Bool := (f.payload.getD 3 0).getLsbD 0
def hsGuarded (f : WeltRx) : Bool := (f.payload.getD 3 0).getLsbD 1

/-- A coldstarter gives way to a frame (R420). -/
def State.givesWay (s : State) (n : Nat) (f : WeltRx) : Bool :=
  let used := [false, true].filter (s.usesCh n)
  (wrTyp f == wtHubSync && hsGuarded f)
    || (wrTyp f == wtColdstart && wrOwner f != s.nodeId n
      && (decide (wrOwner f < s.nodeId n)
        || used.all fun ch => ch == f.chanB || (s.weltOf n).csGot.contains (wrOwner f, ch)))

/-- A frame whose content a listening port adopts (Table 12-6); one that asks to rejoin leaves it in LISTEN. -/
def adoptable (f : WeltRx) : Bool :=
  wrTyp f == wtSync || wrTyp f == wtColdstart || (wrTyp f == wtHubSync && hsGuarded f && !hsRejoin f)

/-- The port's own reception of a frame that reached it. DEDUCED, assumption row 94. -/
def State.receive (s : State) (n : Nat) (f : WeltRx) : State :=
  let k := wrEntry f
  let e := s.pat n (chN f.chanB) k
  let other := wrOwner f != s.nodeId n
  let fits := frameFits e f && other
  let s := if fits && wrTyp f == wtColdstart then
    s.setWelt n { s.weltOf n with csGot := (wrOwner f, f.chanB) :: (s.weltOf n).csGot } else s
  let adopts := fits && ((s.node n == nodeListen && adoptable f) || (s.node n == nodeColdstart && s.givesWay n f))
  let s := if adopts then s.adopt n e f else s
  let pos := s.weltPosOf n f.stamp
  let s := match s.windowAt n f.chanB pos with
    | some (w, _) => s.setWelt n { s.weltOf n with seen := (f.chanB, w) :: (s.weltOf n).seen }
    | none => s
  let s := if wrCrcGood f && f.delimited && wrCycle f != s.reg (weltCycle n) then
    s.setWelt n { s.weltOf n with foreign := true } else s
  if fits && s.frameTimely n e pos f then
    let s := (s.count (weltRxValid n (chN f.chanB))).weltStore n k e f pos
    let s := s.setWelt n { s.weltOf n with got := (f.chanB, k) :: (s.weltOf n).got }
    if wrTyp f = wtHubSync then
      let s := s.hopFrom n f
      let s := if wrOwner f = s.get (weltCfgFirstHub n) then s.readVerdicts n f else s
      if !hsRejoin f then s else if s.isHub n then s.hubDrop n else s.toNode n nodeListen
    else if wrTyp f = wtSync ∨ wrTyp f = wtColdstart then
      let x := s.weltOf n
      let s := s.setWelt n { x with
        vals := x.vals ++ [(wrOwner f, f.chanB, pos - s.expected n e)]
        cliqueOwners := if wrTyp f = wtSync then wrOwner f :: x.cliqueOwners else x.cliqueOwners
        chanLoss := x.chanLoss.wr 0 (chN f.chanB) 0, lostChan := x.lostChan.filter (· != f.chanB) }
      let s := if x.lostChan.contains f.chanB then s.degradeBit 5 s.weltDegraded else s
      if s.node n = nodeColdstart then s.toNode n nodeActive else s
    else s
  else s.count (weltRxInvalid n (chN f.chanB))

/-! ## The guardian of a hub (R411-R413, R419, R423) -/

/-- A HUB_SYNC of another schedule on an isolated lane decides who rejoins, once: a hub that has lost decides no more (R423).
DEDUCED, assumption row 97. -/
def State.rejoinDecide (s : State) (n : Nat) (i : Isolated) (f : WeltRx) : State :=
  let e := s.pat n (chN f.chanB) (wrEntry f)
  let pos := s.weltPosOf n f.stamp
  let hs := f.delimited && !f.codeError && wrCrcGood f && wrTyp f == wtHubSync
  if !hs then s
  else
    let rest := (s.weltOf n).isolated.filter (· != i)
    if i.won then (if hsRejoin f then s.isolateTo n rest else s)
    else if (s.weltOf n).rejoin.isSome then s
    else if wrCycle f = s.reg (weltCycle n) ∧ s.opens n e ≤ pos ∧ s.beforeClose n e pos then s
    else
      let own := (s.weltOf n).prevClique.eraseDups
      let cs := (f.payload.getD 1 0).toNat
      let cm := (f.payload.getD 2 0).toNat
      let mine := own.foldl min 255
      let s := (s.count (weltRejoins n)).irq' (pgWelt n) 5
      if own.length < cs ∨ (own.length = cs ∧ cm < mine) then
        s.setWelt n { s.weltOf n with rejoin := some 0 }
      else s.isolateTo n ({ i with won := true, age := 0 } :: rest)

/-- Instant of granule i of a frame less the opening of the window of entry e; a granule is a code-group of 3.2 ns or a block of
6.4 ns, 4,224 or 8,448 of the 1/1,320 ns in which this counts (R411, Table 12-1). -/
def State.granuleAt (s : State) (n : Nat) (e : PatEntry) (pos : Int) (i : Nat) : Int :=
  (pos - s.opens n e) * 165 + i * (if s.bit (weltCfgRate n) then 8448 else 4224)

/-- Length of the window of entry e in the same unit. -/
def State.window1320 (s : State) (n : Nat) (e : PatEntry) : Int := 8 * ((s.piNs n * 165 + s.wire165 n e.bytes : Nat) : Int)

/-- Granule i of a frame crosses the pins inside the window of entry e. -/
def State.granuleIn (s : State) (n : Nat) (e : PatEntry) (pos : Int) (i : Nat) : Bool :=
  decide (0 ≤ s.granuleAt n e pos i) && decide (s.granuleAt n e pos i < s.window1320 n e)

/-- What a hub sends on of a frame: all of it, or the parts inside windows, each with a stomp after its last granule there where
it is cut (R37, R411, R412). -/
def State.repeated (s : State) (n : Nat) (f : WeltRx) (es : Option (List PatEntry)) : List Repeated :=
  let pos := s.weltPosOf n f.stamp
  ((List.range f.words.length).zip f.words).map fun (i, w) =>
    match es with
    | none => .asReceived w
    | some es =>
      let inside (i : Nat) : Bool := es.any fun e => s.granuleIn n e pos i
      if inside i then .asReceived w
      else if i ≠ 0 ∧ inside (i - 1) then .stomp
      else .idle

/-- The frame passes to the other lanes of the channel (R37, R395). -/
def State.relay (s : State) (n : Nat) (f : WeltRx) (es : Option (List PatEntry)) (cut : Bool) : State :=
  s.emit (.weltRepeat n f.chanB f.lane.val (s.sendLanes n f.chanB (some f.lane.val)) cut (s.repeated n f es))

/-- Sets the verdict on an entry (R413). -/
def State.verdict (s : State) (n : Nat) (ch : Bool) (k v : Nat) : State :=
  s.setWelt n { s.weltOf n with verdicts := (s.weltOf n).verdicts.wr 0 (2 * k + chN ch) v }

/-- A GUARDED hub judges each granule of a frame by the windows of the owners of its lane; what it passes whole it also receives,
a cut frame with its stomp. One whose start is replaced has no start delimiter downstream (R411-R413).
DESIGN CHOICE, assumption row 211. -/
def State.guard (s : State) (n : Nat) (f : WeltRx) : State :=
  let c := chN f.chanB
  let pos := s.weltPosOf n f.stamp
  let last := f.words.length - 1
  let own := (s.patOf n f.chanB).filter fun x =>
    s.ownerLane n f.chanB x.2.owner == some f.lane.val && x.2.owner != s.nodeId n
      && decide (0 ≤ s.granuleAt n x.2 pos last) && s.beforeClose n x.2 pos
  let es := some (own.map (·.2))
  let cut := own.any fun x => decide (s.window1320 n x.2 ≤ s.granuleAt n x.2 pos last)
  let judge (s : State) (k v : Nat) (e : PatEntry) : State :=
    if (s.belowLane n f.chanB e.owner).isSome then s.verdict n f.chanB k v else s
  let late (s : State) : State := if cut then (s.count (weltLateCut n c)).irq' (pgWelt n) 4 else s
  match own with
  | [] => s.count (weltOutOfSlot n c)
  | (k, e) :: _ =>
    if pos < s.opens n e then
      let s := ((s.count (weltOutOfSlot n c)).count (weltEarlyMask n c)).irq' (pgWelt n) 4
      (late (judge s k 2 e)).relay n f es cut
    else
      let d := pos - s.expected n e
      let q := 2 * (s.piNs n : Int)
      let s := late (judge s k (if cut then 3 else if d < -q then 2 else if q < d then 3 else 1) e)
      (s.relay n f es cut).receive n (if cut then { f with codeError := true } else f)

/-- A frame starts in the same W cycle on a lower lane of the channel that the hub does not isolate (R419). -/
def State.tiedLower (s : State) (n : Nat) (f : WeltRx) : Bool :=
  f.tied.any fun l => decide (l.val < f.lane.val) && (s.sendLanes n f.chanB none).contains l.val

/-- An UNSYNCED hub relays the first frame of a contention window, of several in one W cycle that of the lowest lane (R419).
DESIGN CHOICE, assumption row 212. -/
def State.contend (s : State) (n : Nat) (f : WeltRx) : State :=
  let c := chN f.chanB
  let x := s.weltOf n
  let masked := match x.csWin.rd none c with
    | some t => decide ((f.stamp.toNat + 2 ^ 53 - t) % 2 ^ 53 < 8 * s.get (weltCsWinNs n))
    | none => false
  if masked || s.tiedLower n f then s
  else
    let s := s.setWelt n { x with csWin := x.csWin.wr none c (some f.stamp.toNat) }
    let s := (s.relay n f none false).receive n f
    if wrTyp f = wtColdstart ∧ wrCrcGood f ∧ s.hub n f.chanB = hubUnsynced then
      let s := s.setWelt n { s.weltOf n with
        csLane := (s.weltOf n).csLane.wr none c (some f.lane.val), csQuiet := (s.weltOf n).csQuiet.wr 0 c 0 }
      let s := s.toHub n f.chanB hubCsLock
      if s.node n = nodeActive then s.toHub n f.chanB hubGuarded else s
    else s

/-- A frame on a hub's lane. DEDUCED, assumption row 96. -/
def State.hubFrame (s : State) (n : Nat) (f : WeltRx) : State :=
  let c := chN f.chanB
  match (s.weltOf n).isolated.find? fun i => i.lane == f.lane.val && i.chanB == f.chanB with
  | some i => s.rejoinDecide n i f
  | none =>
    match s.hub n f.chanB with
    | 1 => s.contend n f
    | 2 =>
      let x := s.weltOf n
      if x.csLane.rd none c = some f.lane.val then
        ((s.setWelt n { x with csQuiet := x.csQuiet.wr 0 c 0 }).relay n f none false).receive n f
      else s
    | 3 => s.guard n f
    | _ => s

/-- Meaning of WELT_FRAME_RX. -/
def execWeltFrameRx (n : WeltIx) (f : WeltRx) (s : State) : Out :=
  .next <|
    let n := n.val
    let lane := f.lane.val
    let up := s.upLane n f.chanB == some lane
    if !s.on (pgWelt n) || !(up || (s.downLanes n f.chanB).contains lane) then s
    else
      let s := s.setWelt n { s.weltOf n with quiet := 0 }
      if s.isHub n then s.hubFrame n f else s.receive n f

/-! ## Transmission (R396, R397, R400, R409, R413) -/

/-- Entry k of a channel is one the port owns (R401). -/
def State.owns (s : State) (n : Nat) (e : PatEntry) : Bool := e.valid && e.owner == s.nodeId n && s.nodeId n != 255

/-- Meaning of TX_LATCH: the published half is latched, and its copy to staging begins; a mirrored entry sends one copy to both
channels (R409). DEDUCED, assumption row 99. -/
def execTxLatch (n : WeltIx) (chanB : Bool) (entry : Fin 512) (s : State) : Out :=
  .next <|
    let n := n.val
    let k := entry.val
    let e := s.pat n (chN chanB) k
    if !s.on (pgWelt n) || !s.owns n e || e.typ == 2 then s
    else
      let rest := (s.weltOf n).stage.filter fun x => !(x.chanB == chanB && x.entry == k)
      let mate := if e.mirror then
          match s.partner n chanB e with
          | some m => rest.find? fun x => x.chanB != chanB && x.entry == m
          | none => none
        else none
      match mate with
      | some x => s.setWelt n { s.weltOf n with stage := { x with chanB := chanB, entry := k } :: rest }
      | none =>
        let h := s.txHalf n e.buffer
        let (l, _, s) := s.eccRead (weltCode n) (s.halfAddr n e.buffer h + 0x40) e.bytes
        s.setWelt n { s.weltOf n with stage := ⟨chanB, k, l, some h⟩ :: rest }

/-- The payload that the copy of a latched half has brought by the transmission, word by word of 16 bytes: what stood at the
latch, or a later write that the copy may have come after (R409). -/
def State.copied (s : State) : List Byte → List Byte → Nat → List Byte × State
  | _, _, 0 => ([], s)
  | old, new, k + 1 =>
    let (a, b) := (old.take 16, new.take 16)
    let (pick, s) := if a = b then (a, s) else let (w, s) := s.draw 13; (if w.getLsbD 0 then a else b, s)
    let (t, s) := s.copied (old.drop 16) (new.drop 16) k
    (pick ++ t, s)

/-- The payload staged for entry k; the copy ends with it, for the mirrored entry too (R409). -/
def State.staged' (s : State) (n : Nat) (chanB : Bool) (k : Nat) (e : PatEntry) : Option (List Byte) × State :=
  match (s.weltOf n).stage.find? fun y => y.chanB == chanB && y.entry == k with
  | none => (none, s)
  | some y =>
    let (l, s) := match y.half with
      | some h => s.copied y.payload (s.eccBytes (s.halfAddr n e.buffer h + 0x40) e.bytes) ((e.bytes + 15) / 16)
      | none => (y.payload, s)
    let mate := if e.mirror then s.partner n chanB e else none
    let stage := ((s.weltOf n).stage.filter fun y => !(y.chanB == chanB && y.entry == k)).map fun y =>
      if y.chanB != chanB && some y.entry == mate then { y with payload := l, half := none } else y
    (some l, s.setWelt n { s.weltOf n with stage := stage })

/-- The payload of a HUB_SYNC frame (R413). -/
def State.hubSync (s : State) (n : Nat) (ch : Bool) : List Byte :=
  let x := s.weltOf n
  let own := x.prevClique.eraseDups
  let hop := if (s.upLane n ch).isSome then s.get (weltStateHop n) else 0
  let flags := (if x.rejoin = some 1 then 1 else 0) + (if s.hub n ch = hubGuarded then 2 else 0)
  let v (k : Nat) : Nat := x.prevVerdicts.rd 0 (2 * k + chN ch)
  [BitVec.ofNat 8 hop, BitVec.ofNat 8 (min own.length 255), BitVec.ofNat 8 (own.foldl min 255), BitVec.ofNat 8 flags,
    0, 0, 0, 0] ++ (List.range 128).map fun b => BitVec.ofNat 8 (v (4 * b) + 4 * v (4 * b + 1) + 16 * v (4 * b + 2) + 64 * v (4 * b + 3))

/-- TYPE of the frame the port sends in an entry it owns, none where it sends nothing, as on a channel it has no lane on
(R395, R396, R413, R418). -/
def State.txType (s : State) (n : Nat) (ch : Bool) (e : PatEntry) : Option Nat :=
  let st := s.node n
  let may := if s.isHub n then s.hub n ch == hubGuarded && (st != nodePassive || e.typ == 2)
    else st == nodeColdstart || st == nodeActive
  if !s.owns n e || !may || !s.usesCh n ch then none
  else if e.typ = 2 then (if s.isHub n then some wtHubSync else none)
  else if e.typ = 1 ∧ s.bit (weltCfgCsCapable n) then some (if st = nodeColdstart then wtColdstart else wtSync)
  else some wtData

/-- The eight bytes of a frame header (Table 12-2). -/
def weltHeader (typ : Nat) (ch mirror : Bool) (owner entry cycle : Nat) : List Byte :=
  BitVec.ofNat 8 (typ + 16 * chN ch + (if mirror then 32 else 0)) :: BitVec.ofNat 8 owner :: leBytes 2 entry ++ leBytes 4 cycle

/-- How far the nearest granule lies from the scheduled instant, in units of 125 ps: by at most half a granule, 1.6 ns or 3.2 ns;
where the lane's granules stand is not stated (R397). DESIGN CHOICE, assumption row 213. -/
def State.granuleOff (s : State) (n : Nat) (w : Word) : Int :=
  if s.bit (weltCfgRate n) then ((w.toNat % 51 : Nat) : Int) - 25 else ((w.toNat % 25 : Nat) : Int) - 12

/-- Meaning of WELT_TX. -/
def execWeltTx (n : WeltIx) (chanB : Bool) (entry : Fin 512) (s : State) : Out :=
  .next <|
    let n := n.val
    let k := entry.val
    let c := chN chanB
    let e := s.pat n c k
    let x := s.weltOf n
    if !s.on (pgWelt n) then s
    else
      match s.txType n chanB e with
      | none => s
      | some typ =>
        let (load, s) := if typ = wtHubSync then (some (s.hubSync n chanB), s) else s.staged' n chanB k e
        match load with
        | none => s
        | some l =>
          let bad := decide (0 < x.injCrc.rd 0 c)
          let s := s.setWelt n { s.weltOf n with
            sentSync := x.sentSync || typ == wtSync
            injCrc := x.injCrc.wr 0 c (x.injCrc.rd 0 c - 1) }
          let at' : Int := 8 * ((e.start : Int) - s.get (weltUpDelayNs n) + x.shifted)
          let (w, s) := s.draw 12
          let h := weltHeader typ chanB e.mirror (s.nodeId n) k (s.rn (weltCycle n))
          let crc := leBytes 4 (crc32 (h ++ l))
          let crc := if bad then crc.map (~~~ ·) else crc
          (s.emit (.welt n chanB (s.sendLanes n chanB none) (at' + s.granuleOff n w) h l crc)).count (weltTxFrames n c)

/-- A write of PUBLISH (R409). -/
def State.publish (s : State) (n : Nat) (w : Word) : State :=
  let b := bitsOf w 0 9
  s.setReg (weltTxHalf n (b / 32)) (withBits (s.reg (weltTxHalf n (b / 32))) (b % 32) 1 (bitsOf w 12 1))

/-- Meaning of PUBLISH. -/
def execPublish (p : Principal) (n : WeltIx) (v : Word) (s : State) : Out :=
  .next (s.access p (weltPublish n.val) v fun s w => s.publish n.val w)

/-! ## Windows and cycles (R399, R407, R416-R418) -/

/-- Meaning of WINDOW_CLOSE: AGE and RX_MISSING of a receive entry. The buffer of a mirrored entry ages at the close of
channel A, or B where the port does not use A. -/
def execWindowClose (n : WeltIx) (chanB : Bool) (entry : Fin 512) (s : State) : Out :=
  .next <|
    let n := n.val
    let k := entry.val
    let e := s.pat n (chN chanB) k
    if !s.on (pgWelt n) || !e.valid || e.owner == s.nodeId n then s
    else
      let x := s.weltOf n
      let s := if x.seen.contains (chanB, k) then s else s.count (weltRxMissing n (chN chanB))
      if e.mirror && chanB && s.usesCh n false then s
      else if x.got.contains (chanB, k) || s.partnerGot n chanB e then s.setBufAge n e.buffer 0
      else s.setBufAge n e.buffer (min (s.bufAge n e.buffer + 1) 255)

/-- One deviation per owner, channel A first (R415). -/
def oneEach (l : List (Nat × Bool × Int)) : List Int :=
  ((l.map (·.1)).eraseDups).filterMap fun o =>
    match l.find? fun x => x.1 == o && !x.2.1 with
    | some x => some x.2.2
    | none => (l.find? fun x => x.1 == o).map (·.2.2)

/-- A list in ascending order. -/
def insertSorted (v : Int) : List Int → List Int
  | [] => [v]
  | x :: t => if v ≤ x then v :: x :: t else x :: insertSorted v t
def sortInts (l : List Int) : List Int := l.foldl (fun a v => insertSorted v a) []

/-- Twice the fault-tolerant midpoint or mean of the deviations (R416). -/
def ftm2 (l : List Int) : Int :=
  let n := l.length
  if n = 0 then 0
  else if n = 1 then 2 * l.sum
  else if n = 2 then l.sum
  else
    let k := if n < 7 then 1 else 2
    let m := ((sortInts l).drop k).take (n - 2 * k)
    m.headD 0 + m.getLast?.getD 0

/-- 2^32 per ns. -/
def nsUnit : Int := 2 ^ 32

/-- The anchor term a: HTBA at the last cycle start less OFS, into half a cycle either side (R417). -/
def State.anchorTerm (s : State) (n : Nat) : Int :=
  let c : Int := (s.cycleNs n : Int) * nsUnit
  let v : Int := ((s.weltOf n).htbaAt : Int) - (s.get (weltAnchorCfgOfs n) : Int) * nsUnit
  let r := v % c
  if c ≤ 2 * r then r - c else r

/-- num / den as an integer; where it is not one the spec does not say to which side it goes, so a free bit does. -/
def State.ratio (s : State) (num : Int) (den : Nat) : Int × State :=
  if num % (den : Int) = 0 then (num / (den : Int), s)
  else
    let (w, s) := s.draw 4
    (num / (den : Int) + (if w.getLsbD 0 then 1 else 0), s)

/-- The cycle's length has run out at the present tick (R399). -/
def State.cycleOver (s : State) (n : Nat) : Bool := decide ((s.weltOf n).len < s.cyclePos n + 2 ^ 34)

/-- The present cycle ends at its length, where the next one starts (R399). -/
def State.nextCycle (s : State) (n : Nat) : State :=
  let x := s.weltOf n
  let at' : Int := x.cycSub + x.len
  let tick := ((x.cycFrc : Int) + at' / 2 ^ 34) % 2 ^ 48
  s.setWelt n { x with cycFrc := tick.toNat, cycSub := at' % 2 ^ 34, htbaAt := s.htbaWhen tick.toNat (at' % 2 ^ 34) }

/-- Correction, rate term and the next cycle's length (R416). DEDUCED, assumption row 93. -/
def State.correct (s : State) (n : Nat) : State :=
  let x := s.weltOf n
  let vals := oneEach x.vals ++ (if x.sentSync then [0] else [])
  let k := vals.length
  let lim : Int := (s.get (weltLimitsCorrMax n) : Int) * nsUnit
  let step : Int := (s.get (weltAnchorCfgStep n) : Int) * nsUnit
  let c := ftm2 vals * 2 ^ 28
  let c := if s.bit (weltCfgAnchor n) then c - clipInt (-step) step (s.anchorTerm n) else c
  let c := clipInt (-lim) lim c
  -- r + c / (2 cycle_ns), both sides over den = rateDen × 2^33 × cycle_ns
  let cyc := s.cycleNs n
  let den : Nat := x.rateDen * 2 ^ 33 * cyc
  let num : Int := x.rateNum * 2 ^ 33 * (cyc : Int) + c * (x.rateDen : Int)
  let rm : Int := s.get (weltRateMaxPpb n)
  let (num, den) : Int × Nat := if rm * (den : Int) < num * 1000000000 then (rm, 1000000000)
    else if num * 1000000000 < -(rm * (den : Int)) then (-rm, 1000000000) else (num, den)
  let g := max (Nat.gcd num.natAbs den) 1
  let num : Int := num / (g : Int)
  let den : Nat := den / g
  let len := (cyc : Int) * nsUnit + c + (cyc : Int) * nsUnit * num / (den : Int)
  let s := s.setWelt n { x with corr := c, rateNum := num, rateDen := den, len := len }
  let (cr, s) := s.ratio c (2 ^ 28)
  let (ppb, s) := s.ratio (num * 1000000000) den
  let s := s.put (weltCorrC n) (wrapN 16 cr)
  let s := s.setReg (weltRate n) (BitVec.ofInt 32 ppb)
  let s := s.putb (weltStateFtmDegraded n) (k == 1 || k == 2)
  if k = 0 then (s.count (weltSyncLow n)).irq' (pgWelt n) 3 else s

/-- Node state and its counts at a cycle's end (Table 12-6).
DESIGN CHOICE, assumption row 91; DEDUCED, assumption row 100. -/
def State.cycleNode (s : State) (n : Nat) : State :=
  let x := s.weltOf n
  let any := x.vals != []
  let st := s.node n
  let up (ch : Bool) (m : Sparse Nat) : Sparse Nat :=
    if x.vals.any fun v => v.2.1 == ch then m.wr 0 (chN ch) 0 else m.wr 0 (chN ch) (m.rd 0 (chN ch) + 1)
  let s := s.setWelt n { x with
    quiet := x.quiet + 1
    lossCount := if any then 0 else if st == nodeActive || st == nodePassive then x.lossCount + 1 else 0
    passCount := if any && st == nodePassive then x.passCount + 1 else 0
    chanLoss := up true (up false x.chanLoss) }
  let s := if st = nodeColdstart ∨ st = nodeActive ∨ st = nodePassive ∨ any then s.putb (weltStateAlone n) !any else s
  if st = nodeIntegrating then
    if x.integ = 0 then s.setWelt n { s.weltOf n with integ := 1 }
    else if any && !x.foreign then s.toNode n nodeActive else s.toNode n nodeListen
  else s

/-- Isolation, rejoining and the coldstarter's lane at a cycle's end (R419, R423). -/
def State.cycleHub (s : State) (n : Nat) : State :=
  let x := s.weltOf n
  let l := x.isolated.map fun (i : Isolated) => { i with age := i.age + 1 }
  let keep := l.filter fun (i : Isolated) =>
    if i.won then decide (i.age < s.get (weltTimersSyncLossMax n)) else decide (i.age < 2) || x.rejoin.isSome
  let s := s.isolateTo n keep
  let bump (c : Nat) (m : Sparse Nat) : Sparse Nat := m.wr 0 c (m.rd 0 c + 1)
  let s := s.setWelt n { s.weltOf n with csQuiet := bump 1 (bump 0 x.csQuiet) }
  match x.rejoin with
  | some 0 => s.setWelt n { s.weltOf n with rejoin := some 1 }
  | some _ => s.hubDrop n
  | none => s

/-- Meaning of CYCLE_END: acts once the cycle's length has run out (R399). -/
def execCycleEnd (n : WeltIx) (s : State) : Out :=
  .next <|
    let n := n.val
    if !s.on (pgWelt n) || !s.cycleOver n then s
    else
      -- c takes HTBA at the start of the cycle that ends (R417)
      let t := s.nextCycle n
      let y := t.weltOf n
      let s := (s.correct n).cycleNode n
      let s := if s.isHub n then s.cycleHub n else s
      let s := s.countWrap (weltCycle n)
      let x := s.weltOf n
      let s := s.setWelt n { x with
        vals := [], sentSync := false, foreign := false, got := [], wrote := [], seen := [], csGot := []
        prevVerdicts := x.verdicts, verdicts := [], prevClique := x.cliqueOwners, cliqueOwners := []
        cycFrc := y.cycFrc, cycSub := y.cycSub, htbaAt := y.htbaAt, shifted := x.shifted + x.injShift }
      if s.bit (patApplyPending n) && decide ((s.reg (patApplyAt n) - s.reg (weltCycle n)).toInt ≤ 0) then s.patInstall n
      else s

/-- HTBA less OFS at the present tick in units of 2^-32 ns, for an anchored port (R417). -/
def State.anchorNow (s : State) (n : Nat) : Int :=
  ((s.htbOf 2).v.toNat : Int) - (s.get (weltAnchorCfgOfs n) : Int) * nsUnit

/-- A coldstart begins at this tick: at once, or for an anchored port in the tick in which HTBA less OFS passes a multiple
of CYCLE_NS (R417). DEDUCED, assumption row 185. -/
def State.coldNow (s : State) (n : Nat) : Bool :=
  let h := s.htbOf 2
  let v := s.anchorNow n
  !s.bit (weltCfgAnchor n) || v / s.cycleUnits n != (v - (h.v - h.prev).toInt) / s.cycleUnits n

/-- A port coldstarts: cycle 0 begins, or the one R417 gives at the instant it gives. -/
def State.coldStart (s : State) (n : Nat) : State :=
  let h := s.htbOf 2
  let v := s.anchorNow n
  let c := s.cycleUnits n
  let x := s.weltOf n
  if s.bit (weltCfgAnchor n) then
    let s := s.setReg (weltCycle n) (BitVec.ofInt 32 (v / c))
    s.setWelt n { x with
      cycFrc := s.tb.frc.toNat, cycSub := -(v % c * 2 ^ 34 / h.e), len := c, htbaAt := ((h.v.toNat : Int) - v % c).toNat }
  else
    let s := s.setReg (weltCycle n) 0
    s.setWelt n { x with cycFrc := s.tb.frc.toNat, cycSub := 0, len := c, htbaAt := h.v.toNat }

/-- Meaning of LISTEN_TIMEOUT. -/
def execListenTimeout (n : WeltIx) (s : State) : Out :=
  .next <|
    let n := n.val
    if s.on (pgWelt n) && s.node n == nodeListen && !s.isHub n && s.bit (weltCfgCsCapable n)
        && decide (s.get (weltTimersListenTo n) ≤ (s.weltOf n).quiet) && s.coldNow n then
      (s.coldStart n).toNode n nodeColdstart
    else s

/-- Meaning of SYNC_LOSS: of every value (R418, R419), or of one channel of an A+B port (R424). -/
def execSyncLoss (n : WeltIx) (chanOnly : Option Bool) (s : State) : Out :=
  .next <|
    let n := n.val
    let x := s.weltOf n
    let lim := s.get (weltTimersSyncLossMax n)
    if !s.on (pgWelt n) then s
    else
      match chanOnly with
      | none =>
        if decide (lim ≤ x.lossCount) && (s.node n == nodeActive || s.node n == nodePassive) then
          let s := s.toNode n nodeListen
          if s.isHub n then
            forEach [false, true] (fun s ch => if s.hub n ch = hubGuarded then s.toHub n ch hubUnsynced else s) s
          else s
        else s
      | some ch =>
        if s.usesCh n false && s.usesCh n true && decide (lim ≤ x.chanLoss.rd 0 (chN ch)) && !x.lostChan.contains ch then
          let s := s.setWelt n { x with lostChan := ch :: x.lostChan }
          (s.fault 0x0E 2 (pgWelt n) n (chN ch) (s.rn (weltCycle n))).degradeBit 5 true
        else s

/-- Meaning of PASSIVE_HOLD_END. -/
def execPassiveHoldEnd (n : WeltIx) (s : State) : Out :=
  .next <|
    let n := n.val
    if s.on (pgWelt n) && s.node n == nodePassive
        && decide (s.get (weltTimersPassiveHold n) ≤ (s.weltOf n).passCount) then
      (s.setReg (weltEdgeCnt n) 0).toNode n nodeActive
    else s

/-- Meaning of CS_HOLD_EXPIRY. -/
def execCsHoldExpiry (n : WeltIx) (chanB : Bool) (s : State) : Out :=
  .next <|
    let n := n.val
    if s.on (pgWelt n) && s.hub n chanB == hubCsLock
        && decide (s.get (weltTimersCsHold n) ≤ (s.weltOf n).csQuiet.rd 0 (chN chanB)) then s.toHub n chanB hubUnsynced
    else s

/-- Meaning of LANE_REALIGN: the lane is isolated on each GUARDED channel that uses it. -/
def execLaneRealign (n : WeltIx) (lane : PortIx) (s : State) : Out :=
  .next <|
    let n := n.val
    let l := lane.val
    if !s.on (pgWelt n) || !s.isHub n then s
    else forEach [false, true] (fun s ch =>
      if s.hub n ch == hubGuarded && (s.upLane n ch == some l || (s.downLanes n ch).contains l)
          && !(s.weltOf n).isolated.any fun i => i.lane == l && i.chanB == ch then
        s.isolateTo n (⟨l, ch, 0, false⟩ :: (s.weltOf n).isolated)
      else s) s

/-! ## Start and stop (R394, R405, R424) -/

/-- Lane mode the port's rate needs. -/
def State.weltMode (s : State) (n : Nat) : Nat := if s.bit (weltCfgRate n) then 7 else 6

/-- The lanes the port works on. -/
def State.weltUsed (s : State) (n : Nat) : List Nat :=
  (s.upLane n false).toList ++ (s.upLane n true).toList ++ s.downLanes n false ++ s.downLanes n true

/-- An owner that lets the port use its buffer banks (R405). -/
def bufOwner (n c : Nat) : Bool := c == weltCode n || decide (1 ≤ c ∧ c ≤ 18) || c == 0x30 || c == 0x31

/-- The port is fit to start, but its lanes are not all aligned yet (R424). -/
def State.weltWaits (s : State) (n : Nat) : Bool :=
  (s.weltUsed n).all (fun k => s.get (laneCfgMode k) == s.weltMode n)
    && (List.range 4).all (fun i => bufOwner n (s.ownerOf (s.get (weltBufFirst n) + i)))
    && ((s.weltUsed n).any (fun k => !s.bit (laneStatusAligned k)) || ((List.range 192).filter (s.inWeltBuf n)).any s.asleep)

/-- The port reaches its first consistent point, or FAULT over a lane's mode or a bank's owner. -/
def State.weltPoint (s : State) (n : Nat) : State :=
  let modes := (s.weltUsed n).all fun k => s.get (laneCfgMode k) == s.weltMode n
  let banks := (List.range 4).all fun i => bufOwner n (s.ownerOf (s.get (weltBufFirst n) + i))
  if !modes then (s.err (pgWelt n) 9).moveTo (pgWelt n) stFault
  else if !banks then (s.err (pgWelt n) 10).moveTo (pgWelt n) stFault
  else
    let s := s.setWelt n { cycFrc := s.tb.frc.toNat, len := s.cycleUnits n, htbaAt := s.htbaWhen s.tb.frc.toNat 0 }
    let s := ((s.setReg (weltRate n) 0).agesOld n).toNode n nodeListen
    if s.isHub n then
      forEach [false, true] (fun s ch => if s.usesCh n ch then s.toHub n ch hubUnsynced else s) s
    else s

/-- The port stops (R424): an apply that waits for a cycle takes effect at once (R403). -/
def State.weltClear (s : State) (n : Nat) : State :=
  let s := if s.bit (patApplyPending n) then s.patInstall n else s
  let s := s.setWelt n {}
  let s := (s.put (weltStateNode n) 0).put (weltStateHubA n) 0
  let s := ((s.put (weltStateHubB n) 0).putb (weltStateAlone n) false).putb (weltStateIsolating n) false
  s.degradeBit 5 s.weltDegraded

end Sys2Proof.Machine
end

