-- ==== Sys2Proof/Machine/Enable.lean ====
section
/-! DEFINITION. The enable state machine: prerequisites, starts, first consistent points, stops, soft resets and limits of
every block (R48-R51, R94, R95, and the start rule of each block). -/
namespace Sys2Proof.Machine

/-! ## Prerequisites (R50) -/

/-- Firmware the supervisor runs: the first image of type 3 in the cache that stands its checks, failing that the first in
flash (R511); its name, version, SVN_INDEX and SVN. DEDUCED, assumption row 145. -/
def State.firmwareFound (s : State) : Option ((Word × Half) × (Nat × Nat)) :=
  match s.cacheUsed.find? fun e => e.2.typ == 3 && s.recheck e.2 == 0 with
  | some e => some ((e.2.name, e.2.ver), (e.2.svnIx, e.2.svn))
  | none =>
    let l := (s.flashDir s.sup.flash).getD []
    (l.find? fun d => d.typ == 3 && hdrField (s.flashImage s.sup.flash d) 8 0 2 == 3
      && s.authenticate (s.flashImage s.sup.flash d) == 0).map fun d => ((d.name, d.ver), (d.svnIx, d.svn))

/-- The firmware found runs (R511, R523). -/
def State.runFirmware (s : State) : State :=
  { s with sup := { s.sup with firmware := s.firmwareFound.map (·.1), fwSvn := (s.firmwareFound.map (·.2)).getD (0, 0) } }

/-- A page whose CTRL.EN is 1 is ON; a page with EN = 0 is not waited for (R93). -/
def State.onIfEn (s : State) (p : Nat) : Bool := !s.bit (hdrCtrlEn p) || s.on p

/-- Pages of the boot steps before that of SHANK, which it depends on (R391, Table 3-3). -/
def earlierPages : List Nat :=
  [pgFlt, pgPcie, pgHostb, pgSup, pgFlash, pgIrqa, pgLace, pgBank, pgTb] ++ (List.range 3).map pgHtb ++ [pgView, pgEvt, pgTread, pgPtpa]
    ++ (List.range 24).map pgLane ++ (List.range 24).map pgMac ++ [pgSwc, pgFdb, pgStrm] ++ (List.range 24).map pgSwq
    ++ [pgFab, pgDdu] ++ (List.range 18).map pgPe

/-- The prerequisites of a block are met (R50); the supervisor's point is that firmware runs (R523). DEDUCED, assumption row 150. -/
def State.prereqs (s : State) (p : Nat) : Bool :=
  match blkOf p with
  | some (.mac, n, _) => s.on (pgLane n) && decide (1 ≤ s.mode n ∧ s.mode n ≤ 5)
  | some (.tb, _, _) => s.on pgClk
  | some (.htb, _, _) | some (.view, _, _) | some (.ptpa, _, _) | some (.eyep, _, _) => s.on pgTb
  | some (.evt, _, _) | some (.tread, _, _) => (List.range 3).all fun g => s.on (pgHtb g)
  | some (.swc, _, _) => s.on pgBank && (List.range 24).all fun n => s.onIfEn (pgMac n)
  | some (.fdb, _, _) | some (.strm, _, _) | some (.swq, _, _) => s.on pgSwc
  | some (.fab, _, _) => s.on pgBank
  | some (.ddu, _, _) => s.on pgFab
  | some (.pe, _, _) => s.on pgFab && s.on pgBank
  | some (.shank, _, _) => earlierPages.all fun q => s.onIfEn q || s.st q == stTakenOver
  | some (.shch, _, _) => s.on pgShank
  | some (.welt, n, _) => s.on pgTb && s.on pgBank && s.on (pgPat n) && (s.weltUsed n).all fun k => s.on (pgLane k)
  | some (.eye, _, _) => s.on pgTb && s.on pgEyep
  | some (.wcap, _, _) => s.on pgEvt && s.on pgBank && (List.range 8).all fun c =>
      !s.bit (wcapChCfgEn c) || s.on (pgEye (s.get (wcapChCfgSrc c)))
  | some (.sup, _, _) => !s.supRestarting && !s.supLost && s.supRuns && s.firmwareFound.isSome
  | _ => true

/-! ## Starts -/

/-- What a block itself does on entering STARTING. -/
def State.startOwn (s : State) (p : Nat) : State :=
  if p = pgTb then s.tbBegin else if p = pgView then s.viewBegin
  else match blkOf p with
    | some (.htb, g, _) => s.put (htbStatSteps g) 0
    | _ => s

/-- A block enters STARTING. -/
def State.startBlock (s : State) (p : Nat) : State := ((s.moveTo p stStarting).epochUp (epochCode p)).startOwn p

/-- FLT's start: an empty ring, then the boot queue (R530, R538). -/
def State.fltPoint (s : State) : State :=
  let s := forEach (List.range 64) (fun s r => forEach (List.range 8) (fun s w => s.setReg (fltRec r w) 0) s) s
  let s := (s.put fltHeadNext 0).setReg fltSeqNext 0
  let q := s.flt.bootQ
  let lost := s.flt.bootLost
  let s := { s with flt := { s.flt with newest := none, bootQ := [], bootLost := [] } }
  let s := forEach q (fun s f => s.ringWrite f true) s
  forEach lost (fun (s : State) (e : Nat × Nat) => (s.count fltOverwritten e.2).faultSeen e.1 e.2) s

/-- BANK's start: self-test and repair, zeroed banks, restored ownership with its substitutes, retention (R475, R487, Table
3-8). DESIGN CHOICE, assumption row 151. -/
def State.bankPoint (s : State) (r : StartReport) : State :=
  let s := { s with
    mem := s.mem.filter fun (a, _) => !isBank a
    bank := { s.bank with ecc := [], writeback := [], scrubPos := 0, unowned := [], scrubOn := true } }
  let s := forEach (List.range 192) (fun s n =>
    let bad := r.banksFailed.any fun b => b.val == n
    let soft := match r.soft.find? fun x => x.1.val == n with | some x => x.2.toNat | none => 0
    let s := (s.putb (bankBankstFailed n) bad).put (bankBankstSoft n) soft
    if bad then s.conflict pgBank 2 (0x100 + 4 * n) 1 else s) s
  let s := forEach (List.range 192) (fun s n =>
    let o := s.get (bankBankstOwner n)
    if o ≠ 0 ∧ !s.allows n o then
      ({ s with bank := { s.bank with unowned := n :: s.bank.unowned } }).conflict pgBank 0 (0x100 + 4 * n) 9 else s) s
  forEach (List.range 192) (fun s n => if s.retHonoured n then s.putb (bankBankstAsleep n) true else s) s

/-- What a block does at its first consistent point, its page reading ON. -/
def State.atPoint (s : State) (p : Nat) (r : StartReport) : State :=
  match blkOf p with
  | some (.irqa, _, _) => { s with irq := { s.irq with seen := [] } }
  | some (.flt, _, _) => s.fltPoint
  | some (.mac, n, _) => s.macPoint n
  | some (.lane, n, _) => s.lanePoint n
  | some (.swc, _, _) => s.swcPoint
  | some (.strm, _, _) => s.strmPoint
  | some (.tb, _, _) => s.tbPoint
  | some (.evt, _, _) => s.evtPoint
  | some (.tread, _, _) => s.treadPoint
  | some (.fab, _, _) => s.fabPoint.refreshSpares (s.get fabTkoLastFailed)
  | some (.ddu, _, _) => s.dduClear
  | some (.shank, _, _) => (s.shankPoint r.lanesFailed).degrade
  | some (.welt, n, _) => s.weltPoint n
  | some (.pat, n, _) => s.patPoint n
  | some (.eye, n, _) => s.eyePoint n
  | some (.wcap, _, _) => s.wcapPoint
  | some (.bank, _, _) => (s.bankPoint r).degrade
  | some (.lace, _, _) => s.lacePoint
  | some (.sup, _, _) => s.runFirmware
  | _ => s

/-! ## Stops and soft resets -/

/-- What a block completes or discards when it has stopped, or at a soft reset (R49, R51). -/
def State.clearBlock (s : State) (p : Nat) : State :=
  match blkOf p with
  | some (.irqa, _, _) => { s with irq := { s.irq with seen := [] } }
  | some (.mac, n, _) => s.macClear n
  | some (.lane, n, _) => s.laneClear n
  | some (.swc, _, _) => s.swcClear
  | some (.tb, _, _) => s.tbStop
  | some (.evt, _, _) => s.evtStop
  | some (.tread, _, _) => s.treadStop
  | some (.pe, n, _) => s.peClear n
  | some (.fab, _, _) => s.fabClear
  | some (.ddu, _, _) => s.dduClear
  | some (.shank, _, _) => s.shankClear
  | some (.welt, n, _) => s.weltClear n
  | some (.eye, n, _) => s.eyeClear n
  | some (.wcap, _, _) => s.wcapClear
  | some (.bank, _, _) => s.bankStop
  | some (.lace, _, _) => s.laceEmpty
  | some (.pcie, _, _) => s.dmaAbort
  | some (.hostb, _, _) => { s with host := { s.host with hbRead := none } }
  | some (.flash, _, _) => { s with host := { s.host with flashCmd := none } }.putb flashCmdStatBusy false
  | some (.sup, _, _) => { s with sup := { s.sup with svc := none } }
  | _ => s

/-- What a soft reset discards beyond a stop: running work, and state that is not retained and that a stop keeps. -/
def State.discardBlock (s : State) (p : Nat) : State :=
  match blkOf p with
  | some (.fdb, _, _) =>
    { s with swc := { s.swc with
      fdb := s.swc.fdb.filter fun e => match e.2 with | some x => x.static | none => false, learns := [], fdbJob := none } }
  | some (.shank, _, _) => { s with shank := { s.shank with job := none } }
  | some (.shch, _, _) => { s with shank := { s.shank with chan := [] } }
  | some (.view, _, _) => s.viewBegin
  | some (.lace, _, _) => s.dbUnseen
  | some (.evt, _, _) => let s := s.evtStop; { s with tb := { s.tb with ev := [] } }
  | some (.wcap, _, _) => { s with wcap := {} }
  | some (.flt, _, _) => { s with flt := { s.flt with newest := none, inj := none } }
  | some (.bank, _, _) => forEach (List.range 192) (fun s n =>
      let s := (s.putb (bankBankstPending n) false).put (bankBankstNext n) 0
      (s.put (bankBankstSoft n) 0).putb (bankBankstAsleep n) false) s
  | _ => s

/-- Spares, degradation and interrupt bookkeeping after a change of a block's STATE. -/
def State.settle (s : State) (p : Nat) : State :=
  match blkOf p with
  | some (.pe, _, _) => s.refreshSpares (s.get fabTkoLastFailed)
  | some (.shank, _, _) | some (.wcap, _, _) => s.degrade
  | _ => s

/-- A soft reset is performed (R51). -/
def State.softReset (s : State) (p : Nat) : State :=
  let s := ((s.discardBlock p).clearBlock p).resetPage p
  (if s.st p = stStarting then s.startOwn p else s).settle p

/-! ## Writes of CTRL (Table 2-4) -/

/-- A stop sequence begins. It ends a takeover of the engine: Table 2-4 enters TAKEN_OVER from ON and FAULT alone.
DESIGN CHOICE, assumption row 189. -/
def State.beginStop (s : State) (p : Nat) : State :=
  let s := match blkOf p with
    | some (.pe, n, _) => s.setTakeover n none
    | some (.bank, _, _) => s.abandonScrubs
    | _ => s
  (s.moveTo p stStopping).settle p

/-- EN is written (Table 2-4). -/
def State.enEvent (s : State) (p : Nat) (en : Bool) : State :=
  let st := s.st p
  if st = stOff then (if en then (s.startBlock p).settle p else s)
  else if st = stStarting then s.putb (hdrStateDisPending p) !en
  else if st = stStopping then s.putb (hdrStateEnPending p) en
  else if en then s else s.beginStop p

/-- CTRL.EN takes a value; Tread configures its channels of Shank while its EN is 1 (R387). -/
def State.setEn (s : State) (p : Nat) (en : Bool) : State :=
  let rise := en && !s.bit (hdrCtrlEn p)
  let s := s.putb (hdrCtrlEn p) en
  if p = pgTread ∧ rise then s.shankReserve else s

/-- A write of CTRL. `locked` says that EN and RETAIN were refused to the writer (R97). A write that sets SRST acts on the
EN written with it. DEDUCED, assumption row 12. -/
def State.ctrlWrite (s : State) (p : Nat) (locked : Bool) (w : Word) : State :=
  match blkOf p with
  | none => s
  | some (b, _, _) =>
    let s := if locked then s else s.putb (hdrCtrlRetain p) (w.getLsbD 8)
    if isControl b then
      if w.getLsbD 1 || (!locked && !w.getLsbD 0) then s.err p errRoWrite else s
    else
      let st := s.st p
      let rest := st != stStarting && st != stStopping
      let s := if locked then s else s.setEn p (w.getLsbD 0)
      if w.getLsbD 1 && rest then s.softReset p
      else
        let s := if locked then s else s.enEvent p (w.getLsbD 0)
        if w.getLsbD 1 then { s with chip := { s.chip with heldSrst := s.chip.heldSrst.wr false p true } } else s

/-- A write of CTRL by a principal; with the supervisor lost both its retained fields and SRST are refused (R534).
DEDUCED, assumption row 16. -/
def State.ctrlBy (s : State) (p : Principal) (page : Nat) (v : Word) : State :=
  if !headerPages.contains page then s
  else if s.reaches p && s.mayWrite p page && s.supLost then s.deny p (hdrCtrl page)
  else s.access p (hdrCtrl page) v fun s w => s.ctrlWrite page (s.retLocked p) w

/-- Meaning of EN_WRITE. -/
def execEnWrite (p : Principal) (page : Fin 320) (v : Word) (s : State) : Out := .next (s.ctrlBy p page.val v)
/-- Meaning of SOFT_RESET. -/
def execSoftReset (p : Principal) (page : Fin 320) (v : Word) (s : State) : Out := .next (s.ctrlBy p page.val v)

/-! ## Ends of sequences -/

/-- An engine that fails its self-test at boot: its role goes to a spare as in a cold takeover (Table 3-8). -/
def State.engineTestFail (s : State) (n : Nat) : State :=
  s.engineFault n 4 0 0

/-- A block in STARTING reaches its first consistent point. -/
def State.ownPoint (s : State) (p : Nat) (r : StartReport) : State :=
  if s.chip.heldSrst.rd false p then s.softReset p
  else if s.bit (hdrStateDisPending p) then s.beginStop p
  else
    match blkOf p with
    | some (.pe, n, _) =>
      if r.engineFailed && !s.booted then s.engineTestFail n
      else
        let (ok, s) := s.pePoint n
        (if ok then s.moveTo p stOn else s).settle p
    | some (.welt, n, _) => if s.weltWaits n then s else (s.moveTo p stOn).atPoint p r
    | some (.swc, _, _) => if s.workingBanks.any s.asleep then s else (s.moveTo p stOn).atPoint p r
    | some (.fab, _, _) => if ((List.range 192).filter s.inCkpt).any s.asleep then s else (s.moveTo p stOn).atPoint p r
    | some (.wcap, _, _) =>
      let s := s.wcapClaims
      if s.wcapWaits then s else (s.moveTo p stOn).atPoint p r
    | some (.mac, n, _) => if s.macProbes n then s.macProbe n else (s.moveTo p stOn).atPoint p r
    | _ => (s.moveTo p stOn).atPoint p r

/-- A block in STARTING reaches its first consistent point; FDB, STRM and the SWQ pages reach ON with SWC (R184). -/
def State.firstPoint (s : State) (p : Nat) (r : StartReport) : State :=
  let s := s.ownPoint p r
  let s := if p = pgSwc ∧ s.on pgSwc then
    forEach ([pgFdb, pgStrm] ++ (List.range 24).map pgSwq) (fun s q =>
      if s.st q = stStarting then s.ownPoint q r else s) s
  else s
  s.svnAuto

/-- The clocks of a page's block run: with REFCLK_25 lost those of the T domain alone (R78, R226). -/
def State.clocked (s : State) (p : Nat) : Bool := s.chip.powered && (!s.chip.clockLost || isTime p)

/-- Meaning of FIRST_CONSISTENT_POINT. -/
def execFirstConsistentPoint (page : Fin 320) (r : StartReport) (s : State) : Out :=
  .next <|
    let p := page.val
    if headerPages.contains p && s.clocked p && s.st p == stStarting && s.prereqs p then
      s.firstPoint p r
    else s

/-- A frame of source `src` that the switch core has begun to take has not ended. -/
def State.receiving (s : State) (src : Nat) : Bool := s.swc.ingress.any fun i => i.src == src && i.ended.isNone

/-- What a stop sequence waits for has come (R144, R183, R224, R487); FLASH ends the command in progress.
DESIGN CHOICE, assumption row 194. -/
def State.stopReady (s : State) (p : Nat) : Bool :=
  match blkOf p with
  | some (.mac, n, _) => (s.portOf n).tx.isNone && !(s.laneOf n).arriving && !s.receiving n
      && (List.range 24).all fun k => s.get (fabLaneCfgDst k) != n || (s.laneOf k).out.all fun o => o.sent == 0
  | some (.swc, _, _) => s.txDescs.isEmpty && s.swc.ingress.isEmpty
  | some (.tb, _, _) => ([pgView, pgEvt] ++ (List.range 3).map pgHtb).all fun q => s.st q == stOff
  | some (.bank, _, _) => s.bankUsersOff
  | some (.flash, _, _) => !s.bit flashCmdStatBusy
  | _ => true

/-- A block in STOPPING completes its stop sequence. -/
def State.stopDone (s : State) (p : Nat) : State :=
  let en := s.bit (hdrStateEnPending p)
  if s.chip.heldSrst.rd false p then s.softReset p
  else
    let s := s.clearBlock p
    (if en then s.startBlock p else s.moveTo p stOff).settle p

/-- Meaning of STOP_COMPLETE. DEDUCED, assumption row 2. -/
def execStopComplete (page : Fin 320) (s : State) : Out :=
  .next <|
    let p := page.val
    if headerPages.contains p && s.clocked p && s.st p == stStopping && s.stopReady p then s.stopDone p
    else s

/-- A limit is exceeded: the block enters FAULT; MAC and LANE carry nothing there (R144). A held soft reset follows. -/
def State.timeout (s : State) (p bit : Nat) : State :=
  let s := (s.moveTo p stFault).err p bit
  let s := match blkOf p with
    | some (.mac, _, _) | some (.lane, _, _) => s.clearBlock p
    | _ => s
  if s.chip.heldSrst.rd false p then s.softReset p else s.settle p

/-- Meaning of START_TIMEOUT. -/
def execStartTimeout (page : Fin 320) (s : State) : Out :=
  .next (if headerPages.contains page.val && s.alive && s.st page.val == stStarting then s.timeout page.val errStartTimeout else s)
/-- Meaning of STOP_TIMEOUT. -/
def execStopTimeout (page : Fin 320) (s : State) : Out :=
  .next (if headerPages.contains page.val && s.alive && s.st page.val == stStopping then s.timeout page.val errStopTimeout else s)

end Sys2Proof.Machine
end

