-- ==== Sys2Proof/Machine/Sup.lean ====
section
/-! DEFINITION. The supervisor's services: the image cache, authentication, anti-rollback counters, Eyelet programs
(R512-R518). -/
namespace Sys2Proof.Machine

def resOk : Nat := 0
def resFormat : Nat := 1
def resRollback : Nat := 7
def resCacheFull : Nat := 8
def resInUse : Nat := 9
def resNotFound : Nat := 10
def resAccess : Nat := 11
def resBadArg : Nat := 12
def resFlash : Nat := 13
def resBusyBoot : Nat := 14

/-! ## The cache (R513, R514) -/

/-- Bytes of the cache: 6 MB, of which the directory takes the first 4 KB (Table 3-2, R514). -/
def cacheSize : Nat := 0x600000

/-- Room an image of `len` bytes takes with its cache CRC, up to the next 16-byte boundary. -/
def roomOf (len : Nat) : Nat := (len + 4 + 15) / 16 * 16

/-- Stretches of the cache in use. -/
def State.cacheUse (s : State) : List (Nat × Nat) := s.cacheUsed.map fun e => (e.2.off, e.2.off + roomOf e.2.len)

/-- The lowest 16-byte aligned offset at which `n` bytes are free. -/
def State.cacheRoom (s : State) (n : Nat) : Option Nat :=
  let use := s.cacheUse
  let cand := 0x1000 :: use.map fun u => (u.2 + 15) / 16 * 16
  let ok := cand.filter fun a => decide (0x1000 ≤ a ∧ a + n ≤ cacheSize) && use.all fun u => decide (a + n ≤ u.1 ∨ u.2 ≤ a)
  ok.foldl (fun (m : Option Nat) a => match m with | none => some a | some b => some (min a b)) none

/-- CACHE_STAT is brought up to date (Table 3-12). -/
def State.dirStat (s : State) : State :=
  let u := s.cacheUsed
  (s.put insoleCacheStatUsed ((u.map fun e => e.2.len + 4).sum)).put insoleCacheStatImages u.length

/-- The directory's CRC and CACHE_STAT are brought up to date (R514). -/
def State.dirSeal (s : State) : State :=
  (s.setWord (cacheBase + 4092) (BitVec.ofNat 32 (crc32 (s.bytes cacheBase 4092)))).dirStat

/-- A directory entry is written. -/
def State.dirPut (s : State) (i : Nat) (d : DirEnt) : State := (s.setBytes (dirEntry i) (dirBytes d)).dirSeal

/-- A directory entry is freed. -/
def State.dirFree (s : State) (i : Nat) : State := (s.setBytes (dirEntry i) (List.replicate 64 0)).dirSeal

/-- An authenticated image is written to the cache, its directory entry last; one of its name, type and version is
replaced (R513). -/
def State.cacheWrite (s : State) (l : List Byte) : Nat × State :=
  let typ := hdrField l 8 0 2
  let name := leWord l 3
  let ver := BitVec.ofNat 16 (hdrField l 0x10 0 16)
  let slot := match s.cacheFind name ver typ with
    | some (i, _) => some i
    | none => (List.range 63).find? fun i => (s.cacheEnt i).name == 0
  match slot, s.cacheRoom (roomOf l.length) with
  | some i, some off =>
    let d : DirEnt := {
      name := name, ver := ver, typ := typ, slot := hdrField l 0x14 0 2, svnIx := hdrField l 0x10 16 6, off := off
      svn := hdrField l 0x10 22 7, len := l.length, digest := sha384 (l.take (256 + bodyLen l)) }
    let s := s.setBytes (cacheBase + off) (l ++ leBytes 4 (crc32 l))
    (resOk, s.dirPut i d)
  | _, _ => (resCacheFull, s)

/-- An image is authenticated and, if it stands, written to the cache: a personality in it then counts as authenticated
in this boot (R292, R516). -/
def State.install (s : State) (l : List Byte) : Nat × State :=
  let r := s.authenticate l
  if r ≠ 0 then (r, s)
  else
    let (r, s) := s.cacheWrite l
    (r, if r = resOk ∧ hdrField l 8 0 2 = 1 then s.addAuthentic (leWord l 3) (BitVec.ofNat 16 (hdrField l 0x10 0 16)) else s)

/-- INSTALL: the source bytes are the requester's (Table 16-3). DEDUCED, assumption row 133. -/
def State.svcInstall (s : State) (p : Principal) (a n : Nat) : Nat × State :=
  let own := isBank a && isBank (a + n - 1) && (banksOf a n).all fun b => s.ownerOf b == pCode p
  if n = 0 then (resFormat, s)
  else if !own then (resAccess, s)
  else
    let (e, l, s) := s.portBRead p a n
    if e ≠ errNone then (resAccess, s) else s.install l

/-- An image is named by a PE page or a WARM field, or is the running firmware (Table 16-4). -/
def State.imageUsed (s : State) (d : DirEnt) : Bool :=
  (d.typ == 1 && (List.range 18).any fun n =>
    (s.reg (peImageName n) == d.name && s.get (peImageVerVer n) == d.ver.toNat)
      || (s.reg (fabWarm n) == d.name && s.get (fabWarmVerVer n) == d.ver.toNat))
    || (d.typ == 3 && s.sup.firmware == some (d.name, d.ver))

/-- REMOVE. -/
def State.svcRemove (s : State) (name : Word) (ver : Half) : Nat × State :=
  match s.cacheUsed.find? fun e => e.2.name == name && e.2.ver == ver with
  | none => (resNotFound, s)
  | some (i, d) => if s.imageUsed d then (resInUse, s) else (resOk, s.dirFree i)

/-- FETCH: the directory in flash names the image (R513, R521). DEDUCED, assumption row 134. -/
def State.svcFetch (s : State) (name : Word) (ver : Half) (flash : Option Flash) : Nat × State :=
  match flash with
  | none => (resFlash, s)
  | some f =>
    match s.flashDir f with
    | none => (resFlash, s)
    | some l =>
      match l.find? fun d => d.name == name && d.ver == ver with
      | none => (resNotFound, s)
      | some d => s.install (s.flashImage f d)

/-- One image is moved down to the lowest offset above those before it. -/
def State.moveDown (s : State) (off i : Nat) : Nat × State :=
  let d := s.cacheEnt i
  let l := s.bytes (cacheBase + d.off) (d.len + 4)
  (off + roomOf d.len, (s.setBytes (cacheBase + off) l).dirPut i { d with off := off })

/-- An image's place in a list ordered by offset. -/
def insertByOff (e : Nat × DirEnt) : List (Nat × DirEnt) → List (Nat × DirEnt)
  | [] => [e]
  | f :: t => if e.2.off ≤ f.2.off then e :: f :: t else f :: insertByOff e t

/-- COMPACT: the images stand one behind the other in the order of their offsets. -/
def State.svcCompact (s : State) : State :=
  let order := s.cacheUsed.foldl (fun l e => insertByOff e l) []
  (order.foldl (fun (x : Nat × State) e => x.2.moveDown x.1 e.1) (0x1000, s)).2

/-- SVN_ADVANCE (R518). -/
def State.svcSvn (s : State) (k v : Nat) : Nat × State :=
  if 64 ≤ k ∨ 64 < v then (resBadArg, s)
  else if v < s.svnOf k then (resRollback, s)
  else if v = s.svnOf k then (resOk, s)
  else (resOk, { s with sup := { s.sup with svn := s.sup.svn.wr 0 k v } })

/-! ## EYELET_APPLY (R513) -/

/-- A write of a register of an EYE page, with the effect it has there. -/
def State.eyeWrite (s : State) (n k : Nat) (w : Word) : State :=
  if k = hdrCtrl (pgEye n) then s.ctrlWrite (pgEye n) false w
  else if k = eyeClkdiv n then s.clkdivWrite n w
  else if k = eyeCircuit n then s.circuitWrite n w
  else if k = eyeOnce n then s.onceWrite n w
  else if k = eyeRowCommit n then s.rowCommit n w
  else s.byCodes k w

/-- The runs of a page record (Table 3-4): offset and value of each register; none where the words are no runs. -/
def pageRuns : Nat → List Word → Option (List (Nat × Word))
  | 0, _ => some []
  | _ + 1, [] => some []
  | f + 1, w :: t =>
    let n := bitsOf w 16 10
    if bitsOf w 26 6 ≠ 0 ∨ t.length < n then none
    else
      match pageRuns f (t.drop n) with
      | some l => some (((List.range n).zip t).map (fun (x : Nat × Word) => (bitsOf w 0 12 + 4 * x.1, x.2)) ++ l)
      | none => none

/-- The words of a byte list. -/
def leWords (l : List Byte) : List Word := (List.range (l.length / 4)).map (leWord l)

/-- EYELET_APPLY: each named engine is OFF; the body's page record is written to its page as SUP.
DEDUCED, assumption row 135. -/
def State.svcEyelet (s : State) (name : Word) (ver : Half) (mask : Word) : Nat × State :=
  let l := (List.range 16).filter fun n => mask.getLsbD n
  if 0x10000 ≤ mask.toNat ∨ l.any fun n => s.st (pgEye n) != stOff then (resBadArg, s)
  else
    match s.cacheFind name ver 2 with
    | none => (resNotFound, s)
    | some (_, d) =>
      let b := s.imageBytes d
      let ws := leWords ((b.drop 256).take (bodyLen b))
      let w0 := ws.getD 0 0
      if s.recheck d ≠ 0 then (s.recheck d, s)
      else
        match pageRuns ws.length (ws.drop 1) with
        | some runs =>
          if bitsOf w0 28 4 ≠ 1 ∨ bitsOf w0 20 8 ≠ 1 then (resFormat, s)
          else
            (resOk, forEach l (fun s n =>
              let s := { s with sup := { s.sup with eyeSvn := s.sup.eyeSvn.wr (0, 0) n (d.svnIx, d.svn) } }
              (forEach runs (fun (s : State) (x : Nat × Word) => s.eyeWrite n (0x1000 * pgEye n + x.1) x.2) s).put
                (hdrVerImage (pgEye n)) ver.toNat) s)
        | none => (resFormat, s)

/-! ## Requests and completion (R512) -/

/-- A write of SVC_CMD; `flash` is what FETCH reads in the flash. DEDUCED, assumption row 132. -/
def State.svcCmd (s : State) (p : Principal) (code : Nat) (flash : Option Flash) : State :=
  if s.bit supSvcStatBusy then s.err pgSup 8
  else
    let early := !s.booted || s.supLost || s.supRestarting
    let args := (List.range 4).map fun i => s.reg (supSvcArg i)
    let s := (s.putb supSvcStatBusy true).put supSvcStatCode code
    { s with sup := { s.sup with svc := some ⟨code, p, args, flash, early⟩ } }

/-- The service is carried out: its result. -/
def State.svcRun (s : State) (j : SvcJob) : Nat × State :=
  let a (i : Nat) : Word := j.args.getD i 0
  let ver : Half := BitVec.ofNat 16 (a 1).toNat
  if j.early || s.supLost || s.supRestarting then (resBusyBoot, s)
  else match j.code with
    | 1 => s.svcInstall j.who (a 0).toNat (a 1).toNat
    | 2 => s.svcRemove (a 0) ver
    | 3 => s.svcFetch (a 0) ver j.flash
    | 4 => (resOk, s.svcCompact)
    | 5 => s.svcSvn (a 0).toNat (a 1).toNat
    | 6 => s.svcEyelet (a 0) ver (a 2)
    | _ => (resBadArg, s)

/-- Meaning of SVC_DONE. -/
def execSvcDone (s : State) : Out :=
  .next <|
    match s.sup.svc with
    | none => s
    | some j =>
      if !s.supRuns then s else
      let (r, s) := s.supStep.svcRun j
      let s := { s with sup := { s.sup with svc := none } }
      ((s.put supSvcStatResult r).putb supSvcStatBusy false).irq' pgSup 1

/-- A request for service `code` by a write of SVC_CMD. -/
def State.svcBy (s : State) (p : Principal) (code : Nat) (flash : Option Flash) : State :=
  s.access p supSvcCmd (BitVec.ofNat 32 code) fun s _ => s.svcCmd p code flash

/-- Meaning of INSTALL. -/
def execInstall (p : Principal) (s : State) : Out := .next (s.svcBy p 1 none)
/-- Meaning of REMOVE. -/
def execRemove (p : Principal) (s : State) : Out := .next (s.svcBy p 2 none)
/-- Meaning of SVC_FETCH: `flash` is what the flash then holds, none if it cannot be read. -/
def execSvcFetch (p : Principal) (flash : Option Flash) (s : State) : Out := .next (s.svcBy p 3 flash)
/-- Meaning of COMPACT. -/
def execCompact (p : Principal) (s : State) : Out := .next (s.svcBy p 4 none)
/-- Meaning of SVN_ADVANCE. -/
def execSvnAdvance (p : Principal) (s : State) : Out := .next (s.svcBy p 5 none)
/-- Meaning of EYELET_APPLY. -/
def execEyeletApply (p : Principal) (s : State) : Out := .next (s.svcBy p 6 none)

end Sys2Proof.Machine
end

