-- ==== Sys2Proof/Machine/Retain.lean ====
section
/-! DEFINITION. The retained Last: slots, snapshot, commit and revert, and what a slot restores (R80-R90, R99, R100, R103,
R566). -/
namespace Sys2Proof.Machine

/-! ## Slots (R82, R83, R85) -/

/-- Device address of a slot (Table 3-2). -/
def slotBase (slot : Bool) : Nat := insoleBase + (if slot then 0x100000 else 0)

def slotMagic : Nat := 0x4C534E49
def slotEnd : Nat := 0x454E444C

/-- The bytes of words, little-endian. -/
def wordBytes (l : List Word) : List Byte := l.flatMap fun w => leBytes 4 w.toNat

/-- A slot's header (Table 3-3). -/
def slotHeader (seq : Word) (words records : Nat) (factory : Bool) (dev : Word) : List Byte :=
  let h := leBytes 4 slotMagic ++ leBytes 4 1 ++ leBytes 4 seq.toNat ++ leBytes 4 (4 * words)
    ++ leBytes 4 (if factory then 1 else 0) ++ leBytes 4 records ++ leBytes 4 dev.toNat ++ List.replicate 32 0
  h ++ leBytes 4 (crc32 h)

/-- A whole slot: header, records, trailer (Tables 3-3 to 3-5). -/
def slotBytes (seq : Word) (words : List Word) (records : Nat) (factory : Bool) (dev : Word) : List Byte :=
  let b := slotHeader seq words.length records factory dev ++ wordBytes words
  b ++ leBytes 4 (crc32 b) ++ leBytes 4 slotEnd

/-- Word `o` of a slot. -/
def State.slotWordAt (s : State) (slot : Bool) (o : Nat) : Nat := (s.word (slotBase slot + o)).toNat

/-- A slot is valid (R85). -/
def State.slotValid (s : State) (slot : Bool) : Bool :=
  let a := slotBase slot
  let n := s.slotWordAt slot 0x0C
  s.slotWordAt slot 0 == slotMagic && s.slotWordAt slot 4 == 1 && s.slotWordAt slot 0x3C == crc32 (s.bytes a 0x3C)
    && decide (n + 72 ≤ 0x100000) && s.slotWordAt slot (64 + n) == crc32 (s.bytes a (64 + n))
    && s.slotWordAt slot (68 + n) == slotEnd

/-- SEQ of a slot. -/
def State.slotSeq (s : State) (slot : Bool) : Word := s.word (slotBase slot + 8)

/-- The Last: slot and SEQ, none if no slot is valid (R85). -/
def State.findLast (s : State) : Option (Bool × Word) :=
  match s.slotValid false, s.slotValid true with
  | true, true => if 0 < (s.slotSeq true - s.slotSeq false).toInt then some (true, s.slotSeq true) else some (false, s.slotSeq false)
  | true, false => some (false, s.slotSeq false)
  | false, true => some (true, s.slotSeq true)
  | false, false => none

/-! ## Snapshot (R84, R87, R91) -/

/-- Every page of a block, ascending (Table 2-10). -/
def pagesOf (p : Nat) : List Nat :=
  match blkOf p with
  | some (.shch, _, _) => [p, p + 1]
  | some (.pat, _, _) => [p, p + 1, p + 2, p + 3]
  | _ => [p]

/-- Registers that a table record holds instead of a page record (R267, R393, R426). -/
def inTable (p o : Nat) : Bool :=
  match blkOf p with
  | some (.tread, _, _) => decide (0x400 ≤ o)
  | some (.shch, _, 0) => decide (0x44 ≤ o ∧ o ≤ 0x68)
  | some (.shch, _, _) => true
  | some (.pat, _, sub) => sub == 3
  | _ => false

/-- Retained bits of a register of a page record. -/
def retBits (p o : Nat) : Word :=
  if inTable p o then 0 else match regRow (0x1000 * p + o) with | some r => r.ret | none => 0

/-- The value a register keeps: its own where it acts on a substitute (R104). -/
def State.keptReg (s : State) (k : Nat) : Word := match s.chip.kept.rd none k with | some v => v | none => s.reg k

/-- Offsets of a page's retained registers. -/
def retOffs (p : Nat) : List Nat := ((List.range 1024).map (4 * ·)).filter fun o => retBits p o != 0

/-- Runs of successive offsets with their values, each of at most 1,023 values. -/
def toRuns : List (Nat × Word) → List (Nat × List Word)
  | [] => []
  | (o, v) :: t =>
    match toRuns t with
    | (o', l) :: r => if o' = o + 4 ∧ l.length < 1023 then (o, v :: l) :: r else (o, [v]) :: (o', l) :: r
    | [] => [(o, [v])]

/-- A page record (Table 3-4). -/
def pageRecord (p : Nat) (vals : List (Nat × Word)) : List Word :=
  BitVec.ofNat 32 (0x10000000 + 0x100000 + p)
    :: (toRuns vals).flatMap fun r => BitVec.ofNat 32 (r.2.length * 0x10000 + r.1) :: r.2

/-- A table record (Table 3-4). -/
def tableRecord (p t entries : Nat) (words : List Word) : List Word :=
  BitVec.ofNat 32 (0x20000000 + 0x100000 + p) :: BitVec.ofNat 32 (t * 0x1000000 + entries) :: words

/-- The records of a block's pages: with RETAIN = 0 a run of CTRL alone (R84). -/
def State.pageRecords (s : State) (p : Nat) : List (List Word) :=
  if s.bit (hdrCtrlRetain p) then
    (pagesOf p).filterMap fun q =>
      let vals := (retOffs q).map fun o => (o, s.keptReg (0x1000 * q + o) &&& retBits q o)
      if vals = [] then none else some (pageRecord q vals)
  else [pageRecord p [(8, s.reg (hdrCtrl p) &&& retBits p 8)]]

/-- The words of a 64-bit entry. -/
def dwWords (d : Dword) : List Word := [d.setWidth 32, (d >>> 32).setWidth 32]

/-- A static entry of the FDB as its record holds it (R185). -/
def fdbWords (e : FdbEntry) : List Word :=
  [e.mac.setWidth 32, BitVec.ofNat 32 (e.mac.toNat / 2 ^ 32 + e.vid.toNat * 0x10000),
    BitVec.ofNat 32 (e.dest.toNat + (if e.group then 0x1000 else 0)), 0]

/-- Static entries of the FDB in the order of their places. -/
def State.fdbStatics (s : State) : List FdbEntry := s.swc.fdb.filterMap fun e =>
  match e.2 with | some x => if x.static then some x else none | none => none

/-- The table records of a block (R185, R267, R393, R426). -/
def State.tableRecords (s : State) (p : Nat) : List (List Word) :=
  if !s.bit (hdrCtrlRetain p) then []
  else match blkOf p with
    | some (.swc, _, _) =>
      [tableRecord p 0 4096 ((List.range 4096).flatMap fun v => dwWords (s.vlanOf v)),
       tableRecord p 1 4096 ((List.range 4096).flatMap fun g => dwWords ((s.groupOf g).setWidth 64))]
    | some (.fdb, _, _) => let l := s.fdbStatics; [tableRecord p 0 l.length (l.flatMap fdbWords)]
    | some (.strm, _, _) =>
      [tableRecord p 0 1024 ((List.range 8192).map fun i => BitVec.ofNat 32 (s.filterWord (i / 8) (i % 8))),
       tableRecord p 1 512 ((List.range 512).flatMap fun m => let x := s.meterOf m; [x.w0, x.w1, x.w2, x.w3])]
    | some (.tread, _, _) =>
      [0, 1, 2].map fun g => tableRecord p g 64 ((List.range 256).map fun i => s.reg (treadSeg g (i / 4) (i % 4)))
    | some (.shch, _, _) =>
      [tableRecord p 0 64 ((List.range 1024).map fun i =>
          if i % 16 < 10 then s.reg (shchKey (i / 16) (0x44 + 4 * (i % 16))) else 0),
       tableRecord p 1 128 ((List.range 4096).map fun i => s.reg (shchKey (i / 64) (0x1000 + 4 * (i % 64))))]
    | some (.pat, n, _) =>
      [0, 1].map fun c => tableRecord p c 512 ((List.range 1024).map fun i => s.reg (patActKey n c (i / 2) (i % 2)))
    | _ => []

/-- The snapshot: every page record, then every table record, by ascending page. DESIGN CHOICE, assumption row 27. -/
def State.snapshot (s : State) : List (List Word) :=
  headerPages.flatMap s.pageRecords ++ headerPages.flatMap s.tableRecords

/-! ## Commit (R86-R89, R103) -/

/-- Why a commit is refused now: 0 none, 1 BUSY, 2 BOOTING, 3 SUP_LOST (R86, R533). -/
def State.commitBar (s : State) : Nat :=
  if s.commit.isSome then 1 else if !s.booted || s.supRestarting then 2 else if s.supLost then 3 else 0

/-- A commit or revert refused or failed. -/
def State.commitFail (s : State) (reason : Nat) : State := (s.put insoleCommitStatRefused reason).irq' pgInsole 2

/-- A commit or revert is accepted: the slot that is not the Last is no longer valid while it is written.
DEDUCED, assumption row 26. -/
def State.commitStart (s : State) (words : List Word) (records : Nat) (pages : List Nat) (factory : Bool) : State :=
  let (slot, seq) : Bool × Word := match s.chip.last with | some (l, q) => (!l, q + 1) | none => (false, 1)
  let s := s.setBytes (slotBase slot) (List.replicate 64 0)
  { s.putb insoleCommitStatBusy true with commit := some ⟨slot, seq, words, records, pages, factory⟩ }

/-- A write of COMMIT (R86, R87). -/
def State.commitGo (s : State) (w : Word) : State :=
  if !w.getLsbD 0 then s
  else if s.commitBar ≠ 0 then s.commitFail s.commitBar
  else
    let recs := s.snapshot
    let words := recs.flatten
    let size := 72 + 4 * words.length
    if 0x100000 < size then s.commitFail 4
    else (s.put insoleSnapSizeBytes size).commitStart words recs.length
      (headerPages.filter fun p => s.bit (hdrCtrlRetain p)) false

/-- Meaning of COMMIT. -/
def execCommit (p : Principal) (v : Word) (s : State) : Out := .next (s.access p insoleCommit v fun s w => s.commitGo w)

/-- The trailer of the running commit is written (R88). DEDUCED, assumption row 28. -/
def State.slotWritten (s : State) (j : CommitJob) : State :=
  let s := s.setBytes (slotBase j.slot) (slotBytes j.seq j.words j.records j.factory (s.reg (hdrId pgDev)))
  let s := { s.putb insoleCommitStatBusy false with commit := none, chip := { s.chip with last := some (j.slot, j.seq) } }
  ((s.putb insoleCommitStatLastSlot j.slot).setReg insoleLastSeq j.seq).count insoleCommits

/-- A commit or revert ends without its trailer: reason 5 VERIFY or 6 ABANDONED; held values take effect (R69, R89). -/
def State.commitDrop (s : State) (j : CommitJob) (reason : Nat) : State :=
  let s := { s.putb insoleCommitStatBusy false with commit := none }
  ((s.commitFail reason).fault 0x13 1 pgInsole 0 reason j.seq.toNat).applyHeld

/-- Meaning of COMMIT_COMPLETE: the read-back matched, or did not (R88, R89). -/
def execCommitComplete (verified : Bool) (s : State) : Out :=
  .next <|
    match s.commit with
    | none => s
    | some j =>
      if j.factory then s
      else if verified then
        let s := forEach j.pages (fun s p => s.setReg (hdrSeq p) j.seq) (s.slotWritten j)
        (s.irq' pgInsole 1).applyHeld
      else s.commitDrop j 5

/-- A write of REVERT by a principal (R103). -/
def State.revertGo (s : State) (p : Principal) (w : Word) : State :=
  let may := (match p with | .pe _ => false | _ => true) && s.bit insoleRevertEnHost
  if bitsOf w 0 8 ≠ 0xA5 then s
  else if !may then s.err pgInsole 9
  else if s.commitBar ≠ 0 then s.commitFail s.commitBar
  else s.commitStart [] 0 [] true

/-- Meaning of REVERT. -/
def execRevert (p : Principal) (v : Word) (s : State) : Out := .next (s.access p insoleRevert v fun s w => s.revertGo p w)

/-! ## Reading a slot (R566) -/

/-- A record of the Last: of a page, or of a table of it. Values are by offset for a page, by number of the word for a
table. -/
structure LastRec where
  table : Option Nat
  page : Nat
  layout : Nat
  vals : List (Nat × Word)
deriving DecidableEq, Repr

/-- Words of an entry of a table; none where its page defines no such table. -/
def entryWords (p t : Nat) : Option Nat :=
  match blkOf p with
  | some (.swc, _, _) => if t < 2 then some 2 else none
  | some (.fdb, _, _) => if t = 0 then some 4 else none
  | some (.strm, _, _) => if t = 0 then some 8 else if t = 1 then some 4 else none
  | some (.tread, _, _) => if t < 3 then some 4 else none
  | some (.shch, _, 0) => if t = 0 then some 16 else if t = 1 then some 32 else none
  | some (.pat, _, 0) => if t < 2 then some 2 else none
  | _ => none

/-- The runs of a page record, and how many words they take. -/
def takeRuns : Nat → List Word → List (Nat × Word) × Nat
  | 0, _ => ([], 0)
  | _ + 1, [] => ([], 0)
  | f + 1, w :: t =>
    if bitsOf w 26 6 ≠ 0 then ([], 0)
    else
      let n := bitsOf w 16 10
      let (l, k) := takeRuns f (t.drop n)
      (((List.range n).zip t).map (fun (x : Nat × Word) => (bitsOf w 0 12 + 4 * x.1, x.2)) ++ l, k + 1 + (t.take n).length)

/-- The records that restore takes, and the number of the word at which it stops short. -/
def takeRecs : Nat → List Word → Nat → List LastRec × Option Nat
  | 0, _, _ => ([], none)
  | _ + 1, [], _ => ([], none)
  | f + 1, w :: t, pos =>
    let page := bitsOf w 0 12
    let layout := bitsOf w 20 8
    if bitsOf w 28 4 = 1 then
      let (l, k) := takeRuns t.length t
      let (r, bad) := takeRecs f (t.drop k) (pos + 1 + k)
      (⟨none, page, layout, l⟩ :: r, bad)
    else
      let w1 := t.headD 0
      let ew := if bitsOf w 28 4 = 2 ∧ layout = 1 then entryWords page (bitsOf w1 24 8) else none
      match ew with
      | none => ([], some pos)
      | some n =>
        let k := n * bitsOf w1 0 24
        let ws := (t.drop 1).take k
        let (r, bad) := takeRecs f ((t.drop 1).drop k) (pos + 2 + k)
        (⟨some (bitsOf w1 24 8), page, layout, (List.range ws.length).zip ws⟩ :: r, bad)

/-- The 32-bit words that little-endian bytes spell. -/
def wordsLE : Nat → List Byte → List Word
  | 0, _ => []
  | n + 1, l => BitVec.ofNat 32 (leNat (l.take 4)) :: wordsLE n (l.drop 4)

/-- The records of the Last, and the byte offset in the slot of a record that ends restore. -/
def State.lastRecs (s : State) (slot : Bool) : List LastRec × Option Nat :=
  let n := s.slotWordAt slot 0x0C / 4
  let ws := wordsLE n (s.bytes (slotBase slot + 64) (4 * n))
  let (l, bad) := takeRecs (n + 1) ws 0
  (l, bad.map fun p => 64 + 4 * p)

/-- The records this boot restores: none where factory values apply (R99). -/
def State.bootRecs (s : State) : List LastRec × Option Nat :=
  match s.chip.last with
  | some (slot, _) => if s.get devBootSource = 0 then s.lastRecs slot else ([], none)
  | none => ([], none)

/-- The value the records hold of a register, if they hold one that applies. -/
def recVal (l : List LastRec) (p o : Nat) : Option Word :=
  l.findSome? fun r => if r.table = none ∧ r.page = p ∧ r.layout = 1 then (r.vals.find? (·.1 == o)).map (·.2) else none

/-- RETAIN as recorded for a block: its other fields are restored (R100). -/
def recRetain (l : List LastRec) (p : Nat) : Bool := match recVal l p 8 with | some v => v.getLsbD 8 | none => true

/-- EN as recorded for a block, else its factory value (R94, R100). -/
def recEn (l : List LastRec) (p : Nat) : Bool :=
  match recVal l p 8, blkOf p with
  | some v, _ => v.getLsbD 0
  | none, some (b, _, _) => factoryEn b
  | none, none => false

/-! ## Writing what a slot holds (R94, R100) -/

/-- A word of a table record is written. -/
def State.restoreWord (s : State) (p t i : Nat) (w : Word) (ws : List (Nat × Word)) : State :=
  let next : Word := match ws.find? (·.1 == i + 1) with | some x => x.2 | none => 0
  let two : Nat := w.toNat + next.toNat * 2 ^ 32
  match blkOf p with
  | some (.swc, _, _) =>
    if i % 2 = 1 ∨ 8192 ≤ i then s
    else if t = 0 then
      { s with swc := { s.swc with vlan := s.swc.vlan.wr (vlanFactory (i / 2)) (i / 2) (BitVec.ofNat 64 (two % 2 ^ 49)) } }
    else { s with swc := { s.swc with group := s.swc.group.wr 0 (i / 2) (BitVec.ofNat 43 two) } }
  | some (.fdb, _, _) =>
    if i % 4 ≠ 0 then s
    else
      let d : Word := match ws.find? (·.1 == i + 2) with | some x => x.2 | none => 0
      let vid := BitVec.ofNat 12 (bitsOf next 16 12)
      let mac := BitVec.ofNat 48 (w.toNat + bitsOf next 0 16 * 2 ^ 32)
      match s.fdbFree vid mac with
      | some x => s.fdbSet x (some ⟨vid, mac, BitVec.ofNat 12 (bitsOf d 0 12), d.getLsbD 12, true, 3⟩)
      | none => s
  | some (.strm, _, _) =>
    if t = 0 then (if i < 8192 then { s with swc := { s.swc with filter := s.swc.filter.wr 0 i w } } else s)
    else if i < 2048 then
      let m := s.meterOf (i / 4)
      s.setMeter (i / 4) (match i % 4 with
        | 0 => { m with w0 := w } | 1 => { m with w1 := w } | 2 => { m with w2 := w } | _ => { m with w3 := w })
    else s
  | some (.tread, _, _) => if i < 256 then s.setReg (treadSeg t (i / 4) (i % 4)) w else s
  | some (.shch, _, _) =>
    if t = 0 then (if i < 1024 ∧ i % 16 < 10 then s.setReg (shchKey (i / 16) (0x44 + 4 * (i % 16))) w else s)
    else if i < 4096 then s.setReg (shchKey (i / 64) (0x1000 + 4 * (i % 64))) w else s
  | some (.pat, n, _) => if i < 1024 then s.setReg (patActKey n t (i / 2) (i % 2)) w else s
  | _ => s

/-- The retained fields of a block take their values from the records (R94, R96, R100); EN is left to its step, but on a
page whose EN is applied at once. -/
def State.restoreBlock (s : State) (l : List LastRec) (seq : Word) (p : Nat) : State :=
  let ret := recRetain l p
  let s := s.putb (hdrCtrlRetain p) ret
  if !ret then s
  else
    let s := forEach (pagesOf p) (fun s q => forEach (retOffs q) (fun s o =>
      let k := 0x1000 * q + o
      match recVal l q o with
      | some v => if q = p ∧ o = 8 then s else s.setReg k ((s.reg k &&& ~~~retBits q o) ||| (v &&& retBits q o))
      | none => s) s) s
    let s := forEach l (fun (s : State) (r : LastRec) =>
      match r.table with
      | some t => if r.page = p then
          forEach r.vals (fun (s : State) (x : Nat × Word) => s.restoreWord p t x.1 x.2 r.vals) s else s
      | none => s) s
    if (recVal l p 8).isSome then s.setReg (hdrSeq p) seq else s

/-- The bits `m` of a register, a field whose restored value contradicts an earlier one, act at their factory values; the
register keeps and shows its own (Table 3-8). DEDUCED, assumption row 17. -/
def State.substitute (s : State) (k : Nat) (m : Word) : State :=
  let s := { s with chip := { s.chip with kept := s.chip.kept.wr none k (some (s.keptReg k)) } }
  (s.setReg k ((s.reg k &&& ~~~m) ||| (regReset k &&& m))).conflict (firstPage (k / 0x1000)) 0 (k % 0x1000) 10

/-- A BIND word's stream ports that contradict what stands before: a source or sink taken by an earlier engine or by a lower
stream port of the word, any at all on a spare. Answers their bits. -/
def bindClash (e : Nat) (spare : Bool) (w : Word) : List (Bool × Nat × Nat × Nat) → List (Nat × Nat × Bool × Nat) → List Word
  | _, [] => []
  | before, x :: t =>
    let m : Word := 0xFF <<< x.1
    let mine := bindUses e (w &&& m)
    if (mine.any fun u => before.contains u) || (spare && w &&& m != 0) then m :: bindClash e spare w before t
    else bindClash e spare w (before ++ mine) t

/-- The lanes of an UP word that contradict what stands before, channel A before channel B: their bits. -/
def State.upClash (s : State) (n : Nat) (before : List Nat) : List Word :=
  let a := (s.upLane n false).toList
  let b := (s.upLane n true).toList
  let hit (l x : List Nat) : Bool := x.any l.contains
  let (ma, before) : List Word × List Nat := if hit before a then ([0x9F], before) else ([], before ++ a)
  ma ++ (if hit before b then [0x9F00] else [])

/-- Bindings, lane configurations, Shank groups and Welt lanes that contradict earlier ones (Table 3-8 row 10). Of two fields
of one register the lower bits stand, an enabled lane gives up its EN. DESIGN CHOICE, assumption row 192. -/
def State.contradictions (s : State) : State :=
  let s := forEach (List.range 8) (fun s g =>
    let m := s.get (shankGroupCfgMembers g)
    let n := ((List.range 16).filter (bitN m)).length
    if 4 < n ∨ ((List.range g).any fun h => s.get (shankGroupCfgMembers h) &&& m != 0) then s.substitute (shankGroupCfg g) 0xFFFF else s) s
  let s := forEach (List.range 18) (fun s e =>
    let before := (List.range e).flatMap fun n => bindUses n (s.reg (fabBind n))
    forEach (bindClash e (s.isSpare e) (s.reg (fabBind e)) before bindPorts) (fun s m => s.substitute (fabBind e) m) s) s
  let s := forEach (List.range 24) (fun s k =>
    let d := s.get (fabLaneCfgDst k)
    let e := s.get (fabLaneCfgEngine k)
    let p := s.get (fabLaneCfgStream k)
    let bad := decide (24 ≤ d) || decide (18 ≤ e) || d == k || s.rxBindOf e p != (kindLane, k)
      || (List.range k).any fun j => s.bit (fabLaneCfgEn j) && s.get (fabLaneCfgDst j) == d
    if s.bit (fabLaneCfgEn k) && bad then s.substitute (fabLaneCfg k) 1 else s) s
  forEach [0, 1] (fun s n => forEach (weltLaneRegs n) (fun s k =>
    let before := (if n = 1 then s.weltLanes 0 else []) ++ ((weltLaneRegs n).takeWhile (· != k)).flatMap (s.lanesIn n)
    if k = weltUp n then forEach (s.upClash n before) (fun s m => s.substitute k m) s
    else if (s.lanesIn n k).any fun l => before.contains l then s.substitute k 0xFFFFFF else s) s) s

end Sys2Proof.Machine
end

