-- ==== Sys2Proof/Machine/Startup.lean ====
section
/-! DEFINITION. Resets of the whole device, loss of REFCLK_25, the boot sequence, and the supervisor's restart and loss
(R73-R79, R92-R105, R511, R517, R533). -/
namespace Sys2Proof.Machine

/-! ## Resets (Table 3-1, R226) -/

/-- The capture FIFOs are empty, and no principal's read is held (R226). -/
def TimeBase.emptied (t : TimeBase) : TimeBase := { t with cap := [], capBusy := [], held := [] }

/-- A latch of a reader of the FRC or of an HTB (R188, R200). -/
def isLatch (k : Nat) : Bool :=
  (List.range 21).any fun w => k == tbFrcHi w || (List.range 3).any fun n => k == htbNowNsHi w n || k == htbNowFrac w n

/-- Registers that a reset keeps: COMMITS, held in the Insole; LOSS_COUNT, TPLL_LOCK and the T domain where the reset
keeps them. -/
def regKept (since time : Bool) (k : Nat) : Bool :=
  k == insoleCommits || (since && k == clkLossCount)
    || (time && (isTime (firstPage (keyAddr k / 0x1000)) && !isLatch k))

/-- The start of the time base (step 7) has come since the T domain was last reset. -/
def State.timeBegun (s : State) : Bool :=
  decide (7 ≤ s.get devBootStep) || (s.chip.keptTime && !s.chip.timeOwed)

/-- The device after a reset with its cause. `since` keeps what counts from power-on; `time` keeps the T domain. The Insole,
the fuses and the levels of pins stand (R73). DEDUCED, assumption rows 22, 148. -/
def State.restart (s : State) (cause : Nat) (since time : Bool) : State :=
  let tpll := time && s.bit clkStatusTpllLock
  let s' : State := {
    regs := s.regs.filter fun (e : Nat × Word) => regKept since time e.1
    mem := s.mem.filter fun (e : Nat × Byte) => decide (insoleBase ≤ e.1)
    chip := {
      perst := s.chip.perst, pads := s.chip.pads, keptTime := time, timeOwed := time && !s.timeBegun
      heldSrst := if time then s.chip.heldSrst.filter fun e => isTime e.1 else [] }
    tb := if time then s.tb.emptied else {}
    sup := { revoked := s.sup.revoked, svn := s.sup.svn }
    rdata := s.rdata, rbytes := s.rbytes, rstatus := s.rstatus, out := s.out, free := s.free, pending := s.pending }
  (s'.put rstCauseLast cause).putb clkStatusTpllLock tpll

/-- REFCLK_25 is lost: every domain but T is held in reset, and the always-on logic keeps the record (R78, R530). -/
def State.clockLose (s : State) : State :=
  let s := s.countF clkLossCountCount
  let f : FaultRec := ⟨0x12, 2, false, pgClk, 0, BitVec.ofNat 32 (s.get clkLossCountCount), 0, s.nowStamp, s.taiSec⟩
  let s := s.restart 2 true true
  { s with chip := { s.chip with clockLost := true }, flt := { s.flt with bootQ := [f] } }

/-- Meaning of POWER_ON_RESET: by VDD_AON rising or by the POR_N pin (R73, R102). The level of REVERT sampled at a release
of POR_N with REFCLK_25 absent does not outlast the clock-loss reset that follows.
DESIGN CHOICE, assumption row 176. -/
def execPowerOnReset (porPin revert refclk : Bool) (s : State) : Out :=
  .next <|
    let s := s.restart (if porPin then 1 else 0) false false
    let s := { s with chip := { s.chip with revertPin := revert } }
    if refclk then s else s.clockLose

/-- Meaning of REFCLK_LOST. DEDUCED, assumption row 25. -/
def execRefclkLost (s : State) : Out :=
  .next (if s.chip.powered && !s.chip.clockLost then s.clockLose else s)

/-- Meaning of REFCLK_PRESENT: the clock-loss reset ends, what the T domain captured meanwhile is emptied, and the device
boots (R79, R226). -/
def execRefclkPresent (s : State) : Out :=
  .next (if s.chip.powered && s.chip.clockLost then
      { s with chip := { s.chip with clockLost := false }, tb := s.tb.emptied } else s)

/-- A write of RST.DEVICE: KEEP_TIME takes its value first; the key then resets the device or is refused (R75).
DEDUCED, assumption row 23. -/
def State.deviceWrite (s : State) (w : Word) : State :=
  let s := s.byCodes rstDevice w
  if bitsOf w 0 8 ≠ 0xD5 then s
  else if s.commit.isSome then s.err pgRst 8
  else s.restart 3 true (s.bit rstDeviceKeepTime)

/-- Meaning of DEVICE_RESET. -/
def execDeviceReset (p : Principal) (v : Word) (s : State) : Out :=
  .next (s.access p rstDevice v fun s w => s.deviceWrite w)

/-- Meaning of POWER_FAIL: rails that fall in order end operation; a fall in another order lies outside the operating
conditions, where the spec states no behaviour (R544, R6).
DEDUCED, assumption row 24; DESIGN CHOICE, assumption row 155. -/
def execPowerFail (inOrder : Bool) (s : State) : Out :=
  if inOrder then
    let s := s.restart 0 false false
    .next { s with chip := { s.chip with powered := false } }
  else .fault .outsideOperatingConditions

/-- Meaning of REVERT_COMPLETE (R103). -/
def execRevertComplete (verified : Bool) (s : State) : Out :=
  .next <|
    match s.commit with
    | none => s
    | some j =>
      if !j.factory then s
      else if verified then (s.slotWritten j).restart 4 true false
      else s.commitDrop j 5

/-! ## Boot steps (R92, R94) -/

/-- Blocks that start at a step (Table 3-7). -/
def stepPages : Nat → List Nat
  | 1 => [pgFlt, pgPcie, pgHostb, pgSup, pgFlash]
  | 2 => [pgFlt, pgPcie, pgHostb, pgSup, pgFlash]
  | 4 => [pgIrqa, pgLace]
  | 6 => [pgBank]
  | 7 => [pgTb, pgHtb 0, pgHtb 1, pgHtb 2, pgView, pgEvt, pgTread, pgPtpa]
  | 8 => (List.range 24).map pgMac ++ (List.range 24).map pgLane
  | 9 => [pgSwc, pgFdb, pgStrm] ++ (List.range 24).map pgSwq
  | 10 => (List.range 18).map pgPe ++ [pgFab, pgDdu]
  | 11 => [pgShank, pgShch]
  | 12 => [pgWelt 0, pgWelt 1, pgPat 0, pgPat 1]
  | 13 => (List.range 16).map pgEye ++ [pgEyep]
  | 14 => [pgWcap]
  | _ => []

/-- The present step: BOOT.STEP, which reads 0 in step 1. DEDUCED, assumption row 20. -/
def State.bootStep (s : State) : Nat := if s.get devBootStep = 0 then 1 else s.get devBootStep

/-- The blocks of a step take their EN and start (R94); those that ran on through the reset do not (R93). -/
def State.applyEn (s : State) (p : Nat) (en : Bool) : State := (s.setEn p en).enEvent p en
def State.startStep (s : State) (k : Nat) : State :=
  forEach (stepPages k) (fun s p =>
    if s.chip.keptTime && !s.chip.timeOwed && isTime p then s else s.applyEn p (s.chip.bootEn.rd false p)) s

/-- Step 1 is complete: the control pages read ON, FAULT_N is released and the first blocks start (R95, R532).
DEDUCED, assumption rows 15, 19. -/
def State.step1 (s : State) (flash : Flash) : State :=
  let s := { s with chip := { s.chip with inReset := false }, sup := { s.sup with flash := flash } }
  let s := forEach [pgDev, pgClk, pgRst, pgInsole, pgProt] (fun s p => s.moveTo p stOn) s
  forEach (stepPages 1) (fun s p => s.applyEn p true) (s.putb clkStatusCoreLock true)

/-- Where the retained values of this boot come from: 0 Last, 1 no Last, 2 FACTORY slot, 3 REVERT pin (R99, R102). A Last
that holds no value of REVERT_EN stands for its factory value. DESIGN CHOICE, assumption row 193. -/
def State.bootSource (s : State) : Nat :=
  match s.chip.last with
  | none => 1
  | some (slot, _) =>
    if bitN (s.slotWordAt slot 0x10) 0 then 2
    else
      let l := (s.lastRecs slot).1
      let pin := if recRetain l pgInsole then (match recVal l pgInsole 0x58 with | some v => v.getLsbD 0 | none => true) else true
      if s.chip.revertPin && pin then 3 else 0

/-- Step 2: both slots are checked and the Last is chosen, then the first blocks take their retained fields (R85, R92, R523).
DEDUCED, assumption rows 21, 146. -/
def State.step2 (s : State) : State :=
  let last := s.findLast
  let bad := (if s.slotValid false then 0 else 1) + (if s.slotValid true then 0 else 2)
  let n := s.rn insoleCommits
  let s := if bad ≠ 0 ∧ (last.isSome ∨ n ≠ 0) then s.fault 0x14 (if last.isSome then 0 else 2) pgInsole 0 bad n else s
  let s := if last.isNone ∧ n ≠ 0 then s.degradeBit 8 true else s
  let s := { s with chip := { s.chip with last := last } }
  let s := match last with
    | some (slot, q) => (s.putb insoleCommitStatLastSlot slot).setReg insoleLastSeq q
    | none => s
  let s := (s.put devBootSource s.bootSource).dirStat
  let l := s.bootRecs.1
  let q := match last with | some (_, q) => q | none => 0
  forEach (stepPages 2) (fun s p => (s.restoreBlock l q p).applyEn p (recEn l p)) s

/-- Images named in the Last: those of the engines and of the warm spares (R517, R292). -/
def namedImages (l : List LastRec) : List (Word × Half) :=
  let field (p o : Nat) : Word := if recRetain l p then (match recVal l p o with | some v => v | none => 0) else 0
  let named := (List.range 18).map (fun n => (field (pgPe n) 0x40, (field (pgPe n) 0x44).setWidth 16))
    ++ (List.range 18).map (fun n => (field pgFab (fabWarm n % 0x1000), (field pgFab (fabWarmVer n % 0x1000)).setWidth 16))
  (named.filter fun x => x.1 != 0).eraseDups

/-- One named image is found in the cache and checked, or fetched from flash: the refusal code, 0 if it stands. -/
def State.bootImage (s : State) (x : Word × Half) : Nat × State :=
  match s.cacheFind x.1 x.2 1 with
  | some (_, d) => (s.recheck d, s)
  | none =>
    match s.flashDir s.sup.flash with
    | none => (resFlash, s)
    | some l =>
      match l.find? fun d => d.name == x.1 && d.ver == x.2 && d.typ == 1 with
      | some d => s.install (s.flashImage s.sup.flash d)
      | none => (resNotFound, s)

/-- Step 3: images (R517). -/
def State.step3 (s : State) (flash : Flash) : State :=
  let s := { s with sup := { s.sup with flash := flash } }
  let l := namedImages s.bootRecs.1
  let s := s.putb devBootCold (l.any fun x => (s.cacheFind x.1 x.2 1).isNone)
  forEach l (fun (s : State) (x : Word × Half) =>
    let (r, s) := s.bootImage x
    if r = 0 then s.addAuthentic x.1 x.2
    else (s.setReg supRefuseName x.1).setReg supRefuseInfo (BitVec.ofNat 32 (r + x.2.toNat * 0x10000))) s

/-- Pages in the order in which step 4 writes them (R94). -/
def restoreOrder : List Nat :=
  [pgProt, pgInsole, pgDev, pgRst, pgIrqa, pgLace, pgBank, pgClk]
    ++ stepPages 7 ++ stepPages 8 ++ stepPages 9 ++ stepPages 10 ++ stepPages 11 ++ stepPages 12 ++ stepPages 13
    ++ stepPages 14

/-- Step 4: retained fields are written in order, every EN but those of the control pages as 0; IRQA and LACE start at its
end (R94, R95, R96). -/
def State.step4 (s : State) : State :=
  let (l, bad) := s.bootRecs
  let q := match s.chip.last with | some (_, q) => q | none => 0
  let s := forEach restoreOrder (fun s p =>
    if s.chip.keptTime && !s.chip.timeOwed && isTime p then s
    else
      let s := if s.chip.keptTime && isTime p then s else s.restoreBlock l q p
      match blkOf p with
      | some (b, _, _) =>
        if isControl b then s
        else { s with chip := { s.chip with bootEn := s.chip.bootEn.wr false p (recEn l p) } }
      | none => s) s
  let s := s.contradictions
  let s := match bad with | some o => s.conflict pgInsole 2 o 11 | none => s
  s.startStep 4

/-- A step's work is complete, with what it found. -/
def State.stepEnd (s : State) (k : Nat) (r : BootReport) : State :=
  if k = 1 then s.step1 r.flash
  else if k = 2 then s.step2
  else if k = 3 then (s.step3 r.flash).step4
  else
    let s := if k = 5 ∧ (!s.chip.keptTime || s.chip.timeOwed) then s.putb clkStatusTpllLock r.tpllLock else s
    if k < 14 then s.startStep (k + 1) else s

/-- The boot sequence goes on: a step ends when none of its blocks is still in its start sequence (R92, R98). -/
def State.bootReady (s : State) : Bool :=
  s.chip.powered && !s.chip.clockLost && !s.booted && !s.supLost && !s.supRestarting && s.supRuns
    && (s.bootStep == 1 || (stepPages s.bootStep).all fun p => s.st p != stStarting)

/-- Meaning of BOOT_STEP_COMPLETE. DEDUCED, assumption row 18. -/
def execBootStepComplete (r : BootReport) (s : State) : Out :=
  .next <|
    if !s.bootReady then s
    else
      let k := s.bootStep
      let s := s.supStep.stepEnd k r
      if k = 14 then ({ (s.put devBootStep 15).putb devBootDone true with chip := { s.chip with bootEn := [] } }).svnAuto
      else s.put devBootStep (k + 1)

/-! ## Supervisor restart and loss (R511, R533) -/

/-- The supervisor is lost, for a reason of SUP_LOST: held values and proposals go, a commit is abandoned, its record ahead
of the supervisor's (R529, R533, R534). -/
def State.supLose (s : State) (reason : Nat) (inj : Bool) : State :=
  let s := (s.cancelProposals none ocSupLost).dropHeld
  let s := match s.commit with
    | some j => s.commitDrop j 6
    | none => s
  ((s.putb fltSupLost true).putb fltSupRestarting false).fault 0x11 3 pgSup 0 reason 0 inj

/-- Watchdog expiries that fall within 60 s of the present, with one more now, in A cycles of 40 ns (R533). -/
def State.expiriesNow (s : State) : List Nat :=
  (s.sup.expiries.filter fun t => decide (s.chip.aclk ≤ t + 1500000000)) ++ [s.chip.aclk]

/-- The supervisor watchdog expires: core, memories and SUP page are reset, and a commit in progress is abandoned; at a
fourth expiry within 60 s the supervisor is lost. DEDUCED, assumption row 29. -/
def State.supExpire (s : State) (inj : Bool) : State :=
  let n := satAdd 0xFFFF (s.rn supRestarts) 1
  let late := s.expiriesNow
  let s := if 4 ≤ late.length then (s.cancelProposals none ocSupLost).dropHeld else s
  let s := match s.commit with | some j => s.commitDrop j 6 | none => s
  let s := (s.clearPage pgSup fun a => a == hdrErrCause pgSup || a == hdrSeq pgSup).fell pgSup
  let s := { s with sup := { s.sup with
    svc := none, firmware := none, fwSvn := (0, 0), jtagHalt := false, jtagSteps := 0, mem := [], expiries := late } }
  let s := (s.setReg supRestarts (BitVec.ofNat 32 n)).putb fltSupRestarting true
  let s := ((s.startBlock pgSup).irq' pgSup 2).fault 0x10 1 pgSup 0 n 0 inj
  if 4 ≤ late.length then s.supLose 1 inj else s

/-- The supervisor runs or starts, so that its watchdog can expire. -/
def State.supAlive (s : State) : Bool :=
  s.chip.powered && !s.chip.clockLost && !s.supLost && (s.on pgSup || s.st pgSup == stStarting)

/-- Meaning of SUP_WATCHDOG. -/
def execSupWatchdog (s : State) : Out := .next (if s.supAlive then s.supExpire false else s)

/-- Meaning of SUP_RESTART_DONE: SUP reads ON with the firmware found, or the supervisor is lost without any (R533).
`firmware` says whether it found any: a report that cache and flash contradict changes nothing. -/
def execSupRestartDone (firmware : Bool) (s : State) : Out :=
  .next <|
    if !s.supRestarting || s.supLost || firmware != s.firmwareFound.isSome then s
    else if !firmware then s.supLose 0 false
    else ((s.putb fltSupRestarting false).moveTo pgSup stOn).runFirmware.svnAuto

/-- What makes the supervisor lost holds (R511, R533): 0 a start without authentic firmware; 1 a fourth expiry, which
SUP_WATCHDOG itself brings about; 2 a restart that has not reached ON. -/
def State.lostFor (s : State) (reason : Nat) : Bool :=
  match reason with
  | 0 => s.st pgSup == stStarting && s.firmwareFound.isNone
  | 1 => decide (4 ≤ s.sup.expiries.length)
  | _ => s.supRestarting

/-- Meaning of SUP_LOST. -/
def execSupLost (reason : Fin 3) (s : State) : Out :=
  .next (if s.alive && !s.supLost && s.lostFor reason.val then s.supLose reason.val false else s)

end Sys2Proof.Machine
end

