-- ==== Sys2Proof/Machine/Fault.lean ====
section
/-! DEFINITION. Fault injection and the forced fault pin (R532, R536, R537). -/
namespace Sys2Proof.Machine

/-- The target that KIND and INSTANCE name exists (R536). -/
def State.injTarget (s : State) (kind inst : Nat) (arg : Half) (addr : Word) : Bool :=
  let a := addr.toNat
  match kind with
  | 1 => isBank a && !s.bit (bankBankstFailed (bankOf a))
  | 2 => isBank a && !s.bit (bankBankstFailed (bankOf a)) && arg.toNat % 64 != arg.toNat / 256 % 64
  | 3 | 4 | 5 => decide (inst < 18)
  | 6 | 8 | 11 | 12 => true
  | 7 => decide (inst < 64)
  | 9 | 10 => decide (inst < 2)
  | _ => false

/-- A refused injection or force. -/
def State.injRefuse (s : State) : State := (s.putb fltInjStatRefused true).err pgFlt 8

/-- A persistent injection runs (R537). -/
def State.injPersists (s : State) : Bool :=
  (match s.shank.injLane with | some (_, p) => p | none => false)
    || [0, 1].any fun n => (s.weltOf n).injCrc != [] || (s.weltOf n).injShift != 0

/-- Persistent injections end. -/
def State.injClear (s : State) : State :=
  let s := { s with shank := { s.shank with
    injLane := match s.shank.injLane with | some (l, p) => if p then none else some (l, p) | none => none } }
  forEach [0, 1] (fun s n => s.setWelt n { s.weltOf n with injCrc := [], injShift := 0, shifted := 0 }) s

/-- A write of INJ_GO.GO. -/
def State.injAccept (s : State) : State :=
  let kind := s.get fltInjTargetKind
  let inst := s.get fltInjTargetInstance
  let arg := BitVec.ofNat 16 (s.get fltInjTargetArg)
  let addr := s.reg fltInjAddr
  if s.bit supDebugEnDebug && !s.bit fltInjStatBusy && s.injTarget kind inst arg addr then
    { s.putb fltInjStatBusy true with flt := { s.flt with inj := some (kind, inst, arg, addr) } }
  else s.injRefuse

/-- A write of INJ_GO: CLEAR acts before GO. DEDUCED, assumption row 141. -/
def State.injGo (s : State) (w : Word) : State :=
  let s := if w.getLsbD 1 then s.injClear else s
  if w.getLsbD 0 then s.injAccept else s

/-- Meaning of INJ_GO. -/
def execInjGo (p : Principal) (v : Word) (s : State) : Out := .next (s.access p fltInjGo v fun s w => s.injGo w)
/-- Meaning of CLEAR. -/
def execClear (p : Principal) (v : Word) (s : State) : Out := .next (s.access p fltInjGo v fun s w => s.injGo w)

/-- Data bits of a granule are inverted without its check bits. DEDUCED, assumption row 142. -/
def State.injBits (s : State) (g : Nat) (bits : List Nat) : State :=
  forEach bits (fun s b =>
    let old := match s.markOf g with | some m => m.bits | none => []
    let now := if old.contains b then old.filter (· != b) else old ++ [b]
    (s.flipBit g b).setMark g (if now = [] then none else some ⟨now, true⟩)) s

/-- An injection acts on its target (Table 17-7). DEDUCED, assumption row 143. -/
def State.injAct (s : State) (kind inst : Nat) (arg : Half) (addr : Word) : State :=
  let x := arg.toNat
  match kind with
  | 1 => s.injBits (addr.toNat / 8) [x % 64]
  | 2 => s.injBits (addr.toNat / 8) [x % 64, x / 256 % 64]
  | 3 => s.wdogExpire inst true
  | 4 => if s.canFault inst then s.engineFault inst 1 0 0 true else s
  | 5 => if s.canFault inst then s.engineFault inst 3 0 (x % 4) true else s
  | 6 => { s with shank := { s.shank with injLane := some (x % 4, bitN x 8) } }
  | 7 => s.setChan inst { s.chanOf inst with stateErr := if bitN x 0 then 2 else 1 }
  | 8 => s.plantMeta (bitN x 0) (addr.toNat % 0x10000)
  | 9 => let w := s.weltOf inst; s.setWelt inst { w with injCrc := w.injCrc.wr 0 (x % 2) (x / 256) }
  | 10 => s.setWelt inst { s.weltOf inst with injShift := x % 256 }
  | 11 => if s.supAlive then s.supExpire true else s
  | _ =>
    if arg = 0xC3C3 ∧ !s.supLost then
      let (r, s) := s.draw 7
      s.supLose r.toNat true
    else s

/-- Meaning of INJECTION_ACT. -/
def execInjectionAct (s : State) : Out :=
  .next <|
    match s.flt.inj with
    | none => s
    | some (kind, inst, arg, addr) =>
      { s.putb fltInjStatBusy false with flt := { s.flt with inj := none } }.injAct kind inst arg addr

/-- A write of FAULTN: FORCE is set only while DEBUG = 1 (R532). -/
def State.faultnWrite (s : State) (w : Word) : State :=
  if !w.getLsbD 1 then s.putb fltFaultnForce false
  else if s.bit supDebugEnDebug then s.putb fltFaultnForce true
  else s.err pgFlt 8

/-- Meaning of FAULTN_FORCE. -/
def execFaultnForce (p : Principal) (v : Word) (s : State) : Out :=
  .next (s.access p fltFaultn v fun s w => s.faultnWrite w)

end Sys2Proof.Machine
end

