-- ==== Sys2Proof/Machine/Irq.lean ====
section
/-! DEFINITION. Interrupts: requests of pages and doorbells, IRQA's routes and its targets (R52-R56, R76, R498). -/
namespace Sys2Proof.Machine

/-- Number of a source in `Irq.seen`. -/
def srcKey : IrqSource → Nat
  | .page p => p.val
  | .doorbell d => 0x1000 + d.val

/-- Every source: the pages that carry a header, then the doorbells. -/
def irqSources : List IrqSource :=
  (headerPages.filterMap fun p => if h : p < 320 then some (.page ⟨p, h⟩) else none)
    ++ (List.range 64).filterMap fun d => if h : d < 64 then some (.doorbell ⟨d, h⟩) else none

/-- A source's request is present (R52, R498). -/
def State.srcReq (s : State) : IrqSource → Bool
  | .page p => headerPages.contains p.val && s.pageReq p.val
  | .doorbell d => let k := s.dbKind d.val; (k == 1 || k == 2 || k == 3) && s.reg (laceDb d.val) != 0

/-- MSI-X vector a source is routed to. -/
def State.srcVector (s : State) : IrqSource → Option Nat
  | .page p => if s.bit (irqaRouteToHa p.val) then some (s.get (irqaRouteVector p.val)) else none
  | .doorbell d => if s.dbKind d.val = 1 then some (s.get (laceRouteVec d.val)) else none

/-- A source is routed to Host B, to the supervisor. -/
def State.srcToHb (s : State) : IrqSource → Bool
  | .page p => s.bit (irqaRouteToHb p.val)
  | .doorbell d => s.dbKind d.val == 2
def State.srcToSup (s : State) : IrqSource → Bool
  | .page p => s.bit (irqaRouteToSup p.val)
  | .doorbell d => s.dbKind d.val == 3

/-- A vector with a routed request present (VEC_PEND); nothing is produced while IRQA is not ON (R95). -/
def State.vecPending (s : State) (v : Nat) : Bool :=
  s.on pgIrqa && irqSources.any fun x => s.srcVector x == some v && s.srcReq x

/-- HB_IRQ_N is driven low, and the supervisor's input is high (R54). -/
def State.hbLine (s : State) : Bool := s.on pgIrqa && irqSources.any fun x => s.srcToHb x && s.srcReq x
def State.supLine (s : State) : Bool := s.on pgIrqa && irqSources.any fun x => s.srcToSup x && s.srcReq x

/-- Key of a vector's control word in the MSI-X table, and of its word of the pending bit array. -/
def msixCtl (v : Nat) : Nat := 0x10080C + 16 * v
def msixPba (v : Nat) : Nat := 0x100C00 + 4 * (v / 32)

/-- A vector's message is sent, or left pending while the vector is masked (R54). -/
def State.sendVector (s : State) (v : Nat) : State :=
  if !s.irq.msixOn || s.chip.perst then s
  else if bitN (s.rn (msixCtl v)) 0 then s.orReg (msixPba v) (BitVec.ofNat 32 (1 <<< (v % 32)))
  else s.emit (.msix v)

/-- The OR, as IRQA has evaluated it, of the requests routed to a vector (R54). -/
def State.vecOr (s : State) (v : Nat) : Bool :=
  irqSources.any fun y => s.irq.seen.rd false (srcKey y) && s.srcReq y && s.srcVector y == some v

/-- A change of routes: a vector whose OR rises with it is sent (R54). -/
def State.reroute (s : State) (f : State → State) : State :=
  let t := f s
  forEach (List.range 64) (fun u v => if t.on pgIrqa && t.vecOr v && !s.vecOr v then u.sendVector v else u) t

/-- A request reaches IRQA and its targets (R53, R54, R56). -/
def State.deliver (s : State) (x : IrqSource) : State :=
  if !s.on pgIrqa || !s.srcReq x || s.irq.seen.rd false (srcKey x) then s
  else
    let rises := match s.srcVector x with
      | some v => !s.vecOr v
      | none => false
    let s := { s with irq := { s.irq with seen := s.irq.seen.wr false (srcKey x) true } }
    let s := match s.srcVector x with
      | some v => if rises then s.sendVector v else s
      | none => s
    match x with
    | .page p => if s.bit (irqaRouteToDb p.val) then
        s.ring (s.get (irqaRouteDb p.val)) (BitVec.ofNat 32 (1 <<< s.get (irqaRouteDbBit p.val))) else s
    | .doorbell _ => s

/-- Meaning of MSIX_MESSAGE. -/
def execMsixMessage (src : IrqSource) (s : State) : Out := .next (s.deliver src)

/-- A write of VEC_EOI0 or 1: only Host A's acts (R54). -/
def State.vecEoi (s : State) (p : Principal) (high : Bool) (w : Word) : State :=
  if p == .ha then
    forEach (List.range 32) (fun s i =>
      let v := i + (if high then 32 else 0)
      if bitN w.toNat i && s.vecPending v then s.sendVector v else s) s
  else s

/-- Meaning of VEC_EOI. -/
def execVecEoi (p : Principal) (high : Bool) (v : Word) (s : State) : Out :=
  .next (s.access p (if high then irqaVecEoi1 else irqaVecEoi0) v fun s w => s.vecEoi p high w)

/-- Meaning of MSI_X_ENABLE (R76): a configuration write, which meets Retry Status until boot step 2 is complete (R500). -/
def execMsiXEnable (s : State) : Out :=
  .next <|
    if !s.reaches .ha || s.get devBootStep < 3 then s
    else
    let s := { s with irq := { s.irq with msixOn := true } }
    forEach (List.range 64) (fun s v => if s.vecPending v then s.sendVector v else s) s

/-- A vector's pending bit is set: its message waits behind the mask and its requests have not fallen (R54, R503).
DESIGN CHOICE, assumption row 191. -/
def State.msixPending (s : State) (v : Nat) : Bool := bitN (s.rn (msixPba v)) (v % 32) && s.vecOr v

/-- A write of the MSI-X table: unmasking a vector whose pending bit is set sends it. -/
def State.msixTable (s : State) (k : Nat) (w : Word) : State :=
  let v := (k - 0x100800) / 16
  let was := s.msixPending v
  let s := s.setReg k w
  if k = msixCtl v ∧ !bitN w.toNat 0 then
    let s := s.andnReg (msixPba v) (BitVec.ofNat 32 (1 <<< (v % 32)))
    if was then s.sendVector v else s
  else s

/-- A write of IRQ_SET (R55). -/
def State.irqSetWrite (s : State) (page : Nat) (w : Word) : State :=
  if s.bit devTestIrqSetEn then s.orReg (hdrIrqRaw page) w else s

/-- Meaning of IRQ_SET. -/
def execIrqSet (p : Principal) (page : Fin 320) (v : Word) (s : State) : Out :=
  .next (s.access p (hdrIrqSet page.val) v fun s w => s.irqSetWrite page.val w)

/-- ERR_CLR clears bits of ERR_CAUSE, one of which is a condition of DEGRADED (R45, R531). -/
def State.errClear (s : State) (page : Nat) (w : Word) : State :=
  let s := s.andnReg (hdrErrCause page) w
  if page = pgWcap then s.degrade else s

/-- Meaning of ERR_CLR (R45). -/
def execErrClr (p : Principal) (page : Fin 320) (v : Word) (s : State) : Out :=
  .next (s.access p (hdrErrClr page.val) v fun s w => s.errClear page.val w)

end Sys2Proof.Machine
end

