-- ==== Sys2Proof/Machine/Live.lean ====
section
/-! DEFINITION. What a register read shows (R43, R46): the key that holds a register, and the registers whose value is
worked out from the rest of the state at the moment of the read. -/
namespace Sys2Proof.Machine

/-- Registers of which each principal has a copy of its own: RXINFO and the latches and selectors of R65, R196, R200, R370,
R387, R457, R482 and R491. -/
def perPrincipal (a : Nat) : Bool :=
  [0x4048, 0x80044, 0xB1040, 0xB1100, 0xE8068, 0xF004C].contains a
    || (decide (0x81044 ≤ a ∧ a ≤ 0x83048) && (a % 0x1000 == 0x44 || a % 0x1000 == 0x48))
    || decide (0x84040 ≤ a ∧ a < 0x8405C)
    || (decide (0xF1600 ≤ a ∧ a < 0xF1E00) && a % 16 == 0xC)

/-- A word of the SHCH window, which shows the channel of the reader's SEL (Tables 11-8, 11-9). -/
def inShchWindow (a : Nat) : Bool := decide (0xB1044 ≤ a ∧ a < 0xB10AC) || a / 0x1000 == 0xB2

/-- Key of the word a principal reaches at an address. -/
def State.busKey (s : State) (p : Principal) (a : Nat) : Nat :=
  if perPrincipal a then perKey (pIdx p) a
  else if inShchWindow a then shchKey (s.selOf p) (a - 0xB1000)
  else if 0xC8 ≤ a / 0x1000 ∧ a / 0x1000 < 0xD0 ∧ a / 0x1000 % 4 = 3 then
    a + s.get (patViewSelChannel ((a / 0x1000 - 0xC8) / 4)) * 0x50000000
  else a

/-- A number as a register word, and a bit of one. -/
def w32 (n : Nat) : Word := BitVec.ofNat 32 n
def bitAt (i : Nat) (c : Bool) : Nat := if c then 2 ^ i else 0

/-- 32 flags as a word. -/
def flags32 (f : Nat → Bool) : Word := w32 ((List.range 32).map fun i => bitAt i (f i)).sum

/-! ## Headers and control pages -/

/-- Version of the image that runs in the block of a page (Table 2-1). -/
def State.verImage (s : State) (b : Blk) (n p : Nat) : Nat :=
  match b with
  | .pe => if s.on p then (match (s.peOf n).image with | some (_, v) => v.toNat | none => 0) else 0
  | .sup => match s.sup.firmware with | some (_, v) => v.toNat | none => 0
  | _ => s.get (hdrVerImage p)

/-- Open proposals on a block's pages (Table 2-1). -/
def State.lockOpen (s : State) (p : Nat) : Nat :=
  ((List.range 16).filter fun j => s.stOpen j && firstPage (s.get (protStageAddrAddr j) / 0x1000) == p).length

/-- Header words that are worked out. -/
def State.liveHdr (s : State) (b : Blk) (n p o : Nat) : Option Word :=
  if o = 0x4 then some (w32 ((Config.design p).toNat * 0x10000 + s.verImage b n p))
  else if o = 0x18 then some (s.reg (hdrIrqRaw p) &&& s.reg (hdrIrqEn p))
  else if o = 0x28 then some (withBits (s.reg (hdrLock p)) 0 5 (s.lockOpen p))
  else none

/-- DEV, CLK, PROT, IRQA, FLT and SUP. -/
def State.liveControl (s : State) (a : Nat) : Option Word :=
  if a = devPart then some (w32 ((if Config.gradeXk then 2 else 1) + Config.stepping.toNat * 0x100))
  else if a = clkStatus then some (withBits (s.reg a) 2 1 (bitAt 0 (s.chip.powered && !s.chip.clockLost)))
  else if a = protStageStat then some (w32 ((List.range 16).filter fun j => s.stOpen j || s.stHeld j).length)
  else if irqaSum 0 ≤ a ∧ a ≤ irqaSum 9 then
    some (flags32 fun i => let p := (a - irqaSum 0) / 4 * 32 + i; headerPages.contains p && s.pageReq p)
  else if a = irqaVecPend0 then some (flags32 s.vecPending)
  else if a = irqaVecPend1 then some (flags32 fun i => s.vecPending (32 + i))
  else if a = irqaHbLine then some (w32 (bitAt 0 s.hbLine))
  else if a = fltFaultn then some (withBits (s.reg a) 0 1 (bitAt 0 s.faultNLow))
  else if a = fltInjStat then some (withBits (s.reg a) 2 1 (bitAt 0 s.injPersists))
  else if a = supKeyPolicy then some (s.reg a ||| w32 s.revokedSlots.toNat)
  else if a = supKeyStat then some (w32 (Config.keyFused.toNat + s.revokedSlots.toNat * 0x10))
  else if supSvn 0 ≤ a ∧ a < supSvn 64 then some (w32 (s.svnOf ((a - supSvn 0) / 4) % 0x80))
  else none

/-! ## Ports and switch -/

/-- A credit in units of 1/256 bit, rounded toward zero (R128). -/
def State.creditUnits (s : State) (n : Nat) (c : Int) : Word :=
  BitVec.ofInt 32 (if s.portRate n = 0 then 0 else (c * 256).tdiv (s.portRate n))

/-- MAC[n]. -/
def State.liveMac (s : State) (n a : Nat) : Option Word :=
  let o := a % 0x1000
  let q := (o - 0x100) / 32
  let head := (s.portOf n).txts.head?
  if a = macStampDesign n then
    let (rx, tx) := Config.stampDesign (s.mode n)
    some (w32 (rx.toNat + tx.toNat * 0x10000))
  else if a = macTxtsStat n then some (withBits (s.reg a) 0 5 (s.portOf n).txts.length)
  else if a = macTxtsTag n then some (match head with | some e => w32 e.tag.toNat | none => 0)
  else if a = macTxtsLo n then some (match head with | some e => stampLo e.stamp | none => 0)
  else if 0x100 ≤ o ∧ o < 0x200 ∧ o % 32 = 0x0C then some (s.creditUnits n (s.creditOf n q))
  else if 0x100 ≤ o ∧ o < 0x200 ∧ o % 32 = 0x10 then some (s.creditUnits n (s.creditHi n q))
  else if 0x100 ≤ o ∧ o < 0x200 ∧ o % 32 = 0x14 then some (s.creditUnits n (s.creditLo n q))
  else none

/-- SWC. -/
def State.liveSwc (s : State) (a : Nat) : Option Word :=
  if a = swcBufFree then some (w32 s.bufFree)
  else if a = swcShared then some (w32 s.pool)
  else if a = swcSharedUsed then some (w32 s.sharedUsed)
  else if a = swcDescFree then some (if s.on pgSwc then w32 s.swc.descFree else 0)
  else if a = swcGenOldest then some (match s.genOldest with | some g => w32 g.toNat | none => 0x10000)
  else none

/-- FDB. -/
def State.liveFdb (s : State) (a : Nat) : Option Word :=
  if a = Sys2Proof.Machine.fdbCount then some (w32 (s.fdbCount false))
  else if a = fdbStatic then some (w32 (s.fdbCount true))
  else if a = fdbCamUsed then some (w32 s.fdbCam.length)
  else none

/-- STRM: the counters of the selected meter. -/
def State.liveStrm (s : State) (a : Nat) : Option Word :=
  let m := s.meterOf (s.get strmMcntSelMeter)
  if a = strmMcntGreen then some (w32 m.green)
  else if a = strmMcntYellow then some (w32 m.yellow)
  else if a = strmMcntRed then some (w32 m.red)
  else if a = strmMcntRedDrop then some (w32 m.redDrop)
  else none

/-- Number of the queue of slot `t` on page SWQ[n] (R184): ports, engines two a page, the host. -/
def queueAt (n t : Nat) : Option Nat := (List.range 236).find? fun q => qSlot q == (n, t)

/-- SWQ[n]. -/
def State.liveSwq (s : State) (n a : Nat) : Option Word :=
  let o := a % 0x1000
  let t := (o - 0x100) / 64
  if a = swqPortUsed n then some (w32 (s.portUsed n))
  else if 0x100 ≤ o ∧ o % 64 = 0x24 then some (match queueAt n t with | some q => w32 (s.occ q) | none => 0)
  else if 0x100 ≤ o ∧ o % 64 = 0x2C then some (match queueAt n t with | some q => w32 (s.queueOf q).length | none => 0)
  else none

/-! ## Time -/

/-- A DAC frame is in progress (R219). -/
def State.ocxBusy (s : State) : Bool :=
  match s.tb.ocxLast with
  | some f => decide ((s.tb.frc - f).toNat < s.ocxBits.length * 2 * (s.get tbOcxCfgDiv + 1))
  | none => false

/-- TB. -/
def State.liveTb (s : State) (a : Nat) : Option Word :=
  if a = tbOcxStat then some (withBits (s.reg a) 0 1 (bitAt 0 s.ocxBusy)) else none

/-- VIEW: PEND, AGED and VALID of STAT. -/
def State.liveView (s : State) (a : Nat) : Option Word :=
  if 0x84100 ≤ a ∧ a % 64 = 0x2C then
    let v := (a - 0x84100) / 64
    let w := s.viewOf v
    some (w32 (bitAt 0 w.pend.isSome + bitAt 1 (s.bit (viewStatLateApply v)) + bitAt 2 (s.viewIsAged v)
      + bitAt 3 w.cur.isSome))
  else none

/-- EVT: the head record of a capture unit. -/
def State.liveEvt (s : State) (a : Nat) : Option Word :=
  if a < 0x85400 then none
  else
    let n := (a - 0x85400) / 64
    let o := a % 64
    let l := s.capOf n
    let head (f : CapRec → Word) : Option Word := some (match l.head? with | some r => f r | none => 0)
    if o = 0x08 then some (withBits (s.reg a) 0 3 l.length)
    else if o = 0x0C then head fun r => w32 (bitAt 0 r.rising + bitAt 1 r.sw)
    else if o = 0x10 then head fun r => stampLo r.stamp
    else if o = 0x14 then head fun r => stampHi r.stamp
    else if 0x18 ≤ o ∧ o < 0x38 then head fun r => r.htbWord ((o - 0x18) / 12) ((o - 0x18) / 4 % 3)
    else none

/-- TREAD: what a generator shows of its running values. -/
def State.liveTread (s : State) (a : Nat) : Option Word :=
  let g := (a - 0x86100) / 128
  let o := (a - 0x86100) % 128
  let acc := (s.genOf g).acc.fdiv (2 ^ 16)
  if a < 0x86100 ∨ 0x86280 ≤ a then none
  else if o = 0x50 then some (BitVec.ofInt 32 (adjOf (s.genOf g).f))
  else if o = 0x54 then some (BitVec.ofInt 32 acc)
  else if o = 0x58 then some (BitVec.ofInt 32 (acc.fdiv (2 ^ 32)))
  else if o = 0x5C then some (w32 (s.estErr g))
  else if o = 0x60 then some (w32 (s.holdMs g))
  else none

/-! ## Engines -/

/-- PE[n].STATUS (Table 8-9). -/
def State.peStatusNow (s : State) (n : Nat) : Word :=
  let x := s.peOf n
  w32 (x.pc.toNat + x.ibank.toNat * 0x2000 + bitAt 16 (s.runs n) + bitAt 17 x.halted + bitAt 18 x.resumed)

/-- FAB: LANE[k].STAT. -/
def State.liveFab (s : State) (a : Nat) : Option Word :=
  if 0xA8200 ≤ a ∧ a < 0xA8500 ∧ a % 32 = 8 then
    let k := (a - 0xA8200) / 32
    some (w32 (bitAt 0 (s.laneActive k) + bitAt 1 (s.laneBypassed k) + bitAt 2 (s.laneMismatch k)
      + s.laneOcc k % 0x4000 * 0x10000))
  else none

/-- SHANK: pending channels, and the busy fraction of the last millisecond, of 500,000 K cycles (R386). -/
def State.liveShank (s : State) (a : Nat) : Option Word :=
  if a = shankPendLo then some (flags32 fun i => s.shank.pend.contains i)
  else if a = shankPendHi then some (flags32 fun i => s.shank.pend.contains (32 + i))
  else if a = shankLoad then
    let frc := s.tb.frc.toNat
    let used := ((s.shank.busy.filter fun x => decide ((frc + 2 ^ 48 - x.1) % 2 ^ 48 < 250000)).map (·.2)).sum
    some (w32 (min 0xFFFF (used * 0x10000 / 500000)))
  else none

/-- SHCH: STAT with the limits at which y and i stand now. -/
def State.shchStatNow (s : State) (c : Nat) : Word :=
  let b := s.get (shchCfgSet c)
  let lim (k : Nat) : Dy := dyOf (s.reg k)
  let x := s.chanOf c
  let at' := bitAt 5 (x.y.same (lim (shchOmin c b))) + bitAt 6 (x.y.same (lim (shchOmax c b)))
    + bitAt 7 (x.i.same (lim (shchImin c b))) + bitAt 8 (x.i.same (lim (shchImax c b)))
  withBits (s.reg (shchStat c)) 5 4 (at' / 32)

/-! ## Welt, Eyelet, wave capture -/

/-- Position in a Welt cycle in ns (Table 12-7). -/
def State.weltPosNow (s : State) (n : Nat) : Word :=
  if s.on (pgWelt n) then w32 ((s.cyclePos n / 2 ^ 32).toNat % 2 ^ 20) else 0

/-- STATE of a Welt port: a root hub shows the HOP of 0 that it sends (R421). -/
def State.weltStateNow (s : State) (n : Nat) : Word :=
  let w := s.reg (weltState n)
  if s.bit (weltCfgRole n) && !s.bit (weltUpAEn n) && !s.bit (weltUpBEn n) then withBits w 16 8 0 else w

/-- EYE[n]. -/
def State.liveEye (s : State) (n a : Nat) : Option Word :=
  let x := s.eyeOf n
  if a = eyeStatus n then some (s.eyeStatusNow n)
  else if a = eyeRxs n then some x.rxs
  else if a = eyeTxs n then some x.txs
  else if a = eyeCounters n then some (w32 (x.cnt0.toNat + x.cnt1.toNat * 0x10000))
  else if a = eyeFifoLvl n then some (w32 (x.fin.length + x.fout.length * 0x100))
  else if a = eyeStampLo n then some (match x.stamps.head? with | some t => stampLo t | none => 0)
  else if a = eyeStampHi n then some (match x.stamps.head? with | some t => stampHi t | none => 0)
  else if a = eyeStampStat n then some (withBits (s.reg a) 0 3 x.stamps.length)
  else if a = eyeRxh n then some (x.rxh.getD 0)
  else if a = eyeTxh n then some (x.txh.getD 0)
  else none

/-- EYEP: YGROUP and PIN_IN. -/
def State.liveEyep (s : State) (a : Nat) : Option Word :=
  let grp (h : Nat) : Word := w32 ((List.range 8).map fun i => s.ygroup (8 * h + i) * 0x10 ^ i).sum
  if a = eyepYgroup0 then some (grp 0) else if a = eyepYgroup1 then some (grp 1)
  else if a = eyepPinInLo then some (s.pinWord 0) else if a = eyepPinInHi then some (s.pinWord 32) else none

/-- WCAP: STAT, and SRC_CFG of a channel. -/
def State.liveWcap (s : State) (a : Nat) : Option Word :=
  if a = wcapStat then some s.wcapStatNow
  else if 0xE8100 ≤ a ∧ a < 0xE8200 ∧ a % 32 = 0x14 then
    some (withBits (s.reg a) 2 1 (bitAt 0 (s.wSrcOff ((a - 0xE8100) / 32))))
  else none

/-! ## Memory and Lace -/

/-- BANK: FUSED of BANKST. DESIGN CHOICE, assumption row 3. -/
def State.liveBank (s : State) (a : Nat) : Option Word :=
  if bankBankst 0 ≤ a ∧ a < bankBankst 192 then
    some (withBits (s.keptReg a) 24 4 (Config.bankFused ((a - bankBankst 0) / 4)).toNat)
  else none

/-- LACE: STAT of a mailbox. -/
def State.liveLace (s : State) (a : Nat) : Option Word :=
  if 0xF1200 ≤ a ∧ a < 0xF1600 ∧ a % 16 = 0xC then
    let m := (a - 0xF1200) / 16
    let n (d : Nat) : Nat := (s.laceQ m d).length
    let w := withBits (withBits (s.reg a) 0 4 (n 0)) 4 4 (n 1)
    let w := withBits (withBits w 8 1 (bitAt 0 (s.laceFull m 0))) 9 1 (bitAt 0 (s.laceFull m 1))
    some (withBits w 12 1 (bitAt 0 (s.laceForced m)))
  else none

/-! ## Outputs on VDDIO_H (R545) -/

/-- Groups of outputs on VDDIO_H, FAULT_N and the TE pins apart. -/
inductive IoPins where
  | hostB | flash | oscillator
  | mdio (bus : Fin 2)
deriving DecidableEq, Repr

/-- Page of the block that owns a group of outputs. DEDUCED, assumption row 218. -/
def ioOwner : IoPins → Nat
  | .hostB => pgHostb
  | .flash => pgFlash
  | .oscillator => pgTb
  | .mdio b => pgLane b.val

/-- The outputs are no longer high impedance: the block that owns them has started (R545). -/
def State.ioDriven (s : State) (x : IoPins) : Bool := s.chip.powered && s.st (ioOwner x) != stOff

/-- A register whose value is worked out at the read; none for one that holds what it shows.
DEDUCED, assumption row 149. -/
def State.live (s : State) (p : Principal) (a : Nat) : Option Word :=
  match blkOf (a / 0x1000) with
  | none => none
  | some (b, n, sub) =>
    if sub = 0 ∧ a % 0x1000 < 0x40 then s.liveHdr b n (a / 0x1000) (a % 0x1000)
    else match b with
      | .dev | .clk | .prot | .irqa | .flt | .sup => s.liveControl a
      | .mac => s.liveMac n a
      | .swc => s.liveSwc a
      | .fdb => s.liveFdb a
      | .strm => s.liveStrm a
      | .swq => s.liveSwq n a
      | .tb => s.liveTb a
      | .view => s.liveView a
      | .evt => s.liveEvt a
      | .tread => s.liveTread a
      | .pe => if a = peStatus n then some (s.peStatusNow n) else none
      | .fab => s.liveFab a
      | .shank => s.liveShank a
      | .shch => if a = 0xB1080 then some (s.shchStatNow (s.selOf p)) else none
      | .welt => if a = weltPos n then some (s.weltPosNow n) else if a = weltState n then some (s.weltStateNow n) else none
      | .eye => s.liveEye n a
      | .eyep => s.liveEyep a
      | .wcap => s.liveWcap a
      | .bank => s.liveBank a
      | .lace => s.liveLace a
      | .pcie => if a = msixPba 0 then some (flags32 s.msixPending)
          else if a = msixPba 32 then some (flags32 fun i => s.msixPending (32 + i)) else none
      | _ => none

/-- The value a read of a register shows (R46): write-only bits read 0, and a register that acts on a substitute shows the
value it keeps (R104). -/
def State.shown (s : State) (p : Principal) (a : Nat) : Word :=
  match regRow a with
  | none => 0
  | some r =>
    let w := match s.live p a with | some w => w | none => s.keptReg (s.busKey p a)
    w &&& (r.rw ||| r.w1c ||| r.rc ||| r.rws ||| r.ro)

end Sys2Proof.Machine
end

