-- ==== Sys2Proof/Machine/Bus.lean ====
section
/-! DEFINITION. The register bus (R39-R46): every register write reaches the behaviour its register has, every read has
its side effect; REGISTER_WRITE, UNMAPPED_ACCESS and RC_READ. -/
namespace Sys2Proof.Machine

/-! ## Writes, once accepted -/

/-- A word of the time pages TB, HTB, VIEW and EVT. -/
def State.actTime (s : State) (p : Principal) (b : Blk) (n a : Nat) (w : Word) : State :=
  let k := s.busKey p a
  match b with
  | .tb =>
    if a = tbOcxValue then (if s.get tbOcxCfgSrc ≠ 0 then s.err pgTb 8 else s.ocxValue w)
    else if a = tbLeap then
      let s := s.byCodes tbLeap w
      if s.bit tbLeapLeap61 && s.bit tbLeapLeap59 then s.err pgTb 9 else s
    else if tbTeCfg 0 ≤ a ∧ a ≤ tbTeCfg 7 then s.teChange ((a - tbTeCfg 0) / 4) fun s => s.byCodes a w
    else s.byCodes k w
  | .htb =>
    if (a = htbIncrNs n ∨ a = htbIncrFrac n) ∧ s.st (pgHtb n) ≠ stOff then s.err (pgHtb n) 8 else s.byCodes k w
  | .view =>
    let v := (a - 0x84100) / 64
    if a = viewConvInHi 0 % 0x1000000 then s.viewConvert p w
    else if a < 0x84100 then s.byCodes k w
    else if a = viewCtrl v then s.viewArm v w
    else
      let s := s.byCodes k w
      if a % 64 < 0x28 && !(s.viewOf v).writers.contains p then
        s.setView v { s.viewOf v with writers := (s.viewOf v).writers ++ [p] }
      else s
  | _ =>
    if a < 0x85400 then
      let u := (a - 0x85100) / 64
      let o := a % 64
      let armed := s.bit (evtEvStatArmed u)
      let fixed := [0x00, 0x08, 0x0C, 0x1C].contains o
        || (s.bit (evtEvCfgAlign u) && s.evMode u == 2 && (o == 0x10 || o == 0x14))
      if a = evtEvCtrl u then s.evCtrl u w
      else if armed && fixed then s.err pgEvt 8
      else if a = evtEvCfg u then s.teChange u fun s => s.byCodes a w
      else s.byCodes k w
    else
      let u := (a - 0x85400) / 64
      if a = evtEcCtrl u then (if w.getLsbD 0 && s.on pgEvt then s.capture u false true s.nowStamp else s)
      else s.byCodes k w

/-- A word of TREAD. -/
def State.actTread (s : State) (a : Nat) (w : Word) : State :=
  let g := (a - 0x86100) / 128
  if 0x86400 ≤ a then
    if s.bit (treadStatTableRun ((a - 0x86400) / 1024)) then s.err pgTread 8 else s.byCodes a w
  else if a = treadCtrl g then s.treadCtrlWrite g w
  else if a = treadRef g then s.refValid g (w.getLsbD 0)
  else if a = treadSeekOfsHi g then s.seekOfs g w
  else if a = treadFollow 2 then s.followWrite w
  else s.byCodes a w

/-- A word of the ports, the switch and its tables. -/
def State.actSwitch (s : State) (p : Principal) (b : Blk) (n a : Nat) (w : Word) : State :=
  match b with
  | .mac =>
    if a = macStatSnap n then s.statSnap n w
    else if a = macMdioCmd n then s.mdioWrite n w
    else if a = macCfg n then s.macCfgWrite n w
    else if a = macStampRxTrim n then s.trimWrite n 0 a w
    else if a = macStampTxTrim n then s.trimWrite n 1 a w
    else if a = macStampAsym n then s.trimWrite n 2 a w
    else s.byCodes a w
  | .lane => if a = laneCfg n then s.laneModeSet n w else s.byCodes a w
  | .swc =>
    if a = swcBufBanks then s.bufBanksWrite w
    else if a = swcGenBarrier then s.barrierArm w
    else if a = swcTblCmd then s.tblCmd p w
    else s.byCodes a w
  | .fdb => if a = fdbCmd then s.fdbCmdWrite w else s.byCodes a w
  | .strm => if a = strmCmd then s.strmCmdWrite p w else s.byCodes a w
  | _ =>
    if 0x100 ≤ a % 0x1000 ∧ a % 64 = 0 then s.guarWrite fun s => s.byCodes a w else s.byCodes a w

/-- A word of the fabric, the DDU and Shank. -/
def State.actEngine (s : State) (p : Principal) (b : Blk) (sub a : Nat) (w : Word) : State :=
  let k := s.busKey p a
  let o := a % 0x1000
  match b with
  | .fab =>
    if a = fabSpareMask then s.spareMaskSet w
    else if 0x100 ≤ o ∧ o < 0x148 then s.bindSet ((o - 0x100) / 4) w
    else if 0x200 ≤ o ∧ o < 0x500 ∧ o % 32 = 0 then s.laneCfgSet ((o - 0x200) / 32) w
    else s.byCodes a w
  | .ddu => if a = dduFlush then s.dduFlushSet w else s.byCodes a w
  | .shank =>
    if a = shankTrigLo then s.shTrigWrite false w
    else if a = shankTrigHi then s.shTrigWrite true w
    else if a = shankLaneTest then s.laneTest w
    else if 0x080 ≤ o ∧ o < 0x0C0 ∧ o % 8 = 0 then s.groupCfg ((o - 0x080) / 8) w
    else s.byCodes a w
  | _ =>
    if sub = 0 ∧ 0x800 ≤ o then s.shPost p ((o - 0x800) / 16) ((o - 0x800) / 4 % 4) w
    else if inShchWindow a then s.shchWrite (s.selOf p) k w
    else s.byCodes k w

/-- A word of Welt, its Patterns, Eyelet and wave capture. -/
def State.actStreams (s : State) (p : Principal) (b : Blk) (n sub a : Nat) (w : Word) : State :=
  match b with
  | .welt =>
    if a = weltCfg n ∨ a = weltUp n ∨ a = weltDownA n ∨ a = weltDownB n then s.weltLaneWrite n a w
    else if a = weltPublish n then s.publish n w
    else s.byCodes a w
  | .pat =>
    if a = patApply n then s.patGo n w
    else if sub = 1 ∨ sub = 2 then s.patEditWrite n a w
    else s.byCodes (s.busKey p a) w
  | .eye => s.eyeWrite n a w
  | .eyep => if a = eyepStart then s.eyepStartWrite w else s.byCodes a w
  | _ =>
    let o := a % 0x1000
    if a = wcapCfg ∨ a = wcapBuf ∨ (0x100 ≤ o ∧ o < 0x200 ∧ o % 32 = 0) then s.wDoorbell.wCfgWrite a w
    else if a = wcapTrig then s.trigWrite w
    else if a = wcapRelease then s.releaseWrite w
    else if a = wcapExportCtrl then s.exportGo p w
    else s.wDoorbell.byCodes a w

/-- A word of Lace, the hosts and the supervisor. -/
def State.actHost (s : State) (p : Principal) (b : Blk) (a : Nat) (w : Word) : State :=
  let o := a % 0x1000
  match b with
  | .lace =>
    let m := (o - 0x600) / 32
    let d := (o - 0x600) / 16 % 2
    if 0x600 ≤ o ∧ o < 0xE00 ∧ o % 16 = 0 then s.laceTxWrite m d w false
    else if 0x600 ≤ o ∧ o < 0xE00 ∧ o % 16 = 4 then s.laceTxWrite m d w true
    else if 0xE00 ≤ o ∧ o < 0xF00 then s.dbWrite p ((o - 0xE00) / 4) w
    else if 0xF00 ≤ o then s.ring ((o - 0xF00) / 4) w
    else if laceRoute 0 ≤ a ∧ a ≤ laceRoute 63 then s.reroute fun s => s.byCodes a w
    else s.byCodes (s.busKey p a) w
  | .pcie =>
    let c := (o - 0x100) / 32
    if 0x800 ≤ o ∧ o < 0xC00 then s.msixTable a w
    else if 0x100 ≤ o ∧ o < 0x200 ∧ o % 32 = 0 then s.dmaEnSet c w
    else if 0x100 ≤ o ∧ o < 0x200 ∧ o % 32 = 0x10 then s.dmaTailWrite c w
    else if 0x100 ≤ o ∧ o < 0x200 ∧ o % 32 = 0xC then (s.byCodes a w).ringCheck c
    else s.byCodes a w
  | .sup =>
    if a = supSvcCmd then s.svcCmd p (bitsOf w 0 8) (some s.sup.flash) else s.byCodes a w
  | _ => if a = flashCmdGo then s.cmdGo w else s.byCodes a w

/-- A word of the control pages, IRQA and FLT. -/
def State.actControl (s : State) (p : Principal) (a : Nat) (w : Word) : State :=
  if a = rstDevice then s.deviceWrite w
  else if a = insoleCommit then s.commitGo w
  else if a = insoleRevert then s.revertGo p w
  else if a = irqaVecEoi0 then s.vecEoi p false w
  else if a = irqaVecEoi1 then s.vecEoi p true w
  else if irqaRoute 0 ≤ a ∧ a ≤ irqaRoute 319 then s.reroute fun s => s.byCodes a w
  else if a = 0x4048 then s.approveAddrWrite p w
  else if a = protApproveCrc then s.approveCrcWrite p w
  else if protAcl 2 0 ≤ a ∧ a < protAcl 3 0 then s.err pgProt errRoWrite
  else if a = fltInjGo then s.injGo w
  else if a = fltFaultn then s.faultnWrite w
  else s.byCodes (s.busKey p a) w

/-- What an accepted write does to a register other than CTRL, HANDOVER, ACCEPT and the two-party registers. -/
def State.busAct (s : State) (p : Principal) (a : Nat) (w : Word) : State :=
  match blkOf (a / 0x1000) with
  | none => s
  | some (b, n, sub) =>
    let page := a / 0x1000
    if sub = 0 ∧ a % 0x1000 < 0x40 then
      if a = hdrIrqSet page then s.irqSetWrite page w
      else if a = hdrErrClr page then s.errClear page w
      else s.byCodes a w
    else match b with
      | .dev | .clk | .rst | .insole | .prot | .irqa | .flt => s.actControl p a w
      | .mac | .lane | .swc | .fdb | .strm | .swq => s.actSwitch p b n a w
      | .tb | .htb | .view | .evt => s.actTime p b n a w
      | .tread => s.actTread a w
      | .ptpa | .pe | .hostb => s.byCodes (s.busKey p a) w
      | .bank => s.actBank (s.busKey p a) w
      | .fab | .ddu | .shank | .shch => s.actEngine p b sub a w
      | .welt | .pat | .eye | .eyep | .wcap => s.actStreams p b n sub a w
      | .lace | .pcie | .sup | .flash => s.actHost p b a w

/-! ## A write by a principal -/

/-- Writes a lost supervisor bars beside those of retained fields (R534). -/
def barredLost (a : Nat) : Bool :=
  a == patApply 0 || a == patApply 1 || ((List.range 16).any fun n => a == eyeRowCommit n)

/-- A register write of a principal (R40, R46, R61). -/
def State.busWrite (s : State) (p : Principal) (a : Nat) (v : Word) : State :=
  if a = bankHandover then s.handover p (bitsOf v 0 8) (bitsOf v 8 8)
  else if a = bankAccept then s.accept p (bitsOf v 0 8)
  else if isRws a then s.propose p a v
  else if a % 0x1000 = 8 ∧ headerPages.contains (a / 0x1000) then s.ctrlBy p (a / 0x1000) v
  else if barredLost a then s.accessLost p (s.busKey p a) v fun s w => s.busAct p a w
  else s.access p (s.busKey p a) v fun s w => s.busAct p a w

/-- The write is refused: its requester sees it fail (R317, R61, R97, R534). -/
def State.denies (s : State) (p : Principal) (a : Nat) (v : Word) : Bool :=
  if !s.reaches p || a == bankHandover || a == bankAccept then false
  else match regRow a with
    | none => (blkOf (a / 0x1000)).isSome && !s.mayWrite p (a / 0x1000)
    | some r =>
      let ret := r.ret &&& r.writable
      let lost := barredLost a || isRws a || (a % 0x1000 == 8 && headerPages.contains (a / 0x1000))
        || ((a == swcTblCmd || a == strmCmd) && v.getLsbD 0)
      !s.mayWrite p (a / 0x1000)
        || (s.retLocked p && ret != 0 && (r.writable &&& ~~~ret == 0 || v &&& ret != s.reg (s.busKey p a) &&& ret))
        || (s.supLost && lost)

/-! ## A read by a principal -/

/-- A read whose effect is more than the clearing of an RC field; none for a read of another kind. -/
def State.readEffect (s : State) (p : Principal) (a : Nat) : Option State :=
  let o := a % 0x1000
  match blkOf (a / 0x1000) with
  | some (.mac, n, _) =>
    if a = macTxtsHi n then some (s.txtsHiRead p n)
    else if 0x200 ≤ o ∧ o < 0x350 then
      some (if o % 8 = 0 then s.cntLoRead p n ((o - 0x200) / 8) else s.cntHiRead p n ((o - 0x200) / 8))
    else none
  | some (.strm, _, _) =>
    let i := s.get strmMcntSelMeter
    let m := s.meterOf i
    let v := s.shown p a
    if a = strmMcntGreen then some ((s.setMeter i { m with green := 0 }).answer p v)
    else if a = strmMcntYellow then some ((s.setMeter i { m with yellow := 0 }).answer p v)
    else if a = strmMcntRed then some ((s.setMeter i { m with red := 0 }).answer p v)
    else if a = strmMcntRedDrop then some ((s.setMeter i { m with redDrop := 0 }).answer p v)
    else none
  | some (.tb, _, _) => if a = tbFrcLo then some (s.frcLoRead p none) else none
  | some (.htb, n, _) => if a = htbNowNsLo n then some (s.frcLoRead p (some n)) else none
  | some (.evt, _, _) =>
    if 0x85400 ≤ a ∧ a % 64 = 0x38 then some (s.captureRead p ((a - 0x85400) / 64)) else none
  | some (.eye, n, _) =>
    if a = eyeStampHi n then
      some ((s.setEye n { s.eyeOf n with stamps := (s.eyeOf n).stamps.tail }).answer p (s.shown p a))
    else none
  | some (.wcap, _, _) =>
    if a = wcapIndexLo then
      some ((s.setReg (wcapIndexHi (pIdx p)) (w32 (s.wcap.nextFrame / 2 ^ 32))).answer p (w32 s.wcap.nextFrame))
    else none
  | some (.lace, _, _) =>
    if 0x600 ≤ o ∧ o < 0xE00 ∧ o % 16 = 8 then some (s.laceRxRead p ((o - 0x600) / 32) ((o - 0x600) / 16 % 2)) else none
  | _ => none

/-- A register read of a principal (R40, R41, R43): the data goes to `rdata`. -/
def State.busRead (s : State) (p : Principal) (a : Nat) : State :=
  if !s.reaches p then s
  else match regRow a with
    | none => (s.answer p 0).unmapped p a
    | some r =>
      let s := if a / 0x1000 = pgWcap then s.wDoorbell else s
      match s.readEffect p a with
      | some t => t
      | none =>
        let v := s.shown p a
        let k := s.busKey p a
        (if r.rc = 0 then s else s.setReg k (s.reg k &&& ~~~r.rc)).answer p v

/-- The word a read has put on the bus for a principal. -/
def State.readData (s : State) (p : Principal) : Word := s.rdata.rd 0 (pIdx p)

/-! ## Commands -/

/-- A write of 1, 2, 4 or 8 bytes (R40): a narrow one is ignored, a wide one is two in ascending order. -/
def State.regWrite (s : State) (p : Principal) (addr bytes : Nat) (v : Dword) : State :=
  let a := addr / 4 * 4
  if !s.reaches p then s
  else if bytes = 4 then s.busWrite p a (v.setWidth 32)
  else if bytes = 8 then (s.busWrite p a (v.setWidth 32)).busWrite p (a + 4) ((v >>> 32).setWidth 32)
  else
    match blkOf (a / 0x1000) with
    | none => s.unmapped p a
    | some _ =>
      let s := s.err (firstPage (a / 0x1000)) errWidth
      if (regRow a).isNone then s.unmapped p a else s

/-- Meaning of REGISTER_WRITE. -/
def execRegisterWrite (p : Principal) (addr : BitVec 24) (bytes : Nat) (v : Dword) (s : State) : Out :=
  .next (s.regWrite p addr.toNat bytes v)

/-- Meaning of UNMAPPED_ACCESS (R41): a read returns 0; it acts where no page map defines the address. -/
def execUnmappedAccess (p : Principal) (addr : BitVec 24) (s : State) : Out :=
  .next (if (regRow (addr.toNat / 4 * 4)).isNone then s.busRead p (addr.toNat / 4 * 4) else s)

/-- The data of a wide read's second word (R40): kept beside that of the first. -/
def State.answerHigh (s : State) (p : Principal) (w : Word) : State := { s with rdata := s.rdata.wr 0 (32 + pIdx p) w }

/-- A read of 1, 2, 4 or 8 bytes (R40): a narrow one returns the addressed bytes of the aligned word, a wide one is two in
ascending order. DEDUCED, assumption row 11. -/
def State.regReadNow (s : State) (p : Principal) (addr bytes : Nat) : State :=
  let a := addr / 4 * 4
  if !s.reaches p then s
  else
    let t := s.busRead p a
    let w := t.readData p
    if bytes = 4 then t
    else if bytes = 8 then
      let u := t.busRead p (a + 4)
      (u.answerHigh p (u.readData p)).answer p w
    else t.answer p (BitVec.ofNat 32 (bitsOf w (8 * (addr % 4)) (8 * bytes)))

/-- A read of a principal; the VIEW page holds one of a conversion result until the conversion completes (R196). -/
def State.regRead (s : State) (p : Principal) (addr bytes : Nat) : State :=
  let a := addr / 4 * 4
  if s.reaches p && (s.convHolds p a || (bytes == 8 && s.convHolds p (a + 4))) then
    { s with tb := { s.tb with held := s.tb.held ++ [⟨p, addr, bytes⟩] } }
  else s.regReadNow p addr bytes

/-- Meaning of VIEW_CONVERT_DONE (R196): the principal's reads of the result are answered. -/
def execViewConvertDone (p : Principal) (s : State) : Out :=
  .next <|
    let s := s.convDone p
    let mine (h : HeldRead) : Bool := decide (h.who = p)
    forEach (s.tb.held.filter mine) (fun s h => s.regReadNow p h.addr h.bytes)
      { s with tb := { s.tb with held := s.tb.held.filter fun h => !mine h } }

/-- Meaning of RC_READ (R43). -/
def execRcRead (p : Principal) (r : ReadAt) (s : State) : Out := .next (s.regRead p r.addr.toNat r.bytes)

end Sys2Proof.Machine
end

