-- ==== Sys2Proof/Machine/Far.lean ====
section
/-! DEFINITION. Far accesses of engines as they are performed (R315-R317, R320-R322), and the passing of time on an empty
queue. -/
namespace Sys2Proof.Machine

/-- Two far accesses of an engine keep their order: both reach registers (R42, R317), or both the same 16-byte word of a
bank (R322). -/
def keepOrder (regA : Bool) (a : Nat) (regB : Bool) (b : Nat) : Bool := regA == regB && (regA || a / 16 == b / 16)

/-- An earlier far access of the engine that a later one may not pass has still to be performed.
DEDUCED, assumption row 70. -/
def State.farBefore (s : State) (e seq : Nat) (isReg : Bool) (addr : Nat) : Bool :=
  ((s.peOf e).stq.any fun y => decide (y.seq < seq) && keepOrder isReg addr y.isReg y.addr)
    || (s.peOf e).far.any fun y => y.kind != 2 && decide (y.seq < seq) && keepOrder isReg addr (y.kind == 1) y.addr

/-- A far load still has to let earlier accesses be performed. -/
def State.loadBlocked (s : State) (e : Nat) (x : FarLoad) : Bool := s.farBefore e x.seq (x.kind == 1) x.addr

/-- A far store still has to let earlier accesses be performed. -/
def State.storeBlocked (s : State) (e : Nat) (x : FarStore) : Bool := s.farBefore e x.seq x.isReg x.addr

/-- The data of a far load from device space: a word zero-extended, or a quadword as four (R315). -/
def farWords (size : Nat) (l : List Byte) : List Word :=
  if size = 3 then (List.range 4).map fun i => w32 (leNat ((l.drop (4 * i)).take 4)) else [w32 (leNat l)]

/-- A far load ends with an error: zeros land, and FERR records it (R320). -/
def State.farLoadFails (s : State) (e : Nat) (x : FarLoad) (err : Nat) : State :=
  (s.ferrLoad e x.tag err x.addr).farDone e x (x.dst.map fun _ => 0)

/-- A far load is performed. -/
def State.farLoadGo (s : State) (e : Nat) (p : Principal) (x : FarLoad) : State :=
  if x.kind = 1 then
    let s := s.busRead p x.addr
    s.farDone e x [s.readData p]
  else if x.err ≠ 0 then s.farLoadFails e x x.err
  else
    let (l, bad, s) := s.eccRead (pCode p) x.addr (farBytes x.size)
    if bad then s.farLoadFails e x errEcc else s.farDone e x (farWords x.size l)

/-- Meaning of FAR_LOAD_ARRIVAL. -/
def execFarLoadArrival (e : EngIx) (tag : OctIx) (s : State) : Out :=
  .next <|
    match (s.peOf e.val).far.find? fun x => x.tag == tag.val && x.kind != 2 with
    | some x => if s.reaches (.pe e) && !s.loadBlocked e.val x && !(x.kind == 1 && s.convHolds (.pe e) x.addr) then s.farLoadGo e.val (.pe e) x else s
    | none => s

/-- A far store is performed: a refused one sets STORE_ERR (R321). DEDUCED, assumption row 71. -/
def State.farStoreGo (s : State) (e : Nat) (p : Principal) (x : FarStore) : State :=
  if x.isReg then
    let v := w32 (leNat x.data)
    let t := s.busWrite p x.addr v
    if s.denies p x.addr v then t.ferrStore e errDenied x.addr else t
  else if x.err ≠ 0 then s.ferrStore e x.err x.addr
  else s.writeB (pCode p) x.addr x.data

/-- Meaning of FAR_STORE_PERFORMED: the store at the head of the queue. -/
def execFarStorePerformed (e : EngIx) (s : State) : Out :=
  .next <|
    match (s.peOf e.val).stq with
    | [] => s
    | x :: t =>
      if s.reaches (.pe e) && !s.storeBlocked e.val x then
        (s.setPe e.val { s.peOf e.val with stq := t }).farStoreGo e.val (.pe e) x
      else s

/-- One A cycle passes with no command waiting: ACLK counts and the windows of PROT run (R64). -/
def State.idle (s : State) : State :=
  if s.chip.powered && !s.chip.clockLost then { s with chip := { s.chip with aclk := s.chip.aclk + 1 } }.windowTick else s

end Sys2Proof.Machine
end

