-- ==== Sys2Proof/Machine/HostB.lean ====
section
/-! DEFINITION. Host B's framed access (R508-R510) and JTAG access to memories (R520). -/
namespace Sys2Proof.Machine

def hbCrcErr : Nat := 1
def hbBusy : Nat := 2
def hbAccessErr : Nat := 4
def hbBadCmd : Nat := 8

/-- Every word of a frame lies in the register space or in device space (R509). -/
def hbMapped (a n : Nat) : Bool := (List.range n).all fun i =>
  decide (a + 4 * i < 0x1000000) || decide (0x10000000 ≤ a + 4 * i ∧ a + 4 * i < 0x20000000)

/-- A word of a write frame: whether it failed, and the state after (R510). -/
def State.hbWriteWord (s : State) (a : Nat) (w : Word) : Bool × State :=
  if a < 0x1000000 then (s.denies .hb a w, s.busWrite .hb a w)
  else
    let (e, s) := s.portBWrite .hb a (leBytes 4 w.toNat)
    (e != 0, s)

/-- The words of a write frame from number `i` on: the numbers of those that failed. DEDUCED, assumption row 139. -/
def State.hbWrite (s : State) (a i : Nat) : List Word → List Nat × State
  | [] => ([], s)
  | w :: t =>
    let (bad, s) := s.hbWriteWord (a + 4 * i) w
    let (l, s) := s.hbWrite a (i + 1) t
    (if bad then i :: l else l, s)

/-- A word of a read frame: none where it failed. -/
def State.hbReadWord (s : State) (a : Nat) : Option Word × State :=
  if a < 0x1000000 then
    let s := s.busRead .hb a
    (some (s.readData .hb), s)
  else
    let (e, l, s) := s.portBRead .hb a 4
    (if e = 0 then some (w32 (leNat l)) else none, s)

/-- The words of a read frame. -/
def State.hbRead (s : State) (a : Nat) : Nat → List (Option Word) × State
  | 0 => ([], s)
  | n + 1 =>
    let (w, s) := s.hbReadWord a
    let (l, s) := s.hbRead (a + 4) n
    (w :: l, s)

/-- A word that the frame reads is held by its page (R196), so that its data is not there. -/
def State.hbHeld (s : State) (a n : Nat) : Bool := (List.range n).any fun i => s.convHolds .hb (a + 4 * i)

/-- The answer to a READ or FETCH: STATUS, the words, each least significant byte first, and their CRC-16 (R509). -/
def State.hbSend (s : State) (status : Nat) (words : List Word) : State :=
  s.emit (.hostB status words
    (some (BitVec.ofNat 16 (crc16 (BitVec.ofNat 8 status :: words.flatMap fun w => leBytes 4 w.toNat)))))

/-- The answer to a WRITE or an unknown command: STATUS (R509). -/
def State.hbSay (s : State) (status : Nat) : State := s.emit (.hostB status [] none)

/-- A read is performed and answered. -/
def State.hbAnswer (s : State) (a n : Nat) : State :=
  let (l, s) := s.hbRead a n
  let bad := l.any Option.isNone
  let s := s.hbSend (if bad then hbAccessErr else 0) (l.map fun w => w.getD 0)
  if bad then s.irq' pgHostb 2 else s

/-- A pending read is performed before the frame that replaces it; its data is dropped. -/
def State.hbFlush (s : State) : State :=
  match s.host.hbRead with
  | none => s
  | some (a, n) => { (s.hbRead a n).2 with host := { s.host with hbRead := none } }

/-- Host B's frames are taken (R523), and one more is counted. -/
def State.hbTaken (s : State) : Bool := s.reaches .hb && s.on pgHostb
def State.hbFrame (s : State) : State := s.count hostbFrames

/-- A frame whose CRC is wrong: nothing is performed. -/
def State.hbBadCrc (s : State) : State := (s.count hostbCrcErrors).irq' pgHostb 1

/-- LAST_STATUS after a write frame. -/
def State.hbLast (s : State) (status word : Nat) : State :=
  (s.put hostbLastStatusStatus status).put hostbLastStatusWord word

/-- CRC-16 over the bytes of a request frame ahead of it (R65, R509). -/
def hbCrc (l : List Byte) : Half := BitVec.ofNat 16 (crc16 l)

/-- An address as a frame sends it, most significant byte first. -/
def addrBytes (a : Word) : List Byte := (leBytes 4 a.toNat).reverse

/-- Meaning of WRITE. -/
def execWrite (addr : Word) (words : List Word) (crc : Half) (s : State) : Out :=
  .next <|
    let a := addr.toNat / 4 * 4
    let sent : List Byte := 0x02 :: addrBytes addr ++ [BitVec.ofNat 8 (words.length - 1)] ++ words.flatMap fun w => leBytes 4 w.toNat
    if !s.hbTaken then s
    else
      let s := s.hbFrame
      if crc ≠ hbCrc sent then (s.hbBadCrc.hbSay hbCrcErr).hbLast hbCrcErr 0
      else if !hbMapped a words.length then (s.hbSay hbBadCmd).hbLast hbBadCmd 0
      else
        let s := s.hbFlush.hbSay 0
        let (bad, s) := s.hbWrite a 0 words
        match bad with
        | [] => s.hbLast 0 0
        | i :: _ => (s.hbLast hbAccessErr i).irq' pgHostb 2

/-- Meaning of READ: `ready` says that the data is there when the DUMMY clocks have passed. -/
def execRead (addr : Word) (n : Nat) (crc : Half) (ready : Bool) (s : State) : Out :=
  .next <|
    let a := addr.toNat / 4 * 4
    if !s.hbTaken then s
    else
      let s := s.hbFrame
      if crc ≠ hbCrc (0x0B :: addrBytes addr ++ [BitVec.ofNat 8 (n - 1)]) then s.hbBadCrc.hbSend hbCrcErr (List.replicate n 0)
      else if !hbMapped a n then s.hbSend hbBadCmd (List.replicate n 0)
      else
        let s := s.hbFlush
        if ready && !s.hbHeld a n then s.hbAnswer a n
        else { s with host := { s.host with hbRead := some (a, n) } }.hbSend hbBusy (List.replicate n 0)

/-- Meaning of FETCH: with no read pending the spec states no answer. -/
def execFetch (crc : Half) (ready : Bool) (s : State) : Out :=
  .next <|
    if !s.hbTaken then s
    else
      let s := s.hbFrame
      if crc ≠ hbCrc [0x0C] then s.hbBadCrc.hbSend hbCrcErr []
      else match s.host.hbRead with
        | none =>
          let (w, s) := s.draw 8
          s.hbSend (w.toNat % 16) []
        | some (a, n) =>
          if ready && !s.hbHeld a n then { s with host := { s.host with hbRead := none } }.hbAnswer a n
          else s.hbSend hbBusy (List.replicate n 0)

/-- Meaning of HOSTB_ABORT. -/
def execHostbAbort (s : State) : Out := .next (if s.hbTaken then s.count hostbAborted else s)

/-- Meaning of BAD_CMD_FRAME: it acts on a command byte or an address that R509 does not allow.
DEDUCED, assumption row 140. -/
def execBadCmdFrame (command : Byte) (frame : HbBytes) (s : State) : Out :=
  .next <|
    let known := command == 0x02 || command == 0x0B || command == 0x0C
    let a := leNat (frame.bytes.take 4).reverse
    let n := (frame.bytes.getD 4 0).toNat + 1
    if !s.hbTaken || (known && (command == 0x0C || hbMapped (a / 4 * 4) n)) then s
    else
      let s := s.hbFrame
      if frame.crc ≠ hbCrc (command :: frame.bytes) then
        let s := s.hbBadCrc
        if command = 0x02 then (s.hbSay hbCrcErr).hbLast hbCrcErr 0
        else if known then s.hbSend hbCrcErr (List.replicate n 0)
        else s.hbSay hbCrcErr
      else if command = 0x02 then (s.hbSay hbBadCmd).hbLast hbBadCmd 0
      else if known then s.hbSend hbBadCmd (List.replicate n 0)
      else s.hbSay hbBadCmd

/-! ## JTAG (R520) -/

/-- Offsets of an Eyelet engine's rows in its page: the memory JTAG reaches (Table 13-9). -/
def inRows (o n : Nat) : Bool := decide (0x400 ≤ o ∧ o + n ≤ 0x800)

/-- Bytes of an Eyelet engine's rows. -/
def State.rowBytes (s : State) (n o k : Nat) : List Byte :=
  (List.range k).map fun i =>
    let a := (o + i) / 4 * 4
    BitVec.ofNat 8 ((s.shown .sup (0xD0000 + 0x1000 * n + a)).toNat / 256 ^ ((o + i) % 4))

/-- Writes one byte of an Eyelet engine's rows as SUP. -/
def State.rowByte (s : State) (n o : Nat) (b : Byte) : State :=
  let a := 0xD0000 + 0x1000 * n + o / 4 * 4
  s.busWrite .sup a (withBits (s.shown .sup a) (8 * (o % 4)) 8 b.toNat)

/-- A byte of the supervisor core's memory, a free value where nothing has shown it. A halted core's byte stays as read. -/
def State.supByte (s : State) (a : Nat) : Byte × State :=
  match s.sup.mem.rd none a with
  | some b => (b, s)
  | none =>
    let (w, s) := s.draw 9
    let b : Byte := w.setWidth 8
    (b, if s.sup.jtagHalt then { s with sup := { s.sup with mem := s.sup.mem.wr none a (some b) } } else s)

/-- `n` bytes of it from an address up. -/
def State.supBytes (s : State) (a : Nat) : Nat → List Byte × State
  | 0 => ([], s)
  | n + 1 =>
    let (b, s) := s.supByte a
    let (l, s) := s.supBytes (a + 1) n
    (b :: l, s)

/-- Bytes written to it; a core that runs may overwrite them at once. -/
def State.supWrite (s : State) (a : Nat) (l : List Byte) : State :=
  if s.sup.jtagHalt then
    { s with sup := { s.sup with mem := ((List.range l.length).zip l).foldl (fun m x => m.wr none (a + x.1) (some x.2)) s.sup.mem } }
  else s

/-- Meaning of JTAG_MEMORY: IDCODE is read whatever DEBUG says; an engine's memory by the offsets of Table 2-13, an Eyelet engine's rows by their page
offsets. DEDUCED, assumption row 137. The supervisor core's memory has 2^32 bytes whose contents the spec does not state.
DESIGN CHOICE, assumption row 138. -/
def execJtagMemory (t : JtagTarget) (addr : Word) (len : Nat) (write : Option (List Byte)) (s : State) : Out :=
  if t = .idcode then .next (if s.chip.powered && write.isNone then s.emit (.jtag ((leBytes 4 Config.idcode.toNat).take len)) else s)
  else if !s.debugOn then .next s
  else match t with
    | .idcode => .next s
    | .supervisor =>
      match write with
      | none => let (l, s) := s.supBytes addr.toNat len; .next (s.emit (.jtag l))
      | some l => .next (s.supWrite addr.toNat l)
    | .engine n =>
      let a := engBase n.val + addr.toNat
      if 0x20000 < addr.toNat + len then .next (s.emit (.jtag []))
      else match write with
        | none =>
          let (_, l, s) := s.portBRead .sup a len
          .next (s.emit (.jtag l))
        | some l => .next (s.portBWrite .sup a l).2
    | .eyelet n =>
      if !inRows addr.toNat len then .next (s.emit (.jtag []))
      else match write with
        | none => .next (s.emit (.jtag (s.rowBytes n.val addr.toNat len)))
        | some l => .next (forEach (l.zip (List.range l.length)) (fun s x => s.rowByte n.val (addr.toNat + x.2) x.1) s)

end Sys2Proof.Machine
end

