-- ==== Sys2Proof/Machine/Dispatch.lean ====
section
/-! DEFINITION. The dispatch: one arm per command, each one direct call of its meaning. -/
namespace Sys2Proof.Machine

def exec (i : Instr) (s : State) : Host.Outcome State Fault Refusal :=
  match i with
  | .powerOnReset porPin revert refclk => Sys2Proof.Machine.execPowerOnReset porPin revert refclk s
  | .refclkLost => Sys2Proof.Machine.execRefclkLost s
  | .refclkPresent => Sys2Proof.Machine.execRefclkPresent s
  | .deviceReset p v => Sys2Proof.Machine.execDeviceReset p v s
  | .hostALinkReset => Sys2Proof.Machine.execHostALinkReset s
  | .perstNRelease => Sys2Proof.Machine.execPerstNRelease s
  | .pcieHotReset => Sys2Proof.Machine.execPcieHotReset s
  | .powerFail inOrder => Sys2Proof.Machine.execPowerFail inOrder s
  | .bootStepComplete r => Sys2Proof.Machine.execBootStepComplete r s
  | .enWrite p page v => Sys2Proof.Machine.execEnWrite p page v s
  | .softReset p page v => Sys2Proof.Machine.execSoftReset p page v s
  | .firstConsistentPoint page r => Sys2Proof.Machine.execFirstConsistentPoint page r s
  | .stopComplete page => Sys2Proof.Machine.execStopComplete page s
  | .startTimeout page => Sys2Proof.Machine.execStartTimeout page s
  | .stopTimeout page => Sys2Proof.Machine.execStopTimeout page s
  | .registerWrite p addr bytes v => Sys2Proof.Machine.execRegisterWrite p addr bytes v s
  | .unmappedAccess p addr => Sys2Proof.Machine.execUnmappedAccess p addr s
  | .rcRead p addr => Sys2Proof.Machine.execRcRead p addr s
  | .errClr p page v => Sys2Proof.Machine.execErrClr p page v s
  | .irqSet p page v => Sys2Proof.Machine.execIrqSet p page v s
  | .msixMessage src => Sys2Proof.Machine.execMsixMessage src s
  | .vecEoi p high v => Sys2Proof.Machine.execVecEoi p high v s
  | .proposal p addr v => Sys2Proof.Machine.execProposal p addr v s
  | .approveAddr p v => Sys2Proof.Machine.execApproveAddr p v s
  | .approveCrc p v => Sys2Proof.Machine.execApproveCrc p v s
  | .approvalEvaluation => Sys2Proof.Machine.execApprovalEvaluation s
  | .windowExpiry j => Sys2Proof.Machine.execWindowExpiry j s
  | .commit p v => Sys2Proof.Machine.execCommit p v s
  | .commitComplete verified => Sys2Proof.Machine.execCommitComplete verified s
  | .revert p v => Sys2Proof.Machine.execRevert p v s
  | .revertComplete verified => Sys2Proof.Machine.execRevertComplete verified s
  | .laneModeWrite p n v => Sys2Proof.Machine.execLaneModeWrite p n v s
  | .laneAligned n => Sys2Proof.Machine.execLaneAligned n s
  | .linkUp n => Sys2Proof.Machine.execLinkUp n s
  | .linkDown n => Sys2Proof.Machine.execLinkDown n s
  | .sgmiiControlWord n link speed fullDuplex => Sys2Proof.Machine.execSgmiiControlWord n link speed fullDuplex s
  | .autonegComplete n fullDuplex pause => Sys2Proof.Machine.execAutonegComplete n fullDuplex pause s
  | .remoteFault n present => Sys2Proof.Machine.execRemoteFault n present s
  | .rxFrameEnd n f => Sys2Proof.Machine.execRxFrameEnd n f s
  | .pauseFrame n f => Sys2Proof.Machine.execPauseFrame n f s
  | .pauseExpiry n => Sys2Proof.Machine.execPauseExpiry n s
  | .txSelect n t => Sys2Proof.Machine.execTxSelect n t s
  | .launchInstant n q => Sys2Proof.Machine.execLaunchInstant n q s
  | .txFrameEnd n byteTimes waited x => Sys2Proof.Machine.execTxFrameEnd n byteTimes waited x s
  | .txtsHiRead p n => Sys2Proof.Machine.execTxtsHiRead p n s
  | .cntLoRead p n j => Sys2Proof.Machine.execCntLoRead p n j s
  | .cntHiRead p n j => Sys2Proof.Machine.execCntHiRead p n j s
  | .statSnap p n v => Sys2Proof.Machine.execStatSnap p n v s
  | .mdioRead p n => Sys2Proof.Machine.execMdioRead p n s
  | .mdioWrite p n => Sys2Proof.Machine.execMdioWrite p n s
  | .mdioReadInc p n => Sys2Proof.Machine.execMdioReadInc p n s
  | .mdioDone bus1 answered data => Sys2Proof.Machine.execMdioDone bus1 answered data s
  | .phyProbe n aCycles => Sys2Proof.Machine.execPhyProbe n aCycles s
  | .frameLookup src hdr bytes => Sys2Proof.Machine.execFrameLookup src hdr bytes s
  | .frameCommit src sCycles => Sys2Proof.Machine.execFrameCommit src sCycles s
  | .learn => Sys2Proof.Machine.execLearn s
  | .fdbAgeSweep => Sys2Proof.Machine.execFdbAgeSweep s
  | .fdbInsert p => Sys2Proof.Machine.execFdbInsert p s
  | .fdbDelete p => Sys2Proof.Machine.execFdbDelete p s
  | .fdbSearch p => Sys2Proof.Machine.execFdbSearch p s
  | .fdbFlush p flushBy => Sys2Proof.Machine.execFdbFlush p flushBy s
  | .fdbRead p => Sys2Proof.Machine.execFdbRead p s
  | .fdbCmdDone => Sys2Proof.Machine.execFdbCmdDone s
  | .swcTblRead p => Sys2Proof.Machine.execSwcTblRead p s
  | .swcTblWrite p => Sys2Proof.Machine.execSwcTblWrite p s
  | .strmRead p => Sys2Proof.Machine.execStrmRead p s
  | .strmWrite p => Sys2Proof.Machine.execStrmWrite p s
  | .meterRefill => Sys2Proof.Machine.execMeterRefill s
  | .genBarrierArm p v => Sys2Proof.Machine.execGenBarrierArm p v s
  | .eventFire n => Sys2Proof.Machine.execEventFire n s
  | .eventPulseEnd n => Sys2Proof.Machine.execEventPulseEnd n s
  | .evArm p n => Sys2Proof.Machine.execEvArm p n s
  | .evDisarm p n => Sys2Proof.Machine.execEvDisarm p n s
  | .evAlignDone n => Sys2Proof.Machine.execEvAlignDone n s
  | .evWaitRelease n => Sys2Proof.Machine.execEvWaitRelease n s
  | .leapChange => Sys2Proof.Machine.execLeapChange s
  | .viewArm p n v => Sys2Proof.Machine.execViewArm p n v s
  | .viewSwitch n => Sys2Proof.Machine.execViewSwitch n s
  | .viewTrackLoad n => Sys2Proof.Machine.execViewTrackLoad n s
  | .viewConvert p v => Sys2Proof.Machine.execViewConvert p v s
  | .viewConvertDone p => Sys2Proof.Machine.execViewConvertDone p s
  | .viewAged n => Sys2Proof.Machine.execViewAged n s
  | .frcLoRead p htb => Sys2Proof.Machine.execFrcLoRead p htb s
  | .captureEdge n rising fine => Sys2Proof.Machine.execCaptureEdge n rising fine s
  | .captureSw p n => Sys2Proof.Machine.execCaptureSw p n s
  | .captureRead p n => Sys2Proof.Machine.execCaptureRead p n s
  | .ocxValueWrite p v => Sys2Proof.Machine.execOcxValueWrite p v s
  | .ocxFrame => Sys2Proof.Machine.execOcxFrame s
  | .treadSample g v => Sys2Proof.Machine.execTreadSample g v s
  | .servoOutput g v => Sys2Proof.Machine.execServoOutput g v s
  | .treadRun p g => Sys2Proof.Machine.execTreadRun p g s
  | .stopTable p g => Sys2Proof.Machine.execStopTable p g s
  | .segmentEnd g => Sys2Proof.Machine.execSegmentEnd g s
  | .reacquire p g => Sys2Proof.Machine.execReacquire p g s
  | .accClr p g => Sys2Proof.Machine.execAccClr p g s
  | .treadSrcWrite p g v => Sys2Proof.Machine.execTreadSrcWrite p g v s
  | .refValidWrite p g v => Sys2Proof.Machine.execRefValidWrite p g v s
  | .refQualified g => Sys2Proof.Machine.execRefQualified g s
  | .refLost g => Sys2Proof.Machine.execRefLost g s
  | .sampleTimeout g => Sys2Proof.Machine.execSampleTimeout g s
  | .chatterWindowEnd g => Sys2Proof.Machine.execChatterWindowEnd g s
  | .seekOfsWrite p g v => Sys2Proof.Machine.execSeekOfsWrite p g v s
  | .followActiveWrite p v => Sys2Proof.Machine.execFollowActiveWrite p v s
  | .autoSwitch => Sys2Proof.Machine.execAutoSwitch s
  | .bindWrite p e v => Sys2Proof.Machine.execBindWrite p e v s
  | .laneCfgWrite p k v => Sys2Proof.Machine.execLaneCfgWrite p k v s
  | .spareMaskWrite p v => Sys2Proof.Machine.execSpareMaskWrite p v s
  | .warmPreload e => Sys2Proof.Machine.execWarmPreload e s
  | .laneFrame k starts f => Sys2Proof.Machine.execLaneFrame k starts f s
  | .laneUnderrun k => Sys2Proof.Machine.execLaneUnderrun k s
  | .holdBufferCut c => Sys2Proof.Machine.execHoldBufferCut c s
  | .laneEndStatus k f => Sys2Proof.Machine.execLaneEndStatus k f s
  | .skipComplete e pair => Sys2Proof.Machine.execSkipComplete e pair s
  | .dduAnswer => Sys2Proof.Machine.execDduAnswer s
  | .dduForget j => Sys2Proof.Machine.execDduForget j s
  | .dduFlush p v => Sys2Proof.Machine.execDduFlush p v s
  | .dduFlushDone => Sys2Proof.Machine.execDduFlushDone s
  | .ckptDone e => Sys2Proof.Machine.execCkptDone e s
  | .watchdogExpiry e d => Sys2Proof.Machine.execWatchdogExpiry e d s
  | .lockstepMismatch e sp => Sys2Proof.Machine.execLockstepMismatch e sp s
  | .takeoverComplete e ns => Sys2Proof.Machine.execTakeoverComplete e ns s
  | .farLoadArrival e tag => Sys2Proof.Machine.execFarLoadArrival e tag s
  | .farStorePerformed e => Sys2Proof.Machine.execFarStorePerformed e s
  | .nop e d => Sys2Proof.Machine.execNop e d s
  | .halt e d => Sys2Proof.Machine.execHalt e d s
  | .sync e d => Sys2Proof.Machine.execSync e d s
  | .trap e d c => Sys2Proof.Machine.execTrap e d c s
  | .ckpt e d => Sys2Proof.Machine.execCkpt e d s
  | .waitf e d mask => Sys2Proof.Machine.execWaitf e d mask s
  | .ret e d => Sys2Proof.Machine.execRet e d s
  | .lpop e d => Sys2Proof.Machine.execLpop e d s
  | .mfs e d rd n => Sys2Proof.Machine.execMfs e d rd n s
  | .mts e d n ra => Sys2Proof.Machine.execMts e d n ra s
  | .tsr e d rd => Sys2Proof.Machine.execTsr e d rd s
  | .add e d rd ra rb => Sys2Proof.Machine.execAdd e d rd ra rb s
  | .sub e d rd ra rb => Sys2Proof.Machine.execSub e d rd ra rb s
  | .and e d rd ra rb => Sys2Proof.Machine.execAnd e d rd ra rb s
  | .or e d rd ra rb => Sys2Proof.Machine.execOr e d rd ra rb s
  | .xor e d rd ra rb => Sys2Proof.Machine.execXor e d rd ra rb s
  | .nor e d rd ra rb => Sys2Proof.Machine.execNor e d rd ra rb s
  | .slt e d rd ra rb => Sys2Proof.Machine.execSlt e d rd ra rb s
  | .sltu e d rd ra rb => Sys2Proof.Machine.execSltu e d rd ra rb s
  | .shl e d rd ra rb => Sys2Proof.Machine.execShl e d rd ra rb s
  | .shr e d rd ra rb => Sys2Proof.Machine.execShr e d rd ra rb s
  | .sar e d rd ra rb => Sys2Proof.Machine.execSar e d rd ra rb s
  | .shli e d rd ra sh => Sys2Proof.Machine.execShli e d rd ra sh s
  | .shri e d rd ra sh => Sys2Proof.Machine.execShri e d rd ra sh s
  | .sari e d rd ra sh => Sys2Proof.Machine.execSari e d rd ra sh s
  | .min e d rd ra rb => Sys2Proof.Machine.execMin e d rd ra rb s
  | .max e d rd ra rb => Sys2Proof.Machine.execMax e d rd ra rb s
  | .mul e d rd ra rb => Sys2Proof.Machine.execMul e d rd ra rb s
  | .mulh e d rd ra rb => Sys2Proof.Machine.execMulh e d rd ra rb s
  | .mulhu e d rd ra rb => Sys2Proof.Machine.execMulhu e d rd ra rb s
  | .ext e d rd ra pos len1 => Sys2Proof.Machine.execExt e d rd ra pos len1 s
  | .exts e d rd ra pos len1 => Sys2Proof.Machine.execExts e d rd ra pos len1 s
  | .ins e d rd ra pos len1 => Sys2Proof.Machine.execIns e d rd ra pos len1 s
  | .clz e d rd ra => Sys2Proof.Machine.execClz e d rd ra s
  | .popc e d rd ra => Sys2Proof.Machine.execPopc e d rd ra s
  | .bswap e d rd ra => Sys2Proof.Machine.execBswap e d rd ra s
  | .bswaph e d rd ra => Sys2Proof.Machine.execBswaph e d rd ra s
  | .crc e d rd ra n poly => Sys2Proof.Machine.execCrc e d rd ra n poly s
  | .hash e d rd ra rb => Sys2Proof.Machine.execHash e d rd ra rb s
  | .cams e d rd ra rb => Sys2Proof.Machine.execCams e d rd ra rb s
  | .camw e d ra rb => Sys2Proof.Machine.execCamw e d ra rb s
  | .camr e d ra rb => Sys2Proof.Machine.execCamr e d ra rb s
  | .ddq e d rd ra rb tag path => Sys2Proof.Machine.execDdq e d rd ra rb tag path s
  | .addi e d rd ra imm => Sys2Proof.Machine.execAddi e d rd ra imm s
  | .andi e d rd ra imm => Sys2Proof.Machine.execAndi e d rd ra imm s
  | .ori e d rd ra imm => Sys2Proof.Machine.execOri e d rd ra imm s
  | .xori e d rd ra imm => Sys2Proof.Machine.execXori e d rd ra imm s
  | .lui e d rd imm => Sys2Proof.Machine.execLui e d rd imm s
  | .slti e d rd ra imm => Sys2Proof.Machine.execSlti e d rd ra imm s
  | .sltiu e d rd ra imm => Sys2Proof.Machine.execSltiu e d rd ra imm s
  | .ldb e d rd ra imm => Sys2Proof.Machine.execLdb e d rd ra imm s
  | .ldbs e d rd ra imm => Sys2Proof.Machine.execLdbs e d rd ra imm s
  | .ldh e d rd ra imm => Sys2Proof.Machine.execLdh e d rd ra imm s
  | .ldhs e d rd ra imm => Sys2Proof.Machine.execLdhs e d rd ra imm s
  | .ld e d rd ra imm => Sys2Proof.Machine.execLd e d rd ra imm s
  | .stb e d rs ra imm => Sys2Proof.Machine.execStb e d rs ra imm s
  | .sth e d rs ra imm => Sys2Proof.Machine.execSth e d rs ra imm s
  | .st e d rs ra imm => Sys2Proof.Machine.execSt e d rs ra imm s
  | .ldd e d rd imm => Sys2Proof.Machine.execLdd e d rd imm s
  | .std e d rs imm => Sys2Proof.Machine.execStd e d rs imm s
  | .fld e d rd ra tag size off => Sys2Proof.Machine.execFld e d rd ra tag size off s
  | .fst e d rs ra tag size off => Sys2Proof.Machine.execFst e d rs ra tag size off s
  | .rld e d rd ra tag size off => Sys2Proof.Machine.execRld e d rd ra tag size off s
  | .rst e d rs ra tag size off => Sys2Proof.Machine.execRst e d rs ra tag size off s
  | .bCond e d ra rb cond target => Sys2Proof.Machine.execBCond e d ra rb cond target s
  | .call e d target => Sys2Proof.Machine.execCall e d target s
  | .jr e d ra => Sys2Proof.Machine.execJr e d ra s
  | .loop e d len count => Sys2Proof.Machine.execLoop e d len count s
  | .loopr e d len ra => Sys2Proof.Machine.execLoopr e d len ra s
  | .lpost e d rd ra m side last => Sys2Proof.Machine.execLpost e d rd ra m side last s
  | .lread e d rd m side => Sys2Proof.Machine.execLread e d rd m side s
  | .dbr e d ra db => Sys2Proof.Machine.execDbr e d ra db s
  | .srd e d r pair be n => Sys2Proof.Machine.execSrd e d r pair be n s
  | .speek e d r pair be n => Sys2Proof.Machine.execSpeek e d r pair be n s
  | .swr e d r pair be n endMark kill => Sys2Proof.Machine.execSwr e d r pair be n endMark kill s
  | .sins e d r pair be n endMark kill => Sys2Proof.Machine.execSins e d r pair be n endMark kill s
  | .sdel e d ra pair rn n endMark kill => Sys2Proof.Machine.execSdel e d ra pair rn n endMark kill s
  | .sskip e d ra pair rn n endMark kill => Sys2Proof.Machine.execSskip e d ra pair rn n endMark kill s
  | .seof e d r pair => Sys2Proof.Machine.execSeof e d r pair s
  | .snxt e d pair => Sys2Proof.Machine.execSnxt e d pair s
  | .shankPost p c t v => Sys2Proof.Machine.execShankPost p c t v s
  | .postEntry => Sys2Proof.Machine.execPostEntry s
  | .shankTrigWrite p high v => Sys2Proof.Machine.execShankTrigWrite p high v s
  | .channelTrigger c => Sys2Proof.Machine.execChannelTrigger c s
  | .jobDispatch => Sys2Proof.Machine.execJobDispatch s
  | .jobEnd r => Sys2Proof.Machine.execJobEnd r s
  | .shankOutput => Sys2Proof.Machine.execShankOutput s
  | .laneTest p v => Sys2Proof.Machine.execLaneTest p v s
  | .laneSelftestDone lane passed => Sys2Proof.Machine.execLaneSelftestDone lane passed s
  | .setWrite p v => Sys2Proof.Machine.execSetWrite p v s
  | .groupCfgWrite p g v => Sys2Proof.Machine.execGroupCfgWrite p g v s
  | .cycleEnd n => Sys2Proof.Machine.execCycleEnd n s
  | .patApply p n v => Sys2Proof.Machine.execPatApply p n v s
  | .weltFrameRx n f => Sys2Proof.Machine.execWeltFrameRx n f s
  | .windowClose n chanB entry => Sys2Proof.Machine.execWindowClose n chanB entry s
  | .txLatch n chanB entry => Sys2Proof.Machine.execTxLatch n chanB entry s
  | .weltTx n chanB entry => Sys2Proof.Machine.execWeltTx n chanB entry s
  | .publish p n v => Sys2Proof.Machine.execPublish p n v s
  | .listenTimeout n => Sys2Proof.Machine.execListenTimeout n s
  | .syncLoss n chanOnly => Sys2Proof.Machine.execSyncLoss n chanOnly s
  | .passiveHoldEnd n => Sys2Proof.Machine.execPassiveHoldEnd n s
  | .csHoldExpiry n chanB => Sys2Proof.Machine.execCsHoldExpiry n chanB s
  | .laneRealign n lane => Sys2Proof.Machine.execLaneRealign n lane s
  | .eyeletStep n pins => Sys2Proof.Machine.execEyeletStep n pins s
  | .none n => Sys2Proof.Machine.execNone n s
  | .sin n arg in0 pins => Sys2Proof.Machine.execSin n arg in0 pins s
  | .sout n arg => Sys2Proof.Machine.execSout n arg s
  | .flush n => Sys2Proof.Machine.execFlush n s
  | .load n => Sys2Proof.Machine.execLoad n s
  | .dec0 n => Sys2Proof.Machine.execDec0 n s
  | .dec1 n => Sys2Proof.Machine.execDec1 n s
  | .set0 n => Sys2Proof.Machine.execSet0 n s
  | .set1 n => Sys2Proof.Machine.execSet1 n s
  | .wait n arg => Sys2Proof.Machine.execWait n arg s
  | .irq n arg => Sys2Proof.Machine.execIrq n arg s
  | .stamp n arg => Sys2Proof.Machine.execStamp n arg s
  | .waitEnd n => Sys2Proof.Machine.execWaitEnd n s
  | .stallEnd n => Sys2Proof.Machine.execStallEnd n s
  | .rxhDeliver n => Sys2Proof.Machine.execRxhDeliver n s
  | .txhFill n => Sys2Proof.Machine.execTxhFill n s
  | .eventLatch n j => Sys2Proof.Machine.execEventLatch n j s
  | .circuitWrite p n v => Sys2Proof.Machine.execCircuitWrite p n v s
  | .rowCommit p n v => Sys2Proof.Machine.execRowCommit p n v s
  | .once p n v => Sys2Proof.Machine.execOnce p n v s
  | .runStop p n v => Sys2Proof.Machine.execRunStop p n v s
  | .runResume p n v => Sys2Proof.Machine.execRunResume p n v s
  | .eyepStart p mask => Sys2Proof.Machine.execEyepStart p mask s
  | .eyepStartRestart p mask => Sys2Proof.Machine.execEyepStartRestart p mask s
  | .bootSyncStart => Sys2Proof.Machine.execBootSyncStart s
  | .sampleFiring disarmed => Sys2Proof.Machine.execSampleFiring disarmed s
  | .wcapWord c => Sys2Proof.Machine.execWcapWord c s
  | .reportPost => Sys2Proof.Machine.execReportPost s
  | .trigSw p v => Sys2Proof.Machine.execTrigSw p v s
  | .release p v => Sys2Proof.Machine.execRelease p v s
  | .exportRec p v => Sys2Proof.Machine.execExportRec p v s
  | .exportDone => Sys2Proof.Machine.execExportDone s
  | .handoverPending p bank next => Sys2Proof.Machine.execHandoverPending p bank next s
  | .handoverBlock p bank next => Sys2Proof.Machine.execHandoverBlock p bank next s
  | .bankRelease p bank => Sys2Proof.Machine.execBankRelease p bank s
  | .handoverCancel p bank next => Sys2Proof.Machine.execHandoverCancel p bank next s
  | .accept p bank => Sys2Proof.Machine.execAccept p bank s
  | .scrubHoDone b => Sys2Proof.Machine.execScrubHoDone b s
  | .scrub => Sys2Proof.Machine.execScrub s
  | .ceWriteback granule => Sys2Proof.Machine.execCeWriteback granule s
  | .bankAccess p addr len write => Sys2Proof.Machine.execBankAccess p addr len write s
  | .retentionEntry b => Sys2Proof.Machine.execRetentionEntry b s
  | .retentionWake b => Sys2Proof.Machine.execRetentionWake b s
  | .tx p m dir w => Sys2Proof.Machine.execTx p m dir w s
  | .txlast p m dir w => Sys2Proof.Machine.execTxlast p m dir w s
  | .rx p m dir => Sys2Proof.Machine.execRx p m dir s
  | .mutualWait m => Sys2Proof.Machine.execMutualWait m s
  | .dbSet p d v => Sys2Proof.Machine.execDbSet p d v s
  | .dbClear p d v => Sys2Proof.Machine.execDbClear p d v s
  | .bar2Read off len => Sys2Proof.Machine.execBar2Read off len s
  | .bar2Write off bytes => Sys2Proof.Machine.execBar2Write off bytes s
  | .dmaTail p c v => Sys2Proof.Machine.execDmaTail p c v s
  | .dmaDescriptor c desc host hostErr => Sys2Proof.Machine.execDmaDescriptor c desc host hostErr s
  | .dmaDescriptorDone c => Sys2Proof.Machine.execDmaDescriptorDone c s
  | .write addr words crc => Sys2Proof.Machine.execWrite addr words crc s
  | .read addr n crc ready => Sys2Proof.Machine.execRead addr n crc ready s
  | .fetch crc ready => Sys2Proof.Machine.execFetch crc ready s
  | .hostbAbort => Sys2Proof.Machine.execHostbAbort s
  | .install p => Sys2Proof.Machine.execInstall p s
  | .remove p => Sys2Proof.Machine.execRemove p s
  | .svcFetch p flash => Sys2Proof.Machine.execSvcFetch p flash s
  | .compact p => Sys2Proof.Machine.execCompact p s
  | .svnAdvance p => Sys2Proof.Machine.execSvnAdvance p s
  | .eyeletApply p => Sys2Proof.Machine.execEyeletApply p s
  | .svcDone => Sys2Proof.Machine.execSvcDone s
  | .supWatchdog => Sys2Proof.Machine.execSupWatchdog s
  | .supRestartDone firmware => Sys2Proof.Machine.execSupRestartDone firmware s
  | .supLost reason => Sys2Proof.Machine.execSupLost reason s
  | .cmdGo p v => Sys2Proof.Machine.execCmdGo p v s
  | .flashCmdDone data => Sys2Proof.Machine.execFlashCmdDone data s
  | .jtagHalt t => Sys2Proof.Machine.execJtagHalt t s
  | .jtagStep t => Sys2Proof.Machine.execJtagStep t s
  | .jtagMemory t addr len write => Sys2Proof.Machine.execJtagMemory t addr len write s
  | .injGo p v => Sys2Proof.Machine.execInjGo p v s
  | .injectionAct => Sys2Proof.Machine.execInjectionAct s
  | .clear p v => Sys2Proof.Machine.execClear p v s
  | .faultnForce p v => Sys2Proof.Machine.execFaultnForce p v s
  | .htbTick => Sys2Proof.Machine.execHtbTick s
  | .pcieLinkUp speed width => Sys2Proof.Machine.execPcieLinkUp speed width s
  | .msiXEnable => Sys2Proof.Machine.execMsiXEnable s
  | .dmaEnWrite p c v => Sys2Proof.Machine.execDmaEnWrite p c v s
  | .fdbUnknownOp p op => Sys2Proof.Machine.execFdbUnknownOp p op s
  | .badCmdFrame command frame => Sys2Proof.Machine.execBadCmdFrame command frame s

end Sys2Proof.Machine
end

