-- ==== Sys2Proof/Safety.lean ====
section
/-! DEFINITION. What counts as a safe run, and the terms in which statements speak of a command's outcome and of a write
that nothing refuses. -/
namespace Sys2Proof.Machine

/-- The command completes, and its next state is as `P` says. -/
def Gives (o : Out) (P : State → Prop) : Prop := ∃ t, o = .next t ∧ P t

/-- A safe run: no command ends it. -/
def Safe : Nat → State → Prop
  | 0, _ => True
  | n + 1, s => Gives (step s) (Safe n)

/-- A principal's register write at an address meets no refusal: it reaches the device, the ACL permits it, the boot has
completed and the supervisor is not lost (R60, R61, R97, R534). -/
def State.letsIn (s : State) (p : Principal) (a : Nat) : Bool :=
  s.reaches p && s.mayWrite p (a / 0x1000) && s.booted && !s.supLost

/-- Every register outside a list of keys reads as before. -/
def RegsKept (s t : State) (l : List Nat) : Prop := ∀ k, k ∉ l → t.reg k = s.reg k

/-- Nothing but registers of a list changes. -/
def OnlyRegs (s t : State) (l : List Nat) : Prop := { t with regs := s.regs } = s ∧ RegsKept s t l

/-- Every register outside the blocks at the first pages `ps` and outside a list of keys reads as before. -/
def BlocksKept (s t : State) (ps l : List Nat) : Prop :=
  ∀ k, firstPage (keyAddr k / 0x1000) ∉ ps → k ∉ l → t.reg k = s.reg k

/-- Every byte of device memory reads as before. -/
def MemKept (s t : State) : Prop := ∀ a, t.byte a = s.byte a

/-- Every byte of device memory outside `n` bytes from `a` up reads as before. -/
def MemKeptBut (s t : State) (a n : Nat) : Prop := ∀ b, b < a ∨ a + n ≤ b → t.byte b = s.byte b

/-- Of Shank and the Eyelet engines nothing changes but the events on their way to them (R373, R432). -/
def TriggersOnly (s t : State) : Prop :=
  { t.shank with arriving := s.shank.arriving } = s.shank
    ∧ ∀ n, { t.eyeOf n with arriving := (s.eyeOf n).arriving } = s.eyeOf n

/-- Stored bytes, FDB and DDU entries and meters are listed in their one canonical form. -/
def State.tidy (s : State) : Bool :=
  Memory.wf s.mem && Sparse.wf (fun _ => none) s.swc.fdb && Sparse.wf (fun _ => none) s.fab.ddu
    && Sparse.wf (fun _ => {}) s.swc.meter

/-- A counter of a port as the 64-bit number its two words make (R133). -/
def State.cnt64 (s : State) (n i : Nat) : Nat := s.rn (macCntLo n i) + s.rn (macCntHi n i) * 2 ^ 32

/-- Of a port's counters exactly those of a list go up, each by the amounts listed for it, up to 2^64 - 1 (R133). -/
def Counted (s t : State) (n : Nat) (l : List (Nat × Nat)) : Prop :=
  ∀ i < 42, t.cnt64 n i = min (2 ^ 64 - 1) (s.cnt64 n i + ((l.filter fun x => x.1 == i).map (·.2)).sum)

/-! ## Engines -/

/-- The value a register field of an engine reads as with no result for it in flight: K0 reads 0 (R304). -/
def State.fieldVal (s : State) (e : Nat) (f : RegF) : Word :=
  if s.physOf e f = 0 then 0 else (s.peOf e).regs.rd 0 (s.physOf e f)

/-- No result for a register field is still in flight `d` E cycles from now (R305, R306, R312, R313). -/
def State.landed (s : State) (e d : Nat) (f : RegF) : Bool :=
  s.physOf e f == 0 || (s.peOf e).hazards.all fun h => h.reg != s.physOf e f || (h.tag.isNone && decide (h.left ≤ d))

/-- The place at which engine `e` stands holds the word of instruction `i`, whose gap is left out (R336). -/
def State.spells (s : State) (e : EngIx) (i : Instr) : Bool := s.encodes e (s.peOf e.val).ibank (s.peOf e.val).pc i

/-- Engine `e` can issue an instruction `d` E cycles after its last one, at a place in the resident memory or the overlay
window that is no delay slot, with no special register written by the issue
before (Table 9-3), no instruction waiting, and JTAG not stepping it. -/
def State.poised (s : State) (e d : Nat) : Bool :=
  let pe := s.peOf e
  s.issues e && decide (1 ≤ d) && decide (regionOf pe.pc ≠ 2) && pe.xfer.isNone
    && (pe.spHaz.isNone || decide (2 ≤ d)) && !pe.jtagHalt && pe.waiting.isNone

/-- Engine `e` is poised, its place is no loop end, and no far trap is due (R325, R329). -/
def State.steady (s : State) (e d : Nat) : Bool :=
  let pe := s.peOf e
  s.poised e d && (pe.loopAt pe.ibank pe.pc).isNone && !(pe.farPending && pe.farTrap)

/-- Engine `e` waits in an instruction, its gap left out: nothing of the device changes, and until the instruction can be
performed no other instruction of the engine issues (R302). -/
def State.waitsIn (s : State) (e : Nat) (i : Instr) : State := s.setPe e { s.peOf e with waiting := some i }

/-- Where engine `e` stands at the word of an instruction, given by its gap, the command that issues it after `d` E cycles
completes, and its next state is as `P` says (R336). -/
def Runs (s : State) (e : EngIx) (d : Nat) (i : Nat → Instr) (P : State → Prop) : Prop :=
  s.spells e (i 0) = true → Gives (exec (i d) s) P

/-- Where engine `e` stands at the word of an instruction, given by its gap, the command that issues it leaves the engine
waiting in it (R302). -/
def Waits (s : State) (e : EngIx) (d : Nat) (i : Nat → Instr) : Prop :=
  s.spells e (i 0) = true → exec (i d) s = .next (s.waitsIn e.val (i 0))

/-- Engine `e` has moved one instruction on, `d` E cycles later: PC is one on, CYCLE and the watchdog `d` on; apart from its
register file and the records of what was written when, all of its state and all of the device stand. -/
def EngineMoves (s t : State) (e d : Nat) : Prop :=
  let pe := s.peOf e
  let pt := t.peOf e
  t = s.setPe e { pe with
    pc := pe.pc + 1, cycle := pe.cycle + BitVec.ofNat 32 d, wdog := pe.wdog + d
    regs := pt.regs, hazards := pt.hazards, justW := pt.justW, spHaz := pt.spHaz, prevW := pt.prevW, spPrev := pt.spPrev }

/-- The writes of a list land, each in its register, the last one first; a write of K0 is discarded (R304). -/
def Wrote (s t : State) (e : Nat) (l : List (Nat × Word)) : Prop :=
  ∀ q, (t.peOf e).regs.rd 0 q = match l.find? (fun x => x.1 == q && x.1 != 0) with
    | some x => x.2
    | none => (s.peOf e).regs.rd 0 q

/-- After `d` E cycles the results in flight are those that were and have not landed, and those of the registers of a list
(R305, R312). -/
def Flying (s t : State) (e d : Nat) (l : List Nat) : Prop :=
  ∀ q, (t.peOf e).inFlight q =
    (l.any (fun r => r == q && r != 0) || (s.peOf e).hazards.any fun h => h.reg == q && (decide (d < h.left) || h.tag.isSome))

/-- The engine moves on, and the one effect is a value in a register; it is readable `dist` E cycles from the issue
(Table 9-3). -/
def Lands (s t : State) (e d r : Nat) (v : Word) (dist : Nat) : Prop :=
  EngineMoves s t e d ∧ Wrote s t e [(r, v)] ∧ Flying s t e d (if 1 < dist then [r] else [])

end Sys2Proof.Machine
end

