-- ==== Sys2Proof/Certificates/Slice0/Obligations.lean ====
section
/-! DEFINITION. The statements about the model, for the provers. -/
open Sys2Proof Sys2Proof.Machine

/-- For every command c, state s and list rest, a step of s with c :: rest waiting is exec of c on s with rest
waiting. (The queue is the model's own way of ordering commands, assumption row 1.) -/
def Obligations.StepRunsTheFrontCommand : Prop :=
  ∀ (c : Instr) (s : State) (rest : List Instr),
    step { s with pending := c :: rest } = exec c { s with pending := rest }

/-- With no command waiting, a step of a device with power and REFCLK_25 completes: the count of A cycles rises by
one, REMAIN of every open proposal falls by one until it is 0, and everything else of the state stands. Without power
or REFCLK_25 no A cycle passes: the step leaves the state as it is. (Design choice of assumption row 1: the spec has
no command for time.) -/
def Obligations.EmptyQueueLetsOneCycleOfTheADomainPass : Prop :=
  ∀ s : State, s.pending = [] →
    (s.alive = false → step s = .next s)
    ∧ (s.alive = true → Gives (step s) fun t =>
      { t with chip := s.chip, regs := s.regs } = s ∧ t.chip = { s.chip with aclk := s.chip.aclk + 1 }
        ∧ (∀ j ∈ List.range 16, (t.reg (protStageRemain j)).toNat
            = if s.stOpen j ∧ s.get (protStageRemainACycles j) ≠ 0 then s.rn (protStageRemain j) - 1 else s.rn (protStageRemain j))
        ∧ RegsKept s t ((List.range 16).map protStageRemain))

/-- In State.reset no command waits, BOOT.STEP and DONE read 0, RST.CAUSE reads 0, STATE of every block reads OFF,
FAULT_N is driven low, memory lists nothing, and memory, FDB, DDU and meters have their canonical form. (That CTRL.EN
and retained fields read as they do before step 4 is assumption row 8 and not stated here.) (Rests on the model's own
reading or choice in assumption row 152.) -/
def Obligations.ResetStateIsPowerOn : Prop :=
  State.reset.pending = [] ∧ State.reset.get devBootStep = 0 ∧ State.reset.booted = false
    ∧ State.reset.get rstCauseLast = 0 ∧ (∀ p ∈ headerPages, State.reset.st p = stOff)
    ∧ State.reset.faultNLow = true ∧ State.reset.mem = [] ∧ State.reset.tidy = true

/-- For every state in which device memory lists addresses strictly rising and no zero byte, and the forwarding
database, the duplicate-discard unit and the meters list indices strictly rising and no empty entry, whatever command
is at the front of its queue, a step that answers a next state leaves all of them so. Equal contents of banks, engine
memories, Insole, FDB, DDU and meters are therefore equal data after any run. (Rests on the model's own reading or
choice in assumption row 9.) -/
def Obligations.EveryStepKeepsStoredDataCanonical : Prop :=
  ∀ s t : State, s.tidy = true → step s = .next t → t.tidy = true

/-- For every state, whatever command is at the front of its queue (resets, power failure and soft resets among them):
if a key slot is revoked before a step that answers a next state, it is revoked after it, and KEY_POLICY then reads
REVOKE of that slot as 1. -/
def Obligations.EveryStepKeepsRevokedKeysRevoked : Prop :=
  ∀ (s t : State) (i : Nat), i < 4 → s.revokedSlots.getLsbD i = true → step s = .next t →
    t.revokedSlots.getLsbD i = true ∧ ∀ p : Principal, (t.shown p supKeyPolicy).getLsbD i = true

/-- POWER_ON_RESET (REFCLK_25 present), REFCLK_LOST, REFCLK_PRESENT, DEVICE_RESET and POWER_FAIL complete. A power-on
reset reads cause 0 or 1 (POR_N pin), samples REVERT, and leaves every block OFF, no command of PROT, no commit and no
byte outside the Insole; a clock loss reads cause 2, raises LOSS_COUNT and holds the device; the return of REFCLK_25
ends the hold and empties the capture FIFOs and held reads of the T domain, and changes nothing else; a device reset
accepted with key 0xD5 while no commit runs reads cause 3; after a power failure the device is unpowered. Each keeps
every Insole byte. Over a clock loss, and over a device reset whose KEEP_TIME is written 1, the pages of TB, HTB, VIEW
and EVT keep every register but the readers' latches, and the time base all it holds but the capture FIFOs and held
reads, which empty; a device reset with KEEP_TIME 0 leaves these pages OFF and the time base as at power-on. (That
DEVICE's KEEP_TIME acts at once and what T keeps are assumption rows 22 and 23.) (Rests on the model's own readings
and choices in assumption rows 25, 26, 148 and 176.) -/
def Obligations.ResetsKeepTheInsoleAndNameTheirCause : Prop :=
  ∀ s : State,
    let empty (b : TimeBase) : TimeBase := { b with cap := [], capBusy := [], held := [] }
    let timeKept (t : State) : Prop := t.tb = empty s.tb
      ∧ ∀ k, firstPage (keyAddr k / 0x1000) ∈ [pgTb, pgHtb 0, pgHtb 1, pgHtb 2, pgView, pgEvt] → isLatch k = false → t.reg k = s.reg k
    (∀ pin rev : Bool, Gives (exec (.powerOnReset pin rev true) s) fun t =>
      t.get rstCauseLast = (if pin then 1 else 0) ∧ t.chip.revertPin = rev ∧ t.get devBootStep = 0 ∧ t.booted = false
        ∧ (∀ p ∈ headerPages, t.st p = stOff) ∧ t.commit = none ∧ t.prot = {} ∧ t.flt.bootQ = []
        ∧ (∀ a, t.byte a = if insoleBase ≤ a then s.byte a else 0))
    ∧ (s.alive = true → Gives (exec .refclkLost s) fun t =>
      t.get rstCauseLast = 2 ∧ t.chip.clockLost = true ∧ t.booted = false ∧ (t.flt.bootQ.map (·.cause)) = [0x12]
        ∧ t.get clkLossCountCount = min (s.get clkLossCountCount + 1) 0xFFFF
        ∧ (∀ a, insoleBase ≤ a → t.byte a = s.byte a) ∧ timeKept t)
    ∧ (s.chip.powered = true → s.chip.clockLost = true →
      exec .refclkPresent s = .next { s with chip := { s.chip with clockLost := false }, tb := empty s.tb })
    ∧ (∀ (p : Principal) (v : Word), s.letsIn p rstDevice = true → bitsOf v 0 8 = 0xD5 → s.commit = none →
      Gives (exec (.deviceReset p v) s) fun t =>
        t.get rstCauseLast = 3 ∧ t.booted = false ∧ t.get devBootStep = 0
          ∧ (∀ a, insoleBase ≤ a → t.byte a = s.byte a)
          ∧ (if v.getLsbD 8 then timeKept t
              else t.tb = {} ∧ ∀ q ∈ [pgTb, pgHtb 0, pgHtb 1, pgHtb 2, pgView, pgEvt], t.st q = stOff))
    ∧ Gives (exec (.powerFail true) s) fun t =>
      t.chip.powered = false ∧ ∀ a, insoleBase ≤ a → t.byte a = s.byte a

/-- Exec of POWER_FAIL with its rails out of the order of R544 ends in the fault outsideOperatingConditions, in every
state: R6 states no behaviour there (assumption row 24). Exec of every other command, with any operands and in any
state, answers a next state: no command is refused and nothing else faults. What that state is, the statements about
the families say. -/
def Obligations.EveryCommandCompletesButPowerFailOutOfOrder : Prop :=
  ∀ s : State, exec (.powerFail false) s = .fault .outsideOperatingConditions
    ∧ ∀ i : Instr, i ≠ .powerFail false → ∃ t, exec i s = .next t

/-- While REFCLK_25 is lost HOST_A_LINK_RESET and PERST_N_RELEASE complete and only the level of the pin changes
(R78). Otherwise HOST_A_LINK_RESET at a powered device whose PERST_N is high completes: PERST_N low, both PERST counts
one on (saturating), LINK.SPEED 0, MSI-X disabled, no DMA transfer, Host A unable to reach the device; PCIE_HOT_RESET
does the same to PCIE without the counts and the pin. Both keep all memory, every register of every other block (the
epoch of code 0x30 and the notes of it apart at a hot reset) and the retained fields of PCIE. PERST_N_RELEASE raises
the pin and the epoch of Host A by one. PCIE_LINK_UP with PCIE ON, clocks and pins good and a speed and width that CFG
allows sets LINK and LINK_CHG and nothing else. (Rests on the model's own reading or choice in assumption row 127.) -/
def Obligations.HostLinkResets : Prop :=
  ∀ s : State,
    (s.chip.powered = true → s.chip.clockLost = true →
      (s.chip.perst = false → exec .hostALinkReset s = .next { s with chip := { s.chip with perst := true } })
      ∧ (s.chip.perst = true → exec .perstNRelease s = .next { s with chip := { s.chip with perst := false } }))
    ∧ (s.alive = true → s.chip.perst = false → Gives (exec .hostALinkReset s) fun t =>
      t.chip = { s.chip with perst := true } ∧ t.get pcieLinkSpeed = 0 ∧ t.irq.msixOn = false ∧ t.host.dma = []
        ∧ t.get rstPerstCountCount = min (s.get rstPerstCountCount + 1) 0xFFFF
        ∧ t.get pciePerstCountCount = min (s.get pciePerstCountCount + 1) 0xFFFF
        ∧ t.reaches .ha = false ∧ MemKept s t ∧ BlocksKept s t [pgPcie] [rstPerstCount]
        ∧ ∀ a r, regRow a = some r → a / 0x1000 = pgPcie → t.reg a &&& r.ret = s.reg a &&& r.ret)
    ∧ (s.chip.clockLost = false → s.chip.perst = true → Gives (exec .perstNRelease s) fun t =>
      t.chip = { s.chip with perst := false } ∧ t.epochOf 0x30 = s.epochOf 0x30 + 1 ∧ MemKept s t
        ∧ BlocksKept s t [pgLace] [])
    ∧ (s.alive = true → s.chip.perst = false → Gives (exec .pcieHotReset s) fun t =>
      t.chip = s.chip ∧ t.get pcieLinkSpeed = 0 ∧ t.irq.msixOn = false ∧ t.host.dma = []
        ∧ t.epochOf 0x30 = s.epochOf 0x30 + 1 ∧ MemKept s t ∧ BlocksKept s t [pgPcie, pgLace] []
        ∧ ∀ a r, regRow a = some r → a / 0x1000 = pgPcie → t.reg a &&& r.ret = s.reg a &&& r.ret)
    ∧ ∀ speed width : BitVec 3, s.alive = true → s.chip.perst = false → s.on pgPcie = true →
      1 ≤ speed.toNat → speed.toNat ≤ 4 → speed.toNat ≤ s.get pcieCfgMaxSpeed → width.toNat ∈ [1, 2, 4] →
      width.toNat ≤ s.get pcieCfgMaxWidth → Gives (exec (.pcieLinkUp speed width) s) fun t =>
        t.get pcieLinkSpeed = speed.toNat ∧ t.get pcieLinkWidth = width.toNat ∧ (t.reg (hdrIrqRaw pgPcie)).getLsbD 1 = true
          ∧ OnlyRegs s t [pcieLink, hdrIrqRaw pgPcie]

/-- When the present step of the boot sequence can end, BOOT_STEP_COMPLETE completes with BOOT.STEP one higher; at the
end of step 14 BOOT reads STEP 15 and DONE; at the end of step 1 the control pages read ON. At the end of step 2 the
Last is the one valid slot, of two valid ones that with the later SEQ, none without a valid slot, and BOOT.SOURCE
reads 1 with none, 2 for the FACTORY flag, 3 for the REVERT pin that the Last honours, else 0. At the end of step 2
(its blocks) and of step 3 (all others; the pages of a T domain that ran on apart), every retained field of a page
whose RETAIN was recorded 1, or not recorded, takes its recorded value, and stands without one; RETAIN takes what was
recorded; each block's EN, recorded or else factory, is applied when its step begins, and a block in OFF then enters
STARTING if it is 1. A stream port of BIND that names the source of an earlier engine's port acts unbound, keeps its
value for reading, and sets RESTORE_CONFLICT. (That a Last with no value of REVERT_EN honours the pin is assumption
row 193.) (Rests on the model's own readings and choices in assumption rows 15, 17, 18, 19, 20, 21, 146 and 193.) -/
def Obligations.BootStepsFollowOneAnother : Prop :=
  ∀ (r : BootReport) (s : State), s.bootReady = true → s.bootStep ≤ 14 →
    let w (b : Bool) (o : Nat) : Nat := (s.word (slotBase b + o)).toNat
    let valid (b : Bool) : Bool := decide (w b 0 = 0x4C534E49 ∧ w b 4 = 1 ∧ w b 0x3C = crc32 (s.bytes (slotBase b) 0x3C)
      ∧ w b 0xC + 72 ≤ 0x100000 ∧ w b (64 + w b 0xC) = crc32 (s.bytes (slotBase b) (64 + w b 0xC)) ∧ w b (68 + w b 0xC) = 0x454E444C)
    let later : Bool := decide (0 < (s.word (slotBase true + 8) - s.word (slotBase false + 8)).toInt)
    let last : Option Bool := if valid true && (!valid false || later) then some true else if valid false then some false else none
    let kept (p : Nat) : Bool := s.chip.keptTime && isTime p
    let taken (t : State) (p : Nat) : Prop :=
      let l := match t.chip.last with | some (b, _) => if t.get devBootSource = 0 then (s.lastRecs b).1 else [] | none => []
      t.bit (hdrCtrlRetain p) = recRetain l p
        ∧ ∀ q ∈ pagesOf p, ∀ o ∈ retOffs q, 0x1000 * q + o ≠ hdrCtrl p → s.chip.kept.rd none (0x1000 * q + o) = none →
          t.keptReg (0x1000 * q + o) &&& retBits q o
            = (match recVal l q o with | some v => if recRetain l p then v else s.reg (0x1000 * q + o) | none => s.reg (0x1000 * q + o)) &&& retBits q o
    Gives (exec (.bootStepComplete r) s) fun t =>
      t.get devBootStep = s.bootStep + 1 ∧ (s.bootStep = 14 → t.booted = true)
        ∧ (s.bootStep = 1 → ∀ p ∈ [pgDev, pgClk, pgRst, pgInsole, pgProt], t.st p = stOn)
        ∧ (s.bootStep = 2 → t.chip.last = last.map (fun b => (b, s.word (slotBase b + 8)))
          ∧ (last = none → t.get devBootSource = 1)
          ∧ (∀ b, last = some b →
              let l := (s.lastRecs b).1
              (w b 0x10 % 2 = 1 → t.get devBootSource = 2)
              ∧ (w b 0x10 % 2 = 0 → s.chip.revertPin = false → t.get devBootSource = 0)
              ∧ (∀ v, w b 0x10 % 2 = 0 → s.chip.revertPin = true → recRetain l pgInsole = true → recVal l pgInsole 0x58 = some v →
                  t.get devBootSource = if v.getLsbD 0 then 3 else 0))
          ∧ ∀ p ∈ [pgFlt, pgPcie, pgHostb, pgSup, pgFlash], taken t p)
        ∧ (s.bootStep = 3 → (∀ p ∈ restoreOrder, kept p = false → taken t p)
          ∧ (∀ p ∈ restoreOrder, 5 ≤ p → kept p = false → t.chip.bootEn.rd false p
              = recEn (match t.chip.last with | some (b, _) => if t.get devBootSource = 0 then (s.lastRecs b).1 else [] | none => []) p)
          ∧ ∀ e < 18, ∀ f < e, s.chip.kept.rd none (fabBind e) = none → s.chip.kept.rd none (fabBind f) = none →
              bitsOf (t.keptReg (fabBind e)) 0 8 = bitsOf (t.keptReg (fabBind f)) 0 8 →
              bitsOf (t.keptReg (fabBind e)) 0 2 = kindEyelet → bitN (t.get fabSpareMaskMask) f = false →
              bitsOf (t.reg (fabBind e)) 0 8 = 0 ∧ (t.reg (hdrErrCause pgFab)).getLsbD errRestoreConflict = true)
        ∧ (4 ≤ s.bootStep → s.bootStep < 14 → ∀ p ∈ stepPages (s.bootStep + 1), kept p = false →
            t.bit (hdrCtrlEn p) = s.chip.bootEn.rd false p
              ∧ (s.st p = stOff → t.st p = if s.chip.bootEn.rd false p then stStarting else stOff))

/-- For every block but the control pages and every accepted write of its CTRL with SRST 0, EN and RETAIN read as
written; from OFF, EN 1 gives STARTING and EN 0 stays; in STARTING DIS_PENDING becomes the inverse of EN, in STOPPING
EN_PENDING becomes EN; from ON, FAULT and TAKEN_OVER, EN 0 gives STOPPING and EN 1 stays; a transition sets IRQ_RAW
bit 0 and clears both pending bits; where no transition happens IRQ_RAW stands; a write that has no effect leaves the
pending bits; no other block's STATE moves; memory stands. (Rests on the model's own readings and choices in
assumption rows 12, 13, 16, 73 and 189.) -/
def Obligations.EnableWritesFollowTable24 : Prop :=
  ∀ (p : Principal) (page : Fin 320) (v : Word) (s : State), page.val ∈ headerPages → 5 ≤ page.val →
    s.letsIn p (hdrCtrl page.val) = true → v.getLsbD 1 = false →
    let st := s.st page.val
    let en := v.getLsbD 0
    Gives (exec (.enWrite p page v) s) fun t =>
      t.bit (hdrCtrlEn page.val) = en ∧ t.bit (hdrCtrlRetain page.val) = v.getLsbD 8
        ∧ t.st page.val = (if st = stOff then if en then stStarting else stOff
            else if st = stOn ∨ st = stFault ∨ st = stTakenOver then if en then st else stStopping else st)
        ∧ (st = stStarting → t.bit (hdrStateDisPending page.val) = !en)
        ∧ (st = stStopping → t.bit (hdrStateEnPending page.val) = en)
        ∧ (st = stOff ∧ en = true ∨ st ∈ [stOn, stFault, stTakenOver] ∧ en = false →
            (t.reg (hdrIrqRaw page.val)).getLsbD 0 = true ∧ t.bit (hdrStateDisPending page.val) = false
              ∧ t.bit (hdrStateEnPending page.val) = false)
        ∧ (st = stOff ∧ en = false ∨ st ∈ [stOn, stFault, stTakenOver] ∧ en = true →
            t.reg (hdrState page.val) = s.reg (hdrState page.val))
        ∧ (t.st page.val = st → t.reg (hdrIrqRaw page.val) = s.reg (hdrIrqRaw page.val))
        ∧ (∀ q ∈ headerPages, q ≠ page.val → t.st q = s.st q) ∧ MemKept s t

/-- For every block but the control pages and every accepted write of its CTRL with SRST 1: in OFF, ON, FAULT and
TAKEN_OVER the block enters OFF, or STARTING if EN is written 1; IRQ_RAW holds nothing but STATE_CHG of a transition;
ERR_CAUSE stands; every retained field but those of CTRL stands; in STARTING and STOPPING STATE stands and the request
is held. Memory stands. (Rests on the model's own readings and choices in assumption rows 12, 13, 16, 73 and 190.) -/
def Obligations.SoftResetsActAtOnceOrAreHeld : Prop :=
  ∀ (p : Principal) (page : Fin 320) (v : Word) (s : State), page.val ∈ headerPages → 5 ≤ page.val →
    s.letsIn p (hdrCtrl page.val) = true → v.getLsbD 1 = true →
    let st := s.st page.val
    let en := v.getLsbD 0
    Gives (exec (.softReset p page v) s) fun t =>
      t.bit (hdrCtrlEn page.val) = en ∧ MemKept s t
        ∧ (st ∈ [stStarting, stStopping] → t.st page.val = st ∧ t.chip.heldSrst.rd false page.val = true)
        ∧ (st ∈ [stOff, stOn, stFault, stTakenOver] →
            t.st page.val = (if en then stStarting else stOff)
              ∧ t.reg (hdrIrqRaw page.val) = (if st = stOff ∧ en = false then 0 else 1)
              ∧ t.reg (hdrErrCause page.val) = s.reg (hdrErrCause page.val)
              ∧ ∀ a r, regRow a = some r → firstPage (a / 0x1000) = page.val → a ≠ hdrCtrl page.val →
                  t.reg a &&& r.ret = s.reg a &&& r.ret)

/-- A block in STARTING whose prerequisites are met and whose clocks run: at its first consistent point a held soft
reset is performed; without one, DIS_PENDING 1 gives STOPPING; else the page reads ON. The point has not come, and
STATE stays, while a MAC's PHY probe runs, a Welt port's lanes are not all aligned, or a bank that the block works
with wakes or is zeroed. In place of ON these read FAULT: an engine without an image (ERR_CAUSE bit 8), with a refused
image (bit 9) or failing its test at boot; SHANK without a working lane; a Welt port over a lane's mode (bit 9) or a
bank's owner (bit 10); WCAP that ends without a bank (bit 8). An engine that reads ON stands at its image's entry with
nothing else in its state; SHANK with three working lanes takes 0 and 1 as active and 2 as spare; a Welt port reads
LISTEN and RATE 0; FDB, STRM and the SWQ pages that start and have no request held reach ON with SWC. A block in
STOPPING that has what its stop waits for performs a held soft reset; without one it reads OFF, or STARTING if
EN_PENDING is 1. A start limit gives FAULT with ERR_CAUSE bit 3, a stop limit FAULT with bit 4; a held soft reset
follows it. Each transition sets IRQ_RAW bit 0 and clears the pending bits. A performed soft reset enters OFF, or
STARTING if EN is 1, leaves IRQ_RAW with STATE_CHG alone, keeps ERR_CAUSE and the retained fields, and ends the
request. (Rests on the model's own readings and choices in assumption rows 13, 14, 150 and 215.) -/
def Obligations.SequencesEndAsTable24Says : Prop :=
  ∀ (page : Fin 320) (r : StartReport) (s : State), page.val ∈ headerPages →
    let p := page.val
    let held := s.chip.heldSrst.rd false p
    let moved (t : State) : Prop := (t.reg (hdrIrqRaw p)).getLsbD 0 = true
      ∧ t.bit (hdrStateDisPending p) = false ∧ t.bit (hdrStateEnPending p) = false
    let reset (bit : Word) (t : State) : Prop :=
      t.st p = (if s.bit (hdrCtrlEn p) then stStarting else stOff) ∧ t.reg (hdrIrqRaw p) = 1
        ∧ t.reg (hdrErrCause p) = s.reg (hdrErrCause p) ||| bit ∧ t.chip.heldSrst.rd false p = false
        ∧ ∀ a row, regRow a = some row → firstPage (a / 0x1000) = p → a ≠ hdrCtrl p → t.reg a &&& row.ret = s.reg a &&& row.ret
    let failed (bit : Nat) (t : State) : Prop := t.st p = stFault ∧ (t.reg (hdrErrCause p)).getLsbD bit = true ∧ moved t
    let point (P : State → Prop) : Prop := Gives (exec (.firstConsistentPoint page r) s) P
    let reads (P : State → Prop) : Prop := point fun t => t.st p = stOn ∧ moved t ∧ P t
    (s.st p = stStarting → s.clocked p = true → s.prereqs p = true →
      (held = true → point (reset 0))
      ∧ (held = false → s.bit (hdrStateDisPending p) = true → point fun t => t.st p = stStopping ∧ moved t)
      ∧ (held = false → s.bit (hdrStateDisPending p) = false →
        ((p < pgPe 0 ∨ pgPe 17 < p) → p ∉ [pgShank, pgWelt 0, pgWelt 1, pgWcap, pgSwc, pgFab] →
          (∀ n < 24, p = pgMac n → s.macProbes n = false) → reads fun _ => True)
        ∧ (∀ n < 24, p = pgMac n → s.macProbes n = true → point fun t => t.st p = stStarting)
        ∧ (p = pgSwc → if s.workingBanks.any s.asleep then point fun t => t.st p = stStarting else reads fun t =>
            ∀ q ∈ [pgFdb, pgStrm] ++ (List.range 24).map pgSwq, s.st q = stStarting → s.chip.heldSrst.rd false q = false →
              s.bit (hdrStateDisPending q) = false → t.st q = stOn)
        ∧ (p = pgFab → if (List.range 192).any (fun b => s.inCkpt b && s.asleep b) then point fun t => t.st p = stStarting
            else reads fun _ => True)
        ∧ (∀ n < 18, p = pgPe n →
            if r.engineFailed && !s.booted then point fun t => t.st p = stFault ∧ moved t
            else if s.reg (peImageName n) = 0 then point (failed 8)
            else (s.roleImage n).2 ≠ 0 ∧ point (failed 9) ∨ (s.roleImage n).2 = 0 ∧ ∀ d, (s.roleImage n).1 = some d →
                let l := s.imageBytes d
                reads fun t => t.peOf n = {
                  pc := BitVec.ofNat 13 (hdrField l 0x1C 0 13), rsopt := hdrField l 0x1C 13 1 == 1, farTrap := hdrField l 0x1C 14 1 == 1
                  tvec := BitVec.ofNat 13 (hdrField l 0x20 0 13), image := some (leWord l 3, BitVec.ofNat 16 (hdrField l 0x10 0 16))
                  svn := (hdrField l 0x10 16 6, hdrField l 0x10 22 7), seq := (s.peOf n).seq
                  entry := (BitVec.ofNat 13 (hdrField l 0x1C 0 13), hdrField l 0x1C 13 1 == 1, hdrField l 0x1C 14 1 == 1,
                    BitVec.ofNat 13 (hdrField l 0x20 0 13))
                  jtagHalt := (s.peOf n).jtagHalt, jtagSteps := (s.peOf n).jtagSteps })
        ∧ (p = pgShank → if r.lanesFailed = 7 then point fun t => t.st p = stFault ∧ moved t else reads fun t =>
            t.get shankLaneStatFailed = r.lanesFailed.toNat ∧ t.shank.pend = [] ∧ (r.lanesFailed = 0 →
              t.get shankLaneStatAct0 = 0 ∧ t.get shankLaneStatAct1 = 1 ∧ t.get shankLaneStatSpare = 2))
        ∧ (∀ n < 2, p = pgWelt n →
            if (s.weltUsed n).any (fun k => s.get (laneCfgMode k) != s.weltMode n) then point (failed 9)
            else if (List.range 4).any (fun i => !bufOwner n (s.ownerOf (s.get (weltBufFirst n) + i))) then point (failed 10)
            else if (s.weltUsed n).any (fun k => !s.bit (laneStatusAligned k)) || (List.range 192).any (fun b => s.inWeltBuf n b && s.asleep b)
              then point fun t => t.st p = stStarting
            else reads fun t => t.node n = nodeListen ∧ t.reg (weltRate n) = 0)
        ∧ (p = pgWcap →
            let u := s.wcapClaims
            if u.wcapWaits then point fun t => t.st p = stStarting
            else if u.wRange.any fun b => u.ownerOf b == wcapCode then reads fun t => t.wcap.banks = u.wRange.filter fun b => u.ownerOf b == wcapCode
            else point (failed 8))))
    ∧ (s.st p = stStopping → s.clocked p = true → s.stopReady p = true →
        (held = true → Gives (exec (.stopComplete page) s) (reset 0))
        ∧ (held = false → Gives (exec (.stopComplete page) s) fun t =>
            t.st p = (if s.bit (hdrStateEnPending p) then stStarting else stOff) ∧ moved t))
    ∧ (s.st p = stStarting → s.alive = true →
        (held = true → Gives (exec (.startTimeout page) s) (reset 8))
        ∧ (held = false → Gives (exec (.startTimeout page) s) (failed 3)))
    ∧ (s.st p = stStopping → s.alive = true →
        (held = true → Gives (exec (.stopTimeout page) s) (reset 0x10))
        ∧ (held = false → Gives (exec (.stopTimeout page) s) (failed 4)))

/-- An accepted 32-bit write of IRQ_EN or IRQ_RAW of any block, or of a register of PTPA, of an engine's page or of
HOSTB that is not RWS and has a writable field, gives the register its old bits with the RW bits replaced by those
written and the W1C bits cleared where 1 is written (so a 1 written to IRQ_RAW clears its bit and a 0 leaves it);
every other register and all memory stand. An accepted 32-bit write of a register of any page that has no writable
field (SUP's own row of the ACL among them) sets ERR_CAUSE.RO_WRITE of its block and changes nothing else. A write of
CTRL of a control page, by whichever command, stores RETAIN, leaves EN and STATE, and sets RO_WRITE exactly if it
writes EN 0 or SRST 1. A write of 8 or 16 bits to a register that exists only sets ERR_CAUSE.WIDTH of its block. A
64-bit access is that of its lower word and then of its upper word at the next address; a narrower read answers the
bytes addressed and clears the RC fields of its register. (What a narrow read clears is assumption row 11.) An
accepted write of ERR_CLR clears in ERR_CAUSE of its block exactly the bits written 1 and changes nothing else (of
WCAP, whose BUF_SHORT is a condition of DEGRADED, but the registers of FLT that show it). (Rests on the model's own
readings and choices in assumption rows 10 and 11.) -/
def Obligations.RegisterWritesActByAccessCodes : Prop :=
  ∀ (p : Principal) (addr : BitVec 24) (v : Dword) (s : State),
    (∀ r, regRow addr.toNat = some r → s.letsIn p addr.toNat = true → r.writable ≠ 0 → isRws addr.toNat = false →
      ((addr.toNat % 0x1000 ∈ [0x10, 0x14] ∧ addr.toNat / 0x1000 ∈ headerPages) ∨ (0x40 ≤ addr.toNat % 0x1000 ∧
        addr.toNat / 0x1000 ∈ [pgPtpa, pgHostb] ++ (List.range 18).map pgPe)) →
      Gives (exec (.registerWrite p addr 4 v) s) fun t =>
        let old := s.reg addr.toNat
        let w : Word := v.setWidth 32
        t.reg addr.toNat = (((old &&& ~~~r.rw) ||| (w &&& r.rw)) &&& ~~~(w &&& r.w1c))
          ∧ RegsKept s t [addr.toNat] ∧ MemKept s t)
    ∧ (∀ r, regRow addr.toNat = some r → s.letsIn p addr.toNat = true → r.writable = 0 →
      Gives (exec (.registerWrite p addr 4 v) s) fun t =>
        (t.reg (hdrErrCause (firstPage (addr.toNat / 0x1000)))).getLsbD 6 = true
          ∧ OnlyRegs s t [hdrErrCause (firstPage (addr.toNat / 0x1000))])
    ∧ (∀ page : Fin 320, page.val ∈ [pgDev, pgClk, pgRst, pgInsole, pgProt] → s.letsIn p (hdrCtrl page.val) = true →
      ∀ c ∈ [Instr.registerWrite p (BitVec.ofNat 24 (hdrCtrl page.val)) 4 v, .enWrite p page (v.setWidth 32), .softReset p page (v.setWidth 32)],
        Gives (exec c s) fun t =>
          t.bit (hdrCtrlRetain page.val) = v.getLsbD 8 ∧ t.reg (hdrCtrl page.val) &&& 0xFFFFFEFF = s.reg (hdrCtrl page.val) &&& 0xFFFFFEFF
            ∧ t.reg (hdrErrCause page.val) = (if v.getLsbD 1 ∨ v.getLsbD 0 = false then s.reg (hdrErrCause page.val) ||| 0x40 else s.reg (hdrErrCause page.val))
            ∧ OnlyRegs s t [hdrCtrl page.val, hdrErrCause page.val])
    ∧ (∀ n ∈ [1, 2], s.reaches p = true → (regRow (addr.toNat / 4 * 4)).isSome = true →
      Gives (exec (.registerWrite p addr n v) s) fun t =>
        (t.reg (hdrErrCause (firstPage (addr.toNat / 0x1000)))).getLsbD errWidth = true
          ∧ OnlyRegs s t [hdrErrCause (firstPage (addr.toNat / 0x1000))])
    ∧ (addr.toNat % 8 = 0 → ∃ u, exec (.registerWrite p addr 4 v) s = .next u
        ∧ exec (.registerWrite p addr 8 v) s = exec (.registerWrite p (addr + 4) 4 (v >>> 32)) u)
    ∧ (∀ r, s.reaches p = true → addr.toNat % 4 = 0 → regRow addr.toNat = some r → addr.toNat / 0x1000 ≠ pgWcap → s.readEffect p addr.toNat = none →
      s.convHolds p addr.toNat = false →
      let k := s.busKey p addr.toNat
      let w := s.shown p addr.toNat
      (∀ x ∈ [(0, 1), (1, 1), (2, 1), (3, 1), (0, 2), (2, 2)], Gives (exec (.rcRead p ⟨addr + BitVec.ofNat 24 x.1, x.2⟩) s) fun t =>
          t.readData p = BitVec.ofNat 32 (bitsOf w (8 * x.1) (8 * x.2)) ∧ t.reg k = s.reg k &&& ~~~r.rc ∧ { t with regs := s.regs, rdata := s.rdata } = s ∧ RegsKept s t [k])
      ∧ (addr.toNat % 8 = 0 → s.convHolds p (addr.toNat + 4) = false → Gives (exec (.rcRead p ⟨addr, 4⟩) s) fun u =>
          u.convHolds p (addr.toNat + 4) = false → Gives (exec (.rcRead p ⟨addr + 4, 4⟩) u) fun x =>
            exec (.rcRead p ⟨addr, 8⟩) s = .next ((x.answerHigh p (x.readData p)).answer p w)))
    ∧ (∀ page : Fin 320, page.val ∈ headerPages → s.letsIn p (hdrErrClr page.val) = true → Gives (exec (.errClr p page (v.setWidth 32)) s) fun t =>
        t.reg (hdrErrCause page.val) = s.reg (hdrErrCause page.val) &&& ~~~(v.setWidth 32)
          ∧ (if page.val = pgWcap then RegsKept s t [hdrErrCause pgWcap, fltDegraded, fltDegradedEvt, hdrIrqRaw pgFlt] else OnlyRegs s t [hdrErrCause page.val]))

/-- At an address no page map defines, a read by a principal that reaches the device returns 0 (Host A completes it
normally), a narrower write changes none but UNMAPPED_ADDR and ERR_CAUSE, and a 32-bit write of any value changes no
register but UNMAPPED_ADDR and, where the writer's ACL refuses the page, the record of that refusal; each leaves in
UNMAPPED_ADDR the word address and the principal's code. (That a refused write at such an address is recorded as well
is assumption row 10; that UNMAPPED_ADDR holds the word address is row 174.) -/
def Obligations.UnmappedAccesses : Prop :=
  ∀ (p : Principal) (addr : BitVec 24) (v : Dword) (s : State), s.reaches p = true →
    regRow (addr.toNat / 4 * 4) = none →
    let rec' : Word := BitVec.ofNat 8 (pCode p) ++ BitVec.ofNat 24 (addr.toNat / 4 * 4)
    (Gives (exec (.unmappedAccess p addr) s) fun t =>
      t.readData p = 0 ∧ t.reg devUnmappedAddr = rec' ∧ { t with regs := s.regs, rdata := s.rdata } = s
        ∧ RegsKept s t [devUnmappedAddr])
    ∧ Gives (exec (.registerWrite p addr 4 v) s) fun t =>
      t.reg devUnmappedAddr = rec' ∧ OnlyRegs s t ([devUnmappedAddr]
        ++ if s.mayWrite p (addr.toNat / 0x1000) then [] else
          [hdrErrCause (firstPage (addr.toNat / 0x1000)), protDenyAddr, protDenyInfo])
    ∧ ∀ n ∈ [1, 2], Gives (exec (.registerWrite p addr n v) s) fun t =>
      t.reg devUnmappedAddr = rec' ∧ OnlyRegs s t [devUnmappedAddr, hdrErrCause (firstPage (addr.toNat / 0x1000))]

/-- A 32-bit write of a register by a principal whose ACL does not permit its page, during boot by a principal other
than SUP of a register whose writable fields are all retained, or with the supervisor lost of such a register, of
CTRL, of PAT APPLY or of EYE ROW_COMMIT (the bank commands HANDOVER and ACCEPT apart, whose refusals are their own,
and with the supervisor lost the RWS registers, whose refusal also enters the log) completes; it changes nothing but
ERR_CAUSE of the block, where bit 1 is set, DENY_ADDR, which holds its address, and DENY_INFO, whose principal is the
writer's code and whose count is one higher, saturating. (Rests on the model's own readings and choices in assumption
rows 10, 16 and 108.) -/
def Obligations.RefusedWritesAreIgnoredAndRecorded : Prop :=
  ∀ (p : Principal) (addr : BitVec 24) (v : Dword) (r : RegRow) (s : State), s.reaches p = true → regRow addr.toNat = some r →
    (s.mayWrite p (addr.toNat / 0x1000) = false
      ∨ (s.booted = false ∧ p ≠ .sup ∨ s.supLost = true) ∧ r.ret &&& r.writable ≠ 0 ∧ r.writable &&& ~~~r.ret = 0
      ∨ s.supLost = true ∧ (addr.toNat ∈ headerPages.map hdrCtrl ∨ addr.toNat ∈ [patApply 0, patApply 1] ++ (List.range 16).map eyeRowCommit)) →
    (s.supLost = true → s.mayWrite p (addr.toNat / 0x1000) = true → isRws addr.toNat = false) →
    addr.toNat ≠ bankHandover → addr.toNat ≠ bankAccept → addr.toNat % 4 = 0 →
    Gives (exec (.registerWrite p addr 4 v) s) fun t =>
      (t.reg (hdrErrCause (firstPage (addr.toNat / 0x1000)))).getLsbD 1 = true
        ∧ t.get protDenyAddrAddr = addr.toNat ∧ t.get protDenyInfoPrincipal = pCode p
        ∧ t.get protDenyInfoCount = min (s.get protDenyInfoCount + 1) (2 ^ protDenyInfoCount.width - 1)
        ∧ OnlyRegs s t [hdrErrCause (firstPage (addr.toNat / 0x1000)), protDenyAddr, protDenyInfo]

/-- A read, by any principal that reaches the device, of any register that exists completes, and the RC fields of the
register then show 0 (a conversion result not there yet, whose read waits and has no RC field, and a register that
acts on a substitute, which only settings do, apart). Outside wave capture and the registers whose reads latch or take
data by rules of their own, the answer is the value the register shows to that principal, and nothing but its RC
fields changes. -/
def Obligations.ReadsAnswerAndClearReadClearedFields : Prop :=
  ∀ (p : Principal) (addr : BitVec 24) (r : RegRow) (s : State), s.reaches p = true → addr.toNat % 4 = 0 → regRow addr.toNat = some r →
    let k := s.busKey p addr.toNat
    (Gives (exec (.rcRead p ⟨addr, 4⟩) s) fun t => (s.convHolds p addr.toNat = false → s.chip.kept.rd none k = none → t.shown p addr.toNat &&& r.rc = 0) ∧ (s.convHolds p addr.toNat = true → r.rc = 0))
    ∧ (addr.toNat / 0x1000 ≠ pgWcap → s.readEffect p addr.toNat = none → s.convHolds p addr.toNat = false → Gives (exec (.rcRead p ⟨addr, 4⟩) s) fun t =>
        t.readData p = s.shown p addr.toNat ∧ t.reg k = s.reg k &&& ~~~r.rc ∧ { t with regs := s.regs, rdata := s.rdata } = s ∧ RegsKept s t [k])

/-- For every block: an accepted write of IRQ_SET sets the written bits of IRQ_RAW and changes nothing else while
TEST.IRQ_SET_EN is 1, and changes nothing at all while it is 0. -/
def Obligations.InterruptSetActsOnlyUnderTest : Prop :=
  ∀ (p : Principal) (page : Fin 320) (v : Word) (s : State), page.val ∈ headerPages → s.letsIn p (hdrIrqSet page.val) = true →
    (s.bit devTestIrqSetEn = true → Gives (exec (.irqSet p page v) s) fun t =>
      t.reg (hdrIrqRaw page.val) = s.reg (hdrIrqRaw page.val) ||| v ∧ OnlyRegs s t [hdrIrqRaw page.val])
    ∧ (s.bit devTestIrqSetEn = false → exec (.irqSet p page v) s = .next s)

/-- With IRQA ON, MSI-X enabled and PERST_N high: the request of a page or doorbell that IRQA has not yet seen, routed
to an unmasked vector whose OR of requests was 0, sends that vector's message once, and sets its doorbell bit if its
page is routed to one; a second MSIX_MESSAGE for it changes nothing. A write of VEC_EOI by Host A sends again exactly
each unmasked vector written 1 whose OR is still 1; a write by another principal changes nothing. MSI_X_ENABLE by a
host that reaches the device from boot step 3 on enables MSI-X and sends each unmasked vector whose request is
present; earlier, or with Host A away, it does nothing. The message of a masked vector is not sent and sets its
pending bit; a write of Host A that unmasks the vector sends it exactly if the pending bit is set and a request it has
seen is still present, and clears the bit. (That a pending message ends with its requests is assumption row 191.)
Nothing but the trace of messages, IRQA's record, the doorbell and the pending bits of masked vectors changes. -/
def Obligations.InterruptMessages : Prop :=
  ∀ s : State, s.on pgIrqa = true → s.chip.perst = false →
    (∀ (x : IrqSource) (v : Nat), s.irq.msixOn = true → s.srcReq x = true → s.irq.seen.rd false (srcKey x) = false →
      s.srcVector x = some v → (∀ y ∈ irqSources, s.srcVector y = some v → s.srcReq y = true → s.irq.seen.rd false (srcKey y) = false) →
      (s.reg (msixCtl v)).getLsbD 0 = false → Gives (exec (.msixMessage x) s) fun t =>
        t.out = .msix v :: s.out ∧ exec (.msixMessage x) t = .next t
          ∧ (∀ p, x = .page p → s.bit (irqaRouteToDb p.val) = true →
              (t.reg (laceDb (s.get (irqaRouteDb p.val)))).getLsbD (s.get (irqaRouteDbBit p.val)) = true)
          ∧ RegsKept s t (match x with
              | .page p => if s.bit (irqaRouteToDb p.val) then [laceDb (s.get (irqaRouteDb p.val))] else []
              | .doorbell _ => []) ∧ MemKept s t)
    ∧ (∀ (high : Bool) (i : Nat), i < 32 → s.irq.msixOn = true → s.letsIn .ha irqaVecEoi0 = true →
      (s.reg (msixCtl (if high then i + 32 else i))).getLsbD 0 = false →
      Gives (exec (.vecEoi .ha high (BitVec.ofNat 32 (2 ^ i))) s) fun t =>
        t = if s.vecPending (if high then i + 32 else i) then s.emit (.msix (if high then i + 32 else i)) else s)
    ∧ (∀ (p : Principal) (high : Bool) (w : Word), p ≠ .ha → s.letsIn p irqaVecEoi0 = true →
      exec (.vecEoi p high w) s = .next s)
    ∧ (s.reaches .ha = true → 3 ≤ s.get devBootStep → Gives (exec .msiXEnable s) fun t => t.irq.msixOn = true
        ∧ (∀ v < 64, s.vecPending v = true → (s.reg (msixCtl v)).getLsbD 0 = false → .msix v ∈ t.out)
        ∧ RegsKept s t [msixPba 0, msixPba 32] ∧ MemKept s t)
    ∧ ((s.reaches .ha = false ∨ s.get devBootStep < 3) → exec .msiXEnable s = .next s)
    ∧ (∀ (x : IrqSource) (v : Nat), v < 64 → s.irq.msixOn = true → s.srcReq x = true → s.irq.seen.rd false (srcKey x) = false →
      s.srcVector x = some v → (∀ y ∈ irqSources, s.srcVector y = some v → s.srcReq y = true → s.irq.seen.rd false (srcKey y) = false) →
      (s.reg (msixCtl v)).getLsbD 0 = true → Gives (exec (.msixMessage x) s) fun t =>
        t.out = s.out ∧ (t.reg (msixPba v)).getLsbD (v % 32) = true)
    ∧ (∀ (v : Nat) (w : Word), v < 64 → s.letsIn .ha (msixCtl v) = true → s.irq.msixOn = true → w.getLsbD 0 = false →
      let waits := (s.reg (msixPba v)).getLsbD (v % 32) && irqSources.any fun y =>
        s.irq.seen.rd false (srcKey y) && s.srcReq y && s.srcVector y == some v
      Gives (exec (.registerWrite .ha (BitVec.ofNat 24 (msixCtl v)) 4 (w.setWidth 64)) s) fun t =>
        t.reg (msixCtl v) = w ∧ (t.reg (msixPba v)).getLsbD (v % 32) = false
          ∧ t.out = (if waits then .msix v :: s.out else s.out) ∧ RegsKept s t [msixCtl v, msixPba v] ∧ MemKept s t)

/-- An accepted write of a protected register with no open proposal and a free entry fills the lowest free entry with
address, value and proposer, opens its window of WINDOW milliseconds of 25,000 A cycles (WINDOW clamped to 1 to
10,000), names the proposer in LOCK of the page, and changes no other register (so not the protected one). With every
entry taken it is refused FULL, and a second proposal of another principal for an open address is refused BUSY: both
log the outcome, name the proposer in LOCK, set STAGE_REFUSED and leave the protected register. APPROVE_ADDR stores
bits 23:2 of the address in the writer's own latch; APPROVE_CRC appends one approval of that address with the written
CRC. -/
def Obligations.ProposalsWaitForApproval : Prop :=
  ∀ (p : Principal) (v : Word) (s : State),
    (∀ addr : BitVec 24, isRws addr.toNat = true → s.letsIn p addr.toNat = true →
      let refused (oc : Nat) (t : State) : Prop :=
        let k := s.get protLogHeadNext
        t.get (protLogInfoOutcome k) = oc ∧ t.get (protLogAddrAddr k) = addr.toNat ∧ t.reg (protLogValue k) = v
          ∧ (t.reg (hdrErrCause (firstPage (addr.toNat / 0x1000)))).getLsbD 2 = true
          ∧ t.get (hdrLockProposer (firstPage (addr.toNat / 0x1000))) = pCode p
          ∧ OnlyRegs s t [protLogAddr k, protLogValue k, protLogInfo k, protLogTime k, protLogHead,
              hdrLock (firstPage (addr.toNat / 0x1000)), hdrErrCause (firstPage (addr.toNat / 0x1000))]
      (∀ j, s.openAt addr.toNat = none → s.freeEntry = some j → Gives (exec (.proposal p addr v) s) fun t =>
        t.get (protStageAddrAddr j) = addr.toNat ∧ t.reg (protStageValue j) = v ∧ t.stOpen j = true ∧ t.stHeld j = false
          ∧ t.get (protStageInfoProposer j) = pCode p
          ∧ t.get (protStageRemainACycles j) = 25000 * min 10000 (max 1 (s.get protWindowMs))
          ∧ t.get (hdrLockProposer (firstPage (addr.toNat / 0x1000))) = pCode p
          ∧ OnlyRegs s t [protStageAddr j, protStageValue j, protStageInfo j, protStageRemain j,
              hdrLock (firstPage (addr.toNat / 0x1000))])
      ∧ (s.openAt addr.toNat = none → s.freeEntry = none → Gives (exec (.proposal p addr v) s) (refused 9))
      ∧ (∀ j, s.openAt addr.toNat = some j → s.get (protStageInfoProposer j) ≠ pCode p →
          Gives (exec (.proposal p addr v) s) (refused 8)))
    ∧ (s.letsIn p protApproveCrc = true →
      (Gives (exec (.approveAddr p v) s) fun t =>
        t.get (protApproveAddrAddr (pIdx p)) = bitsOf v 2 22 ∧ OnlyRegs s t [protApproveAddr (pIdx p)])
      ∧ exec (.approveCrc p v) s = .next { s with prot := { s.prot with approvals :=
          s.prot.approvals ++ [⟨p, BitVec.ofNat 24 (4 * s.get (protApproveAddrAddr (pIdx p))), v.setWidth 16⟩] } })

/-- With approvals waiting and no supervisor restart, the first is evaluated. If it finds an open proposal of another
principal, both still hold the ACL, its CRC is that of the staged value, the window is open and no commit runs, the
protected register takes the value in its RWS bits (ALLOW in the bits of Table 15-4) and APPLIED is logged, and beyond
the log, the entry and LOCK: no other register changes for one other than DEBUG_EN, KEY_POLICY and ALLOW; DEBUG_EN
with DEBUG 0 ends every halt of JTAG and the forced level of FAULT_N; KEY_POLICY revokes a slot whose REVOKE bit is
the one written, unless no other fused slot would stay unrevoked, which sets ERR_CAUSE bit 9 and burns nothing; ALLOW
without the owner's bit leaves OWNER NONE, and without the bit of a pending next owner ends the handover; the same
principal gives SAME, a wrong CRC gives CRC, an ended window EXPIRED, no proposal NO_PROPOSAL, each leaving the
register; during a commit the value is held. WINDOW_EXPIRY of an open entry with REMAIN 0 discards it as EXPIRED.
(Rests on the model's own reading or choice in assumption row 175.) -/
def Obligations.ApprovalsDecideByTheFirstCheckThatFails : Prop :=
  (∀ (x : Approval) (rest : List Approval) (s : State), s.supRestarting = false → s.prot.approvals = x :: rest →
    let a := x.addr.toNat
    let logged (oc : Nat) (t : State) : Prop := t.get (protLogInfoOutcome (s.get protLogHeadNext)) = oc
      ∧ t.get (protLogInfoApprover (s.get protLogHeadNext)) = pCode x.who ∧ t.prot.approvals = rest ∧ MemKept s t
    let logs (j : Nat) : List Nat :=
      let k := s.get protLogHeadNext
      [protLogAddr k, protLogValue k, protLogInfo k, protLogTime k, protLogHead, hdrLock (firstPage (a / 0x1000)),
        protStageAddr j, protStageValue j, protStageInfo j, protStageRemain j]
    (s.openAt a = none → Gives (exec .approvalEvaluation s) fun t => logged 10 t ∧ RegsKept s t ((logs 0).take 6))
    ∧ ∀ (j : Nat) (q : Principal), s.openAt a = some j → s.mayWrite x.who (a / 0x1000) = true →
      codePrincipal (s.get (protStageInfoProposer j)) = some q → s.mayWrite q (a / 0x1000) = true →
      (q = x.who → Gives (exec .approvalEvaluation s) fun t => logged 2 t ∧ t.stOpen j = false ∧ RegsKept s t (logs j))
      ∧ (q ≠ x.who → x.crc.toNat ≠ crc16Stage (s.reg (protStageValue j)) →
          Gives (exec .approvalEvaluation s) fun t => logged 3 t ∧ t.stOpen j = false ∧ RegsKept s t (logs j))
      ∧ (q ≠ x.who → x.crc.toNat = crc16Stage (s.reg (protStageValue j)) →
          (s.get (protStageRemainACycles j) = 0 → Gives (exec .approvalEvaluation s) fun t =>
            logged 4 t ∧ t.stOpen j = false ∧ RegsKept s t (logs j))
          ∧ (s.get (protStageRemainACycles j) ≠ 0 → s.commit.isSome = true → Gives (exec .approvalEvaluation s) fun t =>
            t.stOpen j = false ∧ t.stHeld j = true ∧ t.prot.approvals = rest ∧ RegsKept s t [protStageInfo j, protStageRemain j])
          ∧ (s.get (protStageRemainACycles j) ≠ 0 → s.commit = none → Gives (exec .approvalEvaluation s) fun t =>
              let v := s.reg (protStageValue j)
              logged 1 t ∧ t.stOpen j = false
                ∧ (a = supDebugEn → t.bit supDebugEnDebug = v.getLsbD 0 ∧ (v.getLsbD 0 = false →
                    t.bit fltFaultnForce = false ∧ (∀ n, (t.peOf n).jtagHalt = false) ∧ (∀ n, (t.eyeOf n).jtagHalt = false)
                      ∧ t.sup.jtagHalt = false))
                ∧ (a = supKeyPolicy → ∀ i < 4, v.toNat % 16 = 2 ^ i → s.revokedSlots.getLsbD i = false →
                    let others := (List.range 4).any fun k => k != i && Config.keyFused.getLsbD k && !s.revokedSlots.getLsbD k
                    t.revokedSlots = (if others then s.revokedSlots ||| BitVec.ofNat 4 (2 ^ i) else s.revokedSlots)
                      ∧ (others = false → (t.reg (hdrErrCause pgSup)).getLsbD 9 = true))
                ∧ (∀ n < 192, a = bankAllow n → t.reg a = v &&& 0x03FFFFFB
                    ∧ t.get (bankBankstOwner n) = (if s.ownerOf n ≠ 0 ∧ t.allows n (s.get (bankBankstOwner n)) = false then 0 else s.get (bankBankstOwner n))
                    ∧ t.bit (bankBankstPending n) = (s.bit (bankBankstPending n) && t.allows n (s.get (bankBankstNext n)))
                    ∧ RegsKept s t (a :: bankBankst n :: logs j)))
          ∧ (∀ r, regRow a = some r → s.get (protStageRemainACycles j) ≠ 0 → s.commit = none →
              a ≠ supDebugEn → a ≠ supKeyPolicy → ¬ (bankAllow 0 ≤ a ∧ a ≤ bankAllow 191) →
              Gives (exec .approvalEvaluation s) fun t => logged 1 t ∧ t.stOpen j = false
                ∧ t.reg a = (s.reg a &&& ~~~r.rws) ||| (s.reg (protStageValue j) &&& r.rws) ∧ RegsKept s t (a :: logs j))))
    ∧ ∀ (i : HexIx) (s : State), s.stOpen i.val = true → s.get (protStageRemainACycles i.val) = 0 →
        Gives (exec (.windowExpiry i) s) fun t => t.get (protLogInfoOutcome (s.get protLogHeadNext)) = 4
          ∧ t.stOpen i.val = false ∧ t.prot = s.prot ∧ MemKept s t

/-- An accepted COMMIT with GO 1 while none runs, the boot has completed and the supervisor is there, and a snapshot
that fits, starts a commit of the snapshot at that instant to the slot that is not the Last, or slot 0 without one,
with SEQ one higher or 1; an accepted REVERT with key 0xA5 by a host or SUP while REVERT_EN.HOST is 1 starts a factory
slot the same way; both make the slot's header invalid, read BUSY and change no register but COMMIT_STAT and
SNAP_SIZE. COMMIT_COMPLETE verified leaves the slot's bytes as Tables 3-3 to 3-5 lay them out, this slot the Last,
COMMITS one higher (saturating), SEQ of every captured page the new one, BUSY 0; not verified it keeps the old Last.
REVERT_COMPLETE verified writes the factory slot and resets the device with cause 4. A COMMIT or REVERT is refused
with REFUSED 1 while one runs, 2 during boot or a supervisor restart, 3 with the supervisor lost, a COMMIT with 4
where the snapshot does not fit: INSOLE raises IRQ_RAW bit 2, and nothing else changes but the size that a commit too
big leaves standing; a REVERT by an engine or with REVERT_EN.HOST 0 only sets ERR_CAUSE bit 9, one with another key
and a COMMIT with GO 0 do nothing. A value held during the commit takes effect at its completion, verified or not: its
protected register (of those with no effect of their own) takes it in its RWS bits, and APPLIED is logged. (Rests on
the model's own readings and choices in assumption rows 26, 27 and 28.) -/
def Obligations.CommitsWriteTheSlotThatIsNotTheLast : Prop :=
  ∀ s : State,
    let slot := match s.chip.last with | some (l, _) => !l | none => false
    let seq : Word := match s.chip.last with | some (_, q) => q + 1 | none => 1
    let started (words : List Word) (records : Nat) (factory : Bool) (t : State) : Prop :=
      t.get insoleCommitStatBusy = 1 ∧ t.chip = s.chip ∧ MemKeptBut s t (slotBase slot) 64 ∧ t.slotValid slot = false
        ∧ RegsKept s t [insoleCommitStat, insoleSnapSize]
        ∧ ∃ j, t.commit = some j ∧ j.slot = slot ∧ j.seq = seq ∧ j.words = words ∧ j.records = records ∧ j.factory = factory
    (∀ (p : Principal) (v : Word), s.letsIn p insoleCommit = true → s.commitBar = 0 → v.getLsbD 0 = true →
      72 + 4 * s.snapshot.flatten.length ≤ 0x100000 →
      Gives (exec (.commit p v) s) (started s.snapshot.flatten s.snapshot.length false))
    ∧ (∀ (p : Principal) (v : Word), s.letsIn p insoleRevert = true → s.commitBar = 0 → bitsOf v 0 8 = 0xA5 →
      (∀ n, p ≠ .pe n) → s.bit insoleRevertEnHost = true → Gives (exec (.revert p v) s) (started [] 0 true))
    ∧ (∀ (p : Principal) (v : Word),
      let bar : Nat := if s.commit.isSome then 1 else if s.booted = false ∨ s.supRestarting = true then 2 else if s.supLost = true then 3 else 0
      let refused (c : Instr) (code : Nat) : Prop := Gives (exec c s) fun t =>
        t.get insoleCommitStatRefused = code ∧ (t.reg (hdrIrqRaw pgInsole)).getLsbD 2 = true
          ∧ OnlyRegs s t [insoleCommitStat, hdrIrqRaw pgInsole]
      let mayRevert : Prop := s.bit insoleRevertEnHost = true ∧ ∀ n, p ≠ .pe n
      (s.reaches p = true → s.mayWrite p pgInsole = true →
        (v.getLsbD 0 = false → exec (.commit p v) s = .next s)
        ∧ (bar ≠ 0 → v.getLsbD 0 = true → refused (.commit p v) bar)
        ∧ (bar = 0 → v.getLsbD 0 = true → 0x100000 < 72 + 4 * s.snapshot.flatten.length → refused (.commit p v) 4)
        ∧ (bitsOf v 0 8 ≠ 0xA5 → exec (.revert p v) s = .next s)
        ∧ (bitsOf v 0 8 = 0xA5 → ¬mayRevert → Gives (exec (.revert p v) s) fun t =>
            t.reg (hdrErrCause pgInsole) = s.reg (hdrErrCause pgInsole) ||| 0x200 ∧ OnlyRegs s t [hdrErrCause pgInsole])
        ∧ (bitsOf v 0 8 = 0xA5 → mayRevert → bar ≠ 0 → refused (.revert p v) bar)))
    ∧ (∀ (j : CommitJob) (i : Fin 16) (q : Principal) (r : RegRow) (good : Bool), s.commit = some j → j.factory = false → s.prot.held = [(i, q)] →
      let a := s.get (protStageAddrAddr i.val)
      regRow a = some r → a ≠ supDebugEn → a ≠ supKeyPolicy → ¬ (bankAllow 0 ≤ a ∧ a ≤ bankAllow 191) → a / 0x1000 = pgProt →
      Gives (exec (.commitComplete good) s) fun t =>
        t.prot.held = [] ∧ t.stHeld i.val = false ∧ t.reg a = (s.reg a &&& ~~~r.rws) ||| (s.reg (protStageValue i.val) &&& r.rws)
          ∧ t.get (protLogInfoOutcome (s.get protLogHeadNext)) = 1 ∧ t.get (protLogInfoApprover (s.get protLogHeadNext)) = pCode q)
    ∧ ∀ j, s.commit = some j → s.prot.held = [] →
      let img := slotBytes j.seq j.words j.records j.factory (s.reg (hdrId pgDev))
      (j.factory = false → Gives (exec (.commitComplete true) s) fun t =>
        t.commit = none ∧ t.get insoleCommitStatBusy = 0 ∧ t.chip.last = some (j.slot, j.seq)
          ∧ t.bytes (slotBase j.slot) img.length = img ∧ MemKeptBut s t (slotBase j.slot) img.length
          ∧ t.rn insoleCommits = min (s.rn insoleCommits + 1) 0xFFFFFFFF ∧ t.reg insoleLastSeq = j.seq
          ∧ (∀ p ∈ j.pages, t.reg (hdrSeq p) = j.seq) ∧ (t.reg (hdrIrqRaw pgInsole)).getLsbD 1 = true)
      ∧ (j.factory = false → Gives (exec (.commitComplete false) s) fun t =>
        t.commit = none ∧ t.get insoleCommitStatBusy = 0 ∧ t.chip.last = s.chip.last ∧ t.get insoleCommitStatRefused = 5
          ∧ (t.reg (hdrIrqRaw pgInsole)).getLsbD 2 = true ∧ MemKept s t)
      ∧ (j.factory = true → Gives (exec (.revertComplete true) s) fun t =>
        t.commit = none ∧ t.get rstCauseLast = 4 ∧ t.booted = false
          ∧ (insoleBase ≤ slotBase j.slot → t.bytes (slotBase j.slot) img.length = img))

/-- For every engine, gap d of at least one E cycle, register fields and state in which the engine stands at no delay
slot and no loop end and no result for rd, ra or rb is in flight: each of ADD, SUB, AND, OR, XOR, NOR, SLT, SLTU, SHL,
SHR, SAR, MIN, MAX (readable at distance 1) and MUL, MULH, MULHU (distance 3) completes with the value of Table 10-3
in rd, a write of K0 discarded, PC one on, CYCLE and the watchdog d on, every other register, special register, stack,
stream and all memory and registers of the device as before. (Rests on the model's own readings and choices in
assumption rows 66 and 68.) -/
def Obligations.RegisterOperationsOfTwoSources : Prop :=
  ∀ (e : EngIx) (d : Nat) (rd ra rb : RegF) (s : State), s.steady e.val d = true → s.landed e.val d rd = true →
    s.landed e.val d ra = true → s.landed e.val d rb = true →
    let a := s.fieldVal e.val ra
    let b := s.fieldVal e.val rb
    let sh := b.toNat % 32
    let gives (i : Nat → Instr) (dist : Nat) (v : Word) : Prop := Runs s e d i fun t => Lands s t e.val d (s.physOf e.val rd) v dist
    gives (.add e · rd ra rb) 1 (a + b) ∧ gives (.sub e · rd ra rb) 1 (a - b)
      ∧ gives (.and e · rd ra rb) 1 (a &&& b) ∧ gives (.or e · rd ra rb) 1 (a ||| b)
      ∧ gives (.xor e · rd ra rb) 1 (a ^^^ b) ∧ gives (.nor e · rd ra rb) 1 (~~~(a ||| b))
      ∧ gives (.slt e · rd ra rb) 1 (if a.toInt < b.toInt then 1 else 0)
      ∧ gives (.sltu e · rd ra rb) 1 (if a.toNat < b.toNat then 1 else 0)
      ∧ gives (.shl e · rd ra rb) 1 (BitVec.ofNat 32 (a.toNat * 2 ^ sh))
      ∧ gives (.shr e · rd ra rb) 1 (BitVec.ofNat 32 (a.toNat / 2 ^ sh))
      ∧ gives (.sar e · rd ra rb) 1 (BitVec.ofInt 32 (a.toInt / (2 ^ sh : Nat)))
      ∧ gives (.min e · rd ra rb) 1 (BitVec.ofInt 32 (min a.toInt b.toInt))
      ∧ gives (.max e · rd ra rb) 1 (BitVec.ofInt 32 (max a.toInt b.toInt))
      ∧ gives (.mul e · rd ra rb) 3 (BitVec.ofNat 32 (a.toNat * b.toNat))
      ∧ gives (.mulh e · rd ra rb) 3 (BitVec.ofInt 32 (a.toInt * b.toInt / 2 ^ 32))
      ∧ gives (.mulhu e · rd ra rb) 3 (BitVec.ofNat 32 (a.toNat * b.toNat / 2 ^ 32))

/-- Under the conditions of the statement on two sources, each of ADDI, ANDI, ORI, XORI, LUI, SLTI, SLTIU, SHLI, SHRI,
SARI, EXT, EXTS, INS (which also reads rd), CLZ, POPC, BSWAP and BSWAPH completes with its value in rd, readable at
distance 1, with the same frame. (Rests on the model's own readings and choices in assumption rows 66 and 68.) -/
def Obligations.RegisterOperationsOfOneSource : Prop :=
  ∀ (e : EngIx) (d : Nat) (rd ra : RegF) (imm : Half) (f g : BitVec 5) (s : State), s.steady e.val d = true →
    s.landed e.val d rd = true → s.landed e.val d ra = true →
    let a := s.fieldVal e.val ra
    let old := s.fieldVal e.val rd
    let pos := f.toNat
    let len := g.toNat + 1
    let mask : Word := BitVec.ofNat 32 ((2 ^ len - 1) * 2 ^ pos)
    let gives (i : Nat → Instr) (v : Word) : Prop := Runs s e d i fun t => Lands s t e.val d (s.physOf e.val rd) v 1
    gives (.addi e · rd ra imm) (BitVec.ofInt 32 (a.toInt + imm.toInt))
      ∧ gives (.andi e · rd ra imm) (a &&& BitVec.ofNat 32 imm.toNat)
      ∧ gives (.ori e · rd ra imm) (a ||| BitVec.ofNat 32 imm.toNat)
      ∧ gives (.xori e · rd ra imm) (a ^^^ BitVec.ofNat 32 imm.toNat)
      ∧ gives (.lui e · rd imm) (BitVec.ofNat 32 (imm.toNat * 2 ^ 16))
      ∧ gives (.slti e · rd ra imm) (if a.toInt < imm.toInt then 1 else 0)
      ∧ gives (.sltiu e · rd ra imm) (if a.toNat < (BitVec.ofInt 32 imm.toInt).toNat then 1 else 0)
      ∧ gives (.shli e · rd ra g) (BitVec.ofNat 32 (a.toNat * 2 ^ g.toNat))
      ∧ gives (.shri e · rd ra g) (BitVec.ofNat 32 (a.toNat / 2 ^ g.toNat))
      ∧ gives (.sari e · rd ra g) (BitVec.ofInt 32 (a.toInt / (2 ^ g.toNat : Nat)))
      ∧ gives (.ext e · rd ra f g) (BitVec.ofNat 32 (a.toNat / 2 ^ pos % 2 ^ len))
      ∧ gives (.exts e · rd ra f g) (BitVec.ofInt 32 (signedN len (a.toNat / 2 ^ pos)))
      ∧ gives (.ins e · rd ra f g) ((old &&& ~~~mask) ||| ((a <<< pos) &&& mask))
      ∧ gives (.clz e · rd ra) (if a = 0 then 32 else BitVec.ofNat 32 (31 - a.toNat.log2))
      ∧ gives (.popc e · rd ra) (BitVec.ofNat 32 ((List.range 32).countP a.getLsbD))
      ∧ gives (.bswap e · rd ra)
          (a.extractLsb' 0 8 ++ a.extractLsb' 8 8 ++ a.extractLsb' 16 8 ++ a.extractLsb' 24 8)
      ∧ gives (.bswaph e · rd ra)
          (a.extractLsb' 16 8 ++ a.extractLsb' 24 8 ++ a.extractLsb' 0 8 ++ a.extractLsb' 8 8)

/-- Under the same conditions: CRC with n of 1, 2 or 4 and POLY of 0 to 4 lands the accumulator advanced over the low
n bytes of ra; HASH lands the inverted CRC-32 step over ra then rb from rd; CAMS with an even rd lands the number and
data of the lowest valid entry that matches {rb, ra} under its mask, or 0x80000000 and 0; CAMW with a word-aligned
block stores the entry ra[5:0] from the 24 bytes at rb; CAMR stores the entry's 24 bytes at rb, and memory outside
those bytes stands. (Rests on the model's own readings and choices in assumption rows 66 and 68.) -/
def Obligations.ChecksumAndCamInstructions : Prop :=
  ∀ (e : EngIx) (d : Nat) (rd ra rb : RegF) (s : State), s.steady e.val d = true → s.landed e.val d rd = true →
    s.landed e.val d ra = true → s.landed e.val d rb = true →
    let a := s.fieldVal e.val ra
    let b := s.fieldVal e.val rb
    let old := s.fieldVal e.val rd
    let r := s.physOf e.val rd
    let la := b.toNat % 0x10000
    let base := 0x18000000 + e.val * 0x20000 + 0x10000
    let block := (List.range 24).map fun i => s.byte (base + (la + i) % 0x10000)
    let entry := (s.peOf e.val).cam.rd {} (a.toNat % 64)
    let hit := (List.range 64).find? fun i =>
      let c := (s.peOf e.val).cam.rd {} i
      c.valid && (c.key ^^^ (b ++ a)) &&& c.mask == 0
    (∀ (n : BitVec 5) (poly : BitVec 3), n.toNat ∈ [1, 2, 4] → poly.toNat ≤ 4 →
      Runs s e d (.crc e · rd ra n poly) fun t => Lands s t e.val d r (crcW poly.toNat n.toNat old a) 1)
    ∧ (Runs s e d (.hash e · rd ra rb) fun t => Lands s t e.val d r
        (~~~(BitVec.ofNat 32 ((leBytes 4 a.toNat ++ leBytes 4 b.toNat).foldl (crcByteR 0xEDB88320) old.toNat))) 2)
    ∧ (rd.toNat % 2 = 0 → s.landed e.val d (rd + 1) = true → Runs s e d (.cams e · rd ra rb) fun t =>
        EngineMoves s t e.val d ∧ Flying s t e.val d [r, s.physOf e.val (rd + 1)]
          ∧ Wrote s t e.val [(s.physOf e.val (rd + 1), match hit with
              | some i => ((s.peOf e.val).cam.rd {} i).data | none => 0),
            (r, match hit with | some i => BitVec.ofNat 32 i | none => 0x80000000)])
    ∧ (la % 4 = 0 → Runs s e d (.camw e · ra rb) fun t =>
        let x := (t.peOf e.val).cam.rd {} (a.toNat % 64)
        x.key = BitVec.ofNat 64 (leNat (block.take 8)) ∧ x.mask = BitVec.ofNat 64 (leNat ((block.drop 8).take 8))
          ∧ x.data = BitVec.ofNat 32 (leNat ((block.drop 16).take 4)) ∧ x.valid = (block.getD 20 0).getLsbD 0
          ∧ (∀ i, i ≠ a.toNat % 64 → (t.peOf e.val).cam.rd {} i = (s.peOf e.val).cam.rd {} i)
          ∧ EngineMoves s (t.setPe e.val { t.peOf e.val with cam := (s.peOf e.val).cam }) e.val d ∧ Wrote s t e.val [])
    ∧ (la % 4 = 0 → Runs s e d (.camr e · ra rb) fun t =>
        (∀ i < 24, t.byte (base + (la + i) % 0x10000)
          = (leBytes 8 entry.key.toNat ++ leBytes 8 entry.mask.toNat ++ leBytes 4 entry.data.toNat
              ++ leBytes 4 entry.valid.toNat).getD i 0)
          ∧ (∀ x, (∀ i < 24, x ≠ base + (la + i) % 0x10000) → t.byte x = s.byte x)
          ∧ EngineMoves s { t with mem := s.mem } e.val d ∧ Wrote s t e.val [])

/-- Of a steady engine with its operands landed, in a device whose memory is canonical (an invariant stated
separately), LA being bits 15:0 of ra + sext(imm), aligned to the size: LDB and LDH land the byte or halfword zero-
extended, LDBS and LDHS sign-extended, LD the word; STB, STH and ST store the 1, 2 or 4 low bytes of rs, the lowest
first. LDD and STD do the same at DBANK x 4,096 + A with a SIZE of 0 to 2, bit 12 zero, and SIGN (LDD) only for a byte
or halfword, zero (STD). A load changes no byte of memory; a store changes none outside the stored ones; nothing else
of the device changes but what an issued instruction moves. (Rests on the model's own readings and choices in
assumption rows 66 and 68.) -/
def Obligations.LocalLoadsAndStores : Prop :=
  (∀ (e : EngIx) (d : Nat) (rd ra : RegF) (imm : Half) (s : State), Memory.wf s.mem = true → s.steady e.val d = true →
     s.landed e.val d rd = true → s.landed e.val d ra = true →
     let la := ((s.fieldVal e.val ra).toInt + imm.toInt) % 0x10000 |>.toNat
     let da := (s.peOf e.val).dbank.toNat * 4096 + imm.toNat % 4096
     let size := imm.toNat / 0x4000
     let num (at' n : Nat) : Nat :=
       leNat ((List.range n).map fun i => s.byte (0x18000000 + e.val * 0x20000 + 0x10000 + at' + i))
     let gives (i : Nat → Instr) (v : Word) : Prop := Runs s e d i fun t => Lands s t e.val d (s.physOf e.val rd) v 3
     gives (.ldb e · rd ra imm) (BitVec.ofNat 32 (num la 1))
       ∧ gives (.ldbs e · rd ra imm) (BitVec.ofInt 32 (signedN 8 (num la 1)))
       ∧ (la % 2 = 0 → gives (.ldh e · rd ra imm) (BitVec.ofNat 32 (num la 2))
           ∧ gives (.ldhs e · rd ra imm) (BitVec.ofInt 32 (signedN 16 (num la 2))))
       ∧ (la % 4 = 0 → gives (.ld e · rd ra imm) (BitVec.ofNat 32 (num la 4)))
       ∧ (size < 3 → imm.getLsbD 12 = false → (imm.getLsbD 13 = true → size < 2) → da % 2 ^ size = 0 →
           gives (.ldd e · rd imm) (if imm.getLsbD 13 then BitVec.ofInt 32 (signedN (8 * 2 ^ size) (num da (2 ^ size)))
             else BitVec.ofNat 32 (num da (2 ^ size)))))
  ∧ (∀ (e : EngIx) (d : Nat) (rs ra : RegF) (imm : Half) (s : State), s.steady e.val d = true →
       s.landed e.val d rs = true → s.landed e.val d ra = true →
       let la := ((s.fieldVal e.val ra).toInt + imm.toInt) % 0x10000 |>.toNat
       let da := (s.peOf e.val).dbank.toNat * 4096 + imm.toNat % 4096
       let size := imm.toNat / 0x4000
       let stored (i : Nat → Instr) (at' n : Nat) : Prop := Runs s e d i fun t =>
         let base := 0x18000000 + e.val * 0x20000 + 0x10000 + at'
         (∀ i < n, t.byte (base + i) = (s.fieldVal e.val rs).extractLsb' (8 * i) 8) ∧ MemKeptBut s t base n
           ∧ EngineMoves s { t with mem := s.mem } e.val d ∧ Wrote s t e.val [] ∧ Flying s t e.val d []
       stored (.stb e · rs ra imm) la 1
         ∧ (la % 2 = 0 → stored (.sth e · rs ra imm) la 2)
         ∧ (la % 4 = 0 → stored (.st e · rs ra imm) la 4)
         ∧ (size < 3 → imm.toNat / 0x1000 % 4 = 0 → da % 2 ^ size = 0 → stored (.std e · rs imm) da (2 ^ size)))

/-- Under the same conditions, with an offset aligned to the size: FLD (SIZE 3 with rd a multiple of 4) and RLD (SIZE
2) whose tag's flag is set clear that flag, append to the engine's far loads one of its size at 0x10000000 + FBANK x
4,096 + offset or RPAGE x 4,096 + offset within the page, and make its destination registers unreadable; DDQ appends
its query with the key of R346; FST and RST with TAG 0 and room in the store queue append a store of the low bytes of
their source register, quad for SIZE 3. Nothing is read or written yet, and nothing else of the device changes. (Rests
on the model's own readings and choices in assumption rows 66 and 68.) -/
def Obligations.FarAccessesIssue : Prop :=
  ∀ (e : EngIx) (d : Nat) (r ra rb : RegF) (tag : OctIx) (size : BitVec 2) (off : BitVec 11) (s : State),
    s.steady e.val d = true → s.landed e.val d ra = true → s.landed e.val d rb = true →
    let pe := s.peOf e.val
    let a := s.fieldVal e.val ra
    let b := s.fieldVal e.val rb
    let po := (a.toInt + off.toInt) % 4096 |>.toNat
    let n := if size.toNat = 3 then 16 else 2 ^ size.toNat
    let fa := 0x10000000 + pe.fbank.toNat * 4096 + po
    let rAddr := pe.rpage.toNat * 4096 + po
    let fields := if size.toNat = 3 then [r, r + 1, r + 2, r + 3] else [r]
    let rests (t : State) : Prop := Wrote s t e.val [] ∧ EngineMoves s (t.setPe e.val { t.peOf e.val with
      fflag := pe.fflag, far := pe.far, stq := pe.stq, seq := pe.seq }) e.val d
    let loads (x : FarLoad) (t : State) : Prop := (t.peOf e.val).far = pe.far ++ [x]
      ∧ (∀ i < 8, (t.peOf e.val).fflag.getLsbD i = (pe.fflag.getLsbD i && i != tag.val))
      ∧ Flying s t e.val d x.dst ∧ (t.peOf e.val).stq = pe.stq ∧ (t.peOf e.val).seq = pe.seq + 1
    let stores (x : FarStore) (t : State) : Prop := (t.peOf e.val).stq = pe.stq ++ [x] ∧ Flying s t e.val d []
      ∧ (t.peOf e.val).fflag = pe.fflag ∧ (t.peOf e.val).far = pe.far ∧ (t.peOf e.val).seq = pe.seq + 1 ∧ rests t
    (pe.fflag.getLsbD tag.val = true → s.landed e.val d r = true →
      (po % n = 0 → (size.toNat = 3 → r.toNat % 4 = 0) → (∀ f ∈ fields, s.landed e.val d f = true) →
        Runs s e d (.fld e · r ra tag size off) fun t => rests t ∧
          loads ⟨tag.val, fields.map (s.physOf e.val), fa, size.toNat, 0, s.portBErr (.pe e) fa n false, pe.seq⟩ t)
      ∧ (po % 4 = 0 → Runs s e d (.rld e · r ra tag 2 off) fun t => rests t ∧
          loads ⟨tag.val, [s.physOf e.val r], rAddr, 2, 1, 0, pe.seq⟩ t)
      ∧ Runs s e d (.ddq e · r ra rb tag size) fun t => rests { t with fab := { t.fab with dduQ := s.fab.dduQ } } ∧
          loads ⟨tag.val, [s.physOf e.val r], 0, 2, 2, 0, pe.seq⟩ t
          ∧ t.fab.dduQ = s.fab.dduQ ++ [⟨e.val, tag.val, BitVec.ofNat 4 (s.get (dduGroupGroup (s.roleOf e.val))),
              b.extractLsb' 0 16 ++ a, b.extractLsb' 16 16, size.toNat⟩])
    ∧ (pe.stq.length < 16 →
      (po % n = 0 → (size.toNat = 3 → r.toNat % 4 = 0) → (∀ f ∈ fields, s.landed e.val d f = true) →
        Runs s e d (.fst e · r ra 0 size off) (stores
          ⟨fa, (fields.flatMap fun f => leBytes 4 (s.fieldVal e.val f).toNat).take n, false, s.portBErr (.pe e) fa n true, pe.seq⟩))
      ∧ (po % 4 = 0 → s.landed e.val d r = true → Runs s e d (.rst e · r ra 0 2 off) (stores
          ⟨rAddr, leBytes 4 (s.fieldVal e.val r).toNat, true, 0, pe.seq⟩)))

/-- With the engine's accesses reaching the device, no error planted in memory, no earlier access to the same word
outstanding, and no port A write to that word in the same E cycle: the arrival of a far load of one word or less from
device space accepted at issue lands its little-endian bytes zero-extended in its register, ends its flight and sets
its flag; of one refused at issue lands 0, sets its FERR tag, CAUSE and FERR_ADDR and the flag. The arrival of a
quadword lands its four words in its four registers. The arrival of an RLD does to the device what that engine's read
of the register does and lands its answer. An RST performed does what that engine's 32-bit register write does, and
where that write is refused records it like a refused store. The store at the head of the queue, accepted at issue,
writes its bytes at its address and no other; refused, it writes nothing and sets STORE_ERR, CAUSE and FERR_ADDR.
Device registers stand. (Rests on the model's own readings and choices in assumption rows 70 and 71.) -/
def Obligations.FarAccessesArePerformed : Prop :=
  ∀ (e : EngIx) (s : State), Memory.wf s.mem = true → s.reaches (.pe e) = true → s.bank.ecc = [] →
    let pe := s.peOf e.val
    (∀ (tag : OctIx) (x : FarLoad) (r : Nat),
      pe.far.find? (fun x => x.tag == tag.val && x.kind != 2) = some x → s.loadBlocked e.val x = false → x.kind = 0 →
      x.size < 3 → x.dst = [r] → (∀ h ∈ pe.hazards, h.reg = r → h.clash = false ∧ h.tag = some tag.val) →
      Gives (exec (.farLoadArrival e tag) s) fun t =>
        let pt := t.peOf e.val
        let v := if x.err = 0 then leNat ((List.range (2 ^ x.size)).map fun i => s.byte (x.addr + i)) else 0
        Wrote s t e.val [(r, BitVec.ofNat 32 v)] ∧ (r ≠ 0 → pt.inFlight r = false) ∧ pt.fflag = pe.fflag ||| BitVec.ofNat 8 (2 ^ tag.val)
          ∧ pt.far = removeFirst (fun y => y.tag == x.tag) pe.far
          ∧ (x.err = 0 → pt.ferrTag = pe.ferrTag ∧ pt.ferrCause = pe.ferrCause ∧ pt.ferrAddr = pe.ferrAddr)
          ∧ (x.err ≠ 0 → pt.ferrTag = pe.ferrTag ||| BitVec.ofNat 8 (2 ^ tag.val) ∧ pt.ferrCause = BitVec.ofNat 3 x.err
              ∧ pt.ferrAddr = BitVec.ofNat 32 x.addr ∧ pt.farPending = (pe.farPending || pe.farTrap))
          ∧ pt.pc = pe.pc ∧ pt.stq = pe.stq ∧ OnlyRegs s { t with fab := { t.fab with pe := s.fab.pe } } [])
    ∧ (∀ (tag : OctIx) (x : FarLoad) (r0 r1 r2 r3 : Nat),
      pe.far.find? (fun x => x.tag == tag.val && x.kind != 2) = some x → s.loadBlocked e.val x = false → x.kind = 0 →
      x.size = 3 → x.err = 0 → x.dst = [r0, r1, r2, r3] → x.dst.Nodup → (∀ h ∈ pe.hazards, h.reg ∈ x.dst → h.clash = false ∧ h.tag = some tag.val) →
      Gives (exec (.farLoadArrival e tag) s) fun t =>
        let pt := t.peOf e.val
        let v (i : Nat) : Word := BitVec.ofNat 32 (leNat ((List.range 4).map fun k => s.byte (x.addr + 4 * i + k)))
        Wrote s t e.val [(r0, v 0), (r1, v 1), (r2, v 2), (r3, v 3)] ∧ (∀ r ∈ x.dst, r ≠ 0 → pt.inFlight r = false)
          ∧ pt.fflag = pe.fflag ||| BitVec.ofNat 8 (2 ^ tag.val) ∧ pt.far = removeFirst (fun y => y.tag == x.tag) pe.far
          ∧ pt.pc = pe.pc ∧ pt.stq = pe.stq ∧ OnlyRegs s { t with fab := { t.fab with pe := s.fab.pe } } [])
    ∧ (∀ (tag : OctIx) (x : FarLoad) (r : Nat),
      pe.far.find? (fun x => x.tag == tag.val && x.kind != 2) = some x → s.loadBlocked e.val x = false → x.kind = 1 →
      x.addr < 2 ^ 24 → x.addr % 4 = 0 → s.convHolds (.pe e) x.addr = false → x.dst = [r] →
      (∀ h ∈ pe.hazards, h.reg = r → h.clash = false ∧ h.tag = some tag.val) →
      Gives (exec (.rcRead (.pe e) ⟨BitVec.ofNat 24 x.addr, 4⟩) s) fun u => Gives (exec (.farLoadArrival e tag) s) fun t =>
        Wrote s t e.val [(r, u.readData (.pe e))] ∧ (t.peOf e.val).fflag = pe.fflag ||| BitVec.ofNat 8 (2 ^ tag.val)
          ∧ (r ≠ 0 → (t.peOf e.val).inFlight r = false) ∧ (t.peOf e.val).far = removeFirst (fun y => y.tag == x.tag) pe.far
          ∧ OnlyRegs u { t with fab := { t.fab with pe := u.fab.pe } } [])
    ∧ (∀ (x : FarStore) (rest : List FarStore), pe.stq = x :: rest → s.storeBlocked e.val x = false → x.isReg = true →
      x.addr < 2 ^ 24 → x.addr % 4 = 0 →
      let s' := s.setPe e.val { pe with stq := rest }
      let v := BitVec.ofNat 32 (leNat x.data)
      Gives (exec (.registerWrite (.pe e) (BitVec.ofNat 24 x.addr) 4 (v.setWidth 64)) s') fun u =>
        Gives (exec (.farStorePerformed e) s) fun t =>
          t = if s'.denies (.pe e) x.addr v then u.setPe e.val { u.peOf e.val with
            storeErr := true, ferrCause := BitVec.ofNat 3 errDenied, ferrAddr := BitVec.ofNat 32 x.addr, farPending := (u.peOf e.val).farPending || (u.peOf e.val).farTrap } else u)
    ∧ (∀ (x : FarStore) (rest : List FarStore), pe.stq = x :: rest → s.storeBlocked e.val x = false → x.isReg = false → s.meets x.addr x.data.length = [] →
      Gives (exec (.farStorePerformed e) s) fun t =>
        let pt := t.peOf e.val
        pt.stq = rest ∧ pt.regs = pe.regs ∧ pt.far = pe.far ∧ RegsKept s t []
          ∧ (x.err = 0 → (∀ i < x.data.length, t.byte (x.addr + i) = x.data.getD i 0) ∧ MemKeptBut s t x.addr x.data.length
              ∧ pt.storeErr = pe.storeErr ∧ pt.ferrCause = pe.ferrCause)
          ∧ (x.err ≠ 0 → MemKept s t ∧ pt.storeErr = true ∧ pt.ferrCause = BitVec.ofNat 3 x.err
              ∧ pt.ferrAddr = BitVec.ofNat 32 x.addr))

/-- Under the same conditions at the transfer and with no loop end at either slot, followed by two NOPs one E cycle
apart: after B.cond PC is TARGET if the condition of COND holds on ra and rb (or bit RB of ra) as they stood at its
issue, else three on; after CALL it is TARGET, WBASE one on modulo 16, DEPTH one more up to 16 and the entry {IBANK,
address + 3} on the return stack (DEPTH below 14 where RSOPT is TRAP); after JR it is ra[12:0]; after RET (DEPTH not 0
where RSOPT is TRAP, an entry that has been written) it is the popped PC, with IBANK restored, WBASE one back and
DEPTH one less. Both slots run one after the other in the old window. (Rests on the model's own readings and choices
in assumption rows 66, 68 and 69.) -/
def Obligations.ControlTransfersAfterTwoSlots : Prop :=
  ∀ (e : EngIx) (d : Nat) (ra rb : RegF) (s : State), s.steady e.val d = true → s.landed e.val d ra = true →
    s.landed e.val d rb = true →
    let pe := s.peOf e.val
    regionOf (pe.pc + 1) ≠ 2 → regionOf (pe.pc + 2) ≠ 2 → pe.loopAt pe.ibank (pe.pc + 1) = none →
    pe.loopAt pe.ibank (pe.pc + 2) = none →
    let a := s.fieldVal e.val ra
    let b := s.fieldVal e.val rb
    let thenAt (i : Nat → Instr) (pc : BitVec 13) (wbase : BitVec 4) (ibank : BitVec 3) (more : Pe → Prop) : Prop :=
      Runs s e d i fun t1 => (t1.peOf e.val).pc = pe.pc + 1 ∧ (t1.peOf e.val).wbase = pe.wbase ∧ Wrote s t1 e.val []
        ∧ OnlyRegs s { t1 with fab := { t1.fab with pe := s.fab.pe } } []
        ∧ Runs t1 e 1 (.nop e ·) fun t2 => (t2.peOf e.val).pc = pe.pc + 2 ∧ (t2.peOf e.val).wbase = pe.wbase
        ∧ Runs t2 e 1 (.nop e ·) fun t3 => (t3.peOf e.val).pc = pc ∧ (t3.peOf e.val).wbase = wbase
        ∧ (t3.peOf e.val).ibank = ibank ∧ (t3.peOf e.val).xfer = none ∧ Wrote s t3 e.val [] ∧ more (t3.peOf e.val)
    let same (p : Pe) : Prop := p.depth = pe.depth ∧ p.rstack = pe.rstack
    (∀ (cond : BitVec 3) (target : BitVec 13),
      let holds := [a == b, a != b, decide (a.toInt < b.toInt), decide (b.toInt ≤ a.toInt), decide (a.toNat < b.toNat),
        decide (b.toNat ≤ a.toNat), a.getLsbD rb.toNat, !a.getLsbD rb.toNat].getD cond.toNat false
      thenAt (.bCond e · ra rb cond target) (if holds then target else pe.pc + 3) pe.wbase pe.ibank same)
    ∧ thenAt (.jr e · ra) (a.setWidth 13) pe.wbase pe.ibank same
    ∧ (∀ target : BitVec 13, (pe.rsopt = true → pe.depth < 14) → thenAt (.call e · target) target (pe.wbase + 1) pe.ibank
        fun p => p.depth = min 16 (pe.depth + 1) ∧ p.rstack.rd none pe.sp.toNat = some (pe.ibank ++ (pe.pc + 3)))
    ∧ ∀ h : Half, (pe.rsopt = true → pe.depth ≠ 0) → pe.rstack.rd none (pe.sp - 1).toNat = some h →
        thenAt (.ret e ·) (h.setWidth 13) (pe.wbase - 1) (h.extractLsb' 13 3) fun p => p.depth = pe.depth - 1

/-- In a steady engine: LOOP and LOOPR with an END in the same region, a free entry and a count other than 0 push
{START, END, IBANK, count}, with count 0 continue after END; LPOP pops; a NOP at END of the innermost loop goes to
START with the count one less, or pops at 1; NOP moves on; HALT moves on and no later instruction issues; SYNC
restarts the watchdog; TRAP c of a class that is not fatal, outside a handler, enters the handler: EPC and the return
stack take {IBANK, address + 1}, ECAUSE 10 + c and TACTIVE, WBASE one on, PC TVEC, TRAP_INFO its class and PC; WAITF
moves on when every flag of its mask is 1 and otherwise waits, and while it waits no other instruction of the engine
issues; MFS lands special registers 0 to 15 as Table 9-6 lays them out; MTS writes the RW fields, clears W1C ones and
discards the rest. (Rests on the model's own readings and choices in assumption rows 66, 68 and 79.) -/
def Obligations.LoopsAndSystemInstructions : Prop :=
  ∀ (e : EngIx) (d : Nat) (r : RegF) (s : State), s.poised e.val d = true → s.landed e.val d r = true →
    let pe := s.peOf e.val
    let a := s.fieldVal e.val r
    let steady := s.steady e.val d
    let but (t : State) (f : Pe → Pe) : State := t.setPe e.val (f (t.peOf e.val))
    let moves (t : State) : Prop := EngineMoves s t e.val d ∧ Wrote s t e.val [] ∧ Flying s t e.val d []
    (∀ (l : LoopEntry) (rest : List LoopEntry), pe.loops = l :: rest → l.ibank = pe.ibank → l.stop = pe.pc →
      Runs s e d (.nop e ·) fun t => (t.peOf e.val).pc = (if 1 < l.count then l.start else pe.pc + 1)
        ∧ (t.peOf e.val).loops = if 1 < l.count then { l with count := l.count - 1 } :: rest else rest)
    ∧ (steady = true →
      (∀ (len : BitVec 10) (count : Half), len ≠ 0 → pe.pc.toNat + len.toNat < 0x2000 →
        regionOf (pe.pc + len.zeroExtend 13) = regionOf (pe.pc + 1) → pe.loops.length < 4 →
        let stop := pe.pc + len.zeroExtend 13
        let pushed (n : Nat) (i : Nat → Instr) : Prop := Runs s e d i fun t =>
          (t.peOf e.val).pc = (if n = 0 then stop + 1 else pe.pc + 1)
            ∧ (t.peOf e.val).loops = (if n = 0 then pe.loops else ⟨pe.pc + 1, stop, pe.ibank, n⟩ :: pe.loops)
            ∧ EngineMoves s (but t fun p => { p with pc := pe.pc + 1, loops := pe.loops }) e.val d ∧ Wrote s t e.val []
        pushed count.toNat (.loop e · len count)
          ∧ ((d = 1 → s.physOf e.val r ∉ pe.justW) → pushed (a.toNat % 0x10000) (.loopr e · len r)))
      ∧ (∀ (l : LoopEntry) (rest : List LoopEntry), pe.loops = l :: rest → Runs s e d (.lpop e ·) fun t =>
          (t.peOf e.val).loops = rest ∧ moves (but t fun p => { p with loops := pe.loops }))
      ∧ Runs s e d (.nop e ·) moves
      ∧ (Runs s e d (.halt e ·) fun t => (t.peOf e.val).halted = true
          ∧ moves (but t fun p => { p with halted := pe.halted }) ∧ exec (.nop e d) t = .next t)
      ∧ (Runs s e d (.sync e ·) fun t => (t.peOf e.val).wdog = 0
          ∧ moves (but t fun p => { p with wdog := pe.wdog + d }))
      ∧ (∀ c : BitVec 5, c.toNat ≤ 5 → (s.get (peTrapFatalMask (s.roleOf e.val))).testBit (10 + c.toNat) = false →
          pe.tactive = false → Runs s e d (.trap e · c) fun t =>
          let p := t.peOf e.val
          p.pc = BitVec.ofNat 13 (pe.tvec.toNat % 0x1000) ∧ p.epc = pe.ibank ++ (pe.pc + 1) ∧ p.eclass = BitVec.ofNat 4 (10 + c.toNat)
            ∧ p.tactive = true ∧ p.wbase = pe.wbase + 1 ∧ p.depth = min 16 (pe.depth + 1)
            ∧ p.rstack.rd none pe.sp.toNat = some p.epc ∧ Wrote s t e.val []
            ∧ t.reg (peTrapInfo e.val) = BitVec.ofNat 32 (10 + c.toNat + pe.pc.toNat * 0x10000)
            ∧ OnlyRegs s { t with fab := { t.fab with pe := s.fab.pe } } [peTrapInfo e.val, hdrIrqRaw (pgPe e.val)])
      ∧ (∀ mask : BitVec 10, if BitVec.ofNat 10 (s.special e.val 6).toNat &&& mask = mask then
          Runs s e d (.waitf e · mask) moves else
          let w := s.waitsIn e.val (.waitf e 0 mask)
          Waits s e d (.waitf e · mask) ∧ exec (.nop e d) w = .next w ∧ Waits w e d (.waitf e · mask))
      ∧ (∀ n : BitVec 4, Runs s e d (.mfs e · r n) fun t => Lands s t e.val d (s.physOf e.val r) (BitVec.ofNat 32
          ([pe.rsopt.toNat + 2 * pe.farTrap.toNat, pe.dbank.toNat, pe.fbank.toNat, pe.ibank.toNat, pe.rpage.toNat,
            pe.wbase.toNat + 16 * pe.depth + 4096 * pe.loops.length,
            pe.fflag.toNat + (if pe.stq = [] then 256 else 0) + (if pe.stq.length < 16 then 512 else 0),
            pe.ferrTag.toNat + 256 * pe.storeErr.toNat + 65536 * pe.ferrCause.toNat, pe.ferrAddr.toNat, pe.tvec.toNat,
            pe.eclass.toNat + 256 * pe.tactive.toNat, pe.epc.toNat,
            pe.resumed.toNat + 256 * e.val + 65536 * s.roleOf e.val, (pe.loops.head?.map (·.count)).getD 0,
            pe.cycle.toNat + d, 0].getD n.toNat 0)) 1)
      ∧ ∀ n : BitVec 4, Runs s e d (.mts e · n r) fun t =>
          moves (but t fun p => { p with
            rsopt := pe.rsopt, farTrap := pe.farTrap, dbank := pe.dbank, fbank := pe.fbank, ibank := pe.ibank
            rpage := pe.rpage, ferrTag := pe.ferrTag, storeErr := pe.storeErr, tvec := pe.tvec, resumed := pe.resumed })
          ∧ ([0, 1, 2, 3, 4, 7, 9, 12].map fun k => t.special e.val k)
            = [0, 1, 2, 3, 4, 7, 9, 12].map fun k => if k = n.toNat then
                (if k = 7 then s.special e.val 7 &&& ~~~(a &&& 0x1FF) else if k = 12 then s.special e.val 12 &&& ~~~(a &&& 1)
                  else a &&& ([3, 0xF, 0xFFFF, 7, 0xFFF, 0, 0, 0, 0, 0x1FFF].getD k 0)) else s.special e.val k)

/-- In a steady engine: CKPT with no copy in progress moves on, reads BUSY and begins a copy of the engine as it
stands; during a copy it waits. TSR with an even rd lands in rd and rd.1 one stamp: of a frozen FRC, its value; of a
running one, for the first reading and the first since the FRC started anew, a multiple of 1 ns from 1 ns before the
present FRC to 4 ns after it (the E cycle lies somewhere in the T tick: which one is free); after a reading in the
same tick 8 units more for each E cycle since, within those bounds; after one in another tick, 1 ns or more before,
within the same bounds and not before that reading. LPOST with LACE ON appends {word, LAST, the sender's epoch} to a
direction that is not full and lands 0, or lands 1, sets WAIT and leaves a full one. LREAD of an empty direction lands
0 and 0; of another, its head word and bit 0 set in rd.1, and takes it. DBR ORs ra into the doorbell. Memory stands,
and so do Shank and the Eyelet engines but for the events on their way to them that a doorbell's rise brings. (Rests
on the model's own readings and choices in assumption rows 66, 75, 124 and 181.) -/
def Obligations.CheckpointTimeStampLaceAndDoorbellInstructions : Prop :=
  ∀ (e : EngIx) (d : Nat) (rd ra : RegF) (s : State), s.steady e.val d = true → s.landed e.val d rd = true →
    s.landed e.val d (rd + 1) = true → s.landed e.val d ra = true →
    let a := s.fieldVal e.val ra
    let r := s.physOf e.val rd
    let r1 := s.physOf e.val (rd + 1)
    let pe := s.peOf e.val
    let rest (t : State) : State := 
      { t with regs := s.regs, lace := s.lace, wcap := s.wcap, shank := s.shank, eye := s.eye, free := s.free }
    (if (s.fab.ckptCopy.rd none e.val).isSome then Waits s e d (.ckpt e ·)
      else Runs s e d (.ckpt e ·) fun t => t.bit (peCkptStatBusy e.val) = true ∧ MemKept s t
        ∧ ((s.peOf e.val).hazards = [] → (t.fab.ckptCopy.rd none e.val).map (·.pe) = some (t.peOf e.val)
            ∧ EngineMoves s { rest t with fab := { t.fab with ckptCopy := s.fab.ckptCopy } } e.val d))
    ∧ (rd.toNat % 2 = 0 → Runs s e d (.tsr e · rd) fun t =>
        EngineMoves s ((rest t).setPe e.val { t.peOf e.val with tsr := pe.tsr }) e.val d ∧ MemKept s t
          ∧ Flying s t e.val d [r, r1]
          ∧ (rd ≠ 0 → let v : Stamp := BitVec.ofNat 53 ((t.fieldVal e.val (rd + 1)).toNat * 2 ^ 32 + (t.fieldVal e.val rd).toNat)
              (t.fieldVal e.val (rd + 1)).toNat < 2 ^ 21
                ∧ (s.tb.runs = false → v = s.nowStamp)
                ∧ (s.tb.runs = true → pe.tsr = none → (v - s.nowStamp + 8).toNat ∈ [0, 8, 16, 24, 32, 40])
                ∧ (∀ x, s.tb.runs = true → pe.tsr = some x →
                    let base := stampDiff s.nowStamp x.2.2.2
                    if x.2.1 + BitVec.ofNat 48 (s.tb.ticks - x.1) ≠ s.tb.frc then (v - s.nowStamp + 8).toNat ∈ [0, 8, 16, 24, 32, 40]
                    else if x.1 = s.tb.ticks
                    then v = stampAdd x.2.2.2 (min (8 * ((pe.cycle + BitVec.ofNat 32 d - x.2.2.1).toNat : Int)) (base + 32))
                    else 8 ≤ base → -8 ≤ stampDiff v s.nowStamp ∧ stampDiff v s.nowStamp ≤ 32 ∧ 0 ≤ stampDiff v x.2.2.2)
                ∧ Wrote s t e.val [(r1, t.fieldVal e.val (rd + 1)), (r, t.fieldVal e.val rd)]))
    ∧ (∀ (m : ChanIx) (side last : Bool), s.on pgLace = true → Runs s e d (.lpost e · rd ra m side last) fun t =>
        let q := s.laceQ m.val side.toNat
        Lands s (rest t) e.val d r (if q.length < 8 then 0 else 1) 3 ∧ MemKept s t ∧ TriggersOnly s t
          ∧ (q.length < 8 → t.laceQ m.val side.toNat = q ++ [⟨a, last, s.epochOf (s.sender m.val side.toNat)⟩]
              ∧ t.bit (laceWait m.val side.toNat) = false)
          ∧ (8 ≤ q.length → t.lace = s.lace ∧ t.bit (laceWait m.val side.toNat) = true ∧ RegsKept s t [laceChStat m.val]))
    ∧ (∀ (m : ChanIx) (side : Bool), rd.toNat % 2 = 0 → Runs s e d (.lread e · rd m side) fun t =>
        EngineMoves s (rest t) e.val d ∧ MemKept s t ∧ TriggersOnly s t ∧ Flying s t e.val d [r, r1]
          ∧ match s.laceQ m.val side.toNat with
            | [] => Wrote s t e.val [(r1, 0), (r, 0)] ∧ RegsKept s t [] ∧ t.lace = s.lace
            | h :: q => t.laceQ m.val side.toNat = q ∧ (rd ≠ 0 → t.fieldVal e.val rd = h.word)
                ∧ (t.fieldVal e.val (rd + 1)).getLsbD 0 = true ∧ (t.fieldVal e.val (rd + 1)).getLsbD 1 = h.last
                ∧ ((t.fieldVal e.val (rd + 1)).getLsbD 2 = true ↔ h.epoch ≠ s.epochOf (s.sender m.val side.toNat)))
    ∧ ∀ db : ChanIx, Runs s e d (.dbr e · ra db) fun t =>
        t.reg (laceDb db.val) = s.reg (laceDb db.val) ||| a ∧ RegsKept s t [laceDb db.val] ∧ MemKept s t ∧ TriggersOnly s t
          ∧ EngineMoves s (rest t) e.val d ∧ Wrote s t e.val [] ∧ Flying s t e.val d []

/-- In a steady engine outside a handler, with the trap's class not fatal: a misaligned load or store of either form,
far access or CAM block (class 4), a word that encodes no instruction, whatever command comes, an illegal field or odd
pair (6), a far access whose tag is clear (7), a far store to a full queue (8), CALL at DEPTH 14 and RET at DEPTH 0
under RSOPT TRAP (0, 1), LOOP with four loops and LPOP with none (2, 3) and any instruction at all fetched at 0x1200
or above (5) enter the handler: EPC and the return stack name the trapping instruction, ECAUSE its class with TACTIVE,
WBASE one on, PC TVEC modulo 0x1000, TRAP_INFO class and PC; the register file, the queues and memory stand. Where the
class is fatal the same trap records TRAP_INFO and the engine's page reads FAULT. (Rests on the model's own readings
and choices in assumption rows 66, 68 and 79.) -/
def Obligations.PreciseTrapsEnterTheHandler : Prop :=
  ∀ (e : EngIx) (d : Nat) (r ra : RegF) (s : State), s.landed e.val d r = true → s.landed e.val d ra = true →
    (s.peOf e.val).tactive = false → s.poised e.val d = true ∨ ((s.peOf e.val).pc.toNat ≥ 0x1200 ∧ 1 ≤ d ∧ s.issues e.val = true
      ∧ (s.peOf e.val).jtagHalt = false ∧ (s.peOf e.val).xfer = none ∧ (s.peOf e.val).spHaz = none) →
    (s.peOf e.val).farTrap = false → (s.peOf e.val).loops = [] ∨ (s.peOf e.val).loopAt (s.peOf e.val).ibank (s.peOf e.val).pc = none →
    let pe := s.peOf e.val
    let a := s.fieldVal e.val ra
    let trapped (c : Nat) (t : State) : Prop :=
      if (s.get (peTrapFatalMask (s.roleOf e.val))).testBit c then s.on (pgPe e.val) = true →
        t.st (pgPe e.val) = stFault ∧ t.reg (peTrapInfo e.val) = BitVec.ofNat 32 (c + pe.pc.toNat * 0x10000) ∧ MemKept s t
      else
        let p := t.peOf e.val
        p.pc = BitVec.ofNat 13 (pe.tvec.toNat % 0x1000) ∧ p.epc = pe.ibank ++ pe.pc ∧ p.eclass = BitVec.ofNat 4 c
          ∧ p.tactive = true ∧ p.wbase = pe.wbase + 1 ∧ p.depth = min 16 (pe.depth + 1)
          ∧ p.rstack.rd none pe.sp.toNat = some (pe.ibank ++ pe.pc)
          ∧ p.regs = pe.regs ∧ p.far = pe.far ∧ p.stq = pe.stq ∧ p.fflag = pe.fflag ∧ p.loops = pe.loops ∧ p.cam = pe.cam
          ∧ t.reg (peTrapInfo e.val) = BitVec.ofNat 32 (c + pe.pc.toNat * 0x10000)
          ∧ OnlyRegs s { t with fab := { t.fab with pe := s.fab.pe } } [peTrapInfo e.val, hdrIrqRaw (pgPe e.val)]
    let traps (c : Nat) (i : Nat → Instr) : Prop := Runs s e d i (trapped c)
    if regionOf pe.pc = 2 then ∀ (w : Word) (i : Instr), awlDecode e d w = some i → Gives (exec i s) (trapped 5)
    else
      ((∀ imm : Half, (a.toInt + imm.toInt) % 2 = 1 → traps 4 (.ldh e · r ra imm) ∧ traps 4 (.ldhs e · r ra imm)
          ∧ traps 4 (.sth e · r ra imm))
        ∧ (∀ imm : Half, (a.toInt + imm.toInt) % 4 ≠ 0 → traps 4 (.ld e · r ra imm) ∧ traps 4 (.st e · r ra imm))
        ∧ (∀ (w : Word) (i : Instr), awlWordOk (s.fetched e.val pe.ibank pe.pc) = false → awlDecode e d w = some i → Gives (exec i s) (trapped 6))
        ∧ (∀ imm : Half, imm.toNat / 0x4000 < 3 → imm.toNat / 0x1000 % 4 = 0 → (pe.dbank.toNat * 4096 + imm.toNat % 4096) % 2 ^ (imm.toNat / 0x4000) ≠ 0 →
            traps 4 (.ldd e · r imm) ∧ traps 4 (.std e · r imm))
        ∧ (∀ (tag : OctIx) (size : BitVec 2) (off : BitVec 11), (size = 3 → r.toNat % 4 = 0) →
            ((a.toInt + off.toInt) % (if size = 3 then 16 else (2 ^ size.toNat : Nat)) ≠ 0 → traps 4 (.fld e · r ra tag size off) ∧ traps 4 (.fst e · r ra 0 size off))
            ∧ (size ≠ 2 ∨ (a.toInt + off.toInt) % 4 ≠ 0 → traps 4 (.rld e · r ra tag size off) ∧ traps 4 (.rst e · r ra 0 size off)))
        ∧ (a.toNat % 4 ≠ 0 → traps 4 (.camw e · r ra) ∧ traps 4 (.camr e · r ra))
        ∧ (∀ imm : Half, (imm.toNat / 0x4000 = 3 ∨ imm.getLsbD 12 = true) → traps 6 (.ldd e · r imm) ∧ traps 6 (.std e · r imm)))
      ∧ ((∀ c : BitVec 5, 5 < c.toNat → traps 6 (.trap e · c))
        ∧ (∀ (n : BitVec 5) (poly : BitVec 3), n.toNat ∉ [1, 2, 4] ∨ 4 < poly.toNat → traps 6 (.crc e · r ra n poly))
        ∧ (r.toNat % 2 = 1 → traps 6 (.cams e · r ra ra) ∧ traps 6 (.tsr e · r)
            ∧ ∀ (m : ChanIx) (side : Bool), traps 6 (.lread e · r m side))
        ∧ (∀ count : Half, traps 6 (.loop e · 0 count) ∧ traps 6 (.loopr e · 0 ra)))
      ∧ (∀ (tag : OctIx) (off : BitVec 11), (a.toInt + off.toInt) % 4 = 0 →
          (pe.fflag.getLsbD tag.val = false → traps 7 (.fld e · r ra tag 2 off) ∧ traps 7 (.rld e · r ra tag 2 off)
            ∧ traps 7 (.ddq e · r ra ra tag 0))
          ∧ (16 ≤ pe.stq.length → traps 8 (.fst e · r ra 0 2 off) ∧ traps 8 (.rst e · r ra 0 2 off)))
      ∧ (pe.rsopt = true → (14 ≤ pe.depth → ∀ target : BitVec 13, traps 0 (.call e · target))
          ∧ (pe.depth = 0 → traps 1 (.ret e ·)))
      ∧ (4 ≤ pe.loops.length → regionOf (pe.pc + 1) = regionOf (pe.pc + 2) → pe.pc.toNat < 0x1000 →
          ∀ count : Half, traps 2 (.loop e · 2 count))
      ∧ (pe.loops = [] → traps 3 (.lpop e ·))

/-- While an engine does not execute (its page not ON, halted, an idle spare, JTAG holding it) any instruction that a
word encodes, given as a command of that engine, leaves the whole device as it is; so does, in a poised engine, a
command of another instruction than the one its word encodes (a far trap being due apart). A stream read of a pair
that is unbound waits. In a steady engine, ADD from a register whose result is still in flight completes with the sum
of ra's free value (the model's unconstrained value of site 1, assumption row 4) and rb, and a write of a register in
flight leaves it a free value; nothing else of the device changes but the count of free values drawn. (Rests on the
model's own readings and choices in assumption rows 66, 67, 68 and 79.) -/
def Obligations.InstructionsThatDoNotIssueAndUndefinedValues : Prop :=
  ∀ (e : EngIx) (d : Nat) (rd ra rb : RegF) (s : State),
    (s.issues e.val = false → ∀ (w : Word) (i : Instr), awlDecode e d w = some i → exec i s = .next s)
    ∧ (s.poised e.val d = true → ∀ (w : Word) (i i' : Instr), awlDecode e d w = some i →
        awlDecode e d (s.fetched e.val (s.peOf e.val).ibank (s.peOf e.val).pc) = some i' → i ≠ i' →
        ((s.peOf e.val).farPending && (s.peOf e.val).farTrap) = false → exec i s = .next s)
    ∧ (s.steady e.val d = true →
      (∀ (p : Fin 2) (n : BitVec 11), 1 ≤ n.toNat → n.toNat ≤ 4 → s.rxBind e.val p.val = (kindNone, 0) →
        Waits s e d (.srd e · rd p false n))
      ∧ (s.landed e.val d rb = true → s.landed e.val d rd = true → s.landed e.val d ra = false →
        Runs s e d (.add e · rd ra rb) fun t => t.free = s.free + 1
          ∧ Lands s { t with free := s.free } e.val d (s.physOf e.val rd) (Config.free 1 s.free + s.fieldVal e.val rb) 1)
      ∧ (s.landed e.val d rd = false → ∀ imm : Half, Runs s e d (.lui e · rd imm) fun t =>
          EngineMoves s { t with free := s.free } e.val d ∧ Wrote s t e.val [(s.physOf e.val rd, Config.free 1 s.free)]))

/-- In a steady engine, on a pair bound to a lane or queue whose current frame is open with no skip pending: SRD of n
bytes that are there, or past the last byte of an ended frame (bytes beyond it 0), lands them with BE as R357 packs
them in r, and r.1 beyond four, and advances the position by n, never past the last byte; SPEEK lands the n bytes at
an offset and moves nothing; both wait otherwise. SEOF lands the status of Table 10-13, of a lane or queue, of an
Eyelet (the words of its FIFO in, and the room of a bound FIFO out) or of nothing bound (0). SNXT of an ended lane
frame moves to the next frame at position 0 and ends the output: complete where its data end was given, else stomped
and counted in TX_UNDERRUN. The frame at the head of the queue, header first, becomes the current one at the first
read and stays in its queue; SNXT of an ended queue frame takes it out of the queue and starts the next at position 0,
and waits while the frame has not ended. On an Eyelet binding SRD of 4 takes the oldest FIFO word, and waits for one.
Everything else of the device stands. (Rests on the model's own readings and choices in assumption rows 66, 77 and
167.) -/
def Obligations.StreamReads : Prop :=
  ∀ (e : EngIx) (d : Nat) (r : RegF) (pr : Fin 2) (n : BitVec 11) (s : State), s.steady e.val d = true →
    s.landed e.val d r = true → s.landed e.val d (r + 1) = true →
    let st := s.strm e.val pr.val
    let kind := (s.rxBind e.val pr.val).1
    let k := n.toNat % 16
    let off := n.toNat / 16
    let p0 := s.physOf e.val r
    let p1 := s.physOf e.val (r + 1)
    let rest (t : State) : State := t.setPe e.val { t.peOf e.val with s0 := (s.peOf e.val).s0, s1 := (s.peOf e.val).s1 }
    (∀ (f : RxFrame) (fs : List RxFrame), st.frames = f :: fs → kind = kindLane ∨ kind = kindQueue → st.skips = [] →
      let at' (i : Nat) : Byte := f.bytes.getD i 0
      (∀ be : Bool, 1 ≤ k → k ≤ 8 → off = 0 → (be = true → k ≤ 4) → (4 < k → r.toNat % 2 = 0) →
        let l := (List.range k).map fun i => at' (st.pos + i)
        let low : Word := if be then BitVec.ofNat 32 (leNat l.reverse) else BitVec.ofNat 32 (leNat (l.take 4))
        if f.ended = none ∧ f.bytes.length < st.pos + k then Waits s e d (.srd e · r pr be n)
        else Runs s e d (.srd e · r pr be n) fun t => EngineMoves s (rest t) e.val d ∧ MemKept s t
          ∧ Wrote s t e.val (if 4 < k then [(p1, BitVec.ofNat 32 (leNat (l.drop 4))), (p0, low)] else [(p0, low)])
          ∧ Flying s t e.val d (if 4 < k then [p0, p1] else [p0])
          ∧ t.strm e.val pr.val = { st with
              pos := min (st.pos + k) f.bytes.length, taken := st.taken + (min (st.pos + k) f.bytes.length - st.pos) })
      ∧ (∀ be : Bool, 1 ≤ k → k ≤ 4 →
        let l := (List.range k).map fun i => at' (st.pos + off + i)
        if f.ended = none ∧ f.bytes.length < st.pos + off + k then Waits s e d (.speek e · r pr be n)
        else Runs s e d (.speek e · r pr be n) fun t =>
          Lands s t e.val d p0 (BitVec.ofNat 32 (if be then leNat l.reverse else leNat l)) 2)
      ∧ (Runs s e d (.seof e · r pr) fun t =>
          let b (i : Nat) (c : Bool) : Nat := if c then 2 ^ i else 0
          Lands s t e.val d p0 (BitVec.ofNat 32 (b 0 (f.bytes != []) + b 1 f.ended.isSome
            + b 2 (f.ended.isSome && decide (f.bytes.length ≤ st.pos)) + b 3 (f.ended == some true) + b 4 st.declared
            + b 5 st.insRefused + b 7 (kind == kindLane && (st.stomped || f.ended == some true))
            + f.bytes.length % 2 ^ 14 * 2 ^ 16)) 2)
      ∧ (f.ended = none → Waits s e d (.snxt e · pr))
      ∧ (∀ (k : Nat) (o : LaneOut) (bad : Bool), s.rxBind e.val pr.val = (kindLane, k) → f.ended = some bad → st.outDone = false →
          st.declared = false → s.laneNow k = some o → o.fin = false → o.full = false → o.sent ≤ st.dataEnd f.bytes.length →
          (fs.head?.map RxFrame.lost ≠ some true) → Runs s e d (.snxt e · pr) fun t =>
            let want := st.dataEnd f.bytes.length
            let given := decide (want ≤ o.bytes.length)
            let i := (s.laneOf k).out.length - 1
            t.strm e.val pr.val = { frames := fs, inj := st.inj } ∧ MemKept s t ∧ Wrote s t e.val []
              ∧ (t.laneOf k).out.take i = (s.laneOf k).out.take i
              ∧ (t.laneOf k).out.drop i = { o with
                  bytes := o.bytes.take want, fin := true, stomp := o.stomp || !given || st.stomped || bad, late := false }
                  :: (if fs = [] then [] else [{ bytes := [] }])
              ∧ Counted s t (s.get (fabLaneCfgDst k)) (if given then [] else [(40, 1)]))
      ∧ (f.ended.isSome = true → kind = kindQueue → s.swc.badLinks = [] →
          (((s.rxQueue e.val pr.val).map s.queueOf).getD []).all (·.bad.isNone) = true → Runs s e d (.snxt e · pr) fun t =>
          t.strm e.val pr.val = { frames := fs, inj := st.inj } ∧ MemKept s t ∧ Wrote s t e.val [] ∧
            match s.rxQueue e.val pr.val with
            | some q =>
              let mine := f.fid.isSome && f.fid == (s.queueOf q).head?.map Desc.fid
              EngineMoves s (rest { t with regs := if mine then s.regs else t.regs, swc := if mine then s.swc else t.swc }) e.val d
                ∧ ∀ q', t.queueOf q' = if mine ∧ q' = q then (s.queueOf q).tail else s.queueOf q'
            | none => EngineMoves s (rest t) e.val d))
    ∧ (∀ (q : Nat) (x : Desc) (xs : List Desc), st.frames = [] → s.rxQueue e.val pr.val = some q → s.queueOf q = x :: xs →
      st.skips = [] → 1 ≤ k → k ≤ 4 → off = 0 →
      let f := (s.deliverFrame x).1
      Runs s e d (.srd e · r pr false n) fun t => (t.strm e.val pr.val).frames = [f] ∧ t.queueOf q = x :: xs ∧ MemKept s t
        ∧ f.bytes.take 16 = (x.header (f.ended == some true)).take 16
        ∧ Wrote s t e.val [(p0, BitVec.ofNat 32 (leNat ((List.range k).map fun i => f.bytes.getD (st.pos + i) 0)))])
    ∧ (kind = kindNone → Runs s e d (.seof e · r pr) fun t => Lands s t e.val d p0 0 2)
    ∧ (∀ y : Nat, s.rxBind e.val pr.val = (kindEyelet, y) → Runs s e d (.seof e · r pr) fun t =>
        let tx := s.txBind e.val pr.val
        Lands s t e.val d p0 (BitVec.ofNat 32 ((if s.bit (eyeSinkWcap y) then 0 else (s.eyeOf y).fin.length)
          + (if tx.1 = kindEyelet then 256 * (16 - (s.eyeOf tx.2).fout.length) else 0))) 2)
    ∧ (∀ (y : Nat) (be : Bool), s.rxBind e.val pr.val = (kindEyelet, y) → s.bit (eyeSinkWcap y) = false → n = 4 →
      match (s.eyeOf y).fin with
      | [] => Waits s e d (.srd e · r pr be n)
      | w :: ws => Runs s e d (.srd e · r pr be n) fun t => (t.eyeOf y).fin = ws
          ∧ Lands s { t with eye := s.eye } e.val d p0
              (if be then w.extractLsb' 0 8 ++ w.extractLsb' 8 8 ++ w.extractLsb' 16 8 ++ w.extractLsb' 24 8 else w) 2)

/-- In a steady engine: SWR to an injection with SWC ON and no skip pending appends its n bytes, packed as R357 says,
to the injection; with E and K it abandons it, with E alone the injection enters the switch as the engine's, or counts
in INJ_BAD where its header or length does not allow it. To an unbound port SWR discards; to an Eyelet port with room,
n = 4, it appends one word to the FIFO out, and without room it waits. To a lane whose frame is still arriving SWR,
within R357's limit, adds n to GIVEN and n bytes to the output; SINS there, within the buffer limit, adds n to INS and
n bytes, beyond it only sets INS_REFUSED; with E either declares the data end at the input position, with K also a
stomp, counted in KILLS. SDEL and SSKIP of a lane or queue frame (for SSKIP bound to itself or to an injection), no
skip pending and no end mark yet, counted by N or a register or to the data end, with E or without, move the read
position on at once and take the bytes that have arrived, in a lane short of what may be the received FCS, without
output or with. Registers and memory stand. (Rests on the model's own readings and choices in assumption rows 66, 77,
166, 170 and 200.) -/
def Obligations.StreamWritesAndSkips : Prop :=
  ∀ (e : EngIx) (d : Nat) (r : RegF) (pr : Fin 2) (n : BitVec 11) (be : Bool) (s : State), s.steady e.val d = true →
    s.landed e.val d r = true → s.landed e.val d (r + 1) = true →
    let st := s.strm e.val pr.val
    let rx := s.rxBind e.val pr.val
    let tx := s.txBind e.val pr.val
    let k := n.toNat
    let a := s.fieldVal e.val r
    let b := s.fieldVal e.val (r + 1)
    let l := if be then (leBytes k a.toNat).reverse else (leBytes 4 a.toNat ++ leBytes 4 b.toNat).take k
    let counts := 1 ≤ k ∧ k ≤ 8 ∧ (be = true → k ≤ 4) ∧ (4 < k → r.toNat % 2 = 0)
    let rest (t : State) : State := t.setPe e.val { t.peOf e.val with s0 := (s.peOf e.val).s0, s1 := (s.peOf e.val).s1 }
    let frame (t : State) : Prop := EngineMoves s (rest t) e.val d ∧ Wrote s t e.val []
    let marked (kill : Bool) (x : Stream) (at' : Nat) : Stream :=
      { x with declared := true, outEnd := true, endAt := some at', stomped := x.stomped || kill }
    (counts → tx.1 = kindNone → Runs s e d (.swr e · r pr be n false false) fun t => EngineMoves s t e.val d ∧ Wrote s t e.val [])
    ∧ (counts → tx.1 = kindQueue → st.skips = [] → s.on pgSwc = true →
        (Runs s e d (.swr e · r pr be n false false) fun t => t.strm e.val pr.val = { st with inj := st.inj ++ l } ∧ frame t)
        ∧ (Runs s e d (.swr e · r pr be n true true) fun t => t.strm e.val pr.val = { st with inj := [] } ∧ frame t)
        ∧ Runs s e d (.swr e · r pr be n true false) fun t => t.strm e.val pr.val = { st with inj := [] } ∧ Wrote s t e.val [] ∧
            let w := st.inj ++ l
            let h := (List.range 4).map fun i => BitVec.ofNat 32 (leNat ((w.drop (4 * i)).take 4))
            if 16 ≤ w.length ∧ injLengthOk h (w.drop 16) = true then
              t.swc.ingress = s.swc.ingress ++ [⟨24 + s.roleOf e.val, h, w.drop 16, none, some (true, s.nowStamp)⟩]
                ∧ EngineMoves s (rest { t with swc := s.swc }) e.val d
            else t.swc.ingress = s.swc.ingress ∧ t.rn (fabInjBad (s.roleOf e.val)) = min (2 ^ 32 - 1) (s.rn (fabInjBad (s.roleOf e.val)) + 1))
    ∧ (n = 4 → tx.1 = kindEyelet → st.skips = [] →
        if 16 ≤ (s.eyeOf tx.2).fout.length then
          Waits s e d (.swr e · r pr be n false false)
        else Runs s e d (.swr e · r pr be n false false) fun t =>
          (t.eyeOf tx.2).fout = (s.eyeOf tx.2).fout ++ [BitVec.ofNat 32 (leNat l)]
            ∧ EngineMoves s { t with eye := s.eye } e.val d ∧ Wrote s t e.val [])
    ∧ (∀ (f : RxFrame) (fs : List RxFrame), st.frames = f :: fs → f.ended = none → st.skips = [] → st.outDone = false →
      st.declared = false →
      (∀ (em kill : Bool) (o : LaneOut), (kill = true → em = true) → counts → tx.1 = kindLane → s.laneNow tx.2 = some o →
        let gave (t : State) (x : Stream) : Prop :=
          t.strm e.val pr.val = (if em then marked kill x st.taken else x) ∧ MemKept s t ∧ Wrote s t e.val []
            ∧ RegsKept s t (if kill then [peKills e.val] else [])
            ∧ EngineMoves s (rest { t with regs := s.regs, fab := { t.fab with lane := s.fab.lane } }) e.val d
            ∧ (s.laneOcc tx.2 + k ≤ 12224 → o.full = false →
                t.laneNow tx.2 = some { o with bytes := o.bytes ++ l, full := decide (s.laneOcc tx.2 + k = 12224) })
        (st.given + k ≤ st.taken → Runs s e d (.swr e · r pr be n em kill) fun t => gave t { st with given := st.given + k })
        ∧ (if 8192 < s.laneOcc tx.2 + k then Runs s e d (.sins e · r pr be n em kill) fun t =>
            t.strm e.val pr.val = { st with insRefused := true } ∧ frame t
          else Runs s e d (.sins e · r pr be n em kill) fun t => gave t { st with insd := st.insd + k }))
      ∧ (∀ em rn : Bool, st.endAt = none →
        let c := if rn then a.toNat % 0x4000 else k
        let lane := rx.1 = kindLane
        let keep := if lane ∧ s.holdCovers rx.2 = true ∧ ¬(em = true ∧ c ≠ 0) then 4 else 0
        let fin := max (f.bytes.length - keep) st.pos
        let passed := (if c = 0 then fin else min (st.pos + c) fin) - st.pos
        let skip (del : Bool) : Skip := ⟨if c = 0 then none else some c, st.pos, passed, del, em, false⟩
        let ra : RegF := if rn then r else 0
        let cnt : BitVec 11 := if rn then 0 else n
        (lane ∨ (rx.1 = kindQueue ∧ em = false) → Runs s e d (.sdel e · ra pr rn cnt em false) fun t =>
          t.strm e.val pr.val = { st with
              pos := st.pos + c, hw := st.pos + passed, taken := st.taken + passed, declared := em, skips := [skip true] }
            ∧ frame t)
        ∧ ((lane ∧ tx = rx) ∨ (rx.1 = kindQueue ∧ tx.1 = kindQueue) →
          Runs s e d (.sskip e · ra pr rn cnt em false) fun t =>
            t.strm e.val pr.val = { st with
              pos := st.pos + c, hw := st.pos + passed, taken := st.taken + passed, given := st.given + passed, declared := em,
              skips := [skip false], inj := if lane then st.inj else st.inj ++ (f.bytes.drop st.pos).take passed }
            ∧ Wrote s t e.val [] ∧ EngineMoves s (rest { t with fab := { t.fab with lane := s.fab.lane } }) e.val d)))

/-- An accepted BIND write naming sources and sinks that exist and that nothing else holds, on an engine that is no
spare, takes the written KIND and ARG at each stream port where neither word has KIND 3, and keeps the others. An
accepted LANE[k].CFG write with EN = 1 that a disabled lane can take, to a pair without bindings and a destination no
other lane has, sets the field and binds the pair's receive and transmit ports to lane k. An accepted SPARE_MASK write
naming no bound or serving engine anew sets the mask, and IDLE_SPARES shows the idle ones of it. A write that
conflicts sets bit 8 of FAB's ERR_CAUSE and changes nothing else. WARM_PRELOAD of an idle spare loads the cached,
correct, authenticated image that WARM names; without such an image the spare is not warm and bit 9 is set. (Rests on
the model's own readings and choices in assumption rows 78 and 169.) -/
def Obligations.FabricConfigurationWrites : Prop :=
  ∀ (p : Principal) (e : EngIx) (k : PortIx) (v : Word) (s : State),
    let conflict (t : State) : Prop := (t.reg (hdrErrCause pgFab)).getLsbD 8 = true ∧ OnlyRegs s t [hdrErrCause pgFab]
    (s.letsIn p (fabBind e.val) = true →
      let w := bindMerge (s.reg (fabBind e.val)) v
      let uses := bindUses e.val w
      if hasDup uses = false ∧ (∀ n ∈ List.range 18, n ≠ e.val → ∀ x ∈ uses, x ∉ bindUses n (s.reg (fabBind n)))
          ∧ (∀ x ∈ uses, x.2.2.2 < (if x.2.1 = kindEyelet then 16 else 2)) ∧ (s.isSpare e.val = true → uses = []) then
        Gives (exec (.bindWrite p e v) s) fun t => t.reg (fabBind e.val) = w
          ∧ (∀ x ∈ bindPorts, if bitsOf v x.1 2 = 3 ∨ bitsOf (s.reg (fabBind e.val)) x.1 2 = 3
              then bitsOf w x.1 2 = bitsOf (s.reg (fabBind e.val)) x.1 2 ∧ bitsOf w x.2.1 5 = bitsOf (s.reg (fabBind e.val)) x.2.1 5
              else bitsOf w x.1 2 = bitsOf v x.1 2 ∧ bitsOf w x.2.1 5 = bitsOf v x.2.1 5)
          ∧ (∀ n, n ≠ s.serverOf e.val → t.peOf n = s.peOf n)
          ∧ OnlyRegs s { t with fab := { t.fab with pe := s.fab.pe }, chip := s.chip } [fabBind e.val]
      else Gives (exec (.bindWrite p e v) s) conflict)
    ∧ (s.letsIn p (fabLaneCfg k.val) = true → v.getLsbD 0 = true → s.bit (fabLaneCfgEn k.val) = false →
      let dst := bitsOf v 1 5
      let eng := bitsOf v 6 5
      let pr := bitsOf v 11 1
      if dst < 24 ∧ dst ≠ k.val ∧ eng < 18 ∧ s.isSpare eng = false ∧ (s.rxBindOf eng pr).1 = 0 ∧ (s.txBindOf eng pr).1 = 0
          ∧ (∀ j ∈ List.range 24, j ≠ k.val → s.bit (fabLaneCfgEn j) = true → s.get (fabLaneCfgDst j) ≠ dst) then
        Gives (exec (.laneCfgWrite p k v) s) fun t => t.bit (fabLaneCfgEn k.val) = true ∧ t.get (fabLaneCfgDst k.val) = dst
          ∧ t.get (fabLaneCfgEngine k.val) = eng ∧ t.get (fabLaneCfgStream k.val) = pr
          ∧ t.rxBindOf eng pr = (3, k.val) ∧ t.txBindOf eng pr = (3, k.val)
          ∧ OnlyRegs s { t with fab := { t.fab with pe := s.fab.pe }, chip := s.chip } [fabLaneCfg k.val, fabBind eng]
      else Gives (exec (.laneCfgWrite p k v) s) conflict)
    ∧ (s.letsIn p fabSpareMask = true →
      if ∃ n ∈ List.range 18, v.getLsbD n = true ∧ s.isSpare n = false ∧ (s.hasBinding n = true ∨ s.get (peServeServes n) ≠ 31)
      then Gives (exec (.spareMaskWrite p v) s) conflict
      else Gives (exec (.spareMaskWrite p v) s) fun t =>
        (∀ n < 18, t.isSpare n = v.getLsbD n ∧ (t.reg fabIdleSpares).getLsbD n = (t.on pgFab && t.idleSpare n))
          ∧ BlocksKept s t [pgFlt] [fabSpareMask, fabIdleSpares, hdrIrqRaw pgFab] ∧ t.fab = s.fab ∧ MemKept s t)
    ∧ (s.on pgFab = true → s.idleSpare e.val = true → s.reg (fabWarm e.val) ≠ 0 →
      Gives (exec (.warmPreload e) s) fun t =>
        match s.warmImage e.val with
        | some d => t.fab.warm.rd none e.val = some (s.reg (fabWarm e.val), BitVec.ofNat 16 (s.get (fabWarmVerVer e.val)))
            ∧ (t.peOf e.val).image = some (leWord (s.imageBytes d) 3, BitVec.ofNat 16 (hdrField (s.imageBytes d) 0x10 0 16))
            ∧ (∀ n, n ≠ e.val → t.peOf n = s.peOf n) ∧ RegsKept s t [] ∧ MemKeptBut s t (engBase e.val) 0x20000
        | none => t.fab = { s.fab with warm := s.fab.warm.wr none e.val none } ∧ (t.reg (hdrErrCause pgFab)).getLsbD 9 = true
            ∧ RegsKept s t [hdrErrCause pgFab] ∧ MemKept s t)

/-- Each of them completes in every state and leaves the other engines, the other lanes and all memory as they are. On
an enabled, unbypassed lane that takes frames, with no skip pending: the first bytes of a frame count in FRAMES and
stand behind the pair's frames, not ended, with the corrected stamp of their strobe, and open an output where the pair
had none; further bytes, the first copy of each where the line sends copies, are appended, to MAXLEN + 1 at most, also
while the receiving MAC stops; the end status ends the frame, bad where it is cut by loss of link, holds code errors,
is shorter than 64 bytes or longer than MAXLEN or its FCS is wrong, and where its declared end has been given it
finishes the output, stomped if bad or if the mark is not at the data end. While the MAC needs a byte of a frame still
arriving, whose output is not finished and whose end mark is neither reached nor parted from the position by deletions
alone, LANE_UNDERRUN ends the output stomped and counts MAC counter 40 of the destination; of the next frame, it
stomps that one before it is read; with a good end received and its data end reached the frame ends there.
HOLD_BUFFER_CUT ends an output, stomped, and counts CUT: one that filled the hold buffer after its stored bytes, one
whose receive window holds an uncorrectable error at the next byte taken, and for an error in the hold buffer the
foremost frame, be it stored whole or not, at the next byte. Under BYPASS the bytes of a frame pass the engine: with
the BYPASS bit of CFG they are discarded and count BYP_DISC, else they enter the hold buffer and count BYP_FWD; the
first byte of a frame is stored although the buffer holds 12,224. SKIP_COMPLETE of a counted skip without end mark
that has passed its count takes it off; with none pending it changes nothing. (Rests on the model's own readings and
choices in assumption rows 76, 160, 166, 168, 169, 200 and 201.) -/
def Obligations.LaneFramesAndTheirEnds : Prop :=
  ∀ (k : PortIx) (starts : Option Strobe) (rx : LaneRx) (x : LaneEnd) (cause : HoldCause) (s : State),
    let m := (s.laneAt k.val).1
    let p := (s.laneAt k.val).2
    let st := s.strm m p
    let ln := s.laneOf k.val
    let d := s.get (fabLaneCfgDst k.val)
    let cap := s.maxLen k.val + 1
    let l := firstCopies (s.copies k.val) rx.bytes (if starts.isSome then 0 else ln.line)
    let goesOn := if starts.isSome then s.laneTakes k.val else s.macReceives k.val
    let others (t : State) : Prop := (∀ j, j ≠ m → t.peOf j = s.peOf j) ∧ (∀ j, j ≠ k.val → t.laneOf j = s.laneOf j) ∧ MemKept s t
    let one (t : State) (c : Nat) : Prop := t.rn c = min (s.rn c + 1) 0xFFFFFFFF
    let unsent (o : LaneOut) : LaneOut := { o with sent := 0 }
    let lasts (t : State) (o : LaneOut) : Prop := (t.laneOf k.val).out.map unsent = ln.out.dropLast.map unsent ++ [unsent o]
    let done (t : State) (stomp : Bool) : Prop := (t.strm m p).outDone = true ∧ (t.strm m p).stomped = stomp
    (Gives (exec (.laneFrame k starts rx) s) fun t => others t ∧
      ((goesOn = false ∨ starts.isSome = ln.arriving) → t.peOf m = s.peOf m ∧ RegsKept s t []
        ∧ (t.laneOf k.val).out.map (·.bytes) = ln.out.map (·.bytes))
      ∧ (∀ f : Strobe, starts = some f → s.laneTakes k.val = true → ln.arriving = false →
        (t.laneOf k.val).arriving = true ∧ (t.laneOf k.val).bypass = s.laneBypassed k.val ∧ one t (fabLaneFrames k.val)
          ∧ RegsKept s t [fabLaneFrames k.val] ∧ (t.portOf k.val).stampRx = s.stampIn k.val f
          ∧ (s.laneBypassed k.val = false → s.rxBind m p = (kindLane, k.val) → st.skips = [] →
              t.strm m p = { st with frames := st.frames ++ [⟨l.take cap, none, false, some (s.stampIn k.val f), none⟩] }
                ∧ (t.laneOf k.val).out.length = ln.out.length + (if st.frames = [] then 1 else 0))
          ∧ (s.laneBypassed k.val = true → t.peOf m = s.peOf m ∧ (t.laneOf k.val).out.length
              = ln.out.length + (if s.bit (fabLaneCfgBypass k.val) = true then 0 else 1)))
      ∧ (starts = none → s.macReceives k.val = true → ln.arriving = true →
        (t.laneOf k.val).arriving = true ∧ RegsKept s t []
          ∧ (ln.bypass = false → st.skips = [] → ∀ (fs : List RxFrame) (f : RxFrame), st.frames = fs ++ [f] → f.ended = none →
              t.strm m p = { st with frames := fs ++ [{ f with bytes := (f.bytes ++ l).take cap }] })
          ∧ (ln.bypass = true → t.peOf m = s.peOf m ∧ ∀ o : LaneOut, ln.out.getLast? = some o → o.full = false → o.fin = false → rx.byteTimes = 0 →
              if s.bit (fabLaneCfgBypass k.val) = true then lasts t o
              else (s.laneOcc k.val + l.length < 12224 → lasts t { o with bytes := o.bytes ++ l })
                ∧ (12224 ≤ s.laneOcc k.val → l ≠ [] →
                    lasts t (if o.bytes = [] then { o with bytes := l.take 1, full := true } else { o with full := true })))))
    ∧ (Gives (exec (.laneEndStatus k x) s) fun t => others t ∧ (ln.arriving = false → t.peOf m = s.peOf m ∧ RegsKept s t [])
      ∧ (ln.arriving = true → (t.laneOf k.val).arriving = false
        ∧ (ln.bypass = true → t.peOf m = s.peOf m
            ∧ one t (if s.bit (fabLaneCfgBypass k.val) = true then fabLaneBypDisc k.val else fabLaneBypFwd k.val)
            ∧ RegsKept s t [if s.bit (fabLaneCfgBypass k.val) = true then fabLaneBypDisc k.val else fabLaneBypFwd k.val])
        ∧ (ln.bypass = false → st.skips = [] → ∀ (fs : List RxFrame) (f : RxFrame), st.frames = fs ++ [f] → f.ended = none →
          let bad := x.linkLost || x.codeErrs != 0 || !fcsGood f.bytes || decide (f.bytes.length < 64)
            || decide (s.maxLen k.val < f.bytes.length)
          (t.strm m p).frames = fs ++ [{ f with ended := some bad }] ∧ RegsKept s t [fabLaneEndErr k.val]
            ∧ (st.declared = false → t.strm m p = { st with frames := fs ++ [{ f with ended := some bad }] } ∧ RegsKept s t [])
            ∧ (fs = [] → st.declared = true → st.outEnd = true → st.outDone = false → s.laneFull k.val = false →
                ∀ e : Nat, st.endAt = some e → done t (st.stomped || bad || e != f.bytes.length - 4)
                  ∧ (if e ≠ f.bytes.length - 4 ∧ bad = false then one t (fabLaneEndErr k.val) else RegsKept s t [])))))
    ∧ (Gives (exec (.laneUnderrun k) s) fun t => others t ∧ RegsKept s t [fabLaneEndErr k.val, macCntLo d 40, macCntHi d 40]
      ∧ ∀ (f : RxFrame) (fs : List RxFrame), st.frames = f :: fs → s.laneFull k.val = false →
        (st.outDone = false → f.ended = none → (t.strm m p).frames = f :: fs ∧
          if st.outOver = true then t.peOf m = s.peOf m ∧ Counted s t d []
          else done t true ∧ Counted s t d [(40, 1)])
        ∧ (st.outDone = false → f.ended = some false → st.declared = false → st.dataEnd f.bytes.length ≤ s.laneOutLen k.val →
            (∀ o : LaneOut, s.laneNow k.val = some o → o.sent ≤ st.dataEnd f.bytes.length) → fs = [] →
            done t st.stomped ∧ Counted s t d [])
        ∧ (st.outDone = true → ∀ (g : RxFrame) (gs : List RxFrame), fs = g :: gs → g.lost = false →
            (t.strm m p).frames = f :: { g with lost := true } :: gs ∧ Counted s t d [(40, 1)]
              ∧ (t.laneOf k.val).out.length = ln.out.length + 1))
    ∧ (Gives (exec (.holdBufferCut ⟨k, cause⟩) s) fun t => others t
      ∧ ((ln.out = [] ∨ cause = .full ∧ s.laneFull k.val = false) → t = s)
      ∧ (∀ o : LaneOut, s.laneNow k.val = some o → (cause = .full ∧ s.laneFull k.val = true ∨ cause = .window ∨ cause = .buffer ∧ ln.out.length = 1 ∧ o.fin = false) →
        if o.fin = true then t = s
        else one t (fabLaneCut k.val) ∧ RegsKept s t [fabLaneCut k.val]
          ∧ lasts t { o with bytes := if cause = .full then o.bytes else o.bytes.take o.sent,
                             fin := true, stomp := true, late := o.raw && o.late, raw := false }
          ∧ (o.raw = false → (t.strm m p).frames = st.frames ∧ done t true) ∧ (o.raw = true → t.peOf m = s.peOf m))
      ∧ (cause = .buffer → ∀ (o : LaneOut) (os : List LaneOut), ln.out = o :: os → (o.fin = true ∨ os ≠ []) →
          t.peOf m = s.peOf m ∧ one t (fabLaneCut k.val) ∧ RegsKept s t [fabLaneCut k.val]
            ∧ (t.laneOf k.val).out = { o with bytes := o.bytes.take o.sent, fin := true, stomp := true, raw := false, late := false } :: os))
    ∧ (∀ (e : EngIx) (pr : Fin 2) (f : RxFrame) (fs : List RxFrame),
        let z := s.strm e.val pr.val
        z.frames = f :: fs →
        (z.skips = [] → exec (.skipComplete e pr) s = .next s)
        ∧ (∀ (n a : Nat) (del kill : Bool), z.skips = [⟨some n, a, n, del, false, kill⟩] → f.ended = none →
            z.hw + 4 ≤ f.bytes.length → Gives (exec (.skipComplete e pr) s) fun t => t.strm e.val pr.val = { z with skips := [] }
              ∧ t = s.setStrm e.val pr.val (t.strm e.val pr.val)))

/-- An accepted write of LANE CFG takes effect if the lane reads OFF and Table 4-1 allows the mode; else it is ignored
with ERR_CAUSE bit 8 (not OFF) and bit 9 (not allowed). LANE_ALIGNED of a lane that is ON sets ALIGNED, CDR_LOCK and
SIGNAL, and in 1000BASE-X with AN_EN begins auto-negotiation. A link that can be up comes up with the SPEED of its
mode and IRQ bit 1, at LINK_UP, at an SGMII control word with link and full duplex, at the end of auto-negotiation
with a full-duplex partner, when the PHY has answered the reads of its identifier registers, which PHY_PROBE queues
again 25,000,000 A cycles after a probe without an answer; with a half-duplex partner HALF_DUPLEX (bit 9) is set and
the link is down. LINK_DOWN and a remote fault (10GBASE-R; 100BASE-FX with FEFI_EN) take UP, SPEED and PAUSED to 0,
count RX_LINK_LOSS and raise IRQ bit 1; a frame in transmission is cut and counted in TX_LINK_ABORT, its descriptor
released, a lane frame in transmission is cut, queued frames stay, and with FLUSH_ON_DOWN and FDB ON exactly the
learned entries whose DEST is the port go; LINK_DOWN makes the MAC send remote fault, or the far-end fault, in those
modes. (Rests on the model's own readings and choices in assumption rows 31, 32, 33, 34, 37, 158, 165, 199 and 203.)
-/
def Obligations.LinksComeUpAndGoDown : Prop :=
  ∀ (p : Principal) (n : PortIx) (v : Word) (s : State),
    let m := n.val
    let link (t : State) : Prop := t.bit (macLinkUp m) = true ∧ t.get (macLinkSpeed m) = t.speedCode m
    let shape (t : State) : Prop := (∀ j, j ≠ m → t.portOf j = s.portOf j) ∧ t.mem = s.mem
    let rise (t : State) (e : Nat) : Prop := link t ∧ shape t ∧ (t.reg (hdrIrqRaw (pgMac m))).getLsbD 1 = true
      ∧ OnlyRegs s { t with port := s.port } [macLink m, hdrIrqRaw (pgMac m), e]
    let falls (t : State) (l : List Nat) : Prop := t.bit (macLinkUp m) = false ∧ t.get (macLinkSpeed m) = 0 ∧ t.bit (macLinkPaused m) = false
      ∧ (t.reg (hdrIrqRaw (pgMac m))).getLsbD 1 = true ∧ t.cnt64 m 21 = min (2 ^ 64 - 1) (s.cnt64 m 21 + 1)
      ∧ shape t ∧ BlocksKept s t [pgMac m, pgSwc] l
    let cuts (t : State) : Prop :=
      let sending (k : Nat) : Prop := s.get (fabLaneCfgDst k) = m ∧ ∃ o ∈ (s.laneOf k).out.head?, 0 < o.sent
      t.swc.queues = s.swc.queues ∧ (t.portOf m).tx = none
      ∧ (∀ k ∈ List.range 24, if sending k then (t.laneOf k).out = (s.laneOf k).out.tail else t.laneOf k = s.laneOf k)
      ∧ ((∀ k ∈ List.range 24, ¬sending k) →
          t.cnt64 m 39 = min (2 ^ 64 - 1) (s.cnt64 m 39 + (s.portOf m).tx.toList.length)
          ∧ ∀ f ∈ (s.portOf m).tx.toList, OutEvent.frame m (s.copies m) preSfd false true ∈ t.out
            ∧ t.swc.descFree = min 65536 (s.swc.descFree + 1))
      ∧ (s.tidy = true → ∀ i, t.fdbAt i = (s.fdbAt i).filter fun e =>
          !(s.bit swcCfgFlushOnDown && s.on pgFdb) || e.static || e.group || e.dest.toNat != m)
    (s.letsIn p (laneCfg m) = true →
      if s.st (pgLane m) = stOff ∧ modeAllowed m (bitsOf v 0 3) = true then
        Gives (exec (.laneModeWrite p n v) s) fun t => t.mode m = bitsOf v 0 3 ∧ OnlyRegs s { t with chip := s.chip, irq := s.irq } [laneCfg m]
      else Gives (exec (.laneModeWrite p n v) s) fun t => OnlyRegs s t [hdrErrCause (pgLane m)]
        ∧ (s.st (pgLane m) ≠ stOff → (t.reg (hdrErrCause (pgLane m))).getLsbD 8 = true)
        ∧ (modeAllowed m (bitsOf v 0 3) = false → (t.reg (hdrErrCause (pgLane m))).getLsbD 9 = true))
    ∧ (s.on (pgLane m) = true → s.mode m ≠ 0 → Gives (exec (.laneAligned n) s) fun t =>
        t.bit (laneStatusAligned m) = true ∧ t.bit (laneStatusCdrLock m) = true ∧ t.bit (laneStatusSignal m) = true
          ∧ shape t ∧ OnlyRegs s { t with port := s.port, out := s.out } [laneStatus m]
          ∧ ((s.portOf m).localFault = false → s.bit (laneStatusAligned m) = false →
              t.out = (if s.mode m = 2 ∧ s.on (pgMac m) = true ∧ s.bit (macCfgAnEn m) = true then
                [.advertise m (s.bit (macCfgPauseAdv m))] else []) ++ s.out))
    ∧ (s.linkCan m = true → s.bit (macLinkUp m) = false → Gives (exec (.linkUp n) s) fun t => (t.portOf m).credit = [] ∧ rise t (macLink m))
    ∧ (s.bit (macLinkUp m) = true → Gives (exec (.linkDown n) s) fun t => falls t [laneStatus m] ∧ cuts t
        ∧ t.bit (laneStatusAligned m) = false ∧ t.bit (laneStatusCdrLock m) = false ∧ t.bit (laneStatusSignal m) = false
        ∧ ((s.mode m = 5 ∨ (s.mode m = 4 ∧ s.bit (macCfgFefiEn m) = true)) → s.on (pgMac m) = true → (s.portOf m).localFault = false →
            t.out.head? = some (.linkFault m true)))
    ∧ (s.mode m = 1 → s.on (pgMac m) = true → s.on (pgLane m) = true → s.bit (laneStatusAligned m) = true →
        s.bit (macLinkRemoteFault m) = false → s.bit (macLinkUp m) = false →
      (∀ sp : Fin 3, s.bit (macLinkPhyPresent m) = true →
          (Gives (exec (.sgmiiControlWord n true sp true) s) fun t => t.get (macLinkSpeed m) = sp.val + 1 ∧ rise t (macLink m))
          ∧ Gives (exec (.sgmiiControlWord n true sp false) s) fun t =>
              (t.reg (hdrErrCause (pgMac m))).getLsbD 9 = true ∧ t.bit (macLinkUp m) = false ∧ shape t
                ∧ OnlyRegs s { t with port := s.port } [hdrErrCause (pgMac m)])
      ∧ (∀ (o : MdioOp) (data : Half), s.bit (macLinkPhyPresent m) = false → (s.portOf m).sgmiiUp = true →
          (s.portOf m).phyAnswered = true → s.mdio = [(0, [o])] → o.probe = true → o.port = m →
          (Gives (exec (.mdioDone false true data) s) fun t => t.bit (macLinkPhyPresent m) = true ∧ link t ∧ shape t ∧ t.mdio = []
            ∧ (t.reg (hdrIrqRaw (pgMac m))).getLsbD 1 = true
            ∧ OnlyRegs s { t with port := s.port, mdio := s.mdio, out := s.out } [macLink m, hdrIrqRaw (pgMac m)])
          ∧ Gives (exec (.mdioDone false false data) s) fun t => (t.portOf m).probed = true ∧ shape t
            ∧ OnlyRegs s { t with port := s.port, mdio := s.mdio, out := s.out } []))
    ∧ (∀ aCycles : Nat, Gives (exec (.phyProbe n aCycles) s) fun t =>
        let b := s.get (macPhyCfgBus m)
        let ask (r : Nat) : MdioOp := ⟨m, s.bit (macPhyCfgClause45 m), s.get (macPhyCfgAddr m), 0, r, 1, 0, true⟩
        if s.on (pgMac m) = true ∧ s.mode m = 1 ∧ s.bit (macLinkPhyPresent m) = false ∧ s.probesLeft m = false ∧ 25000000 ≤ aCycles then
          t.mdio.rd [] b = s.mdio.rd [] b ++ [ask 2, ask 3] ∧ t.mdio.rd [] (1 - b) = s.mdio.rd [] (1 - b) ∧ { t with mdio := s.mdio } = s
        else t = s)
    ∧ (s.mode m = 2 → s.bit (macCfgAnEn m) = true → s.on (pgMac m) = true → s.on (pgLane m) = true → s.bit (laneStatusAligned m) = true →
        s.bit (macLinkRemoteFault m) = false → s.bit (macLinkUp m) = false → ∀ pause : Bool,
      (Gives (exec (.autonegComplete n true pause) s) fun t => t.bit (macLinkPartnerPause m) = pause ∧ rise t (macLink m))
      ∧ Gives (exec (.autonegComplete n false pause) s) fun t => t.bit (macLinkPartnerPause m) = pause
          ∧ (t.reg (hdrErrCause (pgMac m))).getLsbD 9 = true ∧ t.bit (macLinkUp m) = false ∧ shape t
          ∧ OnlyRegs s { t with port := s.port } [macLink m, hdrErrCause (pgMac m)])
    ∧ ((s.mode m = 5 ∨ (s.mode m = 4 ∧ s.bit (macCfgFefiEn m) = true)) → s.on (pgMac m) = true →
      (s.bit (macLinkUp m) = true → Gives (exec (.remoteFault n true) s) fun t => t.bit (macLinkRemoteFault m) = true
          ∧ falls t [] ∧ cuts t ∧ (s.bit (macLinkRemoteFault m) = false → (t.reg (hdrIrqRaw (pgMac m))).getLsbD 6 = true))
      ∧ Gives (exec (.remoteFault n false) s) fun t => t.bit (macLinkRemoteFault m) = false ∧ OnlyRegs s t [macLink m])

/-- On a port whose MAC receives, in an Ethernet mode and with its link up or lost in this frame, a frame that ends
(its preamble not missing, its gap at least 5 byte times) is the first copy of each byte its line repeats. It counts
its bytes in RX_OCTETS_ALL and its error code-groups in RX_SYMBOL_ERR, and then: longer than MAXLEN (clamped to 64 to
9,216) and not cut by loss of link RX_OVERSIZE, and it ends at byte MAXLEN + 1; shorter than 64 bytes a runt or, with
an error, a fragment; with an error RX_FCS_ERR; else the good-frame counters, its cast, its length range and, tagged,
the tag counter. No other counter of the port moves. Frames of 64 bytes or more enter the switch core's ingress with
their corrected stamp, good only if error-free, unless a through-lane without tap takes the port's frames; runts and
fragments do not. A good PAUSE frame counts, and with PAUSE_RX_EN on a port that is no lane egress its quanta count
and set PAUSED (0 quanta clear it), else it counts as ignored; PAUSE_FRAME is such a frame of 64 bytes. Where no frame
is received, RX_FRAME_END changes nothing. PAUSE_EXPIRY clears PAUSED. (Rests on the model's own readings and choices
in assumption rows 38, 160, 161 and 162.) -/
def Obligations.ReceivedFramesAreClassedAndCounted : Prop :=
  ∀ (n : PortIx) (s : State),
    let m := n.val
    let rx (l : List Byte) (lost : Bool) (errs : Nat) (x : Strobe) (t : State) : Prop :=
      let len := l.length
      let top := min (max (s.get (macMaxlenBytes m)) 64) 9216
      let long := top < len ∧ lost = false
      let good := errs = 0 ∧ fcsGood l = true ∧ lost = false
      let obeys := s.bit (macCfgPauseRxEn m) = true ∧ s.laneEgress m = false
      Counted s t m ((7, errs) :: (if long then [(5, top + 1), (10, 1)] else (5, len) ::
          if len < 64 then (if good then [(8, 1)] else [(9, 1)])
          else if good then [(0, len), (1, 1), (2 + castOf l, 1), (14 + lenRange len, 1)] ++ (if isTagged l then [(13, 1)] else [])
            ++ (match pauseOf l with | some q => (11, 1) :: if obeys then [(38, q.toNat)] else [(12, 1)] | none => [])
          else [(6, 1)]))
        ∧ (∀ q : Half, pauseOf l = some q → ¬long → 64 ≤ len → good →
            t.bit (macLinkPaused m) = if obeys then q != 0 else s.bit (macLinkPaused m))
        ∧ (pauseOf l = none → t.reg (macLink m) = s.reg (macLink m))
        ∧ BlocksKept s t [pgMac m, pgPtpa, pgSwc] [laneCodeErr m] ∧ t.mem = s.mem ∧ (∀ j, j ≠ m → t.portOf j = s.portOf j)
        ∧ (t.portOf m).stampRx = s.stampIn m x ∧ (t.portOf m).rxOver = (!s.on (pgMac m) || (s.portOf m).rxOver)
        ∧ ((s.laneTakes m = true → s.bit (fabLaneCfgTap m) = true) → s.on pgSwc = true → (∀ i ∈ s.swc.ingress, i.src ≠ m) →
            t.swc.ingress = if ¬long ∧ len < 64 then s.swc.ingress
              else s.swc.ingress ++ [⟨m, [], if long then l.take (top + 1) else l, none,
                some (decide (¬long ∧ good), s.stampIn m x)⟩])
    (∀ f : RxEnd, s.macReceives m = true → modeEth (s.mode m) = true → s.bit (macLinkUp m) = true ∨ f.linkLost = true →
      0 < f.preamble → 5 ≤ f.gap → Gives (exec (.rxFrameEnd n f) s) (rx (firstCopies (s.copies m) f.line) f.linkLost f.codeErrs f.stamp))
    ∧ (∀ f : PauseRx, s.macReceives m = true → modeEth (s.mode m) = true → s.bit (macLinkUp m) = true →
        Gives (exec (.pauseFrame n f) s) (rx (pauseBytes f.sa f.quanta) false 0 f.stamp))
    ∧ (∀ f : RxEnd, s.macReceives m = false ∨ modeEth (s.mode m) = false ∨ (s.bit (macLinkUp m) = false ∧ f.linkLost = false)
        ∨ f.preamble = 0 ∨ f.gap < 5 → exec (.rxFrameEnd n f) s = .next s)
    ∧ (Gives (exec (.pauseExpiry n) s) fun t => t.bit (macLinkPaused m) = false ∧ (t.portOf m).paused = false
        ∧ (∀ j, j ≠ m → t.portOf j = s.portOf j) ∧ OnlyRegs s { t with port := s.port } [macLink m])

/-- TX_SELECT of a port that may not send changes nothing. At a port that may send, without shaping and without launch
times at the queue heads, it starts the head frame of the highest queue that holds one, takes it from that queue, and
moves no counter; with all queues empty it changes nothing. Where the one queue holding frames is shaped and its
credit would still be negative after the byte times passed, nothing starts and the credit is higher by IDLE_SLOPE
(limited to the rate) times 8 per byte time, up to 0 for those in which it was empty. Of a lone frame with a launch
time L: late (HTBA above L + LATE_TOL) it starts and counts in TX_LATE_SENT, or with LATE_DROP is discarded and counts
in TX_LATE_DROP, with IRQ bit 4 either way; not late it waits for its launch instant, and then starts and counts in
TX_LAUNCHED. With LAUNCH_GUARD no frame starts that would not end before the launch instant of a head frame waiting in
another queue. LAUNCH_INSTANT marks the head frame of a queue launched once the predicted pin time has reached L.
TX_FRAME_END of a frame without cell errors or PTP edit: preamble, SFD, the egress edit of the stored bytes, padded to
60, and a fresh FCS leave the port; its transmit counters and no others move; a requested stamp enters TXTS, or sets
OVF when 16 wait; the descriptor is released, and the cells with the last one. With no queue frame in transmission the
foremost finished frame of the lane into the port leaves so: a stomped one unpadded with its FCS inverted and counted,
one forwarded raw as it came. TX_SELECT of endpoint 24 (the model's choice, log entry 186) delivers the host the head
frame of its highest queue that holds one, behind its delivery header. (Rests on the model's own readings and choices
in assumption rows 35, 36, 41, 163, 168, 186 and 187.) -/
def Obligations.FramesAreSelectedAndSent : Prop :=
  ∀ (n : PortIx) (bt : Nat) (waited : List Nat) (x : Strobe) (s : State),
    let m := n.val
    let select := exec (.txSelect n.castSucc ⟨bt, waited⟩) s
    let alone (t : State) : Prop := ∀ j, j ≠ m → t.portOf j = s.portOf j
    (s.txReady m = false → select = .next s)
    ∧ (s.txReady m = true →
      ((∀ q < 8, s.bit (macShapeQCfgCbsEn m q) = false ∧ ∀ d ∈ (s.queueOf (8 * m + q)).head?, d.launch = none) →
        ((∀ q < 8, s.queueOf (8 * m + q) = []) → select = .next s)
        ∧ ∀ q < 8, (∀ k < 8, q < k → s.queueOf (8 * m + k) = []) → ∀ (d : Desc) (r : List Desc), s.queueOf (8 * m + q) = d :: r →
          Gives select fun t => (t.portOf m).tx = some ⟨d, q, [], false, false⟩ ∧ t.queueOf (8 * m + q) = r
            ∧ (∀ k, k ≠ 8 * m + q → t.queueOf k = s.queueOf k) ∧ alone t ∧ BlocksKept s t [pgSwc] [] ∧ t.mem = s.mem)
      ∧ ((∀ k < 8, s.bit (macShapeQCfgCbsEn m k) = false) →
          let late (l : Nat) : Prop := 0 < past ((s.htbOf 2).v.setWidth 72) (l + s.get (macLateTolNs m))
          let waits (k l : Nat) : Prop := ¬late l ∧ (s.portOf m).launched.rd false k = false ∧ past (s.pinTime m) l < 0
          (∀ q < 8, (∀ k < 8, k ≠ q → s.queueOf (8 * m + k) = []) → ∀ (d : Desc) (l : Nat), s.queueOf (8 * m + q) = [d] →
            d.launch = some l → d.bad = none →
            let starts (c : Nat) (t : State) : Prop := (t.portOf m).tx = some ⟨d, q, [], false, true⟩ ∧ t.queueOf (8 * m + q) = []
              ∧ Counted s t m [(c, 1)]
            let irq4 (t : State) : Prop := (t.reg (hdrIrqRaw (pgMac m))).getLsbD 4 = true
            if late l then Gives select fun t => irq4 t ∧ if s.bit (macCfgLateDrop m) = false then starts 36 t
              else (t.portOf m).tx = none ∧ t.queueOf (8 * m + q) = [] ∧ Counted s t m [(37, 1)]
                ∧ t.swc.descFree = min 65536 (s.swc.descFree + 1)
            else if waits q l then select = .next s
            else Gives select (starts 35))
          ∧ ∀ q < 8, ∀ k < 8, q ≠ k → (∀ j < 8, j ≠ q → j ≠ k → s.queueOf (8 * m + j) = []) →
            ∀ (d e : Desc) (r r' : List Desc) (l : Nat), s.queueOf (8 * m + q) = d :: r → s.queueOf (8 * m + k) = e :: r' →
              d.launch = none → e.launch = some l → waits k l →
              let time : Int := ((d.wireLen m + 20) * 8 * 1000000 * 2 ^ 32 / s.portRate m : Nat)
              if s.bit (macCfgLaunchGuard m) = true ∧ -(past (s.pinTime m) l) ≤ time then select = .next s
              else Gives select fun t => (t.portOf m).tx = some ⟨d, q, [], false, false⟩)
      ∧ (∀ q < 8, (∀ k < 8, k ≠ q → s.bit (macShapeQCfgCbsEn m k) = false ∧ s.queueOf (8 * m + k) = []) →
          s.bit (macShapeQCfgCbsEn m q) = true → s.queueOf (8 * m + q) ≠ [] →
          let w := min bt (waited.getD q bt)
          let slope : Int := min (s.get (macShapeQCfgIdleSlope m q)) (s.portRate m) * 8
          let c := s.creditOf m q
          let c' := (if w = bt then c else if 0 ≤ c then 0 else min (c + slope * (bt - w : Nat)) 0) + slope * w
          s.creditLo m q ≤ c → c' < 0 → Gives select fun t => t.creditOf m q = c'
            ∧ (t.portOf m).tx = none ∧ { t with port := s.port } = s ∧ alone t))
    ∧ (∀ (q : OctIx) (d : Desc) (r : List Desc) (l : Nat), s.queueOf (8 * m + q.val) = d :: r → d.launch = some l →
        if 0 ≤ past (s.pinTime m) l then Gives (exec (.launchInstant n q) s) fun t => (t.portOf m).launched.rd false q.val = true
          ∧ (∀ k, k ≠ q.val → (t.portOf m).launched.rd false k = (s.portOf m).launched.rd false k)
          ∧ { t with port := s.port } = s ∧ alone t
        else exec (.launchInstant n q) s = .next s)
    ∧ (∀ f : TxFrame, (s.portOf m).tx = some f →
        (∀ q < 8, s.bit (macShapeQCfgCbsEn m q) = false) → (s.loadFrame f.desc.cells f.desc.length).2.1 = false →
        let l := f.desc.egress m (s.loadFrame f.desc.cells f.desc.length).1
        let w := l ++ List.replicate (60 - l.length) 0
        let sent := w ++ fcsOf w
        s.on pgPtpa = false ∨ s.bit (ptpaPortCfgParseEn m) = false ∨ s.ptpParse l = none →
        Gives (exec (.txFrameEnd n bt waited x) s) fun t => t.out = .frame m (s.copies m) (preSfd ++ sent) false false :: s.out
          ∧ (t.portOf m).tx = none ∧ (t.portOf m).stampTx = s.stampOut m x ∧ alone t ∧ t.mem = s.mem
          ∧ Counted s t m ([(22, sent.length), (23, 1), (24 + castOf sent, 1), (27 + lenRange sent.length, 1)] ++ if l.length < 60 then [(34, 1)] else [])
          ∧ (t.portOf m).txts = (match f.desc.txts with
              | some tag => if (s.portOf m).txts.length < 16 then (s.portOf m).txts ++ [⟨tag, s.stampOut m x⟩] else (s.portOf m).txts
              | none => (s.portOf m).txts)
          ∧ (f.desc.txts.isSome = true → if 16 ≤ (s.portOf m).txts.length then t.bit (macTxtsStatOvf m) = true
              else (t.reg (hdrIrqRaw (pgMac m))).getLsbD 2 = true)
          ∧ t.swc.descFree = min 65536 (s.swc.descFree + 1) ∧ t.swc.queues = s.swc.queues
          ∧ t.swc.freed = s.swc.freed ++ (if t.descs.any (·.fid == f.desc.fid) then [] else f.desc.cells))
    ∧ ((s.portOf m).tx = none →
      (s.laneInto m = none → exec (.txFrameEnd n bt waited x) s = .next s)
      ∧ ∀ (k : Nat) (o : LaneOut) (r : List LaneOut), s.laneInto m = some k → (s.laneOf k).out = o :: r →
        (s.strm (s.laneAt k).1 (s.laneAt k).2).frames = [] ∨ (s.strm (s.laneAt k).1 (s.laneAt k).2).outDone = true →
        if o.fin = true ∧ s.laneSends m o = true then o.late = false ∨ o.stomp = false →
          let w := if o.raw = true ∨ o.stomp = true then o.bytes else o.bytes ++ List.replicate (60 - o.bytes.length) 0
          let stomp := o.stomp && !o.raw
          let sent := if o.raw = true then o.bytes else w ++ (if stomp then (fcsOf w).map (~~~ ·) else fcsOf w)
          Gives (exec (.txFrameEnd n bt waited x) s) fun t => t.out = .frame m (s.copies m) (preSfd ++ sent) stomp false :: s.out
            ∧ (t.laneOf k).out = r ∧ (t.portOf m).stampTx = s.stampOut m x ∧ alone t
            ∧ Counted s t m ([(22, sent.length), (23, 1), (24 + castOf sent, 1), (27 + lenRange sent.length, 1)]
              ++ (if stomp then [(41, 1)] else []) ++ if o.bytes.length < 60 ∧ o.raw = false ∧ o.stomp = false then [(34, 1)] else [])
        else exec (.txFrameEnd n bt waited x) s = .next s)
    ∧ (let take := exec (.txSelect (Fin.last 24) ⟨bt, waited⟩) s
      (s.on pgSwc = false ∨ (∀ h < 8, s.queueOf (228 + h) = []) → take = .next s)
      ∧ (s.on pgSwc = true → ∀ h < 8, (∀ k < 8, h < k → s.queueOf (228 + k) = []) → ∀ (d : Desc) (r : List Desc),
          s.queueOf (228 + h) = d :: r → Gives take fun t =>
            let f := s.loadFrame d.cells d.length
            t.out = .hostFrame h (d.header f.2.1 ++ f.1) :: s.out ∧ t.queueOf (228 + h) = r
              ∧ (∀ k, k ≠ 228 + h → t.queueOf k = s.queueOf k) ∧ t.swc.descFree = min 65536 (s.swc.descFree + 1)
              ∧ t.port = s.port ∧ t.mem = s.mem))

/-- For a principal that reaches the device: a read of CNT[i].LO answers the low word, clears the counter and latches
its high word for that principal with i; a read of CNT[i].HI answers the word so latched for i and empties the latch,
and with another index or an empty latch answers 0 and sets ERR_CAUSE bit 10. An accepted STAT_SNAP write with GO
copies all 42 counters to their shadows and clears them, and leaves the latches. A read of TXTS_HI answers the head
stamp's high word and removes the entry; an empty FIFO answers 0. A write of MDIO_CMD queues the operation, with the
clause, PHY address and register it then has, on the PHY's bus and sets BUSY, or with BUSY = 1 sets bit 11 alone;
MDIO_DONE performs the oldest of a bus, in Clause 45 behind an address frame: BUSY clears, NO_ANSWER tells whether the
PHY answered, a read takes the data (0xFFFF without an answer), and IRQ bit 5 rises. (Rests on the model's own
readings and choices in assumption rows 39, 159, 164 and 165.) -/
def Obligations.CountersSnapshotsStampsAndMdio : Prop :=
  ∀ (p : Principal) (n : PortIx) (i : Fin 42) (s : State),
    let m := n.val
    let alone (t : State) : Prop := ∀ j, j ≠ m → t.portOf j = s.portOf j
    (s.reaches p = true →
      (Gives (exec (.cntLoRead p n i) s) fun t => t.readData p = s.reg (macCntLo m i.val) ∧ t.cnt64 m i.val = 0
        ∧ (t.portOf m).latch.rd (42, 0) (pIdx p) = (i.val, s.reg (macCntHi m i.val)) ∧ alone t
        ∧ (∀ k, k ≠ pIdx p → (t.portOf m).latch.rd (42, 0) k = (s.portOf m).latch.rd (42, 0) k)
        ∧ OnlyRegs s { t with port := s.port, rdata := s.rdata } [macCntLo m i.val, macCntHi m i.val])
      ∧ (Gives (exec (.cntHiRead p n i) s) fun t =>
          if ((s.portOf m).latch.rd (42, 0) (pIdx p)).1 = i.val then
            t.readData p = ((s.portOf m).latch.rd (42, 0) (pIdx p)).2 ∧ (t.portOf m).latch.rd (42, 0) (pIdx p) = (42, 0)
              ∧ alone t ∧ OnlyRegs s { t with port := s.port, rdata := s.rdata } []
          else t.readData p = 0 ∧ (t.reg (hdrErrCause (pgMac m))).getLsbD 10 = true
            ∧ OnlyRegs s { t with rdata := s.rdata } [hdrErrCause (pgMac m)])
      ∧ (Gives (exec (.txtsHiRead p n) s) fun t => match (s.portOf m).txts with
          | [] => t.readData p = 0 ∧ { t with rdata := s.rdata } = s
          | e :: r => t.readData p = stampHi e.stamp ∧ t.portOf m = { s.portOf m with txts := r } ∧ alone t
              ∧ { t with rdata := s.rdata, port := s.port } = s))
    ∧ (∀ v : Word, s.letsIn p (macStatSnap m) = true → v.getLsbD 0 = true → Gives (exec (.statSnap p n v) s) fun t =>
        (∀ k < 42, t.cnt64 m k = 0 ∧ t.reg (macCntsLo m k) = s.reg (macCntLo m k) ∧ t.reg (macCntsHi m k) = s.reg (macCntHi m k))
          ∧ OnlyRegs s t ((List.range 42).flatMap fun k => [macCntLo m k, macCntHi m k, macCntsLo m k, macCntsHi m k]))
    ∧ (s.letsIn p (macMdioCmd m) = true →
        let bus := s.get (macPhyCfgBus m)
        let queued (op : Nat) (t : State) : Prop :=
          if s.bit (macMdioCmdBusy m) = true then (t.reg (hdrErrCause (pgMac m))).getLsbD 11 = true ∧ OnlyRegs s t [hdrErrCause (pgMac m)]
          else
            let c45 := s.bit (macPhyCfgClause45 m)
            let reg := s.get (macMdioAddrReg m)
            t.mdio.rd [] bus = s.mdio.rd [] bus ++ [⟨m, c45, s.get (macPhyCfgAddr m), op, if c45 then reg else reg % 32,
              s.get (macMdioAddrDevad m), BitVec.ofNat 16 (s.get (macMdioDataData m)), false⟩]
            ∧ t.mdio.rd [] (1 - bus) = s.mdio.rd [] (1 - bus) ∧ t.bit (macMdioCmdBusy m) = true
            ∧ OnlyRegs s { t with mdio := s.mdio } [macMdioCmd m]
        Gives (exec (.mdioRead p n) s) (queued 0) ∧ Gives (exec (.mdioWrite p n) s) (queued 1) ∧ Gives (exec (.mdioReadInc p n) s) (queued 2))
    ∧ (∀ (bus1 answered : Bool) (data : Half) (o : MdioOp) (r : List MdioOp), s.mdio.rd [] bus1.toNat = o :: r → o.port < 24 → o.probe = false →
        Gives (exec (.mdioDone bus1 answered data) s) fun t => t.mdio.rd [] bus1.toNat = r
          ∧ t.mdio.rd [] (1 - bus1.toNat) = s.mdio.rd [] (1 - bus1.toNat)
          ∧ t.bit (macMdioCmdBusy o.port) = false ∧ t.bit (macMdioCmdNoAnswer o.port) = !answered
          ∧ t.get (macMdioDataData o.port) = (if o.op = 1 then s.get (macMdioDataData o.port) else if answered then data.toNat else 0xFFFF)
          ∧ (t.reg (hdrIrqRaw (pgMac o.port))).getLsbD 5 = true
          ∧ (let wire := if o.op = 1 then o.data.toNat else if answered then data.toNat else 0xFFFF
             let pre := !s.bit (laneMdioBusPreSuppress bus1.toNat)
             t.out = if o.clause45 = true then .mdio bus1.toNat pre true o.phy o.op o.devad wire
                 :: .mdio bus1.toNat pre true o.phy 3 o.devad o.reg :: s.out
               else .mdio bus1.toNat pre false o.phy o.op o.reg wire :: s.out)
          ∧ OnlyRegs s { t with mdio := s.mdio, out := s.out } [macMdioCmd o.port, macMdioData o.port, hdrIrqRaw (pgMac o.port)])

/-- With FDB ON, LEARN takes the oldest waiting learn off the FIFO and counts it: a dynamic entry of its key refreshes
its age to 3 and, if its destination differs, takes the learned one and counts a move; a static entry stands and
counts; a new key takes the first free way of its set or else a free CAM entry; with none free it is dropped, counted
and raises IRQ bit 2. Every other entry stands, and only the statistics counters and that bit change. In FDB's
canonical form, FDB_AGE_SWEEP with AGE_EN takes one off the age of each dynamic entry, and removes and counts those
whose age was 0; static entries and everything else stand. A learn that an FDB command waits for is served before it;
the last of them lets the command be served. (That the counter LEARNS counts every learn served is assumption row 44.)
(Rests on the model's own reading or choice in assumption row 46.) -/
def Obligations.LearningAndAgeing : Prop :=
  ∀ s : State, s.on pgFdb = true →
    (∀ (l : Learn) (r : List Learn), s.swc.learns = l :: r → s.swc.fdbJob = none →
      let up (k : Nat) (t : State) : Prop := t.rn (fdbStat k) = min 0xFFFFFFFF (s.rn (fdbStat k) + 1)
      let only (i : Option Nat) (t : State) (ks : List Nat) : Prop := t.swc.learns = r ∧ up 0 t
        ∧ (∀ j, some j ≠ i → t.fdbAt j = s.fdbAt j)
        ∧ OnlyRegs s { t with swc := { t.swc with learns := s.swc.learns, fdb := s.swc.fdb } } (fdbStat 0 :: ks)
      match s.fdbFind l.vid l.mac with
      | some i => ∀ e : FdbEntry, s.fdbAt i = some e → Gives (exec .learn s) fun t =>
          if e.static then t.fdbAt i = some e ∧ up 2 t ∧ only none t [fdbStat 2]
          else if e.dest = l.dest ∧ e.group = false then t.fdbAt i = some { e with age := 3 } ∧ only (some i) t []
          else t.fdbAt i = some { e with dest := l.dest, group := false, age := 3 } ∧ up 1 t ∧ only (some i) t [fdbStat 1]
      | none => match s.fdbFree l.vid l.mac with
        | some i => Gives (exec .learn s) fun t => t.fdbAt i = some ⟨l.vid, l.mac, l.dest, false, false, 3⟩
            ∧ t.fdbFind l.vid l.mac = some i ∧ only (some i) t []
        | none => Gives (exec .learn s) fun t => up 3 t ∧ (t.reg (hdrIrqRaw pgFdb)).getLsbD 2 = true
            ∧ only none t [fdbStat 3, hdrIrqRaw pgFdb])
    ∧ (∀ (l : Learn) (r : List Learn) (j : FdbJob), s.swc.learns = l :: r → s.swc.fdbJob = some j → j.result = none → j.sweep = none →
        Gives (exec .learn s) fun t => t.swc.learns = r ∧ t.rn (fdbStat 0) = min 0xFFFFFFFF (s.rn (fdbStat 0) + 1)
          ∧ (if j.ahead = 1 then ∀ k ∈ t.swc.fdbJob, k.result.isSome = true ∧ k.op = j.op ∧ k.ahead = 0
            else t.swc.fdbJob = some { j with ahead := j.ahead - 1 })
          ∧ RegsKept s t [fdbStat 0, fdbStat 1, fdbStat 2, fdbStat 3, hdrIrqRaw pgFdb, swcGen] ∧ MemKept s t)
    ∧ (s.swc.learns = [] → exec .learn s = .next s)
    ∧ (s.bit fdbCfgAgeEn = true → s.tidy = true → Gives (exec .fdbAgeSweep s) fun t =>
        (∀ i, t.fdbAt i = match s.fdbAt i with
          | some e => if e.static then some e else if e.age = 0 then none else some { e with age := e.age - 1 }
          | none => none)
        ∧ t.rn (fdbStat 5) = min 0xFFFFFFFF (s.rn (fdbStat 5)
            + (s.swc.fdb.filter fun x => match x.2 with | some e => !e.static && e.age == 0 | none => false).length)
        ∧ OnlyRegs s { t with swc := { t.swc with fdb := s.swc.fdb } } [fdbStat 5])

/-- An accepted FDB command while BUSY = 1 only sets ERR_CAUSE bit 8. Otherwise BUSY is set and: INSERT writes the
entry of DATA at its key's place (its entry, else a free way, else a free CAM entry); DELETE removes the key's entry;
FLUSH begins a sweep for the entries FLUSH_BY selects (0 dynamic, 1 dynamic with DEST, 2 dynamic with VID, 3 all);
each raises GEN by one and will answer OK, or changes no entry and will answer GEN_FULL when GEN would run too far
ahead. SEARCH and READ change no entry and will answer the entry and its index, or NOT_FOUND; so will DELETE of an
absent key; an unknown OP will answer INVALID. A command behind learns that arrived before it waits for them.
FDB_CMD_DONE ends a sweep, which removes exactly the entries it selects from where it has come to, publishes the
result and entry, clears BUSY and raises IRQ bit 1. (That the work is done at the command, with the key and data that
stand then, and that a new entry's age is 3, are assumption rows 45, 171 and 46.) (Rests on the model's own readings
and choices in assumption rows 47 and 48.) -/
def Obligations.ForwardingDatabaseCommands : Prop :=
  ∀ (p : Principal) (s : State), s.letsIn p fdbCmd = true → s.tidy = true →
    let vid : BitVec 12 := BitVec.ofNat 12 (s.get fdbKeyMacHiVid)
    let mac : BitVec 48 := BitVec.ofNat 48 (s.rn fdbKeyMacLo + s.get fdbKeyMacHiMac * 2 ^ 32)
    let e : FdbEntry := ⟨vid, mac, BitVec.ofNat 12 (s.get fdbDataDest), s.bit fdbDataGroup, s.bit fdbDataStatic, 3⟩
    let frame (t : State) (ks : List Nat) : Prop := t.bit fdbCmdBusy = true
      ∧ OnlyRegs s { t with swc := { t.swc with fdb := s.swc.fdb, fdbJob := s.swc.fdbJob } } (fdbCmd :: ks)
    let job (op : Nat) : FdbJob := { op := op, flushBy := s.get fdbCmdFlushBy, ahead := 0 }
    let ends (j : FdbJob) (r : Nat) (d : Option (FdbEntry × Nat)) (t : State) : Prop :=
      t.swc.fdbJob = some { j with result := some r, data := d } ∧ t.swc.fdb = s.swc.fdb ∧ frame t []
    let changes (j : FdbJob) (f : Nat → Option FdbEntry) (t : State) : Prop :=
      if s.genFull then ends { j with sweep := none } 4 none t
      else t.swc.fdbJob = some { j with result := some 0 } ∧ (∀ i, t.fdbAt i = f i) ∧ t.get swcGenGen = (s.get swcGenGen + 1) % 0x10000 ∧ frame t [swcGen]
    let found := s.fdbFind vid mac
    (s.bit fdbCmdBusy = true → ∀ c ∈ [Instr.fdbInsert p, .fdbDelete p, .fdbSearch p, .fdbFlush p 0, .fdbRead p],
      Gives (exec c s) fun t => (t.reg (hdrErrCause pgFdb)).getLsbD 8 = true ∧ OnlyRegs s t [hdrErrCause pgFdb])
    ∧ (s.bit fdbCmdBusy = false → s.swc.learns ≠ [] → ∀ x ∈ [(1, Instr.fdbInsert p), (2, .fdbDelete p), (3, .fdbSearch p), (5, .fdbRead p)],
      Gives (exec x.2 s) fun t => t.swc.fdbJob = some { job x.1 with ahead := s.swc.learns.length } ∧ t.swc.fdb = s.swc.fdb ∧ frame t [])
    ∧ (s.bit fdbCmdBusy = false → s.swc.learns = [] →
      (∀ i, found = some i ∨ (found = none ∧ s.fdbFree vid mac = some i) →
        Gives (exec (.fdbInsert p) s) (changes (job 1) fun j => if j = i then some e else s.fdbAt j))
      ∧ (∀ i, found = some i → Gives (exec (.fdbDelete p) s) (changes (job 2) fun j => if j = i then none else s.fdbAt j))
      ∧ (∀ (i : Nat) (x : FdbEntry), found = some i → s.fdbAt i = some x → Gives (exec (.fdbSearch p) s) (ends (job 3) 0 (some (x, i))))
      ∧ (found = none → Gives (exec (.fdbDelete p) s) (ends (job 2) 1 none) ∧ Gives (exec (.fdbSearch p) s) (ends (job 3) 1 none))
      ∧ (∀ by' : Fin 4, Gives (exec (.fdbFlush p by') s) (changes
          { op := 4, flushBy := by'.val, ahead := 0, sweep := some ⟨by'.val, e.dest.toNat, vid.toNat, 0⟩ } s.fdbAt))
      ∧ (s.get fdbIndexIndex < 65792 → match s.fdbAt (s.get fdbIndexIndex) with
          | some x => Gives (exec (.fdbRead p) s) (ends (job 5) 0 (some (x, s.get fdbIndexIndex)))
          | none => Gives (exec (.fdbRead p) s) (ends (job 5) 1 none))
      ∧ (∀ op : BitVec 3, op = 0 ∨ 5 < op.toNat → Gives (exec (.fdbUnknownOp p op) s) (ends (job op.toNat) 5 none)))
    ∧ (s.swc.fdbJob = none → exec .fdbCmdDone s = .next s)
    ∧ (∀ (j : FdbJob) (res : Nat), s.swc.fdbJob = some j → j.ahead = 0 → j.result = some res → Gives (exec .fdbCmdDone s) fun t =>
        t.get fdbCmdResult = res % 8
        ∧ t.bit fdbCmdBusy = false ∧ (t.reg (hdrIrqRaw pgFdb)).getLsbD 1 = true ∧ { t.swc with fdb := s.swc.fdb } = { s.swc with fdbJob := none }
        ∧ (∀ i < 65792, t.fdbAt i = match j.sweep, s.fdbAt i with
            | some w, some x =>
              if w.pos ≤ i ∧ (w.flushBy = 3 ∨ (x.static = false ∧ (w.flushBy = 0 ∨ (w.flushBy = 1 ∧ x.dest.toNat = w.dest)
                ∨ (w.flushBy = 2 ∧ x.vid.toNat = w.vid)))) then none else some x
            | none, x => x
            | some _, none => none)
        ∧ RegsKept s t [fdbCmd, hdrIrqRaw pgFdb, fdbData, fdbIndex, fdbKeyMacLo, fdbKeyMacHi]
        ∧ (∀ (x : FdbEntry) (i : Nat), j.data = some (x, i) → i < 65792 → t.fdbNew = { x with age := 3 } ∧ t.get fdbIndexIndex = i
            ∧ t.get fdbDataAge = x.age.toNat)
        ∧ (j.data = none → RegsKept s t [fdbCmd, hdrIrqRaw pgFdb]))

/-- An accepted table read loads DATA with the selected VLAN or group entry; a write stores DATA there (49 or 43 bits)
and raises GEN, or stores nothing and sets GEN_FULL when GEN would run too far ahead; both raise IRQ bit 3 of SWC.
STRM reads load DATA with the eight words of the filter, or the four of the meter; a filter write stores the eight
words and raises GEN; a meter write stores the four and fills both buckets, its counters kept; a meter number of 512
or more sets INVALID and stores nothing. METER_REFILL adds to each bucket its increment, never past its size, and
changes nothing else. Arming GEN_BARRIER sets TARGET to GEN; DONE rises at once if no frame past lookup is older, else
the barrier waits. (Rests on the model's own readings and choices in assumption rows 54 and 55.) -/
def Obligations.SwitchTablesMetersAndGenerations : Prop :=
  ∀ (p : Principal) (s : State),
    (s.letsIn p swcTblCmd = true →
      let i := s.get swcTblSelIndex
      let old : Nat := if s.bit swcTblSelTable then (s.groupOf i).toNat else (s.vlanOf i).toNat
      let data := s.rn swcTblData0 + s.rn swcTblData1 * 2 ^ 32
      let irq (t : State) : Prop := (t.reg (hdrIrqRaw pgSwc)).getLsbD 3 = true
      (Gives (exec (.swcTblRead p) s) fun t => t.rn swcTblData0 = old % 2 ^ 32 ∧ t.rn swcTblData1 = old / 2 ^ 32 % 2 ^ 32
        ∧ irq t ∧ OnlyRegs s t [swcTblData0, swcTblData1, swcTblCmd, hdrIrqRaw pgSwc])
      ∧ Gives (exec (.swcTblWrite p) s) fun t => irq t ∧ t.bit swcTblCmdGenFull = s.genFull
          ∧ (if s.genFull then OnlyRegs s t [swcTblCmd, hdrIrqRaw pgSwc]
            else (∀ j, t.vlanOf j = if s.bit swcTblSelTable = false ∧ j = i then BitVec.ofNat 64 (data % 2 ^ 49) else s.vlanOf j)
              ∧ (∀ j, t.groupOf j = if s.bit swcTblSelTable = true ∧ j = i then BitVec.ofNat 43 data else s.groupOf j)
              ∧ t.get swcGenGen = (s.get swcGenGen + 1) % 0x10000
              ∧ OnlyRegs s { t with swc := { t.swc with vlan := s.swc.vlan, group := s.swc.group } } [swcGen, swcTblCmd, hdrIrqRaw pgSwc]))
    ∧ (s.letsIn p strmCmd = true →
      let i := s.get strmSelIndex
      let meter := s.bit strmSelTable
      let m := s.meterOf i
      let datas := (List.range 8).map strmData
      let irq (t : State) : Prop := (t.reg (hdrIrqRaw pgStrm)).getLsbD 1 = true
      (if meter = true ∧ 512 ≤ i then
        (Gives (exec (.strmRead p) s) fun t => t.bit strmCmdInvalid = true ∧ irq t ∧ OnlyRegs s t [strmCmd, hdrIrqRaw pgStrm])
        ∧ Gives (exec (.strmWrite p) s) fun t => t.bit strmCmdInvalid = true ∧ irq t ∧ OnlyRegs s t [strmCmd, hdrIrqRaw pgStrm]
      else
        (Gives (exec (.strmRead p) s) fun t => t.bit strmCmdInvalid = false ∧ irq t
          ∧ (∀ k < 8, t.rn (strmData k) = if meter then (if k < 4 then ([m.w0, m.w1, m.w2, m.w3].getD k 0).toNat else 0) else s.filterWord i k)
          ∧ OnlyRegs s t ([strmCmd, hdrIrqRaw pgStrm] ++ datas))
        ∧ Gives (exec (.strmWrite p) s) fun t => t.bit strmCmdInvalid = false ∧ irq t ∧ t.bit strmCmdGenFull = (!meter && s.genFull)
          ∧ (if meter then t.meterOf i = { m with
                w0 := s.reg (strmData 0), w1 := s.reg (strmData 1), w2 := s.reg (strmData 2), w3 := s.reg (strmData 3)
                c := bitsOf (s.reg (strmData 2)) 0 20 * 312500, p := bitsOf (s.reg (strmData 3)) 0 20 * 312500 }
              ∧ (∀ j, j ≠ i → t.meterOf j = s.meterOf j)
              ∧ OnlyRegs s { t with swc := { t.swc with meter := s.swc.meter } } [strmCmd, hdrIrqRaw pgStrm]
            else if s.genFull then OnlyRegs s t [strmCmd, hdrIrqRaw pgStrm]
            else (∀ j k, k < 8 → t.filterWord j k = if j = i then s.rn (strmData k) else s.filterWord j k)
              ∧ t.get swcGenGen = (s.get swcGenGen + 1) % 0x10000
              ∧ OnlyRegs s { t with swc := { t.swc with filter := s.swc.filter } } [swcGen, strmCmd, hdrIrqRaw pgStrm])))
    ∧ (s.on pgStrm = true → s.tidy = true → Gives (exec .meterRefill s) fun t =>
        (∀ i, t.meterOf i = let m := s.meterOf i
          { m with c := min (bitsOf m.w2 0 20 * 312500) (m.c + bitsOf m.w0 0 24), p := min (bitsOf m.w3 0 20 * 312500) (m.p + bitsOf m.w1 0 24) })
        ∧ { t with swc := { t.swc with meter := s.swc.meter } } = s)
    ∧ (∀ v : Word, s.letsIn p swcGenBarrier = true → v.getLsbD 0 = true → Gives (exec (.genBarrierArm p v) s) fun t =>
        let waits := s.gensHeld.any fun g => decide (0 < (BitVec.ofNat 16 (s.get swcGenGen) - g).toInt)
        t.get swcGenBarrierTarget = s.get swcGenGen ∧ t.bit swcGenBarrierDone = !waits ∧ t.swc = { s.swc with barrier := waits }
          ∧ (waits = false → (t.reg (hdrIrqRaw pgSwc)).getLsbD 1 = true)
          ∧ OnlyRegs s { t with swc := s.swc } [swcGenBarrier, hdrIrqRaw pgSwc])

/-- With SWC ON, FRAME_LOOKUP gives the oldest frame of a source without a result its result, in the generation that
stands, and counts a discard under its cause; where all destinations are idle ports the first 64 bytes are staged
there. For a frame a port receives, while the tables stand in their canonical form, the destinations are those of R156
and R157 spelled out: the VID of the tag or PVID, the lowest valid stream filter that matches on every masked field,
its drop, redirect, group or class, else the reserved-address action, the FDB entry, or the flood of VLAN members and
FLOOD_EXTRA, pruned to forwarding members whose pages take frames; and the mirror sessions are the enabled ones that
its source, its filter or a destination port selects. The result never names the frame's own port or one whose SWQ
page does not take frames, and for a frame not DIRECT and not redirected only ports that forward; a PAUSE frame and a
frame of a DISABLED port are discarded. FRAME_COMMIT of a source's oldest frame, once looked up and ended: a bad end
or a discard queues nothing, and a bad end leaves nothing of it staged; a good unmirrored, unmetered frame for one
queue is appended there with ceil(length/256) cells, takes a descriptor and counts ENQ, or, where R175 refuses it, is
not queued and counts once as NO_BUFFER, SHARED or RED. A good metered frame takes the colour its buckets give and
their tokens, counts in its meter, and is discarded where red with RED_DROP. A frame that one session mirrors to
another queue is admitted as if alone, and a copy, unedited and with MIRROR = 1, on the same cells, goes to that queue
or counts there as refused. Before that the command changes nothing. (Rests on the model's own readings and choices in
assumption rows 40, 42, 43, 49, 50, 51, 53, 172, 173, 177, 188, 202, 204, 205, 206 and 207.) -/
def Obligations.FramesAreLookedUpAndQueued : Prop :=
  ∀ (src : SrcIx) (s : State),
    let heads (t : State) : Prop := (∀ n, { t.portOf n with staged := (s.portOf n).staged } = s.portOf n)
      ∧ ∀ n, { t.peOf n with staged := (s.peOf n).staged } = s.peOf n
    let only (t : State) (l : List Nat) : Prop :=
      OnlyRegs s { t with swc := s.swc, port := s.port, fab := { t.fab with pe := s.fab.pe } } l ∧ heads t
    let looked (l : List Byte) (r : Lookup) (t : State) : Prop :=
      match r.discard with
      | some x => t.rn (swcDisc x) = min 0xFFFFFFFF (s.rn (swcDisc x) + 1) ∧ only t [swcDisc x] ∧ t.port = s.port
      | none => only t [] ∧ (r.queueSel = none → r.map.toNat < 2 ^ 24 → (∀ e < 24, r.map.getLsbD e = true → s.portIdle e = true) →
          ∀ e < 24, r.map.getLsbD e = true → (t.portOf e).staged = some (src.val, l.take 64))
    (∀ i : Ingress, s.swcTakes = true → s.swc.ingress.find? (fun i => i.src == src.val && i.look.isNone) = some i →
      ∀ (hd : List Word) (l : List Byte), Gives (exec (.frameLookup src hd l) s) fun t =>
        let r := s.lookup src.val i.hdr i.bytes
        t.swc = { s.swc with ingress := replaceFirst (fun i => i.src == src.val && i.look.isNone) (fun i => { i with look := some r }) s.swc.ingress }
          ∧ looked i.bytes r t)
    ∧ (∀ (hd : List Word) (l : List Byte), s.on pgSwc = true → (∀ i ∈ s.swc.ingress, i.src ≠ src.val) → (24 ≤ src.val → injLengthOk hd l = true) →
      let r := s.lookup src.val hd l
      (Gives (exec (.frameLookup src hd l) s) fun t =>
        t.swc = { s.swc with ingress := s.swc.ingress ++ [⟨src.val, hd, l, some r, if src.val < 24 then none else some (true, s.nowStamp)⟩] }
        ∧ looked l r t)
      ∧ r.gen = BitVec.ofNat 16 (s.get swcGenGen)
      ∧ (∀ q < 24, r.map.getLsbD q = true → q ≠ src.val ∧ s.swqOpen q = true ∧ (r.direct = false → s.get (swqPortCfgFwdState q) = 3))
      ∧ (isDirect src.val hd = false → fb48 l 0 = 0x0180C2000001 → r.discard = some 0)
      ∧ (src.val < 24 → fb48 l 0 ≠ 0x0180C2000001 → s.get (swqPortCfgFwdState src.val) = 0 → r.discard = some 5)
      ∧ (r.discard.isSome = true ↔ r.map = 0))
    ∧ (src.val < 24 → s.tidy = true → ∀ l : List Byte,
      let p := src.val
      let da := fb48 l 0
      let tci := if isTagged l then fb16 l 14 else 0
      let off := if isTagged l then 16 else 12
      let vid := if tci % 4096 = 0 then s.get (swqPvidVid p) else tci % 4096
      let prio := 2 * (if isTagged l then tci / 0x2000 else s.get (swqPortCfgDefaultPcp p)) + tci / 0x1000 % 2
      let r := s.lookup p [] l
      let mem (q : Nat) : Bool := (s.vlanOf vid).getLsbD q
      let w (f k : Nat) : Nat := s.filterWord f k
      let hits (f : Nat) : Prop := s.on pgStrm = true ∧ (w f 6).testBit 31 = true ∧ (w f 6).testBit p = true
        ∧ (da ^^^ (w f 0 + w f 1 % 0x10000 * 2 ^ 32)) &&& (w f 2 + w f 1 / 0x10000 * 2 ^ 32) = 0
        ∧ ((w f 3).testBit 12 = true → vid = w f 3 % 0x1000)
        ∧ (fb16 l off ^^^ (w f 3 / 0x10000)) &&& (w f 4 % 0x10000) = 0
        ∧ (fb16 l (off + 2) ^^^ (w f 4 / 0x10000)) &&& (w f 5 % 0x10000) = 0
      let keeps (vlan : Bool) (cls q : Nat) : Bool :=
        if q < 24 then (!vlan || mem q) && q != p && s.get (swqPortCfgFwdState q) == 3 && s.swqOpen q
          && (s.bit (macLinkUp q) || !s.bit swcCfgLinkdownPrune)
        else s.swqOpen (if q < 42 then q - 24 else 18 + cls / 2)
      let dest (q : Nat) : Bool :=
        match if s.on pgFdb then (s.fdbFind (BitVec.ofNat 12 vid) (BitVec.ofNat 48 da)).bind s.fdbAt else none with
        | some x => if x.group then (s.groupOf x.dest.toNat).getLsbD q else q == x.dest.toNat
        | none => (da == 2 ^ 48 - 1 || !da.testBit 40 || !s.bit swcCfgUmcDrop)
            && if q < 24 then mem q else (s.get swcFloodExtraMap).testBit (q - 24)
      let normal (cls q : Nat) : Bool := (s.vlanOf vid).toNat % 2 ^ 24 != 0 && dest q && keeps true cls q
      let maps (f : Nat → Bool) : Prop := (∀ q < 43, r.map.getLsbD q = f q)
        ∧ r.discard = if (List.range 43).any f then none else some 2
      let open' := s.get (swqPortCfgFwdState p)
      da ≠ 0x0180C2000001 → open' ≠ 0 →
      if s.bit (swqPortCfgInFilter p) = true ∧ mem p = false then r.discard = some 1
      else r.vid = vid ∧ r.meter = (match r.filter with
          | some f => if (w f 7).testBit 28 then some (w f 7 / 2 ^ 19 % 512) else none | none => none)
        ∧ (r.discard = none → ∀ x < 4, x ∈ r.mirrors ↔ s.bit (swcMirrorEn x) = true
            ∧ ((s.bit (swqPortCfgMirrorInEn p) = true ∧ s.get (swqPortCfgMirrorIn p) = x)
              ∨ (∃ f ∈ r.filter.toList, (w f 7).testBit 31 = true ∧ w f 7 / 2 ^ 29 % 4 = x)
              ∨ ∃ q < 24, r.map.getLsbD q = true ∧ s.bit (swqPortCfgMirrorOutEn q) = true ∧ s.get (swqPortCfgMirrorOut q) = x))
        ∧ ((∀ f < 1024, ¬hits f) → let cls := s.get (swqPcpMapClass p prio)
          r.filter = none ∧ r.cls = cls ∧ (open' < 3 → r.discard = some 5)
          ∧ (open' = 3 →
            if da / 16 = 0x0180C200000 then
              let act := s.rn swcRsvAct / 2 ^ (2 * (da % 16)) % 4
              if act = 0 then r.discard = some 3 else maps fun q => (act % 2 == 1 && q == 42) || (decide (2 ≤ act) && normal cls q)
            else maps (normal cls)))
        ∧ ∀ f < 1024, hits f → (∀ j < f, ¬hits j) →
          let w7 := w f 7
          let cls := if w7.testBit 18 then w7 / 2 ^ 15 % 8 else s.get (swqPcpMapClass p prio)
          let copy (q : Nat) : Bool := (w f 6).testBit 25 && q == 42
          let target := w7 / 4 % 0x1000
          r.filter = some f ∧ r.cls = cls ∧ (w7 % 4 = 3 → r.discard = some 4)
          ∧ (w7 % 4 = 2 → maps fun q => copy q || ((s.groupOf target).getLsbD q && keeps false cls q))
          ∧ (w7 % 4 = 1 → target < 18 → (maps fun q => copy q || q == 24 + target) ∧ r.queueSel = some (if w7.testBit 14 then 1 else 0))
          ∧ (w7 % 4 = 0 → (open' < 3 → r.discard = some 5)
            ∧ (open' = 3 → da / 16 ≠ 0x0180C200000 → maps fun q => copy q || normal cls q)))
    ∧ (∀ (n : Nat) (i : Ingress) (r : Lookup) (good : Bool) (stamp : Stamp), s.swc.ingress.find? (·.src == src.val) = some i →
        i.look = some r → i.ended = some (good, stamp) → s.swc.barrier = false →
        (good = false ∨ r.discard.isSome = true → Gives (exec (.frameCommit src n) s) fun t => t.swc.queues = s.swc.queues
          ∧ t.swc.ingress = removeFirst (·.src == src.val) s.swc.ingress ∧ t.mem = s.mem ∧ RegsKept s t [fdbStat 4] ∧ heads t
          ∧ (good = false → ∀ e < 24, (t.portOf e).staged.map (·.1) ≠ some src.val))
        ∧ (∀ q : Nat, good = true → s.on pgSwc = true → r.discard = none → r.queues = [q] → r.mirrors = [] → r.meter = none → q < 236 →
          s.descs.all (·.fid != s.swc.nextFid) = true →
          let u := (qSlot q).1
          let v := (qSlot q).2
          let rnd := lfsrAfter n (s.swc.lfsr.rd 0 (if i.src < 24 then i.src / 4 else 6))
          let len := if i.src < 24 ∧ s.bit (macCfgFcsStrip i.src) = true then i.bytes.length - 4 else i.bytes.length
          let avg := avgNext (s.get (swqAvgAvg u v)) (s.occ q) (s.get (swqWW u v))
          let drop (k : Nat) : Prop := Gives (exec (.frameCommit src n) s) fun t => t.swc.queues = s.swc.queues ∧ t.mem = s.mem
            ∧ t.rn k = min 0xFFFFFFFF (s.rn k + 1) ∧ t.get (swqAvgAvg u v) = avg % 2 ^ 26 ∧ t.swc.freed = s.swc.freed
            ∧ only t [k, swqAvg u v, fdbStat 4]
          if s.refusal q (cellsFor len) r.colour s.cellsFree rnd.toNat avg = 1 then drop (swqDropNobuf u v)
          else if s.refusal q (cellsFor len) r.colour s.cellsFree rnd.toNat avg = 2 then drop (swqDropShared u v)
          else if s.refusal q (cellsFor len) r.colour s.cellsFree rnd.toNat avg = 3 then drop (swqDropRed u v)
          else Gives (exec (.frameCommit src n) s) fun t => (∀ k, k ≠ q → t.queueOf k = s.queueOf k)
            ∧ (t.queueOf q).dropLast = s.queueOf q ∧ (t.queueOf q).length = (s.queueOf q).length + 1
            ∧ (∀ d ∈ (t.queueOf q).getLast?, d.length = len ∧ d.cells = (s.takeCells (cellsFor len)).1 ∧ d.src = i.src ∧ d.cls = r.cls
                ∧ d.colour = r.colour ∧ d.gen = r.gen ∧ d.filter = r.filter ∧ d.mirror = false ∧ d.fid = s.swc.nextFid
                ∧ (i.src < 24 → d.stamp = stamp ∧ d.launch = none ∧ d.txts = none))
            ∧ t.rn (swqEnq u v) = min 0xFFFFFFFF (s.rn (swqEnq u v) + 1) ∧ t.swc.descFree = s.swc.descFree - 1
            ∧ BlocksKept s t [pgBank, pgFlt] [swqEnq u v, swqAvg u v, fdbStat 4] ∧ heads t)
        ∧ (∀ g : Nat, good = true → r.discard = none → r.meter = some g → s.on pgStrm = true → (s.meterOf g).w0.getLsbD 31 = true →
          let m := s.meterOf g
          let need := (i.bytes.length + if i.src < 24 ∨ hdrBits i.hdr 0 25 1 = 1 then 0 else 4) * 312500
          let aware := m.w0.getLsbD 24
          let c := if (aware = true ∧ r.colour = 2) ∨ m.p < need then 2 else if (aware = true ∧ r.colour = 1) ∨ m.c < need then 1 else 0
          let up (v : Nat) : Nat := min 0xFFFFFFFF (v + 1)
          Gives (exec (.frameCommit src n) s) fun t =>
            (∀ j, j ≠ g → t.meterOf j = s.meterOf j)
            ∧ t.meterOf g = (if c = 0 then { m with c := m.c - need, p := m.p - need, green := up m.green }
                else if c = 1 then { m with p := m.p - need, yellow := up m.yellow }
                else if m.w0.getLsbD 25 = true then { m with redDrop := up m.redDrop } else { m with red := up m.red })
            ∧ if c = 2 ∧ m.w0.getLsbD 25 = true then t.swc.queues = s.swc.queues ∧ t.mem = s.mem ∧ RegsKept s t [fdbStat 4]
              else ∀ q ∈ r.queues, ∀ d ∈ (t.queueOf q).drop (s.queueOf q).length, d.mirror = false → d.colour = c)
        ∧ (∀ q x e : Nat, good = true → s.on pgSwc = true → r.discard = none → r.queues = [q] → r.mirrors = [x] → r.meter = none → q < 236 →
          endQueue (s.get (swcMirrorDest x)) (s.get (swcMirrorClass x)) = some e → e ≠ q → e < 236 →
          s.descs.all (·.fid != s.swc.nextFid) = true →
          let rnd := lfsrAfter n (s.swc.lfsr.rd 0 (if i.src < 24 then i.src / 4 else 6))
          let len := if i.src < 24 ∧ s.bit (macCfgFcsStrip i.src) = true then i.bytes.length - 4 else i.bytes.length
          let avg (q : Nat) : Nat := avgNext (s.get (swqAvgAvg (qSlot q).1 (qSlot q).2)) (s.occ q) (s.get (swqWW (qSlot q).1 (qSlot q).2))
          let admits (q : Nat) : Prop := s.refusal q (cellsFor len) r.colour s.cellsFree rnd.toNat (avg q) = 0
          Gives (exec (.frameCommit src n) s) fun t =>
            (t.queueOf q).length = (s.queueOf q).length + (if admits q then 1 else 0)
            ∧ (∀ d ∈ (t.queueOf q).drop (s.queueOf q).length, d.mirror = false)
            ∧ (t.queueOf e).take (s.queueOf e).length = s.queueOf e ∧ (t.queueOf e).length ≤ (s.queueOf e).length + 1
            ∧ (¬admits q → (t.queueOf e).length = (s.queueOf e).length + (if admits e then 1 else 0))
            ∧ (∀ d ∈ (t.queueOf e).drop (s.queueOf e).length, d.mirror = true ∧ d.edit = none ∧ d.launch = none ∧ d.txts = none
                ∧ d.cls = s.get (swcMirrorClass x) ∧ d.src = i.src ∧ d.length = len ∧ d.fid = s.swc.nextFid
                ∧ ∀ o ∈ (t.queueOf q).drop (s.queueOf q).length, o.cells = d.cells)
            ∧ (∀ k, k ≠ q → k ≠ e → t.queueOf k = s.queueOf k)
            ∧ (let f (l : List Nat) : Nat := ((l.map fun k => t.rn k - s.rn k).sum)
               let k (e : Nat) : List Nat := [swqEnq, swqDropNobuf, swqDropShared, swqDropRed].map fun g => g (qSlot e).1 (qSlot e).2
               (∀ a ∈ k e ++ k q, s.rn a < 0xFFFFFFFF) → f (k e) = 1 ∧ f (k q) = 1)))
    ∧ (∀ n : Nat, (s.swc.ingress.find? (·.src == src.val)).all (fun i => i.look.isNone || i.ended.isNone) = true → exec (.frameCommit src n) s = .next s)

/-- With EVT ON, an accepted ARM of an idle unit in a mode clears DONE, FIRED and MISSED and arms it; with WAIT_LOCK
and an unlocked generator it waits; an aligned periodic unit starts computing its target, any other takes TGT; a
fraction in the period or a phase not below the period is refused with ERR_CAUSE bit 9 or 10. DISARM disarms it and
ends a pulse. The computed target is PHASE plus a whole number of periods, the first at least 1,000 ns after the HTB
value at arming. A unit due on time fires: FIRED counts, the edge leaves an enabled TE pin at the target's phase, the
pulse ends WIDTH later, and the next target is one PERIOD on, or the unit disarms once its COUNT is done; due late it
also sets LATE and IRQ bit 1, and its next target is the first ahead. A pulse whose end is reached ends, and with the
last one DONE and IRQ bit 2 rise. (Rests on the model's own readings and choices in assumption rows 59 and 208.) -/
def Obligations.EventUnitsArmFireAndEnd : Prop :=
  ∀ (p : Principal) (n : OctIx) (s : State),
    let e := n.val
    let v := s.evOf e
    let h := s.htbOf (s.evHtb e)
    let only (t : State) (ks : List Nat) : Prop := (∀ j, j ≠ e → t.evOf j = s.evOf j)
      ∧ OnlyRegs s { t with tb := { t.tb with ev := s.tb.ev }, out := s.out } ks
    let tgt : BitVec 72 := BitVec.ofNat 72 ((s.rn (evtEvTgtNsLo e) + s.get (evtEvTgtNsHiNs e) * 2 ^ 32) * 2 ^ 32 + s.get (evtEvTgtNsHiFrac e) * 2 ^ 16)
    let aligned : Prop := s.bit (evtEvCfgAlign e) = true ∧ s.evMode e = 2
    (s.letsIn p (evtEvCtrl e) = true → s.on pgEvt = true →
      (s.evMode e ≠ 0 → v.active = false →
        if aligned ∧ (s.rn (evtEvPeriodFrac e) ≠ 0 ∨ s.rn (evtEvPeriodNs e) ≤ s.rn (evtEvPhaseNs e)) then
          Gives (exec (.evArm p n) s) fun t => t.tb = s.tb ∧ only t [hdrErrCause pgEvt, evtEvStat e]
            ∧ t.bit (evtEvStatArmed e) = s.bit (evtEvStatArmed e)
            ∧ (s.rn (evtEvPeriodFrac e) ≠ 0 → (t.reg (hdrErrCause pgEvt)).getLsbD 9 = true)
            ∧ (s.rn (evtEvPeriodNs e) ≤ s.rn (evtEvPhaseNs e) → (t.reg (hdrErrCause pgEvt)).getLsbD 10 = true)
        else Gives (exec (.evArm p n) s) fun t => t.bit (evtEvStatArmed e) = true ∧ t.bit (evtEvStatDone e) = false
            ∧ t.reg (evtEvFired e) = 0 ∧ t.get (evtEvStatMissed e) = 0 ∧ only t [evtEvStat e, evtEvFired e, evtEvNext e]
            ∧ (if s.bit (evtEvCfgWaitLock e) = true ∧ s.locked (s.evHtb e) = false then t.bit (evtEvStatWaiting e) = true ∧ (t.evOf e).aligning = none
              else t.bit (evtEvStatWaiting e) = false ∧ (if aligned then (t.evOf e).aligning = some h.v
                else (t.evOf e).aligning = none ∧ (t.evOf e).tgt = tgt ∧ (t.evOf e).age = 0)))
      ∧ (Gives (exec (.evDisarm p n) s) fun t => t.bit (evtEvStatArmed e) = false ∧ t.bit (evtEvStatWaiting e) = false
          ∧ (t.evOf e).aligning = none ∧ (t.evOf e).active = false ∧ (t.evOf e).ending = false ∧ only t [evtEvStat e]
          ∧ (v.active = false → t.out = s.out)))
    ∧ (∀ b : BitVec 96, v.aligning = some b → Gives (exec (.evAlignDone n) s) fun t =>
        let period : Int := max (s.rn (evtEvPeriodNs e)) 8
        let x := alignTarget b (s.rn (evtEvPhaseNs e)) (s.rn (evtEvPeriodNs e))
        (x - s.rn (evtEvPhaseNs e)) % period = 0 ∧ (b.toNat : Int) + 1000 * 2 ^ 32 ≤ x * 2 ^ 32
          ∧ (x - period) * 2 ^ 32 < (b.toNat : Int) + 1000 * 2 ^ 32
          ∧ t.evOf e = { v with aligning := none, age := 0, tgt := BitVec.ofInt 72 (x * 2 ^ 32) } ∧ only t [evtEvNext e])
    ∧ (s.bit (evtEvStatWaiting e) = true → s.locked (s.evHtb e) = true → Gives (exec (.evWaitRelease n) s) fun t =>
        t.bit (evtEvStatWaiting e) = false ∧ only t [evtEvStat e, evtEvNext e]
          ∧ (if aligned then (t.evOf e).aligning = some h.v else (t.evOf e).tgt = tgt))
    ∧ (s.evFires e = none → exec (.eventFire n) s = .next s)
    ∧ (∀ late : Bool, s.evFires e = some late → Gives (exec (.eventFire n) s) fun t =>
        let last : Prop := s.evMode e = 1 ∨ (s.rn (evtEvCount e) ≠ 0 ∧ s.rn (evtEvCount e) ≤ v.count + 1)
        t.reg (evtEvFired e) = s.reg (evtEvFired e) + 1 ∧ (t.evOf e).active = true ∧ (t.evOf e).fired = some (v.tgt, late)
          ∧ (t.evOf e).pulseEnd = (if late then h.prev.setWidth 72 else v.tgt) + BitVec.ofNat 72 (s.evWidth e)
          ∧ only { t with shank := s.shank, eye := s.eye } [evtEvStat e, evtEvFired e, evtEvNext e, hdrIrqRaw pgEvt] ∧ TriggersOnly s t
          ∧ (late = true → t.bit (evtEvStatLate e) = true ∧ (t.reg (hdrIrqRaw pgEvt)).getLsbD 1 = true)
          ∧ (s.bit (tbTeCfgOutEn e) = false → t.out = s.out)
          ∧ (last → t.bit (evtEvStatArmed e) = false ∧ (t.evOf e).ending = true)
          ∧ (¬ last → (t.evOf e).tgt = v.tgt + BitVec.ofNat 72
                ((if late then (evDiff h.prev v.tgt / (s.evPeriod e : Int)).toNat + 1 else 1) * s.evPeriod e)
              ∧ t.bit (evtEvStatArmed e) = s.bit (evtEvStatArmed e)))
    ∧ (v.active = true → 0 ≤ evDiff h.v v.pulseEnd → Gives (exec (.eventPulseEnd n) s) fun t => (t.evOf e).active = false
        ∧ (v.ending = true → t.bit (evtEvStatDone e) = true ∧ (t.reg (hdrIrqRaw pgEvt)).getLsbD 2 = true)
        ∧ only t (if v.ending then [evtEvStat e, hdrIrqRaw pgEvt] else []))

/-- With VIEW ON, an accepted ARM with TRACK 0, NS below 10^9 and one writer since the last ARM puts the staged set in
PEND for ACT_AT, or, ACT_AT not ahead, for the next tick with LATE_APPLY; otherwise it sets ERR_CAUSE bit 9, 8 or 10
and leaves PEND. VIEW_SWITCH at ACT_AT makes PEND the current set, the old one PREV; TRACK loads the HTB's value as a
set. VIEW_CONVERT takes the stamp and view; its end answers the reader's reads that waited and shows OFFSET plus the
signed distance from ANCHOR times (1 + RADJ) of the set in force for the stamp. AGED raises IRQ bit 1 once. CAPTURE_SW
and an enabled edge append a record (3 HTB values, stamp), a full FIFO sets OVF, a second edge in a tick counts
MISSED; CAPTURE_READ answers HA_FRAC and removes the record. FRC_LO and NOW_NS_LO reads latch the rest for the reader.
(What an ARM with errors clears is assumption row 56.) (Rests on the model's own readings and choices in assumption
rows 57, 58 and 180.) -/
def Obligations.ViewsCapturesAndLatches : Prop :=
  ∀ (p : Principal) (w : ViewIx) (n : OctIx) (s : State),
    let x := s.viewOf w.val
    let q := pIdx p
    let views (t : State) (ks : List Nat) : Prop := (∀ j, j ≠ w.val → t.viewOf j = s.viewOf j)
      ∧ OnlyRegs s { t with tb := { t.tb with view := s.tb.view } } ks
    let caps (t : State) (ks : List Nat) : Prop := (∀ j, j ≠ n.val → t.capOf j = s.capOf j)
      ∧ OnlyRegs s { t with tb := { t.tb with cap := s.tb.cap, capBusy := s.tb.capBusy } } ks
    let stored (t : State) (rising sw : Bool) (stamp : Stamp) : Prop :=
      if 4 ≤ (s.capOf n.val).length then t.capOf n.val = s.capOf n.val ∧ t.bit (evtEcStatOvf n.val) = true ∧ (t.reg (hdrIrqRaw pgEvt)).getLsbD 4 = true
      else t.capOf n.val = s.capOf n.val ++ [⟨rising, sw, stamp, s.htbAt 0 stamp, s.htbAt 1 stamp, s.htbAt 2 stamp⟩]
        ∧ (t.reg (hdrIrqRaw pgEvt)).getLsbD 3 = true
    (∀ v : Word, s.letsIn p (viewCtrl w.val) = true → s.on pgView = true → v.getLsbD 0 = true → Gives (exec (.viewArm p w v) s) fun t =>
      let act : BitVec 48 := BitVec.ofNat 48 (s.rn (viewActAtLo w.val) + s.get (viewActAtHiFrc w.val) * 2 ^ 32)
      let bad (b : Nat) : Prop := (t.reg (hdrErrCause pgView)).getLsbD b = true ∧ t.viewOf w.val = { x with writers := [] } ∧ views t [viewCtrl w.val, hdrErrCause pgView]
      if bitsOf v 1 2 ≠ 0 then bad 9 else if 1 < x.writers.length then bad 8 else if 1000000000 ≤ s.get (viewOffsetNsNs w.val) then bad 10
      else if 0 < (act - s.tb.frc).toInt then t.viewOf w.val = { x with writers := [], pend := some (s.staged w.val, act) } ∧ views t [viewCtrl w.val]
      else t.viewOf w.val = { x with writers := [], pend := some (s.staged w.val, s.tb.frc + 1) } ∧ t.bit (viewStatLateApply w.val) = true
        ∧ (t.reg (hdrIrqRaw pgView)).getLsbD 2 = true ∧ views t [viewCtrl w.val, viewStat w.val, hdrIrqRaw pgView])
    ∧ (∀ (c : ViewSet) (a : BitVec 48), x.pend = some (c, a) → 0 ≤ (s.tb.frc - a).toInt → Gives (exec (.viewSwitch w) s) fun t =>
        t.viewOf w.val = { x with prev := x.cur, cur := some c, switch := frcStamp a, pend := none, aged := false } ∧ views t [])
    ∧ (s.on pgView = true → s.get (viewCtrlTrack w.val) ≠ 0 → x.cur = none → Gives (exec (.viewTrackLoad w) s) fun t =>
        let h := s.htbOf (s.get (viewCtrlTrack w.val) - 1)
        t.viewOf w.val = { x with prev := none, switch := s.nowStamp, aged := false, cur := some { offset := h.v.toNat / 2 ^ 16, anchor := s.nowStamp, radj := BitVec.ofInt 40 ((h.e - 4 * 2 ^ 32) * 2 ^ 14) } }
          ∧ views t [])
    ∧ (∀ v : Word, s.letsIn p (viewConvInHi q) = true → Gives (exec (.viewConvert p v) s) fun t =>
        t.tb.conv.rd none q = some ⟨s.get (viewConvSelView q), if s.bit (viewConvSelNow q) then s.nowStamp else stampOf (s.reg (viewConvInLo q)) v⟩
          ∧ (∀ j, j ≠ q → t.tb.conv.rd none j = s.tb.conv.rd none j) ∧ OnlyRegs s { t with tb := { t.tb with conv := s.tb.conv } } [viewConvInHi q])
    ∧ (∀ (c : Conv) (k : Nat) (co : ViewSet), s.tb.conv.rd none q = some c → (s.viewOf c.view).choose c.stamp = (k, some co) →
        Gives (exec (.viewConvertDone p) s) fun t =>
          let r : Int := co.offset + (c.stamp - co.anchor).toInt * 2 ^ 13 * (2 ^ 48 + co.radj.toInt) / 2 ^ 48
          t.tb.conv.rd none q = none ∧ ((t.rn (viewConvSecLo q) + t.get (viewConvSecHiSec q) * 2 ^ 32 : Nat) : Int) = r / (1000000000 * 2 ^ 16) % 2 ^ 48
            ∧ (t.rn (viewConvNs q) * 2 ^ 16 + t.get (viewConvFracFrac q) : Nat) = r % (1000000000 * 2 ^ 16) ∧ t.get (viewConvFracSet q) = k % 4
            ∧ t.bit (viewConvSecHiInvalid q) = ((s.viewOf c.view).cur.isNone || !s.on pgView)
            ∧ (s.tb.held = [⟨p, 0x8404C, 4⟩] → t.tb.held = [] ∧ (s.reaches p = true → t.readData p = t.reg (viewConvSecLo q)))
            ∧ (s.tb.held = [] → t.rdata = s.rdata)
            ∧ (s.tb.held.all (fun h => decide (0x8404C ≤ h.addr ∧ h.addr ≤ 0x84058 ∧ h.bytes = 4)) = true →
              OnlyRegs s { t with tb := { t.tb with conv := s.tb.conv, held := s.tb.held }, rdata := s.rdata } [viewConvSecLo q, viewConvSecHi q, viewConvNs q, viewConvFrac q]))
    ∧ (s.viewIsAged w.val = true → x.aged = false → Gives (exec (.viewAged w) s) fun t => t.viewOf w.val = { x with aged := true }
        ∧ (t.reg (hdrIrqRaw pgView)).getLsbD 1 = true ∧ views t [hdrIrqRaw pgView] ∧ exec (.viewAged w) t = .next t)
    ∧ (s.letsIn p (evtEcCtrl n.val) = true → s.on pgEvt = true → Gives (exec (.captureSw p n) s) fun t => stored t false true s.nowStamp
        ∧ caps t [evtEcStat n.val, hdrIrqRaw pgEvt])
    ∧ (∀ (rising : Bool) (fine : BitVec 5), s.on pgEvt = true → s.bit (evtEcCfgEn n.val) = true → s.get (evtEcCfgSrc n.val) = 0 →
        s.get (evtEcCfgEdge n.val) ≠ (if rising then 1 else 0) → Gives (exec (.captureEdge n rising fine) s) fun t =>
          caps t [evtEcStat n.val, hdrIrqRaw pgEvt] ∧ (if s.tb.capBusy.rd false n.val then t.capOf n.val = s.capOf n.val
              ∧ t.get (evtEcStatMissed n.val) = min (s.get (evtEcStatMissed n.val) + 1) 0xFFFF
            else stored t rising false (s.nowStamp + BitVec.ofNat 53 fine.toNat
              + BitVec.ofInt 53 (-Config.captureDesign - psUnits (s.geti (tbTeTrimInPs n.val))))))
    ∧ (s.reaches p = true → (Gives (exec (.captureRead p n) s) fun t => t.capOf n.val = (s.capOf n.val).tail ∧ caps { t with rdata := s.rdata } []
          ∧ ∀ r ∈ (s.capOf n.val).head?, t.readData p = BitVec.ofNat 32 (r.ha % 2 ^ 16))
      ∧ (Gives (exec (.frcLoRead p none) s) fun t => t.readData p = BitVec.ofNat 32 s.tb.frc.toNat
          ∧ t.reg (tbFrcHi q) = BitVec.ofNat 32 (s.tb.frc.toNat / 2 ^ 32) ∧ OnlyRegs s { t with rdata := s.rdata } [tbFrcHi q])
      ∧ ∀ g : GenIx, Gives (exec (.frcLoRead p (some g)) s) fun t => t.readData p = BitVec.ofNat 32 (htbNs (s.htbOf g.val).v)
          ∧ t.reg (htbNowNsHi q g.val) = BitVec.ofNat 32 (htbNs (s.htbOf g.val).v / 2 ^ 32) ∧ t.reg (htbNowFrac q g.val) = BitVec.ofNat 32 (s.htbOf g.val).v.toNat
          ∧ OnlyRegs s { t with rdata := s.rdata } [htbNowNsHi q g.val, htbNowFrac q g.val])

/-- A tick adds one to a running FRC, leaves every HTB whose page is not ON, and adds to each other HTB (a follower in
SEEK may step too) its effective increment: INCR alone while TREAD is not ON, else INCR plus an ADJ within 3,435,973
units of 2^-32 ns, shown in the ADJ register, and 0 for the HTB whose generator steers the oscillator; generators with
the limit keep their frequency within FMAX. The tick's value and increment are the ones a stamp of that tick converts
with; an AGED that has fallen may be reported anew. With TB ON and one leap bit set, LEAP_CHANGE at a second boundary
at which TAI seconds minus UTC_OFFSET (LEAP61), or that plus one (LEAP59), is a multiple of 86,400 moves UTC_OFFSET by
one, clears the bit and raises IRQ bit 1; before the boundary and with both or no bits it changes nothing. OCX_VALUE
is taken for the next frame with SRC 0, else ERR_CAUSE bit 8. OCX_FRAME sends a due frame: prefix bits and the WIDTH
(16 to 24) top bits of OCX_VALUE, the first inverted unless SIGNED; FRAMES counts it. (Rests on the model's own
readings and choices in assumption rows 60, 61, 182 and 209.) -/
def Obligations.TicksLeapSecondsAndTheOscillator : Prop :=
  ∀ (p : Principal) (s : State),
    (Gives (exec .htbTick s) fun t => t.tb.frc = (if s.tb.runs then s.tb.frc + 1 else s.tb.frc)
        ∧ (∀ g < 3, s.on (pgHtb g) = false → { t.htbOf g with past := (s.htbOf g).past } = s.htbOf g)
        ∧ (∀ g < 3, s.on (pgHtb g) = true → (s.genOf g).due = [] → (s.treadSrc g = 2 → s.stage g ≠ 1) → (t.htbOf g).v = (s.htbOf g).v + BitVec.ofInt 96 (t.htbOf g).e ∧ (t.htbOf g).prev = (s.htbOf g).v
            ∧ (t.htbOf g).e = (s.incr g : Int) + (t.htbOf g).adj ∧ t.reg (htbAdj g) = BitVec.ofInt 32 (t.htbOf g).adj
            ∧ -3435973 ≤ (t.htbOf g).adj ∧ (t.htbOf g).adj ≤ 3435973
            ∧ (s.on pgTread = false → (t.htbOf g).adj = 0 ∧ t.genOf g = s.genOf g)
            ∧ (g < 2 ∧ s.on pgTread = true ∧ s.chip.clockLost = false ∧ s.get tbOcxCfgSrc = g + 1 → (t.htbOf g).adj = 0)
            ∧ (s.on pgTread = true → s.chip.clockLost = false → s.bit (treadCtrlLimEn g) = false ∨ (s.genOf g).f.natAbs ≤ s.fmax g →
                -(s.fmax g : Int) ≤ (t.genOf g).f ∧ (t.genOf g).f ≤ s.fmax g))
        ∧ (∀ v, { t.viewOf v with aged := (s.viewOf v).aged } = s.viewOf v
            ∧ ((t.viewOf v).aged = true → (s.viewOf v).aged = true ∧ t.viewIsAged v = true))
        ∧ (∀ g < 3, (∀ x ∈ (s.htbOf g).past.head?, 0 ≤ (t.tb.frc - x.frc).toInt) → s.on (pgHtb g) = true →
            (t.htbRun g t.tb.frc).at' t.tb.frc = (t.htbOf g).v ∧ (t.htbRun g t.tb.frc).e = (t.htbOf g).e)
        ∧ BlocksKept s t (pgTread :: (List.range 3).map pgHtb) [tbOcxValue, shchStat 60, shchStat 61] ∧ t.mem = s.mem)
    ∧ (s.on pgTb = true → ∀ up : Bool,
        let h := s.htbOf 2
        let u := s.geti tbUtcOffsetSeconds
        s.bit tbLeapLeap61 = up → s.bit tbLeapLeap59 = !up →
        if dayBoundary h.base.toNat h.v.toNat (if up then -u else 1 - u) = true then Gives (exec .leapChange s) fun t =>
          t.geti tbUtcOffsetSeconds = signedN 16 (wrapN 16 (if up then u + 1 else u - 1)) ∧ t.bit tbLeapLeap61 = false ∧ t.bit tbLeapLeap59 = false
            ∧ (t.reg (hdrIrqRaw pgTb)).getLsbD 1 = true ∧ OnlyRegs s t [tbUtcOffset, tbLeap, hdrIrqRaw pgTb]
        else exec .leapChange s = .next s)
    ∧ (s.bit tbLeapLeap61 = s.bit tbLeapLeap59 → exec .leapChange s = .next s)
    ∧ (∀ a b ofs : Nat, a ≤ b → (dayBoundary a b ofs = true ↔ ∃ k : Nat, a / 2 ^ 32 / 1000000000 < k ∧ k ≤ b / 2 ^ 32 / 1000000000 ∧ (k + ofs) % 86400 = 0))
    ∧ (∀ v : Word, s.letsIn p tbOcxValue = true →
        if s.get tbOcxCfgSrc = 0 then Gives (exec (.ocxValueWrite p v) s) fun t => t.reg tbOcxValue = v ∧ t.tb = { s.tb with ocxPending := true }
          ∧ OnlyRegs s { t with tb := s.tb } [tbOcxValue]
        else Gives (exec (.ocxValueWrite p v) s) fun t => (t.reg (hdrErrCause pgTb)).getLsbD 8 = true ∧ OnlyRegs s t [hdrErrCause pgTb])
    ∧ (let width := min (max (s.get tbOcxCfgWidth) 16) 24
       let n := min (s.get tbOcxPrefixLen) 8
       s.on pgTb = true → s.bit tbOcxCfgEn = true → s.tb.ocxPending = true → s.tb.ocxLast = none → Gives (exec .ocxFrame s) fun t =>
        t.out = .ocx ((List.range n).map (fun i => (s.reg tbOcxPrefix).getLsbD (n - 1 - i))
            ++ (List.range width).map (fun i => (s.reg tbOcxValue).getLsbD (31 - i) != (i == 0 && !s.bit tbOcxCfgSigned))) :: s.out
          ∧ t.tb = { s.tb with ocxPending := false, ocxLast := some s.tb.frc }
          ∧ t.get tbOcxStatFrames = min (s.get tbOcxStatFrames + 1) 0xFFFF ∧ OnlyRegs s { t with tb := s.tb, out := s.out } [tbOcxStat])
    ∧ (s.tb.ocxPending = false → exec .ocxFrame s = .next s)

/-- On a running generator with SRC 0: a qualified reference sets REF_OK, and from HOLDOVER enters PHASE with
TIME_CONVERGING, from SEEK with steps barred FREQ with SEEK_BLOCKED; FREQ and PHASE request coefficient sets B and A;
a reference that has dropped for DROP_MS, or whose samples have ceased for TIMEOUT, clears REF_OK and takes LOCKED to
HOLDOVER (with a fault of domains 0 and 1) and SEEK, FREQ or a PHASE never locked to SEEK with ACQ_ABORT. VALID
changes count toward chatter; past MAX they set REF_CHATTER and IRQ bit 3; a quiet window ends it and clears REF_OK.
TREAD_SAMPLE takes the oldest copied sample, which shows as PHASE_ERR; in FREQ the COUNT-th in a row whose change
stays within tolerance enters PHASE; in PHASE the COUNT-th one in a row within tolerance locks, in LOCKED the COUNT-th
beyond UNLOCK returns to PHASE. SERVO_OUTPUT takes the oldest output, which becomes the frequency target, and in
LOCKED moves FREQ_CORR by the filtered difference. SEEK_OFS steps the HTB back by an offset of at least SEEK_MIN and
enters FREQ. (Rests on the model's own readings and choices in assumption rows 61, 62 and 64.) -/
def Obligations.ReferencesAndStagesOfTread : Prop :=
  ∀ (p : Principal) (g : GenIx) (v : Word) (s : State), s.genRuns g.val = true → s.treadSrc g.val = 0 →
    let m := g.val
    let x := s.genOf m
    let ok := s.bit (treadStatRefOk m)
    let chat := s.bit (treadStatRefChatter m)
    let gens (t : State) (ks : List Nat) : Prop := (∀ j, j ≠ m → t.genOf j = s.genOf j)
      ∧ OnlyRegs s { t with gen := s.gen, shank := { t.shank with chan := s.shank.chan } } ks
    let stat := [treadStat m, hdrIrqRaw pgTread] ++ if m < 2 then [shchStat (60 + m)] else []
    let chg (t : State) (st : Nat) : Prop := t.stage m = st ∧ (t.reg (hdrIrqRaw pgTread)).getLsbD 1 = true
      ∧ (m < 2 → st = 2 ∨ st = 3 →
          t.get (shchStatSwapPend (60 + m)) = if s.get (shchCfgSet (60 + m)) = (if st = 2 then 1 else 0) then 0 else 1)
    let lost (t : State) : Prop := t.bit (treadStatRefOk m) = false ∧ (∀ j, j ≠ m → t.genOf j = s.genOf j)
      ∧ BlocksKept s t [pgFlt] stat
      ∧ (if s.stage m = 4 ∨ (s.stage m = 3 ∧ s.bit (treadStatLockedOnce m) = true) then chg t 5 ∧ (t.genOf m).ft = s.freqCorr m ∧ (t.genOf m).holdTicks = 0
        else if s.stage m = 1 ∨ s.stage m = 2 ∨ s.stage m = 3 then chg t 1 ∧ (t.genOf m).ft = x.f ∧ t.bit (treadStatAcqAbort m) = true
          ∧ (t.reg (hdrIrqRaw pgTread)).getLsbD 2 = true
        else t.stage m = s.stage m)
    (s.bit (treadRefValid m) = true → ok = false → s.get (treadQualStableMs m) * 250000 ≤ x.validTicks →
      Gives (exec (.refQualified g) s) fun t => t.bit (treadStatRefOk m) = true ∧ BlocksKept s t [pgFlt] stat
        ∧ (if s.stage m = 5 ∧ chat = false then chg t 3 ∧ t.bit (treadStatTimeConverging m) = true
          else if s.stage m = 1 ∧ chat = false ∧ s.stepsBarred m = true then chg t 2 ∧ t.bit (treadStatSeekBlocked m) = true
          else t.stage m = s.stage m))
    ∧ (ok = true → s.bit (treadRefValid m) = false → s.get (treadQualDropMs m) * 250000 ≤ x.dropTicks → Gives (exec (.refLost g) s) lost)
    ∧ (ok = true → s.get (treadTimeoutMs m) * 250000 ≤ x.sampleTicks → s.get (treadTimeoutMs m) * 250000 ≤ x.qualTicks →
        Gives (exec (.sampleTimeout g) s) lost)
    ∧ (s.letsIn p (treadRef m) = true → v.getLsbD 0 ≠ s.bit (treadRefValid m) → Gives (exec (.refValidWrite p g v) s) fun t =>
        t.bit (treadRefValid m) = v.getLsbD 0 ∧ (t.genOf m).chatCount = x.chatCount + 1 ∧ (t.genOf m).validTicks = 0 ∧ gens t (treadRef m :: stat)
          ∧ (if s.get (treadChatterMax m) < x.chatCount + 1 ∧ chat = false
            then t.bit (treadStatRefChatter m) = true ∧ (t.reg (hdrIrqRaw pgTread)).getLsbD 3 = true ∧ (t.genOf m).ft = x.f
            else t.bit (treadStatRefChatter m) = chat ∧ (t.genOf m).ft = x.ft))
    ∧ (max (s.get (treadChatterWinMs m)) 1 * 250000 ≤ x.chatTicks → Gives (exec (.chatterWindowEnd g) s) fun t =>
        (t.genOf m).chatCount = 0 ∧ (t.genOf m).chatTicks = 0 ∧ gens t stat
          ∧ t.bit (treadStatRefChatter m) = decide (s.get (treadChatterMax m) < x.chatCount)
          ∧ (s.get (treadChatterMax m) < x.chatCount → chat = false → (t.reg (hdrIrqRaw pgTread)).getLsbD 3 = true)
          ∧ (chat = true → x.chatCount ≤ s.get (treadChatterMax m) → t.bit (treadStatRefOk m) = false))
    ∧ (x.samples.head? ≠ some v → exec (.treadSample g v) s = .next s)
    ∧ (∀ r : List Word, x.samples = v :: r → chat = false → ok = true → Gives (exec (.treadSample g v) s) fun t =>
        let err : Int := v.toInt * 2 ^ 8
        t.phaseErr m = err ∧ (t.genOf m).sampleTicks = 0 ∧ (t.genOf m).samples = r ∧ (t.genOf m).lastErr = some (err, s.tb.frc) ∧ gens t ([treadPhaseErrLo m, treadPhaseErrHi m] ++ stat)
          ∧ (s.stage m = 2 → ∀ (o : Int) (since : BitVec 48), x.lastErr = some (o, since) →
              let dt := (s.tb.frc - since).toNat
              if dt = 0 ∨ s.get (treadTimeoutMs m) * 250000 < dt ∨ ppbUnits (s.get (treadFreqLockTolPpb m)) * dt < (err - o).natAbs * 2 ^ 48 then
                t.stage m = 2 ∧ (t.genOf m).good = 0
              else if s.get (treadFreqLockCount m) ≤ x.good + 1 then chg t 3
              else t.stage m = 2 ∧ (t.genOf m).good = x.good + 1)
          ∧ (s.stage m = 3 → if s.get (treadPhaseLockTolNs m) * 2 ^ 16 < err.natAbs then t.stage m = 3 ∧ (t.genOf m).good = 0
            else if s.get (treadPhaseLockCount m) ≤ x.good + 1 then chg t 4 ∧ t.bit (treadStatLockedOnce m) = true
            else t.stage m = 3 ∧ (t.genOf m).good = x.good + 1)
          ∧ (s.stage m = 4 → if err.natAbs ≤ s.get (treadUnlockTolNs m) * 2 ^ 16 then t.stage m = 4 ∧ (t.genOf m).good = 0
            else if s.get (treadUnlockCount m) ≤ x.good + 1 then chg t 3 ∧ t.bit (treadStatTimeConverging m) = true
            else t.stage m = 4 ∧ (t.genOf m).good = x.good + 1))
    ∧ (x.outs.head? ≠ some v → exec (.servoOutput g v) s = .next s)
    ∧ (∀ r : List Word, x.outs = v :: r → chat = false → ok = true → s.stage m = 2 ∨ s.stage m = 3 ∨ s.stage m = 4 → Gives (exec (.servoOutput g v) s) fun t =>
        t.genOf m = { x with outs := r, ft := v.toInt * 2 ^ 32 } ∧ gens t [treadFreqCorr m]
          ∧ (let c := (s.reg (treadFreqCorr m)).toInt
             t.reg (treadFreqCorr m) = if s.stage m = 4 then BitVec.ofInt 32 (c + (v.toInt - c) / 2 ^ s.get (treadTimeoutFilt m)) else s.reg (treadFreqCorr m)))
    ∧ (s.letsIn p (treadSeekOfsHi m) = true → s.stage m = 1 → ok = true → chat = false → s.stepsBarred m = false →
        Gives (exec (.seekOfsWrite p g v) s) fun t =>
          let ofs := signedN 64 (s.rn (treadSeekOfsLo m) + v.toNat * 2 ^ 32)
          chg t 2 ∧ (∀ j, j ≠ m → t.htbOf j = s.htbOf j)
            ∧ (if s.rn (treadSeekMin m) ≤ ofs.natAbs then (t.htbOf m).v = (s.htbOf m).v - BitVec.ofInt 96 (ofs * 2 ^ 32)
                ∧ t.bit (htbStatStepped m) = true ∧ (t.reg (hdrIrqRaw (pgHtb m))).getLsbD 2 = true
                ∧ t.get (htbStatSteps m) = min (s.get (htbStatSteps m) + 1) 0xFFFF
              else t.htbOf m = s.htbOf m ∧ t.reg (htbStat m) = s.reg (htbStat m))
            ∧ RegsKept s t (treadSeekOfsHi m :: htbStat m :: hdrIrqRaw (pgHtb m) :: stat))

/-- With TREAD ON, an accepted CTRL write sets SRC and LIM_EN and waits for the generator's next tick, which a
suspended one does not take (log entry 183). At that tick, of a generator that neither was nor is a follower and has
no qualified reference: RUN begins segment 0: TABLE_RUN, SEG 0, its phase target (absolute, or from ACC on) and
frequency target in force; a DURATION of 0 ends the table. STOP_TABLE of a running table ends it with IRQ bit 5, its
targets kept. REACQUIRE clears LOCKED_ONCE and STEPS_BARRED, and SRC 0 enters SEEK. ACC_CLR clears ACC before the
tick's ADJ. A changed SRC of 1 or 3 enters IDLE (3 holds the present frequency), of 0 SEEK towards FREQ_CORR; a SRC
changed back before the tick changes nothing. A segment whose DURATION has elapsed gives way to the next, and ends the
table if marked LAST or the 64th. REACQUIRE clears LOCKED_ONCE and STEPS_BARRED and, without a qualified reference,
SRC 0 enters SEEK. ACC_CLR sets ACC to 0 alone. An SRC write to 1 or 3 enters IDLE (3 holds the present frequency), to
0 SEEK towards FREQ_CORR; LIM_EN is as written. A FOLLOW write of another domain, and AUTO_SWITCH once its delay has
passed, switch ACTIVE, count in SWITCHES and raise IRQ bit 4; a write of the present domain stands against a change
that is due. No other generator changes. (Rests on the model's own readings and choices in assumption rows 63, 182 and
183.) -/
def Obligations.TreadTablesControlAndFollower : Prop :=
  ∀ (p : Principal) (g : GenIx) (s : State), s.on pgTread = true →
    let m := g.val
    let x := s.genOf m
    let gens (t : State) (ks : List Nat) : Prop := (∀ j, j ≠ m → t.genOf j = s.genOf j) ∧ OnlyRegs s { t with gen := s.gen } ks
    let ended (t : State) : Prop := t.bit (treadStatTableRun m) = false ∧ (t.reg (hdrIrqRaw pgTread)).getLsbD 5 = true
      ∧ t.genOf m = x ∧ gens t [treadStat m, treadCtrl m, hdrIrqRaw pgTread]
    let begun (k : Nat) (t : State) : Prop :=
      let w2 := s.reg (treadSeg m k 2)
      let phase : Int := signedN 48 (s.rn (treadSeg m k 1) + bitsOf w2 0 16 * 2 ^ 32) * 2 ^ 48
      if s.rn (treadSeg m k 0) = 0 then ended t
      else t.bit (treadStatTableRun m) = true ∧ t.get (treadStatSeg m) = k ∧ t.genOf m = { x with
          tab := some (if w2.getLsbD 16 then some (if w2.getLsbD 17 then x.acc * 2 ^ 32 + phase else phase) else none, (s.reg (treadSeg m k 3)).toInt * 2 ^ 32)
          segTicks := 0 }
        ∧ gens t [treadStat m, treadCtrl m]
    (s.letsIn p (treadCtrl m) = true →
      let waits (o : Host.Outcome State Fault Refusal) (v : Word) : Prop := Gives o fun t =>
        t.get (treadCtrlSrc m) = bitsOf v 0 2 ∧ t.bit (treadCtrlLimEn m) = v.getLsbD 2 ∧ gens t [treadCtrl m]
          ∧ t.genOf m = { x with due := x.due ++ [(s.treadSrc m, v)] }
      let c := s.reg (treadCtrl m)
      waits (exec (.treadRun p g) s) (c ||| 0x100) ∧ waits (exec (.stopTable p g) s) (c ||| 0x200)
        ∧ waits (exec (.reacquire p g) s) (c ||| 0x400) ∧ waits (exec (.accClr p g) s) (c ||| 0x800)
        ∧ ∀ v : Word, v.toNat < 8 → waits (exec (.treadSrcWrite p g v) s) v)
    ∧ (∀ (old : Nat) (w : Word) (l : List (Nat × Word)), s.on (pgHtb m) = true → s.chip.clockLost = false → x.due = (old, w) :: l →
        (∀ y ∈ l, y.2.toNat < 8) → old ≠ 2 → s.treadSrc m ≠ 2 → s.bit (treadStatRefOk m) = false → Gives (exec .htbTick s) fun t =>
        let new := s.treadSrc m
        let does (b : Nat) : Prop := w.getLsbD b = true
        let w2 := s.reg (treadSeg m 0 2)
        let phase : Int := signedN 48 (s.rn (treadSeg m 0 1) + bitsOf w2 0 16 * 2 ^ 32) * 2 ^ 48
        let acc := if does 11 then 0 else x.acc
        let moved (a : Option Int × Int) : Option Int × Int := (a.1.map (· + clipInt (-(s.fmax m : Int)) (s.fmax m) a.2), a.2)
        let tabEnds : Prop := t.bit (treadStatTableRun m) = false ∧ (t.reg (hdrIrqRaw pgTread)).getLsbD 5 = true ∧ (t.genOf m).tab = x.tab.map moved
        (t.genOf m).due = []
          ∧ (does 11 → m = 2 ∨ s.get tbOcxCfgSrc ≠ m + 1 → (t.genOf m).acc = adjOf (t.genOf m).f)
          ∧ (if old = new then (t.genOf m).ft = x.ft ∧ (¬does 10 → t.stage m = s.stage m)
            else (t.genOf m).ft = (if new = 0 then s.freqCorr m else if new = 3 then x.f else x.ft)
              ∧ (¬does 10 → t.stage m = if new = 0 then 1 else 0))
          ∧ (does 10 → t.bit (treadStatLockedOnce m) = false ∧ t.bit (treadStatStepsBarred m) = false
              ∧ (new = 0 → t.stage m = 1) ∧ (new ≠ 0 → old = new → t.stage m = s.stage m))
          ∧ (does 8 → s.rn (treadSeg m 0 0) = 0 → tabEnds)
          ∧ (does 8 → s.rn (treadSeg m 0 0) ≠ 0 → t.bit (treadStatTableRun m) = true ∧ t.get (treadStatSeg m) = 0 ∧ (t.genOf m).segTicks = 1
              ∧ (t.genOf m).tab = some (moved (if w2.getLsbD 16 then some (if w2.getLsbD 17 then acc * 2 ^ 32 + phase else phase) else none,
                  (s.reg (treadSeg m 0 3)).toInt * 2 ^ 32)))
          ∧ (¬does 8 → does 9 → s.bit (treadStatTableRun m) = true → tabEnds)
          ∧ (¬does 8 → ¬does 9 → (t.genOf m).tab = x.tab.map moved ∧ t.bit (treadStatTableRun m) = s.bit (treadStatTableRun m)
              ∧ t.get (treadStatSeg m) = s.get (treadStatSeg m)))
    ∧ (s.on (pgHtb m) = true → s.bit (treadStatTableRun m) = true → s.rn (treadSeg m (s.get (treadStatSeg m)) 0) * 250 ≤ x.segTicks →
        if (s.reg (treadSeg m (s.get (treadStatSeg m)) 2)).getLsbD 31 = true ∨ s.get (treadStatSeg m) = 63 then Gives (exec (.segmentEnd g) s) ended
        else Gives (exec (.segmentEnd g) s) (begun (s.get (treadStatSeg m) + 1)))
    ∧ (let act := s.get (treadFollowActive 2)
       let switched (dest : Nat) (t : State) : Prop := t.get (treadFollowActive 2) = dest ∧ t.rn (treadSwitches 2) = min 0xFFFFFFFF (s.rn (treadSwitches 2) + 1)
         ∧ (t.reg (hdrIrqRaw pgTread)).getLsbD 4 = true ∧ t.genOf 2 = { s.genOf 2 with autoTicks := 0, preferTicks := 0 }
         ∧ (∀ j, j ≠ 2 → t.genOf j = s.genOf j) ∧ OnlyRegs s { t with gen := s.gen, chip := s.chip, irq := s.irq } [treadFollow 2, treadSwitches 2, hdrIrqRaw pgTread]
       (∀ v : Word, s.letsIn p (treadFollow 2) = true → bitsOf v 0 1 ≠ act → Gives (exec (.followActiveWrite p v) s) (switched (bitsOf v 0 1)))
       ∧ (∀ v : Word, s.letsIn p (treadFollow 2) = true → bitsOf v 0 1 = act → s.autoDue.isSome = true → Gives (exec (.followActiveWrite p v) s) fun t =>
          t.get (treadFollowActive 2) = act ∧ t.rn (treadSwitches 2) = s.rn (treadSwitches 2)
            ∧ t.genOf 2 = { s.genOf 2 with autoTicks := 0, preferTicks := 0 } ∧ (∀ j, j ≠ 2 → t.genOf j = s.genOf j) ∧ RegsKept s t [treadFollow 2])
       ∧ (s.on (pgHtb 2) = true → s.bit (treadFollowAuto 2) = true → 0 < (s.genOf 2).autoTicks → s.get (treadFollowSwitchDelayMs 2) * 250000 ≤ (s.genOf 2).autoTicks →
          Gives (exec .autoSwitch s) (switched (1 - act)))
       ∧ (s.bit (treadFollowAuto 2) = false → exec .autoSwitch s = .next s))

/-- With DDU ON, DDU_ANSWER serves the oldest query and counts it: a key it holds answers FIRST 0 and the PATHS as
they stood, adds the query's path and counts a duplicate; a new key answers FIRST 1 with PATHS 0 and enters a free way
of its set, or replaces the set's oldest entry and counts an eviction; every other entry stands, and the waiting DDQ
has its answer and its flag. DDU_FORGET removes an entry under AGE_EN once FORGET_MS milliseconds (0 acting as 1) have
passed since it was created, and counts it; before that, or without AGE_EN, it changes nothing. An accepted FLUSH
marks the entries of a group, or all, as they stand, and sets BUSY; another while BUSY changes nothing; FLUSH_DONE
removes exactly the marked ones, sets USED to the rest, clears BUSY and raises IRQ bit 1. (The set of a key is a
constant of the model, assumption row 3.) (Rests on the model's own readings and choices in assumption rows 80 and
188.) -/
def Obligations.DuplicateDiscard : Prop :=
  ∀ s : State, s.tidy = true →
    let up (t : State) (k : Nat) : Prop := t.rn k = min 0xFFFFFFFF (s.rn k + 1)
    let core (t : State) : State := { t with fab := { t.fab with ddu := s.fab.ddu, dduQ := s.fab.dduQ, dduNext := s.fab.dduNext, dduFlush := s.fab.dduFlush, pe := s.fab.pe } }
    (∀ (q : DduQuery) (r : List DduQuery), s.on pgDdu = true → s.fab.dduQ = q :: r → Gives (exec .dduAnswer s) fun t =>
      let bit : BitVec 4 := BitVec.ofNat 4 (2 ^ (q.path % 4))
      let answered (v : Nat) : Prop := ∀ (x : FarLoad) (k : Nat), (s.peOf q.engine).far.find? (fun x => x.tag == q.tag && x.kind == 2) = some x →
        x.dst = [k] → (∀ h ∈ (s.peOf q.engine).hazards, h.reg = k → h.clash = false) →
        Wrote s t q.engine [(k, BitVec.ofNat 32 v)] ∧ (t.peOf q.engine).fflag = (s.peOf q.engine).fflag ||| BitVec.ofNat 8 (2 ^ x.tag)
          ∧ (t.peOf q.engine).far = removeFirst (fun y => y.tag == x.tag) (s.peOf q.engine).far
      t.fab.dduQ = r ∧ up t dduQueries ∧ (∀ j, j ≠ q.engine → t.peOf j = s.peOf j)
        ∧ (match s.dduFind q.group q.sa q.seq with
          | some (i, x) => t.dduAt i = some { x with paths := x.paths ||| bit } ∧ (∀ j, j ≠ i → t.dduAt j = s.dduAt j)
              ∧ up t dduDuplicates ∧ answered (x.paths.toNat * 16) ∧ OnlyRegs s (core t) [dduQueries, dduDuplicates]
          | none =>
            let free := (dduWays q.group q.sa q.seq).find? fun i => (s.dduAt i).isNone
            let i := free.getD (s.dduOldest (dduWays q.group q.sa q.seq))
            t.dduAt i = some ⟨q.group, q.sa, q.seq, bit, s.fab.dduNext, s.tb.frc⟩ ∧ (∀ j, j ≠ i → t.dduAt j = s.dduAt j) ∧ answered 1
              ∧ (free.isSome = true → t.get dduUsedEntries = min (s.get dduUsedEntries + 1) 0x7FFF)
              ∧ (free = none → up t dduEvicts) ∧ OnlyRegs s (core t) [dduQueries, if free.isSome then dduUsed else dduEvicts]))
    ∧ (∀ i : Fin 16384,
        if s.on pgDdu = true ∧ s.bit dduCfgAgeEn = true
          ∧ ((s.dduAt i.val).any fun x => decide (max 1 (s.get dduForgetMsMs) * 250000 ≤ (s.tb.frc - x.made).toNat)) = true then
          Gives (exec (.dduForget i) s) fun t =>
            t.dduAt i.val = none ∧ (∀ j, j ≠ i.val → t.dduAt j = s.dduAt j) ∧ up t dduAged ∧ t.get dduUsedEntries = s.get dduUsedEntries - 1
              ∧ OnlyRegs s (core t) [dduUsed, dduAged]
        else exec (.dduForget i) s = .next s)
    ∧ (∀ (p : Principal) (v : Word), s.letsIn p dduFlush = true → s.on pgDdu = true → v.getLsbD 0 = true →
        if s.bit dduFlushBusy = true then exec (.dduFlush p v) s = .next s
        else Gives (exec (.dduFlush p v) s) fun t => t.bit dduFlushBusy = true ∧ t.fab = { s.fab with
            dduFlush := some (if v.getLsbD 8 then none else some (v.extractLsb' 4 4), s.fab.dduNext) }
          ∧ OnlyRegs s (core t) [dduFlush])
    ∧ (∀ (g : Option (BitVec 4)) (lim : Nat), s.fab.dduFlush = some (g, lim) → Gives (exec .dduFlushDone s) fun t =>
        (∀ i, t.dduAt i = match s.dduAt i with
          | some x => if x.born < lim ∧ (g = none ∨ g = some x.group) then none else some x
          | none => none)
        ∧ t.get dduUsedEntries = t.fab.ddu.length % 0x8000 ∧ t.bit dduFlushBusy = false ∧ t.fab.dduFlush = none
        ∧ (t.reg (hdrIrqRaw pgDdu)).getLsbD 1 = true ∧ t.fab.pe = s.fab.pe ∧ OnlyRegs s (core t) [dduUsed, dduFlush, hdrIrqRaw pgDdu])

/-- The copy of a checkpoint ends in the half of its role's slot that is not the newest valid one, with MAGIC, a SEQ
one higher (1 for the first) and the engine's number in its header, and the state taken in the CKPT cycle is what that
half restores; CKPT_STAT, CKPT_SEQ and IRQ bit 4 say so, and no other memory changes. A watchdog that has expired
(WDOG microseconds of 1,000 E without a restart) on a running engine, and a lockstep mismatch, take the page of an
engine that is no spare and has no takeover in progress to FAULT; with an idle spare a takeover by it begins, warm if
it holds the role's image, the fault counts as C1; with none, FAB raises IRQ bit 2. A completed takeover, warm or with
an authentic image that can be loaded, makes the spare serve the role: SERVE, TAKEN_OVER and ON, TKO_COUNT, TKO_LAST,
TKO_TIME and IRQ bit 1, the spare from its entry point or, where a half is valid, with the registers and pc of its
checkpoint and RESUMED, and the faulted engine's banks go to the spare, or to NONE where ALLOW lacks it; a cold one
without its image ends the takeover with ERR_CAUSE bit 9 of the faulted engine. (Rests on the model's own readings and
choices in assumption rows 74, 75, 189 and 217.) -/
def Obligations.CheckpointsFaultsAndTakeover : Prop :=
  ∀ (e : EngIx) (s : State), s.tidy = true →
    let n := s.roleOf e.val
    let pg := pgPe e.val
    (∀ c : Ckpt, s.fab.ckptCopy.rd none e.val = some c → n < 18 → s.get fabCkptBaseBank ≤ 188 → Gives (exec (.ckptDone e) s) fun t =>
      let h := match s.ckptBest n with | some b => 1 - b | none => 0
      let seq : Word := match s.ckptBest n with | some b => s.ckptSeqOf n b + 1 | none => 1
      let a := s.ckptAddr n h
      t.word a = 0x434B5054 ∧ t.word (a + 4) = seq ∧ t.word (a + 8) = BitVec.ofNat 32 n ∧ (t.fab.ckpt.rd none (2 * n + h)).map (fun d => { d with fixed := [] }) = some { c with fixed := [] }
        ∧ t.fab.ckptCopy.rd none e.val = none ∧ t.bit (peCkptStatValid e.val) = true ∧ t.bit (peCkptStatBusy e.val) = false
        ∧ t.get (peCkptStatHalf e.val) = h ∧ t.reg (peCkptSeq e.val) = seq ∧ (t.reg (hdrIrqRaw pg)).getLsbD 4 = true
        ∧ MemKeptBut s t a (0x1000 + ((c.ranges.map (·.2)).flatten).length) ∧ t.fab.pe = s.fab.pe)
    ∧ (s.canFault e.val = true → s.isSpare e.val = false → s.takeoverBy e.val = none → s.fab.takeover.rd none e.val = none →
        let faulted (cause : Nat) (t : State) : Prop := t.st pg = stFault ∧ (∀ j < 18, j ≠ e.val → t.st (pgPe j) = s.st (pgPe j)) ∧ t.mem = s.mem
          ∧ BlocksKept s t (pgFlt :: pgProt :: pgFab :: pg :: headerPages.filter fun p => p < 0x30 && 0x10 ≤ p) [hdrErrCause pgProt]
          ∧ (match s.chooseSpare n e.val with
            | some (m, w) => t.fab.takeover.rd none e.val = some ⟨m, w, cause⟩ ∧ s.idleSpare m = true
                ∧ (s.on pgFlt = true → t.rn (fltCountC 1) = min 0xFFFFFFFF (s.rn (fltCountC 1) + 1))
            | none => t.fab.takeover.rd none e.val = none ∧ (t.reg (hdrIrqRaw pgFab)).getLsbD 2 = true)
        (∀ sp : Fin 4, Gives (exec (.lockstepMismatch e sp) s) (faulted 3))
        ∧ (∀ d : Nat, s.on pg = true → s.get (peWdogUs n) ≠ 0 → (s.peOf e.val).halted = false → s.get (peWdogUs n) * 1000 ≤ (s.peOf e.val).wdog + d →
            Gives (exec (.watchdogExpiry e d) s) fun t => faulted 0 t ∧ (t.reg (hdrIrqRaw pg)).getLsbD 2 = true))
    ∧ (∀ d : Nat, (s.peOf e.val).wdog + d < s.get (peWdogUs n) * 1000 → exec (.watchdogExpiry e d) s = .next s)
    ∧ (∀ (x : Takeover) (ns : Nat), s.fab.takeover.rd none e.val = some x → x.spare < 18 → x.spare ≠ e.val → n < 18 → x.spare ≠ n → x.cause < 16 →
        let ok : Prop := x.warm = true ∨ ((s.roleImage n).2 = 0
          ∧ s.isAuthentic (s.reg (peImageName n)) (BitVec.ofNat 16 (s.get (peImageVerVer n))) = true)
        (ok → Gives (exec (.takeoverComplete e ns) s) fun t =>
          let m := x.spare
          t.get (peServeServes m) = n ∧ t.get (peServeServedBy n) = m ∧ t.st pg = stTakenOver ∧ t.st (pgPe m) = stOn
            ∧ t.fab.takeover.rd none e.val = none ∧ t.get fabTkoCountCount = min (s.get fabTkoCountCount + 1) 0xFFFF
            ∧ t.get fabTkoLastFailed = e.val ∧ t.get fabTkoLastSpare = m ∧ t.bit fabTkoLastCold = !x.warm ∧ t.get fabTkoLastCause = x.cause
            ∧ t.rn fabTkoTime = ns % 2 ^ 32 ∧ (t.reg (hdrIrqRaw pgFab)).getLsbD 1 = true
            ∧ (∀ j, j ≠ m → t.peOf j = s.peOf j) ∧ (t.peOf m).halted = false ∧ (t.peOf m).far = [] ∧ (t.peOf m).stq = []
            ∧ (x.warm = true → (t.peOf m).image = (s.peOf m).image)
            ∧ (x.warm = true → s.ckptBest n = none → (t.peOf m).pc = (s.peOf m).entry.1 ∧ t.mem = s.mem)
            ∧ (∀ (h : Nat) (c : Ckpt), s.ckptBest n = some h → x.warm = true → s.fab.ckpt.rd none (2 * n + h) = some c →
                s.eccBytes (s.ckptAddr n h + 0x40) 0xFC0 = c.fixed →
                (t.peOf m).pc = c.pe.pc ∧ (t.peOf m).regs = c.pe.regs ∧ (t.peOf m).resumed = true ∧ (t.peOf m).fflag = 0xFF)
            ∧ (∀ b < 192, t.get (bankBankstOwner b) = if s.get (bankBankstOwner b) = e.val + 1 then (if s.allows b (m + 1) then m + 1 else 0)
                else s.get (bankBankstOwner b)))
        ∧ (¬ ok → Gives (exec (.takeoverComplete e ns) s) fun t => t.fab.takeover.rd none e.val = none
            ∧ (t.reg (hdrErrCause pg)).getLsbD 9 = true ∧ t.st pg = s.st pg ∧ t.fab.pe = s.fab.pe ∧ t.mem = s.mem
            ∧ BlocksKept s t [pgFlt, pgFab] [hdrErrCause pg]))

/-- SHANK_POST puts the word with its writer's qualifier at the end of the DCQ while it has room and nothing is held;
else it replaces the held post of its channel and slot and is counted, or is held; a PV post to C60 or C61 also goes
to the generator of Tread that follows it. POST_ENTRY takes the oldest post and the oldest held one fills the place: a
slot of KIND POST takes it, slot 3 to PV, triggering under KIND 5; any other is counted in POST_UNUSED. A trigger
(SHANK_TRIG_WRITE for each 1 bit, CHANNEL_TRIGGER for a trigger of KIND 1 to 4 on its way) of a channel that may
trigger puts it last among the pending; a pending one counts OVERRUNS instead. SHANK_OUTPUT takes the oldest word of
the output DCQ to the destination OUT_DEST named when its job was dispatched (a Welt slot, a Lace ring, the FIFO of an
Eyelet engine, a generator of Tread, or none) and rings the doorbell OUT_DB named; where the FIFO is full, the
channel's newest word waits, and goes first once there is room. SET_WRITE of the other set requests a swap and shows
SWAP_PEND, of the active one cancels it; in OFF it is made at once. GROUP_CFG_WRITE with more than four members, or
one that another group has, is ignored and sets ERR_CAUSE bit 8. (Rests on the model's own readings and choices in
assumption rows 83, 84, 89 and 90.) -/
def Obligations.ShankPostsTriggersAndOutputs : Prop :=
  ∀ s : State, s.on pgShank = true →
    let core (t : State) : State := { t with shank := s.shank }
    let up (t : State) (k : Nat) : Prop := t.rn k = min 0xFFFFFFFF (s.rn k + 1)
    let chans (t : State) (l : List Nat) : Prop := ∀ j, j ∉ l → t.chanOf j = s.chanOf j
    let triggered (t : State) (k : Nat) : Prop :=
      if s.mayTrigger k = false then t.shank.pend = s.shank.pend
      else if k ∈ s.shank.pend then t.shank.pend = s.shank.pend ∧ up t (shchOverruns k) ∧ up t shankOverruns ∧ (t.reg (hdrIrqRaw pgShank)).getLsbD 4 = true
      else t.shank.pend = s.shank.pend ++ [k]
    (let sent (o : ShOut) (x : State) : State :=
        let k := (o.dest.extractLsb' 0 3).toNat
        let a := (o.dest.extractLsb' 16 9).toNat
        let y := if k = 1 then x.slotPut (o.dest.extractLsb' 3 1).toNat a (o.dest.extractLsb' 25 7).toNat (o.dest.extractLsb' 5 1).toNat o.raw
          else if k = 2 then (let r := x.lacePost (a % 64) (a / 64 % 2) o.raw true; if r.1 = true then r.2.count shankOutDrop else r.2)
          else if k = 3 ∧ x.on (pgEye (a % 16)) = true then x.setEye (a % 16) { x.eyeOf (a % 16) with fout := (x.eyeOf (a % 16)).fout ++ [o.raw] }
          else if k = 4 ∧ (o.chan = 60 ∨ o.chan = 61) then
            x.setGen (o.chan - 60) { x.genOf (o.chan - 60) with outs := (x.genOf (o.chan - 60)).outs ++ [o.raw] }
          else x
        if o.db.getLsbD 15 = true then y.ring (o.db.extractLsb' 0 6).toNat (BitVec.ofNat 32 (2 ^ (o.db.extractLsb' 8 5).toNat)) else y
      let full (o : ShOut) : Bool := (o.dest.extractLsb' 0 3).toNat == 3 && s.on (pgEye (o.dest.extractLsb' 16 4).toNat)
        && decide ((s.eyeOf (o.dest.extractLsb' 16 4).toNat).fout.length ≥ 16)
      (∀ (o : ShOut) (r : List ShOut), (∀ x ∈ s.shank.outWait, full x = true) → s.shank.outQ = o :: r →
        let x := { s with shank := { s.shank with outQ := r ++ s.shank.outHeld.take 1, outHeld := s.shank.outHeld.drop 1 } }
        if full o = false then exec .shankOutput s = .next (sent o x)
        else Gives (exec .shankOutput s) fun t =>
          if ∃ w ∈ s.shank.outWait, w.chan = o.chan then
            t.shank = { x.shank with outWait := s.shank.outWait.map fun w => if w.chan = o.chan then o else w }
              ∧ up t shankOutMerged ∧ OnlyRegs s (core t) [shankOutMerged]
          else t.shank = { x.shank with outWait := s.shank.outWait ++ [o] } ∧ core t = s)
      ∧ (∀ (l : List ShOut) (o : ShOut) (r : List ShOut), s.shank.outWait = l ++ o :: r → (∀ x ∈ l, full x = true) → full o = false →
          exec .shankOutput s = .next (sent o { s with shank := { s.shank with outWait := s.shank.outWait.filter fun x => x.chan != o.chan } }))
      ∧ (s.shank.outQ = [] → (∀ x ∈ s.shank.outWait, full x = true) → exec .shankOutput s = .next s))
    ∧ ∀ (p : Principal) (v : Word) (c : ChanIx),
    let q := s.rn (shchPostQual (pIdx p))
    (∀ sl : Fin 4, s.letsIn p (shchPost c.val sl.val) = true → Gives (exec (.shankPost p c sl v) s) fun t =>
      let x : Post := ⟨c.val, sl.val, v, BitVec.ofNat 6 q, q.testBit 6, q.testBit 7⟩
      let same (h : Post) : Bool := h.chan == c.val && h.slot == sl.val
      OnlyRegs s { core t with gen := s.gen } [shankPostMerged] ∧ chans t []
        ∧ (∀ i < 2, t.genOf i = if c.val = 60 + i ∧ (sl.val = 0 ∨ sl.val = 3) ∧ s.on pgTread = true then
            { s.genOf i with samples := (s.genOf i).samples ++ [v] } else s.genOf i)
        ∧ (if s.shank.dcq.length < 64 ∧ s.shank.held = [] then t.shank = { s.shank with dcq := s.shank.dcq ++ [x] } ∧ t.reg shankPostMerged = s.reg shankPostMerged
          else if s.shank.held.any same = true then
            t.shank = { s.shank with held := s.shank.held.map fun h => if same h then x else h } ∧ up t shankPostMerged
          else t.shank = { s.shank with held := s.shank.held ++ [x] } ∧ t.reg shankPostMerged = s.reg shankPostMerged))
    ∧ (∀ (x : Post) (r : List Post), s.shank.dcq = x :: r → x.slot < 4 → x.chan < 64 → Gives (exec .postEntry s) fun t =>
      let k := if x.slot = 3 then 0 else x.slot
      t.shank.dcq = r ++ s.shank.held.take 1 ∧ t.shank.held = s.shank.held.drop 1 ∧ chans t [x.chan]
        ∧ (if s.rn (shchInPv x.chan + 4 * k) % 4 = 0 then
            (t.chanOf x.chan).posts.rd ⟨0, 0, 0, 0, false, false⟩ k = x
              ∧ (k = 0 → s.get (shchCfgMode x.chan) % 3 ≠ 0 → (t.chanOf x.chan).arrived = some s.tb.frc.toNat)
              ∧ (x.slot = 3 → s.get (shchTrigKind x.chan) = 5 → triggered t x.chan)
              ∧ ((x.slot ≠ 3 ∨ s.get (shchTrigKind x.chan) ≠ 5) → t.shank.pend = s.shank.pend ∧ OnlyRegs s (core t) [])
              ∧ OnlyRegs s (core t) [shchOverruns x.chan, shankOverruns, hdrIrqRaw pgShank]
          else chans t [] ∧ t.shank.pend = s.shank.pend ∧ up t shankPostUnused ∧ OnlyRegs s (core t) [shankPostUnused]))
    ∧ (∀ high : Bool, s.letsIn p (if high then shankTrigHi else shankTrigLo) = true → Gives (exec (.shankTrigWrite p high v) s) fun t =>
      let asked := ((List.range 32).filter fun i => v.getLsbD i).map fun i => i + (if high then 32 else 0)
      let news := asked.filter fun k => s.mayTrigger k && !s.shank.pend.contains k
      let late := asked.filter fun k => s.mayTrigger k && s.shank.pend.contains k
      t.shank = { s.shank with pend := s.shank.pend ++ news } ∧ (∀ k ∈ late, up t (shchOverruns k))
        ∧ t.rn shankOverruns = min 0xFFFFFFFF (s.rn shankOverruns + late.length)
        ∧ (late ≠ [] → (t.reg (hdrIrqRaw pgShank)).getLsbD 4 = true)
        ∧ OnlyRegs s (core t) (late.map shchOverruns ++ if late = [] then [] else [shankOverruns, hdrIrqRaw pgShank]))
    ∧ (if c.val ∈ s.shank.arriving then Gives (exec (.channelTrigger c) s) fun t =>
        chans t [] ∧ t.shank = { s.shank with arriving := s.shank.arriving.erase c.val, pend := t.shank.pend } ∧ triggered t c.val
          ∧ OnlyRegs s (core t) [shchOverruns c.val, shankOverruns, hdrIrqRaw pgShank]
      else exec (.channelTrigger c) s = .next s)
    ∧ (let n := s.selOf p
      s.letsIn p (shchCfg n) = true → s.reserved = false → Gives (exec (.setWrite p v) s) fun t =>
        let mode (x : State) : Nat := x.get (shchCfgMode n) % 3
        let want := v.extractLsb' 2 1
        chans t [n] ∧ OnlyRegs s (core t) [shchCfg n, shchStat n] ∧ t.get (shchCfgMode n) = (v.extractLsb' 0 2).toNat
          ∧ (mode s = 0 → t.get (shchCfgSet n) = want.toNat ∧ (t.chanOf n).swapPend = false ∧ t.bit (shchStatSwapPend n) = false)
          ∧ (mode s ≠ 0 → t.get (shchCfgSet n) = s.get (shchCfgSet n) ∧ (t.chanOf n).swapPend = decide (want.toNat ≠ s.get (shchCfgSet n))
              ∧ t.bit (shchStatSwapPend n) = decide (want.toNat ≠ s.get (shchCfgSet n)))
          ∧ ((t.chanOf n).fresh = true ↔ (s.chanOf n).fresh = true ∨ (mode s ≠ mode t ∧ (mode s = 0 ∨ mode t = 0))))
    ∧ (∀ g : OctIx, s.letsIn p (shankGroupCfg g.val) = true → s.reserved = false → Gives (exec (.groupCfgWrite p g v) s) fun t =>
        let bad : Prop := 4 < ((List.range 16).filter fun i => v.getLsbD i).length
          ∨ ∃ h ∈ List.range 8, h ≠ g.val ∧ (v.extractLsb' 0 16 &&& BitVec.ofNat 16 (s.get (shankGroupCfgMembers h))) ≠ 0
        t.shank = s.shank ∧ (bad → (t.reg (hdrErrCause pgShank)).getLsbD 8 = true ∧ OnlyRegs s t [hdrErrCause pgShank])
          ∧ (¬ bad → t.get (shankGroupCfgMembers g.val) = (v.extractLsb' 0 16).toNat ∧ t.bit (shankGroupCfgEn g.val) = v.getLsbD 31
              ∧ OnlyRegs s t [shankGroupCfg g.val]))

/-- JOB_DISPATCH takes the pending channel of the highest PRIO, first in order; it evaluates it, or its group's
members in ascending order, on what stands then, and writes nothing. AUTO with feedback follows R363 and R364 in the
stages of R367; while feedback is lost, ACT 0 holds y, 1 gives SAFE_OUT; MANUAL of C48 to C63 gives clip(MAN); the
presets of R377 and R378 give back clip(t) and the integrator they name. A group's output is the lowest y, the lower
channel on a tie; the others are tracked. A job costs 24 + 8 NBQ, a group's the sum and 2. JOB_END on a match writes
each evaluated channel's y, OUT and state, EVALS and WINNER, and hands the output to the DCQ; a matching rerun also
counts RETRIES and raises bit 2; where the spare agrees it takes the other lane's place (SWAPS, bit 1); with no
agreement nothing is written. Each run of a job is booked into LOAD. A lane tested alone that passes becomes the
spare; one that fails is FAILED and raises bit 3; the lanes of a pair under test take their places by what passed,
with SINGLE and bit 3 for one left, and without a working lane SHANK enters FAULT. (Rests on the model's own readings
and choices in assumption rows 81, 82, 85, 86, 87, 88 and 184.) -/
def Obligations.ShankJobsAndLanes : Prop :=
  ∀ s : State,
    let core (t : State) : State := { t with shank := s.shank }
    let up (t : State) (k : Nat) : Prop := t.rn k = min 0xFFFFFFFF (s.rn k + 1)
    let raw (n : Nat) (y : Dy) : Word := rawOf y ((BitVec.ofNat 8 (s.get (shchOutDestScale n))).toInt)
    (∀ (c : Nat) (l r : List Nat), s.shRuns = true → s.shank.job = none → s.shank.pend = l ++ c :: r → c < 64 → s.mayTrigger c = true
      → (∀ x ∈ l, x ≠ c ∧ s.get (shchCfgPrio x) < s.get (shchCfgPrio c)) → (∀ x ∈ r, x ≠ c ∧ s.get (shchCfgPrio x) ≤ s.get (shchCfgPrio c))
      → s.reserved = false → (∀ n < 64, (s.chanOf n).stateErr = 0) → Gives (exec .jobDispatch s) fun t =>
        t.shank.pend = l ++ r ∧ t.regs = s.regs
          ∧ (∀ g, s.groupOf' c = some g → ∃ j, t.shank.job = some j ∧ j.trigger = c ∧ j.group = some g ∧
              let es := (s.evalAll (s.groupLive g)).1
              j.evals.map ShEval.chan = es.map ShEval.chan ∧ j.evals.map (fun e => e.st.y) = es.map (fun e => e.st.y)
                ∧ j.cost = (es.map fun e => 24 + 8 * min (s.get (shchCfgNbq e.chan)) 4).sum + 2
                ∧ ∃ w ∈ es, j.winner = w.chan ∧ j.raw = raw c w.st.y
                  ∧ (∀ e ∈ es, e.st.y.lt w.st.y = false ∧ (e.chan < w.chan → w.st.y.lt e.st.y = true))
                  ∧ (∀ e ∈ es, e.auto = true → e.st.lost = false → e.chan ≠ w.chan → ∀ x ∈ j.evals, x.chan = e.chan →
                      let k (f : Nat → Nat → Nat) : Dy := dyOf (s.reg (f e.chan e.set))
                      x.st.i = (store40 [(e.st.i.add ((k shchKt).mul (w.st.y.sub e.st.y))).clip (k shchImin) (k shchImax)]).1.headD e.st.i))
          ∧ (s.groupOf' c = none → (∀ f ∈ [shchInPvKind c, shchInSpKind c, shchInFfKind c], s.get f ≠ 1) →
              let x := s.chanOf c
              let b := if x.swapPend then 1 - s.get (shchCfgSet c) else s.get (shchCfgSet c)
              let k (f : Nat → Nat → Nat) : Dy := dyOf (s.reg (f c b))
              let man := dyOf (s.reg (shchMan c))
              let lim (y : Dy) : Dy := y.clip (k shchOmin) (k shchOmax)
              let auto : Bool := s.get (shchCfgMode c) == 1
              let inp (n kind a scale : Nat) (const : Dy) : Dy :=
                let m : Int := (BitVec.ofNat 8 scale).toInt
                if kind = 0 then ⟨(x.posts.rd ⟨0, 0, 0, 0, false, false⟩ n).raw.toInt, m⟩ else if kind = 2 then (s.chanOf (a % 64)).y.scale m else const
              let pv := inp 0 (s.get (shchInPvKind c)) (s.get (shchInPvArg c)) (s.get (shchInPvScale c)) ⟨0, 0⟩
              let sp := inp 1 (s.get (shchInSpKind c)) (s.get (shchInSpArg c)) (s.get (shchInSpScale c)) (dyOf (s.reg (shchConstSp c)))
              let ff := inp 2 (s.get (shchInFfKind c)) (s.get (shchInFfArg c)) (s.get (shchInFfScale c)) (dyOf (s.reg (shchConstFf c)))
              let li := (store24 [sp, pv, ff]).1
              let err := if s.bit (shchCfgReverse c) then (li.getD 1 pv).sub (li.getD 0 sp) else (li.getD 0 sp).sub (li.getD 1 pv)
              let le := (store24 [err, if s.bit (shchCfgDOnPv c) then (Dy.ofInt 0).sub (li.getD 1 pv) else err]).1
              let p := (store1 ((k shchKp).mul (le.getD 0 err))).1
              let f := (k shchKff).mul (li.getD 2 ff)
              let tail (n : Chan) (v : Dy) (z1 z2 : List Dy) : Prop :=
                let (ws, n1, n2) := bqRun ((List.range (min (s.get (shchCfgNbq c)) 4)).map (s.section' c b)) z1 z2 v
                let sum := (store24 (v :: (ws.dropLast ++ n1 ++ n2))).1
                n.v = sum.headD v ∧ n.z1 = (sum.drop (1 + ws.dropLast.length)).take n1.length ∧ n.z2 = (sum.drop (1 + ws.dropLast.length)).drop n1.length
                  ∧ n.y = (store1 (lim (ws.getLast?.getD v))).1
              let preset (n : Chan) (target : Dy) : Prop :=
                let i := (store40 [(((lim target).sub p).sub f).clip (k shchImin) (k shchImax)]).1.headD ((((lim target).sub p).sub f).clip (k shchImin) (k shchImax))
                let z := bqPreset ((List.range (min (s.get (shchCfgNbq c)) 4)).map (s.section' c b)) x.z1 x.z2 ((p.add i).add f)
                n.p = p ∧ n.i = i ∧ n.d = ⟨0, -150⟩ ∧ tail n ((p.add i).add f) z.1 z.2
              let lost : Bool := s.lossCauses c b != 0 || (x.lost && !x.fresh && decide (x.clean + 1 < max 1 (s.get (shchLossRecoverN c b))))
              core t = s ∧ (∀ j, j ≠ c → t.chanOf j = s.chanOf j) ∧ ∃ e, e.chan = c ∧ t.shank.job = some ⟨[e], c, none, c, e.raw, 24 + 8 * min (s.get (shchCfgNbq c)) 4⟩
                ∧ e.raw = raw c e.st.y ∧ e.causes = s.lossCauses c b ∧ e.set = b ∧ e.swapped = x.swapPend ∧ e.auto = auto
                ∧ e.manTrack = s.bit (shchCfgManTrack c) ∧ e.dest = s.reg (shchOutDest c) ∧ e.db = s.reg (shchOutDb c)
                ∧ e.st.lost = (s.lossCauses c b != 0 || (x.lost && !x.fresh && decide ((if s.lossCauses c b ≠ 0 then 0 else x.clean + 1) < max 1 (s.get (shchLossRecoverN c b)))))
                ∧ (x.fresh = true → preset e.st man)
                ∧ (x.fresh = false → auto = false → c < 48 → preset e.st man)
                ∧ (x.fresh = false → auto = false → 48 ≤ c → e.st.y = (store1 (lim man)).1 ∧ e.st.i = x.i ∧ e.st.d = x.d ∧ e.st.xPrev = x.xPrev ∧ e.st.z1 = x.z1 ∧ e.st.z2 = x.z2)
                ∧ (x.fresh = false → auto = true →
                    if x.swapPend = true then preset e.st x.y
                    else if lost = true ∧ s.get (shchLossAct c b) ≠ 2 then
                      e.st.y = (if s.get (shchLossAct c b) = 1 then (store1 (k shchSafeOut)).1 else x.y)
                        ∧ e.st.i = x.i ∧ e.st.d = x.d ∧ e.st.xPrev = x.xPrev ∧ e.st.z1 = x.z1 ∧ e.st.z2 = x.z2
                    else if (x.heldAct = true ∧ lost = false) ∨ (x.wasMan = true ∧ c < 48) then preset e.st x.y
                    else
                      let d := (store1 (((k shchDpole).mul x.d).add ((k shchKd).mul ((le.getD 1 err).sub x.xPrev)))).1
                      let di := (k shchKi).mul (le.getD 0 err)
                      let stop : Bool := ((k shchOmax).le x.y && (Dy.ofInt 0).lt di) || (x.y.le (k shchOmin) && di.lt (Dy.ofInt 0))
                      let i := (x.i.add (if stop then Dy.ofInt 0 else di)).clip (k shchImin) (k shchImax)
                      e.st.e = le.getD 0 err ∧ e.st.xPrev = le.getD 1 err ∧ e.st.p = p ∧ e.st.d = d ∧ e.st.i = (store40 [i]).1.headD i
                        ∧ tail e.st (((p.add ((store40 [i]).1.headD i)).add d).add f) x.z1 x.z2)))
    ∧ (∀ j : ShJob, s.shank.job = some j → s.shank.injLane = none → (j.evals.map ShEval.chan).Nodup → (∀ e ∈ j.evals, e.chan < 64) → (∀ g, j.group = some g → g < 8) →
        let kept (t : State) : Prop := (∀ k < 64, (∀ e ∈ j.evals, e.chan = k → t.chanOf k = { s.chanOf k with fresh := (s.chanOf k).fresh || e.st.fresh, wasMan := (s.chanOf k).wasMan || e.st.wasMan })
            ∧ ((∀ e ∈ j.evals, e.chan ≠ k) → t.chanOf k = s.chanOf k))
          ∧ BlocksKept s t [pgFlt] [shankRetries, hdrIrqRaw pgShank, shankLaneStat, shankUnresolved] ∧ t.shank.outQ = s.shank.outQ ∧ t.shank.job = none ∧ t.mem = s.mem
        let ran (t : State) (n : Nat) : Prop := t.shank.busy.getLast? = some (s.tb.frc.toNat, n * j.cost)
        Gives (exec (.jobEnd .agree) s) fun t => t.shank.job = none ∧ ran t 1 ∧ t.mem = s.mem ∧ BlocksKept s t [pgShank, pgShch] []
          ∧ (∀ e ∈ j.evals, t.reg (shchY e.chan) = bf32 e.st.y ∧ t.reg (shchV e.chan) = bf32 e.st.v ∧ t.reg (shchE e.chan) = bf32 e.st.e
              ∧ t.reg (shchILo e.chan) = BitVec.ofInt 32 e.st.i.m ∧ up t (shchEvals e.chan) ∧ t.get (shchAgeUsUs e.chan) = e.ageUs % 0x10000
              ∧ t.bit (shchStatLost e.chan) = e.st.lost ∧ (t.chanOf e.chan).y = e.st.y ∧ (t.chanOf e.chan).i = e.st.i ∧ (t.chanOf e.chan).posts = (s.chanOf e.chan).posts
              ∧ (e.swapped = true → t.get (shchCfgSet e.chan) = e.set % 2)
              ∧ (e.manTrack = true → e.auto = true → t.reg (shchMan e.chan) = bf32 e.st.y)
              ∧ (j.group.isSome = true ∨ e.chan ≠ j.trigger → t.reg (shankOut e.chan) = e.raw))
          ∧ (j.group = none → t.reg (shankOut j.trigger) = j.raw)
          ∧ (∀ g, j.group = some g → t.get (shankGroupStatWinner g) = j.winner % 64 ∧ t.bit (shankGroupStatValid g) = true
              ∧ ∀ e ∈ j.evals, t.bit (shchStatWinning e.chan) = decide (e.chan = j.winner))
          ∧ (s.shank.outQ.length < 64 → s.shank.outHeld = [] → ∀ e ∈ j.evals, e.chan = j.trigger →
              t.shank.outQ = s.shank.outQ ++ [⟨j.trigger, j.raw, e.st.lost, !e.auto, e.atLimit, e.dest, e.db⟩])
          ∧ (s.compared = false → ∀ r, Gives (exec (.jobEnd r) s) (fun u => u.regs = t.regs ∧ u.shank.chan = t.shank.chan ∧ ran u 1))
          ∧ (s.compared = true → Gives (exec (.jobEnd .rerunAgrees) s) (fun u => up u shankRetries ∧ ran u 2 ∧ (u.reg (hdrIrqRaw pgShank)).getLsbD 2 = true
              ∧ BlocksKept t u [pgFlt] [shankRetries, hdrIrqRaw pgShank] ∧ u.shank.chan = t.shank.chan ∧ u.shank.outQ = t.shank.outQ ∧ u.mem = t.mem))
          ∧ (s.compared = true → s.bit shankLaneStatSpareOk = true → ∀ second : Bool, Gives (exec (.jobEnd (.spareAgrees second)) s) fun u => up u shankRetries ∧ ran u 3 ∧ u.get shankSwapsCount = min 0xFFFF (s.get shankSwapsCount + 1)
              ∧ (u.reg (hdrIrqRaw pgShank)).getLsbD 1 = true ∧ u.get (if second then shankLaneStatAct0 else shankLaneStatAct1) = s.get shankLaneStatSpare
              ∧ u.get (if second then shankLaneStatAct1 else shankLaneStatAct0) = s.get (if second then shankLaneStatAct1 else shankLaneStatAct0)
              ∧ u.bit shankLaneStatSpareOk = false ∧ u.bit shankLaneStatTesting = true ∧ u.shank.testing = s.shank.testing
              ∧ u.shank.spareTest = some (s.get (if second then shankLaneStatAct0 else shankLaneStatAct1))
              ∧ BlocksKept t u [pgFlt] [shankRetries, hdrIrqRaw pgShank, shankSwaps, shankLaneStat] ∧ u.shank.chan = t.shank.chan ∧ u.mem = t.mem)
          ∧ (s.compared = true → Gives (exec (.jobEnd .unresolved) s) (fun u => kept u ∧ up u shankRetries ∧ ran u (if s.bit shankLaneStatSpareOk then 3 else 2) ∧ (s.bit shankLaneStatSpareOk = true → up u shankUnresolved)
              ∧ u.shank.testing = [s.get shankLaneStatAct0, s.get shankLaneStatAct1] ∧ u.get shankLaneStatAct0 = s.get shankLaneStatAct1 ∧ u.get shankLaneStatAct1 = 3))
          ∧ (s.compared = true → s.bit shankLaneStatSpareOk = false → ∀ second : Bool, Gives (exec (.jobEnd (.spareAgrees second)) s) fun u => kept u ∧ up u shankRetries ∧ ran u 2
              ∧ u.shank.testing = [s.get shankLaneStatAct0, s.get shankLaneStatAct1] ∧ u.get shankLaneStatAct1 = 3))
    ∧ (∀ (p : Principal) (v : Word), s.letsIn p shankLaneTest = true → s.on pgShank = true → v.getLsbD 0 = true →
        if s.bit shankLaneStatSpareOk = true ∧ s.bit shankLaneStatTesting = false then Gives (exec (.laneTest p v) s) fun t =>
          t.bit shankLaneStatSpareOk = false ∧ t.bit shankLaneStatTesting = true ∧ t.shank = { s.shank with spareTest := some (s.get shankLaneStatSpare) }
            ∧ OnlyRegs s (core t) [shankLaneStat]
        else exec (.laneTest p v) s = .next s)
    ∧ (∀ (l : GenIx) (ok : Bool), s.on pgShank = true →
        let alone : Bool := s.shank.spareTest == some l.val
        if alone = false ∧ s.shank.testing.head? ≠ some l.val then exec (.laneSelftestDone l ok) s = .next s
        else Gives (exec (.laneSelftestDone l ok) s) fun t =>
          let rest := if alone then s.shank.testing else s.shank.testing.drop 1
          let left := (if alone then [s.get shankLaneStatAct0].filter (· != 3) else s.shank.passed) ++ if ok then [l.val] else []
          let work := left ++ if alone = false ∧ s.bit shankLaneStatSpareOk = true then [s.get shankLaneStatSpare] else []
          let settles : Bool := if alone then !s.compared && s.shank.testing.isEmpty else rest.isEmpty
          t.shank.testing = rest ∧ t.shank.spareTest = (if alone then none else s.shank.spareTest) ∧ t.mem = s.mem ∧ t.shank.chan = s.shank.chan
            ∧ t.shank.passed = (if alone then s.shank.passed else left)
            ∧ BlocksKept s t [pgFlt] [shankLaneStat, hdrIrqRaw pgShank, hdrState pgShank]
            ∧ t.get shankLaneStatFailed = (if ok then s.get shankLaneStatFailed else s.get shankLaneStatFailed ||| 2 ^ l.val)
            ∧ t.bit shankLaneStatTesting = (!rest.isEmpty || t.shank.spareTest.isSome)
            ∧ (alone = true → settles = false → t.st pgShank = stOn ∧ t.get shankLaneStatAct0 = s.get shankLaneStatAct0
                ∧ t.get shankLaneStatAct1 = s.get shankLaneStatAct1 ∧ (ok = true → t.get shankLaneStatSpare = l.val ∧ t.bit shankLaneStatSpareOk = true)
                ∧ (ok = false → t.get shankLaneStatSpare = 3 ∧ t.bit shankLaneStatSpareOk = s.bit shankLaneStatSpareOk
                    ∧ (s.compared = true → (t.reg (hdrIrqRaw pgShank)).getLsbD 3 = true)))
            ∧ (alone = false → settles = false → t.st pgShank = stOn ∧ t.get shankLaneStatAct0 = work.headD 3 % 4)
            ∧ (settles = true → t.get shankLaneStatAct0 = work.getD 0 3 % 4 ∧ t.get shankLaneStatAct1 = work.getD 1 3 % 4
                ∧ t.get shankLaneStatSpare = work.getD 2 3 % 4 ∧ t.bit shankLaneStatSpareOk = decide (2 < work.length)
                ∧ (work.length = 2 → ok = false → (t.reg (hdrIrqRaw pgShank)).getLsbD 3 = true)
                ∧ (t.shank.spareTest = none →
                    (work = [] → t.st pgShank = stFault ∧ t.shank.pend = [] ∧ t.shank.job = none)
                    ∧ (work.length = 1 → t.bit shankLaneStatSingle = true ∧ (t.reg (hdrIrqRaw pgShank)).getLsbD 3 = true)
                    ∧ (2 ≤ work.length → t.bit shankLaneStatSingle = false) ∧ (work ≠ [] → t.st pgShank = stOn))))

/-- PAT_APPLY installs the edit copy at once, or PENDING, only if it passes every rule of Table 12-4; else REFUSED,
the active Pattern standing. A node's frame with its CRC, valid for its entry (in LISTEN too, judged by the schedule
it adopts), counts in RX_VALID and fills the older half, CYCLE and payload, the second of two mirrored copies its half
only if it ended first; copies that differ count; any other frame counts in RX_INVALID and changes no memory; LISTEN
adopts a SYNC's cycle. A GUARDED hub passes of a frame the granules inside the windows of its lane's owners, stomped
where it outlasts one and counted in LATE_CUT, counts one that begins early in OUT_OF_SLOT and EARLY_MASK, and stops
one that meets no such window; a passed frame goes undecoded to the channel's other lanes that are not isolated;
UNSYNCED relays the first of a contention window, of several at once that of the lowest lane, CS_LOCK its lane alone.
WINDOW_CLOSE sets AGE 0 or one older. TX_LATCH takes the published half, WELT_TX sends it with the header of Table
12-2 and their CRC-32 at the granule nearest the instant, each 16 bytes as latched or as they stand then, PUBLISH
names the half. CYCLE_END acts once the cycle's length has run out: it advances CYCLE, corrects the length by R416,
and moves INTEGRATING on; LISTEN_TIMEOUT, SYNC_LOSS, PASSIVE_HOLD_END and CS_HOLD_EXPIRY move the states of Table 12-6
and R419 once their counts are reached; LANE_REALIGN isolates the lane. (Rests on the model's own readings and choices
in assumption rows 91, 92, 93, 94, 95, 96, 97, 99, 100, 185, 210, 211, 212 and 213.) -/
def Obligations.WeltReceptionTransmissionAndStates : Prop :=
  ∀ (m : WeltIx) (s : State), s.on (pgWelt m.val) = true →
    let n := m.val
    let pg := pgWelt n
    let core (t : State) : State := { t with welt := s.welt, out := s.out, free := s.free }
    let up (t : State) (k : Nat) : Prop := t.rn k = min 0xFFFFFFFF (s.rn k + 1)
    let irq (t : State) (i : Nat) : Prop := (t.reg (hdrIrqRaw pg)).getLsbD i = true
    let others (t : State) : Prop := ∀ j, j ≠ n → t.weltOf j = s.weltOf j
    let ages : List Nat := (List.range 128).map (weltAge n)
    let x := s.weltOf n
    let bits (f : WeltRx) (lo w : Nat) : Nat := (f.header.extractLsb' lo w).toNat
    let good (f : WeltRx) : Bool := f.crc == BitVec.ofNat 32 (crc32 (leBytes 8 f.header.toNat ++ f.payload))
    let at' (f : WeltRx) : Int := (stampDiff f.stamp (BitVec.ofNat 53 (x.cycFrc * 32)) * 2 ^ 29 - x.cycSub) / 2 ^ 29
    let instant (f : WeltRx) (e : PatEntry) (i : Nat) : Int :=
      (at' f - (s.expected n e - 4 * (s.piNs n : Int))) * 165 + i * (if s.bit (weltCfgRate n) then 8448 else 4224)
    let open1320 (e : PatEntry) : Int := 8 * ((s.piNs n * 165 + s.wire165 n e.bytes : Nat) : Int)
    (∀ key : Nat → Nat → Nat → Nat, s.patCheckCopy n key = none ↔ ∀ c ∈ [0, 1],
        let l := s.patList (key c)
        let o := s.patList (key (1 - c))
        (∀ a ∈ l, a.2.start < s.cycleNs n ∧ a.2.typ ≠ 3 ∧ (a.2.typ = 2 → a.2.len = 16) ∧ a.2.owner ≠ 255
            ∧ (∀ b ∈ o, b.2.buffer = a.2.buffer → a.2.mirror = true)
            ∧ (a.2.mirror = true → ∃ b ∈ o, b.2.mirror = true ∧ b.2.start = a.2.start ∧ b.2.len = a.2.len ∧ b.2.owner = a.2.owner ∧ b.2.buffer = a.2.buffer ∧ b.2.typ = a.2.typ))
          ∧ (∀ a ∈ l, ∀ b ∈ l, a.1 < b.1 → b.2.buffer ≠ a.2.buffer ∧ a.2.start * 165 + s.wire165 n a.2.bytes + s.gap165 n ≤ b.2.start * 165)
          ∧ (∀ f ∈ l, ∀ z ∈ l, (∀ y ∈ l, f.1 ≤ y.1 ∧ y.1 ≤ z.1) → z.2.start * 165 + s.wire165 n z.2.bytes + s.gap165 n ≤ (s.cycleNs n + f.2.start) * 165))
    ∧ (∀ (p : Principal) (v : Word), s.letsIn p (patApply n) = true → v.getLsbD 0 = true → Gives (exec (.patApply p m v) s) fun t =>
        (∀ c < 2, ∀ e < 512, ∀ w < 2, t.reg (patActKey n c e w) = s.reg (patActKey n c e w)) ∧ OnlyRegs s t [patApply n, patCheck n]
          ∧ (match s.patCheckCopy n (patEditKey n) with
            | none => t.bit (patApplyPending n) = true ∧ t.bit (patApplyRefused n) = false ∧ t.reg (patCheck n) = 0
            | some f => t.bit (patApplyPending n) = s.bit (patApplyPending n) ∧ t.bit (patApplyRefused n) = true
                ∧ t.reg (patCheck n) = BitVec.ofNat 32 (f.2.2 + f.2.1 * 0x200 + f.1 * 0x1000))
          ∧ (s.patCheckCopy n (patEditKey n) = none → Gives (exec (.patApply p m v) (s.setReg (hdrState pg) 0)) fun u =>
              ∀ c < 2, ∀ e < 512, ∀ w < 2, u.reg (patActKey n c e w) = s.reg (patEditKey n c e w)))
    ∧ (∀ f : WeltRx, s.upLane n f.chanB = some f.lane.val → s.isHub n = false → Gives (exec (.weltFrameRx m f) s) fun t =>
        let c := chN f.chanB
        let k := bits f 16 9
        let e := s.pat n c k
        let typ := bits f 0 4
        let cyc : Word := f.header.extractLsb' 32 32
        let due : Int := 8 * ((e.start + (if e.owner = 255 then 0 else s.get (weltNodeMapDelay n e.owner)) : Nat) : Int)
        let near : Bool := decide ((at' f - due).natAbs * 2 ≤ 8 * s.piNs n)
        let fits : Bool := f.delimited && !f.codeError && good f && e.valid && decide (bits f 8 8 = e.owner ∧ f.header.getLsbD 4 = f.chanB ∧ f.header.getLsbD 5 = e.mirror
          ∧ f.payload.length = e.bytes) && (if e.typ = 0 then typ == 0 else if e.typ = 1 then typ == 0 || typ == 1 || typ == 2 else typ == 3) && decide (e.owner ≠ s.nodeId n)
        let valid : Prop := fits = true ∧ near = true ∧ cyc = s.reg (weltCycle n) ∧ s.node n ≠ nodeColdstart ∧ (s.node n ≠ nodeListen ∨ typ = 0)
        let clean (a : Nat) : Prop := ∀ g ∈ granules a 0x800, s.bank.ecc.rd none g = none
        others t ∧ (t.weltOf n).quiet = 0 ∧ t.out = s.out
          ∧ ((fits = false ∨ (s.node n ≠ nodeColdstart ∧ (s.node n ≠ nodeListen ∨ typ = 0) ∧ (near = false ∨ cyc ≠ s.reg (weltCycle n)))) →
              up t (weltRxInvalid n c) ∧ OnlyRegs s (core t) [weltRxInvalid n c])
          ∧ (valid → up t (weltRxValid n c) ∧ ((f.chanB, k) ∈ (t.weltOf n).got)
              ∧ ((typ = 1 ∨ typ = 2) → (t.weltOf n).vals = x.vals ++ [(e.owner, f.chanB, at' f - due)]))
          ∧ (valid → s.partnerGot n f.chanB e = false → s.get (weltBufFirst n) ≤ 188 →
              let h := 1 - s.newerHalf n e.buffer
              let a := s.halfAddr n e.buffer h
              t.bytes (a + 0x40) f.payload.length = f.payload ∧ t.word a = cyc
                ∧ t.word (a + 4) = (if f.chanB then 0x100 else 0) ∧ t.word (a + 8) = f.stamp.setWidth 32 ∧ (clean a → MemKeptBut s t a 0x800))
          ∧ (valid → s.partnerGot n f.chanB e = true → s.get (weltBufFirst n) ≤ 188 →
              let a := s.halfAddr n e.buffer (s.newerHalf n e.buffer)
              clean a → (if s.bytes (a + 0x40) f.payload.length = f.payload then t.reg (weltMirrorDiff n) = s.reg (weltMirrorDiff n) else up t (weltMirrorDiff n))
                ∧ ∀ (ch : Bool) (q : Int), x.wrote.find? (·.1 == e.buffer) = some (e.buffer, ch, q) →
                  if at' f < q ∨ (at' f = q ∧ f.chanB = false) then t.bytes (a + 0x40) f.payload.length = f.payload ∧ MemKeptBut s t a 0x800
                  else t.mem = s.mem)
          ∧ (s.node n = nodeListen → fits = true → typ = 1 → t.reg (weltCycle n) = cyc ∧ t.node n = nodeIntegrating ∧ irq t 1 ∧ up t (weltRxValid n c)))
    ∧ (∀ f : WeltRx, s.isHub n = true → (s.upLane n f.chanB = some f.lane.val ∨ f.lane.val ∈ s.downLanes n f.chanB) →
        (∀ i ∈ x.isolated, i.lane ≠ f.lane.val ∨ i.chanB ≠ f.chanB) → Gives (exec (.weltFrameRx m f) s) fun t =>
        let c := chN f.chanB
        let open' := ((s.upLane n f.chanB).toList ++ s.downLanes n f.chanB).filter fun l => !x.isolated.any fun i => i.lane == l && i.chanB == f.chanB
        let passed (es : Option (List PatEntry)) (cut : Bool) : Prop :=
          t.out = .weltRepeat n f.chanB f.lane.val (open'.filter (· != f.lane.val)) cut (s.repeated n f es) :: s.out
        let stopped : Prop := t.out = s.out ∧ t.mem = s.mem
        let last := f.words.length - 1
        let own := (s.patOf n f.chanB).filter fun y => s.ownerLane n f.chanB y.2.owner == some f.lane.val && y.2.owner != s.nodeId n
          && decide (0 ≤ instant f y.2 last ∧ instant f y.2 0 < open1320 y.2)
        let cut := own.any fun y => decide (open1320 y.2 ≤ instant f y.2 last)
        let beaten := f.tied.any fun l => decide (l.val < f.lane.val) && open'.contains l.val
        others t
          ∧ (s.hub n f.chanB = hubGuarded →
            (own = [] → stopped ∧ up t (weltOutOfSlot n c) ∧ OnlyRegs s (core t) [weltOutOfSlot n c])
            ∧ ∀ y ∈ own.head?, passed (some (own.map (·.2))) cut
              ∧ (if cut then up t (weltLateCut n c) ∧ irq t 4 else t.reg (weltLateCut n c) = s.reg (weltLateCut n c))
              ∧ (if instant f y.2 0 < 0 then up t (weltOutOfSlot n c) ∧ up t (weltEarlyMask n c) ∧ irq t 4 ∧ t.mem = s.mem
                else t.reg (weltOutOfSlot n c) = s.reg (weltOutOfSlot n c) ∧ t.reg (weltEarlyMask n c) = s.reg (weltEarlyMask n c))
              ∧ ((s.belowLane n f.chanB y.2.owner).isSome = true →
                  let d := at' f - s.expected n y.2
                  (t.weltOf n).verdicts.rd 0 (2 * y.1 + c) = if instant f y.2 0 < 0 then 2 else if cut then 3
                    else if d < -(2 * (s.piNs n : Int)) then 2 else if 2 * (s.piNs n : Int) < d then 3 else 1))
          ∧ (s.hub n f.chanB = hubCsLock → if x.csLane.rd none c = some f.lane.val then passed none false else stopped ∧ t.regs = s.regs)
          ∧ (s.hub n f.chanB = hubUnsynced →
            let masked := match x.csWin.rd none c with
              | some b => decide ((f.stamp.toNat + 2 ^ 53 - b) % 2 ^ 53 < 8 * s.get (weltCsWinNs n))
              | none => false
            if masked = true ∨ beaten = true then stopped ∧ t.regs = s.regs
            else passed none false ∧ (bits f 0 4 = 2 → good f = true → (t.hub n f.chanB = hubCsLock ∨ t.hub n f.chanB = hubGuarded) ∧ irq t 2)))
    ∧ (∀ (f : WeltRx) (i : Nat) (w : BitVec 66), f.words[i]? = some w → (s.repeated n f none)[i]? = some (.asReceived w)
        ∧ ∀ es : List PatEntry,
          let inside (i : Nat) : Bool := es.any fun e => decide (0 ≤ instant f e i ∧ instant f e i < open1320 e)
          (s.repeated n f (some es))[i]? = some (if inside i = true then .asReceived w else if 0 < i ∧ inside (i - 1) = true then .stomp else .idle))
    ∧ (∀ (ch : Bool) (k : Fin 512), let e := s.pat n (chN ch) k.val
        e.valid = true → e.owner ≠ s.nodeId n → Gives (exec (.windowClose m ch k) s) fun t =>
          let got : Bool := x.got.contains (ch, k.val) || s.partnerGot n ch e
          t.welt = s.welt ∧ OnlyRegs s t [weltRxMissing n (chN ch), weltAge n (e.buffer / 4)]
            ∧ (if (ch, k.val) ∈ x.seen then t.reg (weltRxMissing n (chN ch)) = s.reg (weltRxMissing n (chN ch)) else up t (weltRxMissing n (chN ch)))
            ∧ (∀ b, b ≠ e.buffer → t.bufAge n b = s.bufAge n b)
            ∧ ((e.mirror = false ∨ ch = false ∨ s.usesCh n false = false) → t.bufAge n e.buffer = if got then 0 else min (s.bufAge n e.buffer + 1) 255))
    ∧ (∀ (ch : Bool) (k : Fin 512), let e := s.pat n (chN ch) k.val
        e.valid = true → e.owner = s.nodeId n → s.nodeId n ≠ 255 → e.typ ≠ 2 → e.mirror = false → Gives (exec (.txLatch m ch k) s) fun t =>
          let r := s.eccRead (weltCode n) (s.halfAddr n e.buffer (s.txHalf n e.buffer) + 0x40) e.bytes
          core t = { r.2.2 with welt := s.welt } ∧ others t ∧ (t.weltOf n).stage.find? (fun y => y.chanB == ch && y.entry == k.val) = some ⟨ch, k.val, r.1, some (s.txHalf n e.buffer)⟩
            ∧ { t.weltOf n with stage := x.stage } = x)
    ∧ (∀ (ch : Bool) (k : Fin 512) (y : WeltStage), let e := s.pat n (chN ch) k.val
        e.valid = true → e.owner = s.nodeId n → s.nodeId n ≠ 255 → s.isHub n = false → s.usesCh n ch = true → e.typ ≠ 2 → (s.node n = nodeColdstart ∨ s.node n = nodeActive) →
          x.stage.find? (fun y => y.chanB == ch && y.entry == k.val) = some y → (y.half.isSome = true → y.payload.length = e.bytes) → Gives (exec (.weltTx m ch k) s) fun t =>
          let typ := if e.typ = 1 ∧ s.bit (weltCfgCsCapable n) = true then (if s.node n = nodeColdstart then 2 else 1) else 0
          let h : List Byte := BitVec.ofNat 8 (typ + (if ch then 16 else 0) + if e.mirror then 32 else 0) :: BitVec.ofNat 8 (s.nodeId n) :: BitVec.ofNat 8 (k.val % 256) :: BitVec.ofNat 8 (k.val / 256)
            :: leBytes 4 (s.rn (weltCycle n))
          let due : Int := 8 * ((e.start : Int) - s.get (weltUpDelayNs n) + x.shifted)
          let piece (l : List Byte) (i : Nat) : List Byte := (l.drop (16 * i)).take 16
          let sent (l : List Byte) : Prop := match y.half with
            | none => l = y.payload
            | some b => l.length = e.bytes ∧ ∀ i < (e.bytes + 15) / 16,
                piece l i = piece y.payload i ∨ piece l i = piece (s.eccBytes (s.halfAddr n e.buffer b + 0x40) e.bytes) i
          (match t.out with
            | .welt q c lanes pos hd l crc :: r => r = s.out ∧ q = n ∧ c = ch ∧ hd = h ∧ sent l
                ∧ lanes = ((s.upLane n ch).toList.filter fun l => !x.isolated.any fun i => i.lane == l && i.chanB == ch)
                ∧ (pos - due).natAbs ≤ (if s.bit (weltCfgRate n) then 25 else 12)
                ∧ crc = (leBytes 4 (crc32 (h ++ l))).map fun b => if 0 < x.injCrc.rd 0 (chN ch) then ~~~ b else b
            | _ => False)
            ∧ up t (weltTxFrames n (chN ch)) ∧ OnlyRegs s (core t) [weltTxFrames n (chN ch)] ∧ others t)
    ∧ (∀ (ch : Bool) (k j : Fin 512) (y : WeltStage), let e := s.pat n (chN ch) k.val
        e.valid = true → e.owner = s.nodeId n → s.nodeId n ≠ 255 → e.typ ≠ 2 → e.mirror = true → s.partner n ch e = some j.val →
          x.stage.find? (fun y => y.chanB != ch && y.entry == j.val) = some y → Gives (exec (.txLatch m ch k) s) fun t => core t = s ∧ others t
            ∧ (t.weltOf n).stage.find? (fun y => y.chanB == ch && y.entry == k.val) = some ⟨ch, k.val, y.payload, y.half⟩)
    ∧ (∀ (ch : Bool) (k : Fin 512), let e := s.pat n (chN ch) k.val
        e.valid = true → e.owner = s.nodeId n → s.nodeId n ≠ 255 → e.typ = 2 → s.isHub n = true → s.usesCh n ch = true → s.hub n ch = hubGuarded →
          (∀ q < 1024, x.prevVerdicts.rd 0 q < 4) → Gives (exec (.weltTx m ch k) s) fun t => up t (weltTxFrames n (chN ch)) ∧ OnlyRegs s (core t) [weltTxFrames n (chN ch)]
            ∧ (match t.out with
              | .welt _ _ _ _ _ l _ :: r => r = s.out ∧ l.length = 136 ∧ (∀ i < 512, verdictIn l i = x.prevVerdicts.rd 0 (2 * i + chN ch))
                  ∧ l.getD 0 0 = BitVec.ofNat 8 (if (s.upLane n ch).isSome then s.get (weltStateHop n) else 0)
                  ∧ l.getD 1 0 = BitVec.ofNat 8 (min x.prevClique.eraseDups.length 255) ∧ l.getD 3 0 = (if x.rejoin = some 1 then 3 else 2)
              | _ => False))
    ∧ (∀ (p : Principal) (v : Word), s.letsIn p (weltPublish n) = true → Gives (exec (.publish p m v) s) fun t =>
        let b := (v.extractLsb' 0 9).toNat
        (∀ j < 512, t.txHalf n j = if j = b then (if v.getLsbD 12 then 1 else 0) else s.txHalf n j) ∧ OnlyRegs s t [weltTxHalf n (b / 32)])
    ∧ (∀ l l' : List Int, l'.Perm l → l'.Pairwise (· ≤ ·) → ftm2 l = if l = [] then 0 else if l.length ≤ 2 then (if l.length = 1 then 2 else 1) * l.sum else
        let k := if l.length < 7 then 1 else 2
        l'.getD k 0 + l'.getD (l.length - 1 - k) 0)
    ∧ (s.cycleOver n = false → exec (.cycleEnd m) s = .next s)
    ∧ (s.cycleOver n = true → Gives (exec (.cycleEnd m) s) fun t =>
        let vals := oneEach x.vals ++ (if x.sentSync then [0] else [])
        let lim : Int := (s.get (weltLimitsCorrMax n) : Int) * 2 ^ 32
        let c := ftm2 vals * 2 ^ 28
        let c := if s.bit (weltCfgAnchor n) = true then c - clipInt (-((s.get (weltAnchorCfgStep n) : Int) * 2 ^ 32)) ((s.get (weltAnchorCfgStep n) : Int) * 2 ^ 32) (s.anchorTerm n) else c
        let c := clipInt (-lim) lim c
        let y := t.weltOf n
        let cyc : Int := (s.cycleNs n : Int) * 2 ^ 32
        others t ∧ t.mem = s.mem ∧ ((s.isHub n = true → x.rejoin.getD 0 = 0) → t.reg (weltCycle n) = s.reg (weltCycle n) + 1
          ∧ y.corr = c ∧ y.len = cyc + c + cyc * y.rateNum / y.rateDen
          ∧ y.rateNum.natAbs * 1000000000 ≤ s.get (weltRateMaxPpb n) * y.rateDen
          ∧ t.bit (weltStateFtmDegraded n) = decide (vals.length = 1 ∨ vals.length = 2)
          ∧ (vals = [] → up t (weltSyncLow n) ∧ irq t 3)
          ∧ (s.node n = nodeIntegrating → t.node n = if x.integ = 0 then nodeIntegrating else if x.vals ≠ [] ∧ x.foreign = false then nodeActive else nodeListen)
          ∧ (s.node n ≠ nodeIntegrating → t.node n = s.node n ∧ y.lossCount = if x.vals = [] ∧ (s.node n = nodeActive ∨ s.node n = nodePassive) then x.lossCount + 1 else 0)
          ∧ y.vals = [] ∧ y.got = [] ∧ y.seen = []
          ∧ y.cycFrc = (((x.cycFrc : Int) + (x.cycSub + x.len) / 2 ^ 34) % 2 ^ 48).toNat ∧ y.cycSub = (x.cycSub + x.len) % 2 ^ 34
          ∧ (let go : Bool := s.bit (patApplyPending n) && decide ((s.reg (patApplyAt n) - (s.reg (weltCycle n) + 1)).toInt ≤ 0)
            ∀ c < 2, ∀ e < 512, ∀ w < 2, t.reg (patActKey n c e w) = s.reg (if go then patEditKey n c e w else patActKey n c e w))
          ∧ (s.isHub n = true → x.rejoin = some 0 → y.rejoin = some 1)))
    ∧ (s.isHub n = true → x.rejoin = some 1 → s.cycleOver n = true → s.node n ≠ nodeIntegrating → Gives (exec (.cycleEnd m) s) fun t => t.node n = nodeListen ∧ (t.weltOf n).isolated = []
        ∧ ∀ ch : Bool, s.hub n ch ≠ hubOff → t.hub n ch = hubUnsynced)
    ∧ (s.node n = nodeListen → s.isHub n = false → s.bit (weltCfgCsCapable n) = true → s.get (weltTimersListenTo n) ≤ x.quiet →
        let anchored := s.bit (weltCfgAnchor n)
        let h := s.htbOf 2
        let v : Int := (h.v.toNat : Int) - (s.get (weltAnchorCfgOfs n) : Int) * 2 ^ 32
        let cyc : Int := (s.cycleNs n : Int) * 2 ^ 32
        if anchored = true ∧ v / cyc = (v - (h.v - h.prev).toInt) / cyc then exec (.listenTimeout m) s = .next s
        else Gives (exec (.listenTimeout m) s) fun t =>
        t.node n = nodeColdstart ∧ t.bit (weltStateAlone n) = true ∧ irq t 1 ∧ others t ∧ t.reg (weltCycle n) = (if anchored then BitVec.ofInt 32 (v / cyc) else 0)
          ∧ OnlyRegs s (core t) [weltState n, weltCycle n, hdrIrqRaw pg])
    ∧ ((s.node n = nodeActive ∨ s.node n = nodePassive) → s.get (weltTimersSyncLossMax n) ≤ x.lossCount → Gives (exec (.syncLoss m none) s) fun t =>
        t.node n = nodeListen ∧ irq t 1 ∧ others t ∧ (∀ b < 512, t.bufAge n b = 255) ∧ (s.isHub n = true → ∀ ch : Bool, s.hub n ch = hubGuarded → t.hub n ch = hubUnsynced)
          ∧ t.mem = s.mem ∧ BlocksKept s t [pgFlt] (weltState n :: hdrIrqRaw pg :: ages))
    ∧ (∀ ch : Bool, s.usesCh n false = true → s.usesCh n true = true → s.get (weltTimersSyncLossMax n) ≤ x.chanLoss.rd 0 (chN ch) → ch ∉ x.lostChan → Gives (exec (.syncLoss m (some ch)) s) fun t =>
        t.weltOf n = { x with lostChan := ch :: x.lostChan } ∧ others t ∧ ((t.get fltDegradedBits).testBit 5 = true) ∧ t.mem = s.mem ∧ BlocksKept s t [pgFlt] [])
    ∧ (s.node n = nodePassive → s.get (weltTimersPassiveHold n) ≤ x.passCount → Gives (exec (.passiveHoldEnd m) s) fun t =>
        t.node n = nodeActive ∧ t.reg (weltEdgeCnt n) = 0 ∧ irq t 1 ∧ others t ∧ OnlyRegs s (core t) [weltEdgeCnt n, weltState n, hdrIrqRaw pg])
    ∧ (∀ ch : Bool, s.hub n ch = hubCsLock → s.get (weltTimersCsHold n) ≤ x.csQuiet.rd 0 (chN ch) → Gives (exec (.csHoldExpiry m ch) s) fun t =>
        t.hub n ch = hubUnsynced ∧ irq t 2 ∧ t.welt = s.welt ∧ OnlyRegs s t [weltState n, hdrIrqRaw pg])
    ∧ (∀ l : PortIx, s.isHub n = true → (∀ i ∈ x.isolated, i.lane ≠ l.val) → Gives (exec (.laneRealign m l) s) fun t =>
        let hit (ch : Bool) : Bool := s.hub n ch == hubGuarded && (s.upLane n ch == some l.val || (s.downLanes n ch).contains l.val)
        (∀ ch : Bool, hit ch = true ↔ ⟨l.val, ch, 0, false⟩ ∈ (t.weltOf n).isolated) ∧ (∀ i ∈ x.isolated, i ∈ (t.weltOf n).isolated)
          ∧ (hit false = true ∨ hit true = true → t.bit (weltStateIsolating n) = true) ∧ others t ∧ OnlyRegs s (core t) [weltState n])

/-- A step of a running engine takes arc 2 in1 + in0 of its latched row, or its one-shot arc, sets the outputs, counts
STEPS, performs its action as the command of that action does (ACT of 12 to 15 does none and sets BAD_ARC), and unless
it stalls enters NEXT or the fall-through state and loads that row; a wrap takes a staged circuit over; a stalled SOUT
leaves its output bit. In a stall only STALLS counts, in a WAIT its count falls. SIN shifts bits in and completes a
word at RX_LEN, FLUSH at once, LOAD and SOUT take the next word and send a bit, stalling where RXH is full or no word
is ready; DEC0, DEC1, SET0, SET1 change the counters, WAIT waits, IRQ raises bit 4 + ARG[1:0], STAMP enters the FRC
stamp. WAIT_END and STALL_END end what can end. RXH_DELIVER, TXH_FILL and EVENT_LATCH move one word or latch one event
that is on its way. CIRCUIT is staged after the first step; ROW_COMMIT copies the staged row; ONCE places an arc, a
second is ONCE_BUSY; RUN, START and BOOT_SYNC start and realign engines. Nothing else changes. (The action rows as
commands of their own, and the Y cycle of an engine that does not step, which remembers its outputs: model's choices,
assumption rows 101 and 214.) (Rests on the model's own readings and choices in assumption rows 102, 103, 104, 105,
106, 107, 109, 110 and 214.) -/
def Obligations.EyeletStepsActionsAndStarts : Prop :=
  ∀ (m : HexIx) (s : State),
    let n := m.val
    let x := s.eyeOf n
    let core (t : State) : State := { t with eye := s.eye }
    let others (t : State) : Prop := ∀ j, j ≠ n → t.eyeOf j = s.eyeOf j
    let cycled (pins : Dword) : State := ({ s with chip := { s.chip with pads := pins } }).setEye n { x with cycles := x.cycles + 1, outWas := BitVec.ofNat 4 (s.eyeOut n) }
    let becomes (o : Out) (y : Eye) : Prop := Gives o fun t => core t = s ∧ others t ∧ t.eyeOf n = y
    let sinned (o : Out) (pins : Dword) (y : Eye) : Prop := Gives o fun t => core t = { s with chip := { s.chip with pads := pins } } ∧ others t ∧ t.eyeOf n = y
    let stalls (o : Out) (y : Eye) (act arg kind : Nat) : Prop := becomes o { y with
      stall := some (BitVec.ofNat 32 (x.state.toNat + 0x400 + act * 0x1000 + arg * 0x10000)), stallAct := kind }
    let msb := s.bit (eyeCfgMsbFirst n)
    let len (v : Nat) : Nat := if v = 0 ∨ 32 < v then 32 else v
    let rxl := len (s.get (eyeCfgRxLen n))
    let txl := len (s.get (eyeCfgTxLen n))
    let right (r : Word) (k : Nat) : Word := if k = 0 then 0 else if msb then BitVec.ofNat 32 (r.toNat % 2 ^ k) else r >>> (32 - k)
    let sent (y : Eye) (b : Nat) : Eye :=
      let v := y.txs.getLsbD (if msb then txl - 1 else 0)
      { y with
        txs := if msb then y.txs <<< 1 else y.txs >>> 1, txn := y.txn + 1
        out := if v then y.out ||| BitVec.ofNat 4 (2 ^ b) else y.out &&& ~~~BitVec.ofNat 4 (2 ^ b) }
    let enters (u t : State) (arc : Word) : Prop :=
      let a := u.eyeOf n
      let wrap : Bool := arc.getLsbD 5 && decide (a.state.toNat = u.get (eyeCircuitLast n))
      let y := t.eyeOf n
      y = { a with state := y.state, row := y.row, stall := none, stallAct := 0, waitLeft := 0, wordReady := none, stampHeld := none, staged := y.staged }
        ∧ y.row = t.reg (eyeRowSel n y.state.toNat) :: (List.range 4).map (fun i => t.reg (eyeRowArc n y.state.toNat i))
        ∧ (wrap = false → y.staged = a.staged ∧ y.state = (if arc.getLsbD 5 then a.state + 1 else arc.extractLsb' 0 5) ∧ t.regs = u.regs)
        ∧ (wrap = true → y.staged = none ∧ (match a.staged with
            | none => y.state.toNat = u.get (eyeCircuitFirst n) ∧ t.regs = u.regs
            | some z => y.state = z.1 ∧ t.get (eyeCircuitFirst n) = z.1.toNat ∧ t.get (eyeCircuitLast n) = z.2.toNat ∧ t.bit (eyeCircuitPending n) = false))
        ∧ OnlyRegs u { t with eye := u.eye } [eyeCircuit n] ∧ ∀ j, j ≠ n → t.eyeOf j = u.eyeOf j
    (∀ pins : Dword, s.eyeRuns n = false → exec (.eyeletStep m pins) s = .next (cycled pins))
    ∧ (s.eyeRuns n = true → x.jtagHalt = false →
      (x.stall = none →
        (∀ pins : Dword, Gives (exec (.eyeletStep m pins) s) fun t =>
          let q := cycled pins
          let sel := x.row.headD 0
          let c (i : Nat) : Nat := (sel.extractLsb' (8 * i) 8).toNat
          let i (k : Nat) : Bool := q.eyeInput n pins (c k)
          let arc := x.once.getD (x.row.getD (1 + (if i 1 then 2 else 0) + if i 0 then 1 else 0) 0)
          let used : Half := (List.range 2).foldl (fun l k => if i k = true ∧ 0x88 ≤ c k ∧ c k < 0x98 then l ||| BitVec.ofNat 16 (2 ^ (c k - 0x88)) else l) 0
          let u0 : State := if x.once.isSome then { q with free := q.free + 1 } else q
          let in0 : Bool := if x.once.isSome then (Config.free 4 q.free).getLsbD 0 else i 0
          let u := (u0.setEye n { q.eyeOf n with
            once := none, stepped := true, latches := if x.once.isSome then x.latches else x.latches &&& ~~~used
            out := if arc.getLsbD 10 then x.out else arc.extractLsb' 6 4 }).count (eyeSteps n)
          let act := (arc.extractLsb' 12 4).toNat
          let arg : Byte := arc.extractLsb' 16 8
          let bit : BitVec 4 := BitVec.ofNat 4 (2 ^ (arg.toNat % 4))
          match ([.none m, .sin m arg in0 pins, .sout m arg, .flush m, .load m, .dec0 m, .dec1 m, .set0 m, .set1 m, .wait m arg, .irq m arg, .stamp m arg] : List Instr)[act]? with
          | some a => Gives (exec a u) fun v =>
              let y := v.eyeOf n
              if y.stall = none then enters v t arc
              else t = v.setEye n { y with stall := some arc, out := if act = 2 then (y.out &&& ~~~bit) ||| (x.out &&& bit) else y.out }
          | none => enters (u.setReg (hdrErrCause (pgEye n)) (u.reg (hdrErrCause (pgEye n)) ||| 0x400)) t arc)
        ∧ exec (.none m) s = .next s
        ∧ (∀ (arg : Byte) (in0 : Bool) (pins : Dword),
            let w := if arg = 0 then 1 else min arg.toNat 16
            let pin (p : Nat) : Bool := decide (p < 64) && (pins.getLsbD p != s.bit (eyepPinInInv p))
            let v := if arg = 0 then (if in0 then 1 else 0) else ((List.range w).map fun i => if pin (s.get (eyeInBasePin n) + i) then 2 ^ i else 0).sum
            let r := if msb then (x.rxs <<< w) ||| BitVec.ofNat 32 v else (x.rxs >>> w) ||| (BitVec.ofNat 32 v <<< (32 - w))
            let y := { x with rxs := r, rxn := x.rxn + w }
            if x.rxn + w < rxl then sinned (exec (.sin m arg in0 pins) s) pins y
            else if x.rxh = none then sinned (exec (.sin m arg in0 pins) s) pins { x with rxh := some (right r rxl), rxs := 0, rxn := 0 }
            else sinned (exec (.sin m arg in0 pins) s) pins { y with
              wordReady := some (right r rxl), stallAct := 1, stall := some (BitVec.ofNat 32 (x.state.toNat + 0x1400 + arg.toNat * 0x10000)) })
        ∧ (if x.rxh = none then becomes (exec (.flush m) s) { x with rxh := some (right x.rxs x.rxn), rxs := 0, rxn := 0 }
          else stalls (exec (.flush m) s) { x with wordReady := some (right x.rxs x.rxn) } 3 0 1)
        ∧ (match x.txh with
          | some w => becomes (exec (.load m) s) { x with txs := w, txn := 0, txEmpty := false, txh := none }
          | none => stalls (exec (.load m) s) x 4 0 2)
        ∧ (∀ arg : Byte, let b := arg.toNat % 4
            if x.txEmpty = false ∧ x.txn ≠ txl then becomes (exec (.sout m arg) s) (sent x b)
            else match x.txh with
              | some w => becomes (exec (.sout m arg) s) (sent { x with txs := w, txn := 0, txEmpty := false, txh := none } b)
              | none => stalls (exec (.sout m arg) s) x 2 arg.toNat 2)
        ∧ becomes (exec (.dec0 m) s) { x with cnt0 := x.cnt0 - 1 } ∧ becomes (exec (.dec1 m) s) { x with cnt1 := x.cnt1 - 1 }
        ∧ becomes (exec (.set0 m) s) { x with cnt0 := BitVec.ofNat 16 (s.get (eyeCountInitCnt0Init n)) }
        ∧ becomes (exec (.set1 m) s) { x with cnt1 := BitVec.ofNat 16 (s.get (eyeCountInitCnt1Init n)) }
        ∧ (∀ arg : Byte, if arg = 0 then becomes (exec (.wait m arg) s) { x with waitLeft := 0 }
            else stalls (exec (.wait m arg) s) { x with waitLeft := arg.toNat } 9 arg.toNat 3)
        ∧ (∀ arg : Byte, Gives (exec (.irq m arg) s) fun t => TriggersOnly s t ∧ (t.reg (hdrIrqRaw (pgEye n))).getLsbD (4 + arg.toNat % 4) = true
            ∧ (if arg.getLsbD 2 = true ∧ s.bit (eyeIrqDbEn n) = true then
                (t.reg (laceDb (s.get (eyeIrqDbDb n)))).getLsbD (s.get (eyeIrqDbBit n)) = true
                  ∧ OnlyRegs s { t with wcap := s.wcap, shank := s.shank, eye := s.eye } [hdrIrqRaw (pgEye n), laceDb (s.get (eyeIrqDbDb n))]
              else OnlyRegs s { t with shank := s.shank, eye := s.eye } [hdrIrqRaw (pgEye n)]))
        ∧ (∀ arg : Byte, let st := s.nowStamp
            if arg.getLsbD 0 = true then
              (if x.rxh = none ∧ x.fin.length ≤ 14 then
                becomes (exec (.stamp m arg) s) { x with fin := x.fin ++ [st.setWidth 32, (st >>> 32).setWidth 32] }
              else stalls (exec (.stamp m arg) s) { x with stampHeld := some st } 11 arg.toNat 4)
            else if x.stamps.length < 4 then becomes (exec (.stamp m arg) s) { x with stamps := x.stamps ++ [st] }
            else Gives (exec (.stamp m arg) s) fun t => t.bit (eyeStampStatOvf n) = true ∧ (t.reg (hdrIrqRaw (pgEye n))).getLsbD 1 = true ∧ t.eye = s.eye
              ∧ OnlyRegs s t [eyeStampStat n, hdrIrqRaw (pgEye n)]))
      ∧ (∀ (arc : Word) (pins : Dword), x.stall = some arc →
          Gives (exec (.eyeletStep m pins) s) fun t =>
            if x.stallAct = 3 then t = (cycled pins).setEye n { (cycled pins).eyeOf n with waitLeft := x.waitLeft - 1 }
            else t.eye = (cycled pins).eye ∧ t.chip = (cycled pins).chip ∧ t.rn (eyeSteps n) = s.rn (eyeSteps n) ∧ t.rn (eyeStalls n) = min 0xFFFFFFFF (s.rn (eyeStalls n) + 1)
              ∧ OnlyRegs s { core t with chip := s.chip } [eyeStalls n])
      ∧ (∀ arc : Word, x.stall = some arc → x.stallAct = 3 → x.waitLeft = 0 → Gives (exec (.waitEnd m) s) fun t => enters s t arc)
      ∧ (∀ (arc w : Word), x.stall = some arc → x.stallAct = 1 → x.rxh = none → x.wordReady = some w →
          Gives (exec (.stallEnd m) s) fun t => enters (s.setEye n { x with rxh := some w, rxs := 0, rxn := 0 }) t arc)
      ∧ (∀ (arc w : Word), x.stall = some arc → x.stallAct = 2 → x.txh = some w → Gives (exec (.stallEnd m) s) fun t =>
          let y := { x with txs := w, txn := 0, txEmpty := false, txh := none }
          enters (s.setEye n (if arc.extractLsb' 12 4 = 2 then sent y (arc.extractLsb' 16 2).toNat else y)) t arc)
      ∧ (∀ (arc : Word) (st : Stamp), x.stall = some arc → x.stallAct = 4 → x.stampHeld = some st → x.rxh = none → x.fin.length ≤ 14 →
          Gives (exec (.stallEnd m) s) fun t => enters (s.setEye n { x with fin := x.fin ++ [st.setWidth 32, (st >>> 32).setWidth 32] }) t arc))
    ∧ (s.on (pgEye n) = true →
        (∀ w : Word, x.rxh = some w → if x.fin.length < 16 then becomes (exec (.rxhDeliver m) s) { x with fin := x.fin ++ [w], rxh := none } else exec (.rxhDeliver m) s = .next s)
        ∧ (∀ (w : Word) (r : List Word), x.txh = none → x.fout = w :: r → becomes (exec (.txhFill m) s) { x with txh := some w, fout := r })
        ∧ (∀ i : Fin 16,
            let y := { x with arriving := x.arriving.erase i.val }
            if i.val ∉ x.arriving then exec (.eventLatch m i) s = .next s
            else if x.latches.getLsbD i.val = true then Gives (exec (.eventLatch m i) s) fun t =>
              t.rn (eyeEvMerged n) = min 0xFFFFFFFF (s.rn (eyeEvMerged n) + 1) ∧ OnlyRegs s (core t) [eyeEvMerged n] ∧ others t ∧ t.eyeOf n = y
            else becomes (exec (.eventLatch m i) s) { y with latches := x.latches ||| BitVec.ofNat 16 (2 ^ i.val) }))
    ∧ (∀ (p : Principal) (v : Word),
        (s.letsIn p (eyeCircuit n) = true → Gives (exec (.circuitWrite p m v) s) fun t =>
          if s.on (pgEye n) = true ∧ x.stepped = true then
            t.eyeOf n = { x with staged := some (v.extractLsb' 0 5, v.extractLsb' 8 5) } ∧ t.bit (eyeCircuitPending n) = true
              ∧ t.get (eyeCircuitFirst n) = s.get (eyeCircuitFirst n) ∧ t.get (eyeCircuitLast n) = s.get (eyeCircuitLast n) ∧ others t ∧ OnlyRegs s (core t) [eyeCircuit n]
          else t.get (eyeCircuitFirst n) = (v.extractLsb' 0 5).toNat ∧ t.get (eyeCircuitLast n) = (v.extractLsb' 8 5).toNat ∧ OnlyRegs s t [eyeCircuit n])
        ∧ (s.letsIn p (eyeRowCommit n) = true → Gives (exec (.rowCommit p m v) s) fun t =>
          let st := (v.extractLsb' 0 5).toNat
          t.get (eyeRowSelSel n st) = s.rn (eyeRowStage n 0) % 0x10000 ∧ (∀ i < 4, t.reg (eyeRowArc n st i) = s.reg (eyeRowStage n (i + 1)))
            ∧ OnlyRegs s t (eyeRowSel n st :: (List.range 4).map (eyeRowArc n st)))
        ∧ (s.letsIn p (eyeOnce n) = true → Gives (exec (.once p m v) s) fun t =>
          if x.once = none then core t = s ∧ others t ∧ t.eyeOf n = { x with once := some v }
          else (t.reg (hdrErrCause (pgEye n))).getLsbD 9 = true ∧ OnlyRegs s t [hdrErrCause (pgEye n)])
        ∧ (s.letsIn p (eyeCfg n) = true → ∀ o ∈ [exec (.runStop p m v) s, exec (.runResume p m v) s], Gives o fun t =>
          t.eye = s.eye ∧ t.bit (eyeCfgRun n) = v.getLsbD 8 ∧ OnlyRegs s t [eyeCfg n]))
    ∧ (∀ (p : Principal) (mask : Half), s.letsIn p eyepStart = true →
        let named (j : Nat) : Bool := mask.getLsbD j && s.on (pgEye j)
        Gives (exec (.eyepStart p mask) s) (fun t => (∀ j, t.eyeOf j = if j < 16 ∧ named j = true then { s.eyeOf j with waitsBootSync := false } else s.eyeOf j)
            ∧ (∀ j < 16, t.bit (eyeCfgRun j) = (named j || s.bit (eyeCfgRun j))) ∧ OnlyRegs s (core t) (((List.range 16).filter named).map eyeCfg))
        ∧ Gives (exec (.eyepStartRestart p mask) s) (fun t => core t = s ∧ ∃ g, (∀ j < 16, (s.eyeOf j).group < g)
            ∧ ∀ j < 16, t.eyeOf j = if named j then { s.eyeOf j with group := g, waitsBootSync := false } else s.eyeOf j))
    ∧ (let all := (List.range 16).filter fun j => (s.get eyepBootSyncMask).testBit j && s.bit (hdrCtrlEn (pgEye j))
      x.waitsBootSync = true → (∀ j ∈ all, s.on (pgEye j) = true ∨ s.st (pgEye j) = stFault) → Gives (exec .bootSyncStart s) fun t => core t = s ∧
        ∃ g, (∀ j < 16, (s.eyeOf j).group < g)
          ∧ ∀ j < 16, t.eyeOf j = if j ∈ all ∧ s.on (pgEye j) = true then { s.eyeOf j with group := g, waitsBootSync := false } else s.eyeOf j)

/-- SAMPLE_FIRING takes the sample unit's oldest firing or disarming not yet seen. The first firing of the periodic
unit on HTBA starts capture and latches T0 and P; each later one raises the count, every enabled channel owing one
sample more, the oldest filled beyond LAG_MAX. A LATE or displaced firing, or a disarming, ends capture: FAULT,
TIMELINE, the open record TRUNCATED. A word with none owed counts in EXTRA; otherwise it is the channel's next sample;
a crossing of THRESH at received samples outside the hold-off raises FRONT and queues the report of Table 14-1, dated
by R462; with every enabled channel's sample there the frame is written to its slot, channel by channel. A trigger,
the crossing on a TRIG_MASK channel among them, opens the next record of the ring with FIRST, LEN of R464, or adds to
the open one; a HELD entry is lost or bars it as FULL says; with its last frame a record turns from OPEN to HELD with
IRQ bit 2. A frame that would overwrite a held record takes it, LOST, or with FULL or during its export is dropped
with PAUSED. REPORT_POST posts the oldest report to each enabled destination that has room and keeps it for the
others. RELEASE releases held records. EXPORT checks HELD, ownership and range; EXPORT_DONE has copied the frames in
order. Nothing else of memory changes. (Rests on the model's own readings and choices in assumption rows 111, 112,
114, 115, 116, 117, 118 and 215.) -/
def Obligations.WaveCaptureDetectsRecordsAndExports : Prop :=
  ∀ s : State,
    let core (t : State) : State := { t with wcap := s.wcap }
    let up (t : State) (k : Nat) : Prop := t.rn k = min 0xFFFFFFFF (s.rn k + 1)
    let irq (t : State) (i : Nat) : Prop := (t.reg (hdrIrqRaw pgWcap)).getLsbD i = true
    let w := s.wcap
    let unit := s.get wcapCfgEv
    let width := 2 ^ s.get wcapCfgWidth
    let en (c : Nat) : Bool := s.bit (wcapChCfgEn c) && decide (c < width) && !w.refused.contains c
    let lag := max 1 (s.get wcapCfgLagMax)
    let nf := w.banks.length * 524288 / (2 * width)
    let slot (n : Nat) : Nat :=
      let q := n % max 1 nf * (2 * width)
      0x10000000 + w.banks.getD (q / 524288) 0 * 0x80000 + q % 524288
    let holds (z : WRec) (n : Nat) : Prop := z.held = true ∧ z.first ≤ n ∧ n < z.first + z.len
    let counts (t : State) : Prop := t.wcap.firings = w.firings + 1 ∧ ∀ c < 8,
      let x := s.wchanOf c
      let y := t.wchanOf c
      if en c = false then y = x
      else if x.outstanding < lag then y = { x with outstanding := x.outstanding + 1 }
      else y.outstanding = x.outstanding ∧ y.next = x.next + 1 ∧ y.recent.head? = some ⟨x.prevVal, false⟩ ∧ y.prevVal = x.prevVal ∧ t.bit (wcapChStatGap c) = true
        ∧ t.get (wcapChSlipsGaps c) = min 0xFFFF (s.get (wcapChSlipsGaps c) + 1)
    let broken (t : State) : Prop := t.wcap.capturing = false ∧ t.bit wcapStatCapturing = false ∧ t.st pgWcap = stFault
      ∧ (t.reg (hdrErrCause pgWcap)).getLsbD 10 = true ∧ t.mem = s.mem ∧ t.wcap.chan = w.chan ∧ BlocksKept s t [pgWcap, pgFlt] []
      ∧ (∀ (r : Nat) (x : WRec), s.openRec = some (r, x) → ∃ y, t.recOf r = some y ∧ y.held = true ∧ y.truncated = true ∧ y.isOpen = false ∧ y.first = x.first
          ∧ y.len = min x.len (w.nextFrame - x.first))
    let opens (t : State) (nt src c : Nat) (arr : Int) : Prop :=
      let half := nf / 2
      let p := s.get wcapPreFrames
      let q := s.get wcapPostFrames
      let pre := if half < p + q then min p half else p
      let post := if half < p + q then half - min p half else q
      match s.openRec with
      | some (r, x) =>
        let l := if s.bit wcapCfgExtend then min (nt + x.post - x.first) (nf / 2) else x.len
        (w.nextFrame < x.first + l → t.recOf r = some (s.recFlags { x with triggers := min (x.triggers + 1) 0xFFFF, len := l }) ∧ t.get (wcapRecInfoTriggers r) = min (x.triggers + 1) 0xFFFF)
          ∧ t.wcap.nextRec = w.nextRec
      | none =>
        let r := w.nextRec
        let first := max (nt - pre) (w.nextFrame + 1 - nf)
        let y : WRec := {
          first := first, trig := nt, len := nt + post - first, arrival := BitVec.ofInt 64 arr, src := src, chan := c, isOpen := true, held := false, truncated := false
          gap := false, pausedIn := false, lost := false, triggers := 0, post := post }
        let held : Bool := (s.recOf r).any fun x => x.held
        if held = true ∧ (s.bit wcapCfgFull = true ∨ s.exporting r = true) then up t wcapTrigLost ∧ irq t 4 ∧ t.wcap.nextRec = r ∧ t.wcap.recs = w.recs
        else t.wcap.nextRec = (r + 1) % 64 ∧ (held = true → up t wcapRecLost ∧ irq t 4)
          ∧ (w.nextFrame < nt + post → first ≤ nt + post → t.recOf r = some (s.recFlags y) ∧ t.rn (wcapRecFirstLo r) = first % 2 ^ 32 ∧ t.get (wcapRecLenFrames r) = (nt + post - first) % 2 ^ 26
              ∧ t.bit (wcapRecInfoOpen r) = true ∧ t.get (wcapRecInfoSrc r) = src % 4)
    (w.trigPend = false → s.on pgWcap = true →
      ((w.due = [] → ∀ d : Bool, exec (.sampleFiring d) s = .next s)
        ∧ (∀ (tgt : BitVec 72) (late : Bool) (l : List (Option (BitVec 72 × Bool))), w.due = some (tgt, late) :: l →
          exec (.sampleFiring true) s = .next s
          ∧ (w.capturing = false → s.evMode unit = 2 → s.evHtb unit = 2 → Gives (exec (.sampleFiring false) s) fun t =>
            let t0 := (((s.htbOf 2).v.toNat : Int) - evDiff (s.htbOf 2).v tgt).toNat
            let p := max (s.rn (evtEvPeriodNs unit) * 2 ^ 32 + s.rn (evtEvPeriodFrac unit)) (8 * 2 ^ 32)
            t.wcap.due = l ∧ t.wcap.t0 = t0 ∧ t.wcap.period = p ∧ t.rn wcapT0NsLo = t0 / 2 ^ 32 % 2 ^ 32 ∧ t.rn wcapT0NsHi = t0 / 2 ^ 64 % 2 ^ 32
              ∧ t.rn wcapT0Frac = t0 % 2 ^ 32 ∧ t.rn wcapPeriodNs = p / 2 ^ 32 % 2 ^ 32 ∧ t.rn wcapPeriodFrac = p % 2 ^ 32
              ∧ (if late = true then broken t else t.wcap.capturing = true ∧ t.bit wcapStatCapturing = true ∧ counts t))
          ∧ (w.capturing = true → Gives (exec (.sampleFiring false) s) fun t => t.wcap.due = l
              ∧ if late = true ∨ tgt ≠ BitVec.ofNat 72 (w.t0 + w.firings * w.period) then broken t else counts t ∧ t.wcap.capturing = true))
        ∧ (∀ l : List (Option (BitVec 72 × Bool)), w.due = none :: l → exec (.sampleFiring false) s = .next s
          ∧ Gives (exec (.sampleFiring true) s) fun t => t.wcap.due = l ∧ if w.capturing = true then broken t else { t with wcap := w } = s))
      ∧ (∀ (m : OctIx) (v : Word) (r : List Word), en m.val = true →
          let c := m.val
          let e := s.get (wcapChCfgSrc c)
          let x := s.wchanOf c
          let smp : Half := v.setWidth 16 ^^^ if s.bit (wcapChCfgOffsetBin c) then 0x8000 else 0
          s.bit (eyeSinkWcap e) = true → (s.eyeOf e).fin = v :: r → Gives (exec (.wcapWord m) s) fun t =>
            let core (t : State) : State := { t with wcap := s.wcap, eye := s.eye }
            t.eyeOf e = { s.eyeOf e with fin := r } ∧ (∀ j, j ≠ e → t.eyeOf j = s.eyeOf j)
              ∧ (w.capturing = false ∨ x.outstanding = 0 → t.wcap = w ∧ t.get (wcapChSlipsExtra c) = min 0xFFFF (s.get (wcapChSlipsExtra c) + 1) ∧ OnlyRegs s (core t) [wcapChSlips c])
              ∧ (w.capturing = true → x.outstanding ≠ 0 →
                  let k := min (max (s.get (wcapChKK c)) 1) 16
                  let old (j : Nat) : Option Sample := if j = 0 then some ⟨smp, true⟩ else x.recent[j - 1]?
                  let d (j : Nat) : Option Int := match old j, old (j + k) with
                    | some a, some b => if a.received = true ∧ b.received = true then some (a.v.toInt - b.v.toInt) else none
                    | _, _ => none
                  let th := s.get (wcapChThreshThresh c)
                  let clear : Bool := x.lastFire.all fun m => decide (m + s.get (wcapChHoldoffIndices c) < x.next)
                  let fires : Bool := s.bit (wcapChCfgDetEn c) && clear && (d 0).any (fun a => decide (th < a.natAbs)) && (d 1).any fun b => decide (b.natAbs ≤ th)
                  let y := t.wchanOf c
                  y.outstanding = x.outstanding - 1 ∧ y.next = x.next + 1 ∧ y.prevVal = smp ∧ y.recent.head? = some ⟨smp, true⟩
                    ∧ (∀ j < 8, j ≠ c → t.wchanOf j = s.wchanOf j) ∧ BlocksKept s t [pgWcap, pgFlt, pgBank] []
                    ∧ (fires = false → t.wcap.reports = w.reports ∧ y.lastFire = x.lastFire)
                    ∧ (fires = true →
                        let phi := 4096 * (th - ((d 1).getD 0).natAbs) / (((d 0).getD 0).natAbs - ((d 1).getD 0).natAbs)
                        let den : Int := 2 ^ 32 * 4096 * 1000
                        let num : Int := ((w.t0 : Int) + ((x.next - 1 : Nat) : Int) * w.period) * 4096000 + (phi : Int) * w.period * 1000 + (s.reg (wcapChDelay c)).toInt * 2 ^ 32 * 4096
                        let ns := (2 * num + den) / (2 * den)
                        y.lastFire = some x.next ∧ t.bit (wcapChStatFired c) = true ∧ up t (wcapChFronts c) ∧ irq t 1
                          ∧ ((s.get wcapCfgTrigMask).testBit c = false → w.reports.length < 16 → t.wcap.reports = w.reports ++ [[
                              BitVec.ofNat 32 (c + (if ((d 0).getD 0) < 0 then 8 else 0) + match s.openRec with
                                | some (r, z) => r * 256 + if z.first ≤ x.next ∧ x.next < z.first + z.len then 0 else 0x4000
                                | none => 0x4000),
                              BitVec.ofNat 32 x.next, BitVec.ofNat 32 (x.next / 2 ^ 32), BitVec.ofInt 32 ns, BitVec.ofInt 32 (ns / 2 ^ 32), BitVec.ofNat 32 phi,
                              BitVec.ofInt 32 ((d 1).getD 0), BitVec.ofInt 32 ((d 0).getD 0)]])
                          ∧ (w.reports.length = 16 → up t wcapReportLost ∧ t.wcap.reports = w.reports)
                          ∧ ((s.get wcapCfgTrigMask).testBit c = true → (∃ j ∈ List.range 8, en j = true ∧ j ≠ c ∧ (s.wchanOf j).next ≤ w.nextFrame) →
                              opens t x.next 0 c ns))
                    ∧ (fires = false → x.next = w.nextFrame → (∀ j < 8, en j = true → j ≠ c → w.nextFrame + 1 = (s.wchanOf j).next) →
                        (∀ (r : Nat) (z : WRec), s.openRec = some (r, z) → w.nextFrame + 1 = z.first + z.len → ∃ y, t.recOf r = some y ∧ y.held = true ∧ y.isOpen = false
                            ∧ y.truncated = z.truncated ∧ y.first = z.first ∧ y.len = z.len ∧ t.bit (wcapRecInfoHeld r) = true ∧ t.bit (wcapRecInfoOpen r) = false ∧ irq t 2)
                        ∧ (∀ (r : Nat) (z : WRec), nf ≤ w.nextFrame → 0 < nf → w.dropped = [] → s.recOf r = some z → holds z (w.nextFrame - nf) → r < 64 →
                            (∀ i < 64, i ≠ r → ∀ o ∈ s.recOf i, ¬holds o (w.nextFrame - nf)) → s.openRec = none →
                            t.wcap.nextFrame = w.nextFrame + 1 ∧ irq t 4
                            ∧ if s.bit wcapCfgFull = true ∨ s.exporting r = true then
                                t.mem = s.mem ∧ up t wcapDropped ∧ t.bit wcapStatPaused = true ∧ t.recOf r = some z
                                  ∧ (s.bit wcapStatPaused = false → irq t 5)
                              else t.recOf r = some { z with held := false, lost := true } ∧ up t wcapRecLost ∧ t.reg wcapDropped = s.reg wcapDropped
                                ∧ t.bit wcapStatPaused = false ∧ (s.bank.ecc = [] → MemKeptBut s t (slot w.nextFrame) (2 * width))))
                    ∧ (x.next = w.nextFrame → (∀ j < 8, en j = true → j ≠ c → w.nextFrame < (s.wchanOf j).next) → w.nextFrame < nf → s.bank.ecc = [] →
                        let vals : List Half := (List.range width).map fun j =>
                          (((w.pending ++ [(x.next, c, smp, false)]).find? fun z => z.1 == w.nextFrame && z.2.1 == j).map fun z => z.2.2.1).getD 0
                        t.wcap.nextFrame = w.nextFrame + 1 ∧ t.bytes (slot w.nextFrame) (2 * width) = vals.flatMap (fun (v : Half) => leBytes 2 v.toNat)
                          ∧ MemKeptBut s t (slot w.nextFrame) (2 * width))
                    ∧ ((∃ j ∈ List.range 8, en j = true ∧ (t.wchanOf j).next ≤ w.nextFrame) → t.mem = s.mem)))
      ∧ (∀ (p : Principal) (v : Word), s.letsIn p wcapTrig = true → Gives (exec (.trigSw p v) s) fun t =>
          t.get wcapTrigDb = (v.extractLsb' 8 6).toNat ∧ t.mem = s.mem ∧ BlocksKept s t [pgWcap] []
            ∧ (v.getLsbD 0 = true ∧ w.capturing = true → opens t w.nextFrame 1 0 (s.wTime 0 w.nextFrame 0))
            ∧ (v.getLsbD 0 = false ∨ w.capturing = false → OnlyRegs s t [wcapTrig])))
    ∧ (∀ (disarmed : Bool) (c : OctIx), w.trigPend = true →
        exec (.sampleFiring disarmed) s = exec (.sampleFiring disarmed) s.wDoorbell ∧ exec (.wcapWord c) s = exec (.wcapWord c) s.wDoorbell
          ∧ s.wDoorbell.wcap.trigPend = false ∧ (w.capturing = true → opens s.wDoorbell w.nextFrame 2 0 (s.wTime 0 w.nextFrame 0)))
    ∧ (∀ (l : List Word) (r : List (List Word)), w.reports = l :: r → l.length = 8 →
        let waits := w.reportLeft.getD s.wDests
        let room (x : Nat × Nat) : Prop := s.on pgLace = true ∧ s.laceQ x.1 x.2 = []
        (waits.map fun x => 2 * x.1 + x.2).Nodup →
        Gives (exec .reportPost s) fun t => t.mem = s.mem ∧ BlocksKept s t [pgLace] []
          ∧ (let left := waits.filter fun x => !decide (room x)
            t.wcap = if left = [] then { w with reports := r, reportLeft := none } else { w with reportLeft := some left })
          ∧ ∀ x ∈ waits, if room x then (t.laceQ x.1 x.2).map (fun y => y.word) = l
              ∧ (t.laceQ x.1 x.2).map (fun y => y.last) = [false, false, false, false, false, false, false, true]
            else t.laceQ x.1 x.2 = s.laceQ x.1 x.2)
    ∧ (w.reports = [] → exec .reportPost s = .next s)
    ∧ (∀ (p : Principal) (v : Word), w.trigPend = false →
        (s.letsIn p wcapRelease = true → Gives (exec (.release p v) s) fun t => t.mem = s.mem ∧ { t.wcap with recs := w.recs } = w
          ∧ (∀ r < 64, t.recOf r = match s.recOf r with
            | some x => some (if (v.getLsbD 8 = true ∨ r = (v.extractLsb' 0 6).toNat) ∧ x.held = true ∧ s.exporting r = false then { x with held := false } else x)
            | none => none)
          ∧ BlocksKept s t [pgWcap] [])
        ∧ (s.letsIn p wcapExportCtrl = true → v.getLsbD 0 = true → s.bit wcapExportCtrlBusy = false → (s.on pgWcap = true ∨ s.st pgWcap = stFault ∨ s.st pgWcap = stOff) →
            (∀ b ∈ w.banks, s.ownerOf b = 0x21) → Gives (exec (.exportRec p v) s) fun t =>
            let r := s.get wcapExportRecRecord
            let a := s.rn wcapExportDest / 16 * 16
            let n := ((s.recOf r).map fun x => x.len * (2 * width)).getD 0
            let mine : Bool := (List.range 192).all fun b => !(decide (0 < n ∧ a < 0x10000000 + (b + 1) * 0x80000 ∧ 0x10000000 + b * 0x80000 < a + n) && isBank a) || s.ownerOf b == pCode p
            t.mem = s.mem ∧ (if (s.recOf r).any (fun x => x.held) = false then t.get wcapExportCtrlResult = 1 ∧ OnlyRegs s t [wcapExportCtrl]
              else if mine = false then t.get wcapExportCtrlResult = 2 ∧ OnlyRegs s t [wcapExportCtrl]
              else if isBank a = false ∨ 0x16000000 < a + n then t.get wcapExportCtrlResult = 3 ∧ OnlyRegs s t [wcapExportCtrl]
              else t.wcap = { w with exporting := some (r, a) } ∧ t.bit wcapExportCtrlBusy = true ∧ t.bit wcapStatExportBusy = true ∧ OnlyRegs s (core t) [wcapExportCtrl, wcapStat]))
        ∧ (s.letsIn p wcapExportCtrl = true → v.getLsbD 0 = true → s.bit wcapExportCtrlBusy = true → Gives (exec (.exportRec p v) s) fun t =>
            (t.reg (hdrErrCause pgWcap)).getLsbD 11 = true ∧ OnlyRegs s t [hdrErrCause pgWcap]))
    ∧ (∀ (r a : Nat) (x : WRec), w.exporting = some (r, a) → s.recOf r = some x → s.bank.ecc = [] → (∀ i < x.len, slot (x.first + i) + 2 * width ≤ a ∨ a + x.len * (2 * width) ≤ slot (x.first + i)) →
        Gives (exec .exportDone s) fun t => (∀ i < x.len, t.bytes (a + i * (2 * width)) (2 * width) = s.bytes (slot (x.first + i)) (2 * width)) ∧ MemKeptBut s t a (x.len * (2 * width))
          ∧ t.get wcapExportCtrlResult = 0 ∧ t.bit wcapExportCtrlBusy = false ∧ irq t 3 ∧ t.wcap = { w with exporting := none }
          ∧ OnlyRegs s { t with wcap := s.wcap, mem := s.mem, bank := { t.bank with portA := s.bank.portA } } [wcapExportCtrl, wcapStat, hdrIrqRaw pgWcap])

/-- HANDOVER to a principal becomes pending; to a block or to NONE it is done at once; to the owner it cancels. ACCEPT
completes what is pending to the writer, or claims an unowned bank. The first refusal of Table 15-5 that applies is
the RESULT, with ERR_CAUSE bit 8, the bank standing. Under SCRUB_HO the owner is NONE until SCRUB_HO_DONE, which
zeroes the bank and installs the owner. SCRUB reads the next word of an awake bank, a correctable granule awaiting
CE_WRITEBACK, which leaves what every read returns. BANK_ACCESS takes the first error of UNMAPPED, NOT_OWNER,
BANK_ASLEEP, ECC; a read returns corrected bytes, a write changes exactly its bytes, but for the words, if any, that a
port A write of the same E cycle took: there the data is lost, counted in COLLIDES and logged. A retention request
sleeps an unlocked bank; withdrawn, it wakes. TX and TXLAST append a word with LAST and epoch, or set WAIT and
LACE_FULL; RX takes the head and loads RXINFO; MUTUAL_WAIT is reported once. DB_SET sets bits; DB_CLEAR clears them
for the target and SUP, else DB_NOT_TARGET. No other bank, direction, doorbell or byte changes. (Rests on the model's
own readings and choices in assumption rows 119, 120, 121, 122, 124, 125, 126 and 215.) -/
def Obligations.BanksChangeHandsAndLaceCarriesWords : Prop :=
  ∀ s : State,
    let irq (t : State) (pg i : Nat) : Prop := (t.reg (hdrIrqRaw pg)).getLsbD i = true
    let up (t : State) (k : Nat) : Prop := t.rn k = min 0xFFFFFFFF (s.rn k + 1)
    let base (n : Nat) : Nat := 0x10000000 + n * 0x80000
    let allowed (n c : Nat) : Bool :=
      ([(0x20, 0), (0x21, 1), (0x23, 3), (0x24, 4), (0x30, 5), (0x31, 6), (0x3F, 7)] ++ (List.range 18).map fun e => (e + 1, e + 8)).any fun x =>
        x.1 == c && (s.rn (bankAllow n)).testBit x.2
    let ownerIn (x : State) (n : Nat) : Nat := if x.bit (bankBankstFailed n) = true ∨ n ∈ x.bank.unowned then 0 else x.get (bankBankstOwner n)
    let owner (n : Nat) : Nat := ownerIn s n
    let locked (n c : Nat) : Bool :=
      let first := s.get fabCkptBaseBank
      (decide (first ≤ n ∧ n < first + 4) && decide (s.st pgFab ≠ stOff))
        || (decide (owner n = 0x21) && s.on pgWcap)
        || (decide (owner n = 0x20 ∧ s.get swcBufBanksFirst ≤ n ∧ n < s.get swcBufBanksFirst + s.get swcBufBanksCount) && decide (s.st pgSwc ≠ stOff))
        || (decide (owner n = 0x23) && decide (s.st (pgWelt 0) ≠ stOff)) || (decide (owner n = 0x24) && decide (s.st (pgWelt 1) ≠ stOff)) || s.bit (bankBankstScrubbing n)
        || ((decide (c = 0x20) || decide (c = 0x21)) && [0, 1].any fun w => decide (s.get (weltBufFirst w) ≤ n ∧ n < s.get (weltBufFirst w) + 4) && s.on (pgWelt w))
    let result (t : State) (p : Principal) (n r : Nat) : Prop := t.get (bankHoResultResult (pIdx p)) = r ∧ t.get (bankHoResultBank (pIdx p)) = n
    let refused (t : State) (p : Principal) (n r : Nat) : Prop := result t p n r ∧ (t.reg (hdrErrCause pgBank)).getLsbD 8 = true
      ∧ OnlyRegs s t [bankHoResult (pIdx p), hdrErrCause pgBank]
    let changes (t : State) (p : Principal) (n : Nat) : Prop := t.mem = s.mem ∧ BlocksKept s t [pgFlt] [bankBankst n, bankHoResult (pIdx p), hdrIrqRaw pgBank]
    let taken (t : State) (p : Principal) (n c : Nat) : Prop := result t p n 2 ∧ irq t pgBank 2 ∧ t.bit (bankBankstPending n) = false ∧ changes t p n
      ∧ (if s.bit (bankBankstScrubHo n) = true then t.get (bankBankstOwner n) = 0 ∧ t.bit (bankBankstScrubbing n) = true ∧ t.bank.scrubNext.rd 0 n = BitVec.ofNat 8 c
        else t.get (bankBankstOwner n) = c ∧ t.bit (bankBankstScrubbing n) = s.bit (bankBankstScrubbing n))
    let writer (p : Principal) (n : Nat) : Bool := if owner n ∈ [0x30, 0x31, 0x3F] ++ (List.range 18).map (· + 1) then pCode p == owner n else p == .ha || p == .hb || p == .sup
    let block (c : Nat) : Bool := c == 0x20 || c == 0x21 || c == 0x23 || c == 0x24
    let handedOver (p : Principal) (n next : Nat) (t : State) : Prop :=
      if s.on pgBank = false then refused t p n 3
      else if 192 ≤ n then refused t p n 8
      else if s.bit (bankBankstFailed n) = true then refused t p n 4
      else if writer p n = false then refused t p n 5
      else if next ≠ 0 ∧ next ≠ owner n ∧ allowed n next = false then refused t p n 6
      else if s.bit (bankBankstScrubbing n) = true then refused t p n 7
      else if next = owner n then result t p n 2 ∧ t.bit (bankBankstPending n) = false ∧ ownerIn t n = owner n ∧ OnlyRegs s t [bankBankst n, bankHoResult (pIdx p)]
      else if block next = false ∧ next ≠ 0 then result t p n 1 ∧ irq t pgBank 1 ∧ t.bit (bankBankstPending n) = true ∧ t.get (bankBankstNext n) = next ∧ ownerIn t n = owner n
        ∧ OnlyRegs s t [bankBankst n, bankHoResult (pIdx p), hdrIrqRaw pgBank]
      else if locked n next = true then refused t p n 7
      else if next = 0 then result t p n 2 ∧ t.get (bankBankstOwner n) = 0 ∧ t.bit (bankBankstPending n) = false ∧ changes t p n
      else taken t p n next
    (∀ (p : Principal) (bank next : Byte), s.reaches p = true →
      (∀ o ∈ [exec (.handoverPending p bank next) s, exec (.handoverBlock p bank next) s, exec (.handoverCancel p bank next) s], Gives o (handedOver p bank.toNat next.toNat))
      ∧ Gives (exec (.bankRelease p bank) s) (handedOver p bank.toNat 0)
      ∧ Gives (exec (.accept p bank) s) fun t =>
        let n := bank.toNat
        let c := pCode p
        if s.on pgBank = false then refused t p n 3
        else if 192 ≤ n then refused t p n 8
        else if s.bit (bankBankstFailed n) = true then refused t p n 4
        else if ¬ (s.bit (bankBankstPending n) = true ∧ s.get (bankBankstNext n) = c) ∧ owner n ≠ 0 then refused t p n 5
        else if allowed n c = false then refused t p n 6
        else if locked n c = true then refused t p n 7
        else taken t p n c)
    ∧ (∀ b : BankIx, s.bit (bankBankstScrubbing b.val) = true → Gives (exec (.scrubHoDone b) s) fun t =>
        t.get (bankBankstOwner b.val) = (s.bank.scrubNext.rd 0 b.val).toNat ∧ t.bit (bankBankstScrubbing b.val) = false
          ∧ (∀ a, t.byte a = if base b.val ≤ a ∧ a < base b.val + 0x80000 then 0 else s.byte a)
          ∧ (∀ g, base b.val ≤ 8 * g → 8 * g < base b.val + 0x80000 → t.bank.ecc.rd none g = none) ∧ BlocksKept s t [pgFlt] [bankBankst b.val])
    ∧ (s.bank.scrubOn = false ∨ s.bit bankCfgScrubEn = false ∨ (s.st pgBank = stStopping ∧ ∀ pg ∈ [pgSwc, pgFab, pgWcap, pgWelt 0, pgWelt 1], s.st pg = stOff) → exec .scrub s = .next s)
    ∧ (s.bank.scrubOn = true → s.bit bankCfgScrubEn = true → (s.st pgBank ≠ stStopping ∨ ∃ pg ∈ [pgSwc, pgFab, pgWcap, pgWelt 0, pgWelt 1], s.st pg ≠ stOff) → s.bank.scrubPos < 192 * 32768 →
        let w := s.bank.scrubPos
        let n := w / 32768
        if s.bit (bankBankstAsleep n) = true then
          (if n = 191 then Gives (exec .scrub s) fun t => t.bank = { s.bank with scrubPos := 0 } ∧ up t bankScrubPasses ∧ OnlyRegs s { t with bank := s.bank } [bankScrubPasses]
          else exec .scrub s = exec .scrub { s with bank := { s.bank with scrubPos := (n + 1) * 32768 } })
        else Gives (exec .scrub s) fun t => t.mem = s.mem ∧ t.bank.ecc = s.bank.ecc ∧ t.bank.scrubPos = (w + 1) % (192 * 32768)
          ∧ (w + 1 = 192 * 32768 → up t bankScrubPasses) ∧ (w + 1 < 192 * 32768 → t.reg bankScrubPasses = s.reg bankScrubPasses)
          ∧ (∀ g ∈ [(0x10000000 + 16 * w) / 8, (0x10000000 + 16 * w) / 8 + 1], (s.markOf g).any (fun m => m.bits.length == 1) = true → g ∈ t.bank.writeback)
          ∧ BlocksKept s t [pgFlt] [bankCeTotal, bankUeTotal, bankEcc n, bankErrLog, bankScrubPasses, hdrIrqRaw pgBank])
    ∧ (∀ g : BitVec 29, s.tidy = true → g.toNat ∈ s.bank.writeback → Gives (exec (.ceWriteback g) s) fun t =>
        g.toNat ∉ t.bank.writeback ∧ t.regs = s.regs ∧ (∀ a, t.eccByte a = s.eccByte a) ∧ (∀ b inj, s.markOf g.toNat = some ⟨[b], inj⟩ → b < 64 → t.markOf g.toNat = none)
          ∧ (∀ h, h ≠ g.toNat → t.markOf h = s.markOf h))
    ∧ (∀ (p : Principal) (a : Word) (n : Nat), s.reaches p = true → 0 < n → n ≤ 16 →
        let i := a.toNat
        let inside : Bool := isBank i && isBank (i + n - 1)
        let bs := if bankOf i = bankOf (i + n - 1) then [bankOf i] else [bankOf i, bankOf (i + n - 1)]
        let notMine : Bool := !s.on pgBank || bs.any fun b => s.bit (bankBankstFailed b) || owner b != pCode p || s.bit (bankBankstScrubbing b)
        let asleep : Bool := bs.any fun b => s.bit (bankBankstAsleep b)
        (inside = true →
          (Gives (exec (.bankAccess p a n none) s) fun t =>
            if notMine = true then t = { s with rstatus := 1, rbytes := [] }
            else if asleep = true then t = { s with rstatus := 2, rbytes := [] }
            else t.rbytes = (List.range n).map (fun j => s.eccByte (i + j)) ∧ t.mem = s.mem ∧ t.bank.ecc = s.bank.ecc
              ∧ t.rstatus = (if (granules i n).any s.granBad then 3 else 0) ∧ ((∀ g ∈ granules i n, s.markOf g = none) → t.regs = s.regs))
          ∧ ∀ l : List Byte, l.length = n → s.tidy = true → Gives (exec (.bankAccess p a n (some l)) s) fun t => t.rbytes = [] ∧
            (if notMine = true then t = { s with rstatus := 1, rbytes := [] }
            else if asleep = true then t = { s with rstatus := 2, rbytes := [] }
            else
              let met (w : Nat) : Bool := s.bank.portA.any fun x => decide (x.ticks = s.tb.ticks ∧ x.aclk = s.chip.aclk ∧ 0 < x.len ∧ x.addr / 16 ≤ w ∧ w ≤ (x.addr + x.len - 1) / 16)
              let lost (w : Nat) : Bool := met w && (Config.free 14 s.free).getLsbD 0
              let gone := (List.range ((i + n - 1) / 16 - i / 16 + 1)).filter fun k => lost (i / 16 + k)
              t.rstatus = 0 ∧ t.bytes i n = (List.range n).map (fun j => if lost ((i + j) / 16) then s.byte (i + j) else l.getD j 0)
              ∧ (gone = [] → t.reg bankCollides = s.reg bankCollides ∧ t.reg bankCollideLog = s.reg bankCollideLog)
              ∧ (∀ k, gone.getLast? = some k → t.rn bankCollides = min 0xFFFFFFFF (s.rn bankCollides + gone.length) ∧ irq t pgBank 4
                  ∧ t.get bankCollideLogBank = bankOf (16 * (i / 16 + k)) ∧ t.get bankCollideLogWord = (16 * (i / 16 + k)) % 0x80000 / 16)
              ∧ (∀ b, i ≤ b → b < i + n → lost (b / 16) = false → 2 * (b / 16) ∉ t.bank.writeback ∧ 2 * (b / 16) + 1 ∉ t.bank.writeback)
              ∧ (∀ b, b < i ∨ i + n ≤ b → t.eccByte b = s.eccByte b ∨ (s.markOf (b / 8)).any (fun m => m.bits.length != 1) = true)
              ∧ ((∀ g ∈ granules i n, s.markOf g = none) → gone = [] → t.regs = s.regs ∧ MemKeptBut s t i n)))
        ∧ (0x16000000 ≤ i → i + n ≤ 0x18000000 → exec (.bankAccess p a n none) s = .next { s with rstatus := 4, rbytes := [] }
            ∧ ∀ l : List Byte, l.length = n → exec (.bankAccess p a n (some l)) s = .next { s with rstatus := 4, rbytes := [] }))
    ∧ (∀ b : BankIx,
        let n := b.val
        let asked : Bool := s.bit (bankBankstRetReq n) || (s.rn bankRetGroup).testBit (n / 8)
        let starts : Bool := decide (s.get wcapBufFirst ≤ n ∧ n < s.get wcapBufFirst + min (max (s.get wcapBufCount) 1) 128) && s.st pgWcap == stStarting && (owner n == 0x21 || (owner n == 0 && allowed n 0x21))
        let sends : Bool := [0, 1].any fun w => decide (s.get (weltBufFirst w) ≤ n ∧ n < s.get (weltBufFirst w) + 4) && s.st (pgWelt w) == stStarting
        let honoured : Bool := asked && !locked n 0x20 && !starts && !sends && !s.bit (bankBankstFailed n)
        (s.on pgBank = true → honoured = true → Gives (exec (.retentionEntry b) s) fun t => t.bit (bankBankstAsleep n) = true ∧ OnlyRegs s t [bankBankst n])
        ∧ (honoured = false → exec (.retentionEntry b) s = .next s ∧ Gives (exec (.retentionWake b) s) fun t => t.bit (bankBankstAsleep n) = false ∧ OnlyRegs s t [bankBankst n]))
    ∧ (∀ (p : Principal) (m : ChanIx) (dir last : Bool) (v : Word), s.on pgLace = true → s.letsIn p (if last then laceTxlast m.val dir.toNat else laceTx m.val dir.toNat) = true →
        Gives (if last then exec (.txlast p m dir v) s else exec (.tx p m dir v) s) fun t =>
          let d := dir.toNat
          let q := s.laceQ m.val d
          let wait := if dir then laceChStatWait1 m.val else laceChStatWait0 m.val
          let noted : Bool := last && s.bit (if dir then laceChNoteAEn m.val else laceChNoteBEn m.val)
          let db := s.get (if dir then laceChNoteADb m.val else laceChNoteBDb m.val)
          let bit := s.get (if dir then laceChNoteABit m.val else laceChNoteBBit m.val)
          (∀ j < 128, j ≠ 2 * m.val + d → t.lace.q.rd [] j = s.lace.q.rd [] j) ∧ t.mem = s.mem
            ∧ (if q.length < 8 then t.laceQ m.val d = q ++ [⟨v, last, s.epochOf (s.laceEnd m.val dir)⟩] ∧ t.bit wait = false
                ∧ (noted = true → (t.reg (laceDb db)).getLsbD bit = true ∧ OnlyRegs s { t with lace := s.lace, wcap := s.wcap, shank := s.shank, eye := s.eye } [laceChStat m.val, laceDb db] ∧ TriggersOnly s t)
                ∧ (noted = false → OnlyRegs s { t with lace := s.lace } [laceChStat m.val])
              else t.lace = s.lace ∧ t.bit wait = true ∧ (t.reg (hdrErrCause pgLace)).getLsbD 8 = true ∧ OnlyRegs s t [laceChStat m.val, hdrErrCause pgLace]))
    ∧ (∀ (p : Principal) (m : ChanIx) (dir : Bool), s.reaches p = true → Gives (exec (.rx p m dir) s) fun t =>
        let d := dir.toNat
        let chg : Bool := s.bit (if dir then laceChStatEpochChg1 m.val else laceChStatEpochChg0 m.val)
        (∀ j < 128, j ≠ 2 * m.val + d → t.lace.q.rd [] j = s.lace.q.rd [] j) ∧ t.mem = s.mem
          ∧ (match s.laceQ m.val d with
            | [] => t.rdata.rd 0 (pIdx p) = 0 ∧ t.reg (laceRxinfo (pIdx p) m.val d) = 0 ∧ t.lace = s.lace ∧ OnlyRegs s { t with rdata := s.rdata } [laceRxinfo (pIdx p) m.val d]
            | h :: r => t.rdata.rd 0 (pIdx p) = h.word ∧ t.laceQ m.val d = r
                ∧ t.rn (laceRxinfo (pIdx p) m.val d) = 1 + (if h.last then 2 else 0) + (if h.epoch = s.epochOf (s.laceEnd m.val dir) then 0 else 4) + (if chg then 8 else 0)
                ∧ t.bit (if dir then laceChStatEpochChg1 m.val else laceChStatEpochChg0 m.val) = false
                ∧ (r = [] → (s.bit (laceChCfgAck m.val) = true ∨ s.laceForced m.val = true) → irq t pgLace 1 ∧ (t.reg (laceEmptyPend ((2 * m.val + d) / 32))).getLsbD ((2 * m.val + d) % 32) = true)
                ∧ (r ≠ [] → OnlyRegs s { t with lace := s.lace, rdata := s.rdata } [laceRxinfo (pIdx p) m.val d, laceChStat m.val])))
    ∧ (∀ m : ChanIx, s.on pgLace = true → 8 ≤ (s.laceQ m.val 0).length → 8 ≤ (s.laceQ m.val 1).length → s.bit (laceChStatWait0 m.val) = true → s.bit (laceChStatWait1 m.val) = true →
        (s.lace.reported.rd false m.val = false → Gives (exec (.mutualWait m) s) fun t => irq t pgLace 2 ∧ (t.reg (laceMwPend (m.val / 32))).getLsbD (m.val % 32) = true
          ∧ t.lace.q = s.lace.q ∧ t.lace.reported.rd false m.val = true ∧ OnlyRegs s { t with lace := s.lace } [laceMwPend (m.val / 32), hdrIrqRaw pgLace])
        ∧ (s.lace.reported.rd false m.val = true → exec (.mutualWait m) s = .next s))
    ∧ (∀ (p : Principal) (d : ChanIx) (v : Word),
        (s.letsIn p (laceDbSet d.val) = true → Gives (exec (.dbSet p d v) s) fun t => t.reg (laceDb d.val) = s.reg (laceDb d.val) ||| v
          ∧ OnlyRegs s { t with wcap := s.wcap, shank := s.shank, eye := s.eye } [laceDb d.val] ∧ TriggersOnly s t ∧ { t.wcap with trigPend := s.wcap.trigPend } = s.wcap)
        ∧ (s.letsIn p (laceDb d.val) = true → Gives (exec (.dbClear p d v) s) fun t =>
          let kind := s.get (laceRouteKind d.val)
          let e := s.get (laceRouteEngine d.val)
          let by' := if s.get (peServeServedBy e) = 31 then e else s.get (peServeServedBy e)
          if p = .sup ∨ kind = 0 ∨ 5 ≤ kind ∨ (kind = 1 ∧ p = .ha) ∨ (kind = 2 ∧ p = .hb) ∨ (kind = 4 ∧ pCode p = by' + 1 ∧ by' < 18) then
            t.reg (laceDb d.val) = s.reg (laceDb d.val) &&& ~~~v ∧ OnlyRegs s { t with irq := s.irq } [laceDb d.val]
          else (t.reg (hdrErrCause pgLace)).getLsbD 9 = true ∧ OnlyRegs s t [hdrErrCause pgLace]))

/-- A BAR2 access is a port B access by HA at 0x1000_0000 + offset: a good read returns its bytes, one with an ECC
error poisoned ones, a refused one 0xFF; a refused write is dropped; each refusal is recorded, counted and raises bit
4. A channel's EN ends a halt when it rises, stops a transfer when it falls; an invalid ring size sets RING_CFG. A
descriptor that breaks Table 16-2 gives ALIGN; else its words move in order up to the first that fails, whose error
and the bytes before it are RESULT and DONE_BYTES; no byte outside them changes. Its end writes back, advances HEAD,
and counts DONE or halts the channel. Host B's frames are counted; a wrong CRC or an address outside gives CRC_ERR or
BAD_CMD and performs nothing; a WRITE performs its words in turn and LAST_STATUS names the first that failed; a READ
answers with its words and their CRC, or stays pending for FETCH while its data is not there or a word's page holds
it; an aborted frame only counts. (A FETCH with no read pending answers a free STATUS, assumption row 4.) (Rests on
the model's own readings and choices in assumption rows 129, 130, 139, 140 and 198.) -/
def Obligations.HostAccessesDmaAndFrames : Prop :=
  ∀ s : State,
    let up (t : State) (k : Nat) : Prop := t.rn k = min 0xFFFFFFFF (s.rn k + 1)
    let core (t : State) : State := { t with out := s.out, rstatus := s.rstatus, rbytes := s.rbytes }
    let refusedBar2 (u t : State) (a e : Nat) : Prop := t.get pcieBar2ErrCause = e ∧ t.rn pcieBar2ErrAddr = a ∧ t.rn pcieBar2ErrCount = min 0xFFFFFFFF (s.rn pcieBar2ErrCount + 1)
      ∧ (t.reg (hdrIrqRaw pgPcie)).getLsbD 4 = true ∧ OnlyRegs (core u) (core t) [pcieBar2Err, pcieBar2ErrAddr, pcieBar2ErrCount, hdrIrqRaw pgPcie]
    let ring (c : Nat) : Nat := (s.rn (pcieDmaRingLo c) + s.rn (pcieDmaRingHi c) * 2 ^ 32) / 32 * 32 + 32 * s.get (pcieDmaHeadIndex c)
    let alone (c : Nat) : Bool := (List.range 8).all fun i => i == c || (s.host.dma.rd none i).all fun j => j.ended
    let limit (j : DmaJob) : Nat := if j.hostErr then min j.desc.length (j.host.length / 16 * 16) else j.desc.length
    let errAt (j : DmaJob) (k : Nat) : Nat :=
      let a := j.desc.devAddr.toNat + j.done + 16 * k
      let n := min 16 (limit j - j.done - 16 * k)
      let e := s.portBErr .ha a n j.desc.toDevice
      if e ≠ 0 then e else if j.desc.toDevice = false ∧ ((granules a n).filter fun g => isBank (8 * g)).any s.granBad = true then 3 else 0
    let finds (j : DmaJob) (r fin : Nat) : Prop := s.tidy = true ∧ (j.desc.toDevice = true → limit j ≤ j.host.length)
      ∧ (∀ x ∈ s.bank.portA, x.ticks ≠ s.tb.ticks ∨ x.aclk ≠ s.chip.aclk)
      ∧ let k := (fin - j.done) / 16
        j.done ≤ fin ∧ (∀ i < k, errAt j i = 0)
        ∧ if fin < limit j then fin = j.done + 16 * k ∧ errAt j k = r ∧ r ≠ 0
          else fin = max (limit j) j.done ∧ (16 * k < fin - j.done → errAt j k = 0) ∧ r = if j.hostErr then 6 else 0
    let moved (j : DmaJob) (fin : Nat) (t : State) (l : List OutEvent) : Prop :=
      let a := j.desc.devAddr.toNat + j.done
      let n := fin - j.done
      if j.desc.toDevice = true then t.bytes a n = (j.host.drop j.done).take n ∧ t.out = l ++ s.out ∧ (s.bank.ecc = [] → MemKeptBut s t a n)
      else t.mem = s.mem ∧ t.out = l ++ ((List.range ((n + 255) / 256)).map fun q => OutEvent.hostMem (j.desc.hostAddr.toNat + j.done + 256 * q)
        ((List.range (min 256 (n - 256 * q))).map fun i => s.eccByte (a + 256 * q + i))).reverse ++ s.out
    (s.reaches .ha = true →
      (∀ (off : BitVec 28) (n : Nat), Gives (exec (.bankAccess .ha (0x10000000 + off.setWidth 32) n none) s) fun u => Gives (exec (.bar2Read off n) s) fun t =>
        if u.rstatus = 0 then t.out = .bar2 u.rbytes false :: s.out ∧ core t = core u
        else refusedBar2 u t (0x10000000 + off.toNat) u.rstatus ∧ t.out = (if u.rstatus = 3 then .bar2 u.rbytes true else .bar2 (List.replicate n 0xFF) false) :: s.out)
      ∧ (∀ (off : BitVec 28) (l : List Byte), Gives (exec (.bankAccess .ha (0x10000000 + off.setWidth 32) l.length (some l)) s) fun u => Gives (exec (.bar2Write off l) s) fun t =>
        t.out = s.out ∧ if u.rstatus = 0 then core t = core u else refusedBar2 s t (0x10000000 + off.toNat) u.rstatus))
    ∧ (∀ (p : Principal) (m : OctIx) (v : Word),
        let c := m.val
        let sizeOk : Bool := [2, 4, 8, 16, 32, 64, 128, 256, 512, 1024, 2048, 4096].contains (s.get (pcieDmaRingSizeEntries c))
        (s.letsIn p (pcieDmaTail c) = true → Gives (exec (.dmaTail p m v) s) fun t => t.get (pcieDmaTailIndex c) = (v.extractLsb' 0 12).toNat
          ∧ (s.bit (pcieDmaCtrlEn c) = true → sizeOk = false → (t.reg (hdrErrCause pgPcie)).getLsbD 8 = true)
          ∧ OnlyRegs s t (pcieDmaTail c :: if s.bit (pcieDmaCtrlEn c) && !sizeOk then [hdrErrCause pgPcie] else []))
        ∧ (s.letsIn p (pcieDmaCtrl c) = true → Gives (exec (.dmaEnWrite p m v) s) fun t =>
          let on := v.getLsbD 0
          t.bit (pcieDmaCtrlEn c) = on ∧ (on = true → sizeOk = false → (t.reg (hdrErrCause pgPcie)).getLsbD 8 = true)
            ∧ (on = true → s.bit (pcieDmaCtrlEn c) = false → t.bit (pcieDmaStatHalted c) = false)
            ∧ (on = true ∨ (s.host.dma.rd none c).all (fun j => j.ended) = true → t.host = s.host
                ∧ OnlyRegs s t [pcieDmaCtrl c, pcieDmaStat c, hdrErrCause pgPcie])
            ∧ (∀ (j : DmaJob) (r fin : Nat), on = false → s.host.dma.rd none c = some j → j.ended = false → alone c = true → finds j r fin →
                let k := 1 + (Config.free 11 s.free).toNat % 65536
                let all := if r = 0 ∨ r = 6 ∧ fin = limit j then max 1 ((fin - j.done + 255) / 256) else (fin - j.done) / 256 + 1
                let at' := if k < all then j.done + 256 * k else fin
                t.host.dma.rd none c = some { j with result := if k < all ∨ r = 0 then 7 else r, done := at', ended := true } ∧ moved j at' t []
                  ∧ (∀ i, i ≠ c → t.host.dma.rd none i = s.host.dma.rd none i) ∧ BlocksKept s t [pgBank, pgFlt] [pcieDmaCtrl c])))
    ∧ (∀ (m : OctIx) (d : DmaDesc) (host : List Byte) (err : Bool),
        let c := m.val
        let a := d.devAddr.toNat
        let good : Bool := decide (a % 16 = 0 ∧ 0x10000000 ≤ a ∧ a ≤ 0x1FFFFFFF ∧ 4 ≤ d.length ∧ d.length ≤ 16777212 ∧ d.length % 4 = 0 ∧ d.word6 = 0 ∧ d.word7 = 0)
        let takes : Prop := s.reaches .ha = true ∧ s.on pgPcie = true ∧ s.bit (pcieDmaCtrlEn c) = true ∧ s.bit (pcieDmaStatHalted c) = false ∧ s.host.dma.rd none c = none
          ∧ (∃ i < 12, s.get (pcieDmaRingSizeEntries c) = 2 ^ (i + 1)) ∧ s.get (pcieDmaHeadIndex c) ≠ s.get (pcieDmaTailIndex c) % s.get (pcieDmaRingSizeEntries c)
        let stop := if good = false then 8 else if err = true ∧ host.length < 16 then 6 else 0
        (takes → Gives (exec (.dmaDescriptor m d host err) s) fun t => t.host.dma.rd none c = some ⟨d, host, err, stop, 0, stop != 0⟩ ∧ t.bit (pcieDmaStatActive c) = true
          ∧ (∀ i, i ≠ c → t.host.dma.rd none i = s.host.dma.rd none i) ∧ t.out = .dmaRead c (ring c) :: s.out ∧ OnlyRegs s { t with out := s.out, host := s.host } [pcieDmaStat c])
        ∧ (¬takes → exec (.dmaDescriptor m d host err) s = .next s))
    ∧ (∀ m : OctIx, s.host.dma.rd none m.val = none → exec (.dmaDescriptorDone m) s = .next s)
    ∧ (∀ (m : OctIx) (j : DmaJob) (r fin : Nat),
        let c := m.val
        let ends (t : State) : Prop := t.host.dma.rd none c = none ∧ t.bit (pcieDmaStatActive c) = false
          ∧ t.get (pcieDmaHeadIndex c) = (s.get (pcieDmaHeadIndex c) + 1) % s.get (pcieDmaRingSizeEntries c)
          ∧ moved j fin t [.dmaWriteBack c (ring c + 12) [BitVec.ofNat 32 (j.desc.length % 2 ^ 24 + (if j.desc.toDevice then 2 ^ 24 else 0) + if j.desc.irq then 2 ^ 25 else 0), BitVec.ofNat 32 r, BitVec.ofNat 32 fin]]
          ∧ (∀ i, i ≠ c → t.host.dma.rd none i = s.host.dma.rd none i)
          ∧ (r = 0 → up t (pcieDmaDone c) ∧ (j.desc.irq = true → (t.reg (hdrIrqRaw pgPcie)).getLsbD 2 = true))
          ∧ (r ≠ 0 → t.get (pcieDmaStatResult c) = r % 16 ∧ t.reg (pcieDmaDone c) = s.reg (pcieDmaDone c))
          ∧ (r ≠ 0 → r ≠ 7 → t.bit (pcieDmaStatHalted c) = true ∧ (t.reg (hdrIrqRaw pgPcie)).getLsbD 3 = true)
          ∧ BlocksKept s t [pgBank, pgFlt] [pcieDmaStat c, pcieDmaHead c, pcieDmaDone c, hdrIrqRaw pgPcie]
        s.host.dma.rd none c = some j → s.get (pcieDmaRingSizeEntries c) ≠ 0 → s.get (pcieDmaRingSizeEntries c) ≤ 4096 →
          (j.ended = true → j.result = r → j.done = fin → Gives (exec (.dmaDescriptorDone m) s) ends)
          ∧ (j.ended = false → alone c = true → j.desc.length ≤ 16777212 → finds j r fin → Gives (exec (.dmaDescriptorDone m) s) ends)
          ∧ (j.ended = false → j.desc.length ≤ 16777212 → finds j 0 fin → j.hostErr = false → Gives (exec (.dmaDescriptorDone m) s) fun t =>
              let n := max 1 ((fin - j.done + 255) / 256)
              ∀ i < 8, i ≠ c → ∀ x ∈ s.host.dma.rd none i, x.ended = false → ∃ y ∈ t.host.dma.rd none i,
                y.desc = x.desc ∧ x.done ≤ y.done ∧ y.done ≤ x.done + 256 * (n + 1) ∧ (y.ended = false → x.done + 256 * (n - 1) ≤ y.done)))
    ∧ (s.reaches .hb = true → s.on pgHostb = true →
        let noHost (t : State) : State := { t with out := s.out, host := s.host }
        let counted : State := s.count hostbFrames
        let inside (a n : Nat) : Bool := (List.range n).all fun i => decide (a + 4 * i < 0x1000000) || decide (0x10000000 ≤ a + 4 * i ∧ a + 4 * i < 0x20000000)
        let said (st : Nat) : OutEvent := .hostB st [] none
        let sent (st : Nat) (ws : List Word) : OutEvent :=
          .hostB st ws (some (BitVec.ofNat 16 (crc16 (BitVec.ofNat 8 st :: ws.flatMap fun w => leBytes 4 w.toNat))))
        let crc (l : List Byte) : Half := BitVec.ofNat 16 (crc16 l)
        let asks (w : Word) (n : Nat) : Half := crc (0x0B :: (leBytes 4 w.toNat).reverse ++ [BitVec.ofNat 8 (n - 1)])
        let badCrc (t : State) (e : OutEvent) (l : List Nat) : Prop := t.out = e :: s.out ∧ up t hostbFrames ∧ up t hostbCrcErrors
          ∧ (t.reg (hdrIrqRaw pgHostb)).getLsbD 1 = true ∧ t.host = s.host ∧ OnlyRegs s (noHost t) ([hostbFrames, hostbCrcErrors, hdrIrqRaw pgHostb] ++ l)
        (∀ (addr : Word) (ws : List Word),
          let a := addr.toNat / 4 * 4
          let good := crc (0x02 :: (leBytes 4 addr.toNat).reverse ++ [BitVec.ofNat 8 (ws.length - 1)] ++ ws.flatMap fun w => leBytes 4 w.toNat)
          (∀ x : Half, x ≠ good → Gives (exec (.write addr ws x) s) fun t => badCrc t (said 1) [hostbLastStatus] ∧ t.get hostbLastStatusStatus = 1)
          ∧ (inside a ws.length = false → Gives (exec (.write addr ws good) s) fun t => t.out = said 8 :: s.out ∧ t.get hostbLastStatusStatus = 8 ∧ up t hostbFrames
              ∧ OnlyRegs s (noHost t) [hostbFrames, hostbLastStatus])
          ∧ (inside a ws.length = true → s.host.hbRead = none →
              let step (o : Out × List Nat) (x : Word × Nat) : Out × List Nat :=
                match o.1 with
                | .next u =>
                  let i := a + 4 * x.2
                  if i < 0x1000000 then (exec (.registerWrite .hb (BitVec.ofNat 24 i) 4 (x.1.setWidth 64)) u, if u.denies .hb i x.1 then o.2 ++ [x.2] else o.2)
                  else match exec (.bankAccess .hb (BitVec.ofNat 32 i) 4 (some (leBytes 4 x.1.toNat))) u with
                    | .next w => (.next w, if w.rstatus = 0 then o.2 else o.2 ++ [x.2])
                    | r => (r, o.2)
                | r => (r, o.2)
              let run := (ws.zip (List.range ws.length)).foldl step (.next (counted.emit (said 0)), [])
              Gives run.1 fun u => Gives (exec (.write addr ws good) s) fun t =>
                t.get hostbLastStatusStatus = (if run.2 = [] then 0 else 4) ∧ t.get hostbLastStatusWord = run.2.headD 0 % 64
                  ∧ (run.2 ≠ [] → (t.reg (hdrIrqRaw pgHostb)).getLsbD 2 = true)
                  ∧ OnlyRegs { u with rstatus := s.rstatus, rbytes := s.rbytes } { t with rstatus := s.rstatus, rbytes := s.rbytes } (hostbLastStatus :: if run.2 = [] then [] else [hdrIrqRaw pgHostb])))
        ∧ (∀ (addr : Word) (n : Nat) (ready : Bool),
          let a := addr.toNat / 4 * 4
          (∀ x : Half, x ≠ asks addr n → Gives (exec (.read addr n x ready) s) fun t => badCrc t (sent 1 (List.replicate n 0)) [])
          ∧ (inside a n = false → Gives (exec (.read addr n (asks addr n) ready) s) fun t => t.out = sent 8 (List.replicate n 0) :: s.out ∧ up t hostbFrames ∧ OnlyRegs s (noHost t) [hostbFrames])
          ∧ (inside a n = true → s.host.hbRead = none → Gives (exec (.read addr n (asks addr n) false) s) fun t => t.out = sent 2 (List.replicate n 0) :: s.out ∧ t.host = { s.host with hbRead := some (a, n) }
              ∧ OnlyRegs s (noHost t) [hostbFrames])
          ∧ (s.convHolds .hb a = true → exec (.read addr 1 (asks addr 1) true) s = exec (.read addr 1 (asks addr 1) false) s)
          ∧ (inside a 1 = true → s.convHolds .hb a = false → s.host.hbRead = none →
              (a < 0x1000000 → Gives (exec (.rcRead .hb ⟨BitVec.ofNat 24 a, 4⟩) counted) fun u => exec (.read addr 1 (asks addr 1) true) s = .next (u.emit (sent 0 [u.rdata.rd 0 (pIdx .hb)])))
              ∧ (0x1000000 ≤ a → Gives (exec (.bankAccess .hb (BitVec.ofNat 32 a) 4 none) counted) fun u => Gives (exec (.read addr 1 (asks addr 1) true) s) fun t =>
                  t.out = (if u.rstatus = 0 then sent 0 [BitVec.ofNat 32 (leNat u.rbytes)] else sent 4 [0]) :: s.out
                    ∧ OnlyRegs (core u) (core t) (if u.rstatus = 0 then [] else [hdrIrqRaw pgHostb]))))
        ∧ (∀ ready : Bool, (∀ x : Half, x ≠ crc [0x0C] → Gives (exec (.fetch x ready) s) fun t => badCrc t (sent 1 []) [])
          ∧ (s.host.hbRead = none → Gives (exec (.fetch (crc [0x0C]) ready) s) fun t => t.out = sent ((Config.free 8 s.free).toNat % 16) [] :: s.out ∧ OnlyRegs s { noHost t with free := s.free } [hostbFrames])
          ∧ (∀ a n, s.host.hbRead = some (a, n) → a % 4 = 0 → a < 0x20000000 → inside a n = true →
              Gives (exec (.fetch (crc [0x0C]) false) s) (fun t => t.out = sent 2 (List.replicate n 0) :: s.out ∧ t.host = s.host ∧ OnlyRegs s (noHost t) [hostbFrames])
              ∧ exec (.fetch (crc [0x0C]) true) s = exec (.read (BitVec.ofNat 32 a) n (asks (BitVec.ofNat 32 a) n) true) { s with host := { s.host with hbRead := none } }))
        ∧ Gives (exec .hostbAbort s) (fun t => up t hostbAborted ∧ OnlyRegs s t [hostbAborted])
        ∧ (∀ (command : Byte) (f : HbBytes),
          let a := leNat (f.bytes.take 4).reverse
          let n := (f.bytes.getD 4 0).toNat + 1
          let foreign : Prop := command ∉ [0x02, 0x0B, 0x0C]
          let acts : Prop := foreign ∨ command ≠ 0x0C ∧ inside (a / 4 * 4) n = false
          let answer (st : Nat) : OutEvent := if command = 0x0B then sent st (List.replicate n 0) else said st
          let last := if command = 0x02 then [hostbLastStatus] else []
          (¬acts → exec (.badCmdFrame command f) s = .next s)
          ∧ (acts → f.crc ≠ crc (command :: f.bytes) → Gives (exec (.badCmdFrame command f) s) fun t => badCrc t (answer 1) last ∧ (command = 0x02 → t.get hostbLastStatusStatus = 1))
          ∧ (acts → f.crc = crc (command :: f.bytes) → Gives (exec (.badCmdFrame command f) s) fun t => t.out = answer 8 :: s.out ∧ up t hostbFrames
              ∧ (command = 0x02 → t.get hostbLastStatusStatus = 8) ∧ OnlyRegs s (noHost t) (hostbFrames :: last))))

/-- A write of SVC_CMD with BUSY clear sets BUSY and CODE and notes the requester, the arguments and whether the boot
or a restart is under way; with BUSY set it only sets SVC_BUSY. At completion BUSY falls, IRQ bit 1 rises and RESULT
is: BUSY_BOOT where the supervisor was or is away; for INSTALL, FORMAT for no bytes, ACCESS for bytes of banks the
requester does not own or that do not read, else as the image; for FETCH FLASH where no directory copy of the flash
has its CRC-32, NOT_FOUND where the directory (the copy at 0 first) lacks the image, or as the image read there: its
refusal code; CACHE_FULL only where no slot or no aligned gap is free; OK with the image, its CRC and its directory
entry in free space, one of its name, type and version replaced, no other entry or image touched. REMOVE frees an
entry unless IN_USE or NOT_FOUND. COMPACT closes every gap, keeping each image's bytes and index. SVN_ADVANCE raises
one counter, or gives BAD_ARG or ROLLBACK. EYELET_APPLY writes an accepted image's rows to each engine named. A halted
supervisor core completes nothing but by a step. CMD_GO issues a flash command or sets REFUSED; its completion fills
DATA by the operation issued. IDCODE is read whatever DEBUG says; else JTAG acts only while DEBUG = 1: it halts,
steps, and reads or writes memory as SUP does (Eyelet memory: its rows, assumption row 137). The supervisor's own
memory, whose contents the spec does not state, reads free bytes; while the core is halted a byte stays as it was read
or written until a step (row 138). (Rests on the model's own readings and choices in assumption rows 131, 132, 133,
134, 135, 138, 194, 195 and 197.) -/
def Obligations.ServicesFlashCommandsAndJtag : Prop :=
  ∀ s : State,
    let core (t : State) : State := { t with out := s.out, rstatus := s.rstatus, rbytes := s.rbytes }
    let q : Sup := { s.sup with jtagSteps := if s.sup.jtagHalt then s.sup.jtagSteps - 1 else s.sup.jtagSteps }
    (∀ (p : Principal) (image : Option Flash), s.reaches p = true → s.mayWrite p pgSup = true →
      ∀ x ∈ [(1, exec (.install p) s), (2, exec (.remove p) s), (3, exec (.svcFetch p image) s), (4, exec (.compact p) s), (5, exec (.svnAdvance p) s), (6, exec (.eyeletApply p) s)],
        Gives x.2 fun t =>
          if s.bit supSvcStatBusy = true then (t.reg (hdrErrCause pgSup)).getLsbD 8 = true ∧ OnlyRegs s t [hdrErrCause pgSup]
          else t.bit supSvcStatBusy = true ∧ t.get supSvcStatCode = x.1
            ∧ t.sup = { s.sup with svc := some ⟨x.1, p, (List.range 4).map fun i => s.reg (supSvcArg i), if x.1 = 3 then image else none, !s.booted || s.supLost || s.supRestarting⟩ }
            ∧ OnlyRegs s { t with sup := s.sup } [supSvcStat])
    ∧ (∀ j : SvcJob, s.sup.svc = some j →
        let a (i : Nat) : Word := j.args.getD i 0
        let ver : Half := BitVec.ofNat 16 (a 1).toNat
        let ends (r : Nat) (t : State) : Prop := t.get supSvcStatResult = r ∧ t.bit supSvcStatBusy = false ∧ t.sup.svc = none ∧ (t.reg (hdrIrqRaw pgSup)).getLsbD 1 = true
        let only (u t : State) (l : List Nat) : Prop := OnlyRegs { core u with sup := s.sup } { core t with sup := s.sup } ([supSvcStat, hdrIrqRaw pgSup] ++ l) ∧ t.sup = { q with svc := none }
        let inCache (u t : State) : Prop := t.sup = { q with svc := none } ∧ OnlyRegs { core u with sup := s.sup } { core t with sup := s.sup, fab := { t.fab with authentic := u.fab.authentic }, mem := u.mem, bank := u.bank } [supSvcStat, hdrIrqRaw pgSup, insoleCacheStat] ∧ t.get insoleCacheStatImages = t.cacheUsed.length
        let dirKept (u t : State) (i : Nat) : Prop := ∀ k < 63, k ≠ i → t.cacheEnt k = u.cacheEnt k
        let as (l : List Byte) (u t : State) : Prop :=
          let r := u.authenticate l
          if r ≠ 0 then ends r t ∧ only u t []
          else
            let name := leWord l 3
            let v : Half := BitVec.ofNat 16 (hdrField l 0x10 0 16)
            let typ := hdrField l 8 0 2
            let apart (off : Nat) : Prop := off % 16 = 0 ∧ 0x1000 ≤ off ∧ off + roomOf l.length ≤ 0x600000 ∧ ∀ e ∈ u.cacheUsed, off + roomOf l.length ≤ e.2.off ∨ e.2.off + roomOf e.2.len ≤ off
            let slot : Prop := u.cacheFind name v typ ≠ none ∨ ∃ i < 63, (u.cacheEnt i).name = 0
            (t.get supSvcStatResult = 8 ∨ t.get supSvcStatResult = 0)
            ∧ (t.get supSvcStatResult = 8 → ends 8 t ∧ only u t [] ∧ (slot → ∀ off, ¬ apart off))
            ∧ (t.get supSvcStatResult = 0 → ends 0 t ∧ inCache u t ∧ (∀ x, x ∈ t.fab.authentic ↔ x ∈ u.fab.authentic ∨ typ = 1 ∧ x = (name, v)) ∧ match t.cacheFind name v typ with
              | none => False
              | some (i, d) => apart d.off ∧ d.len = l.length ∧ t.imageBytes d = l ∧ t.imageCrcOk d = true ∧ d.digest = sha384 (l.take (256 + bodyLen l))
                ∧ d.slot = hdrField l 0x14 0 2 ∧ d.svnIx = hdrField l 0x10 16 6 ∧ d.svn = hdrField l 0x10 22 7
                ∧ ((u.cacheFind name v typ).map (·.1) = some i ∨ u.cacheFind name v typ = none ∧ (u.cacheEnt i).name = 0) ∧ dirKept u t i
                ∧ ∀ b, b < cacheBase ∨ cacheBase + 0x1000 ≤ b → b < cacheBase + d.off ∨ cacheBase + d.off + d.len + 4 ≤ b → t.byte b = u.byte b)
        (s.sup.jtagHalt = true → s.sup.jtagSteps = 0 → exec .svcDone s = .next s)
        ∧ (s.tidy = true → (s.sup.jtagHalt = false ∨ s.sup.jtagSteps ≠ 0) →
          (j.early = true ∨ s.supLost = true ∨ s.supRestarting = true → Gives (exec .svcDone s) fun t => ends 14 t ∧ only s t [])
          ∧ (j.early = false → s.supLost = false → s.supRestarting = false →
            (j.code ∉ [1, 2, 3, 4, 5, 6] → Gives (exec .svcDone s) fun t => ends 12 t ∧ only s t [])
            ∧ (j.code = 1 →
                let src := (a 0).toNat
                let n := (a 1).toNat
                let owned : Prop := isBank src = true ∧ isBank (src + n - 1) = true ∧ ∀ k < 192, bankOf src ≤ k → k ≤ bankOf (src + n - 1) → s.ownerOf k = pCode j.who
                (n = 0 → Gives (exec .svcDone s) fun t => ends 1 t ∧ only s t [])
                ∧ (n ≠ 0 → ¬ owned → Gives (exec .svcDone s) fun t => ends 11 t ∧ only s t [])
                ∧ (n ≠ 0 → owned → s.reaches j.who = true → Gives (exec (.bankAccess j.who (a 0) n none) s) fun u => Gives (exec .svcDone s) fun t =>
                    if u.rstatus ≠ 0 then ends 11 t ∧ only u t [] else as u.rbytes u t))
            ∧ (j.code = 2 → Gives (exec .svcDone s) fun t =>
                match s.cacheUsed.find? (fun e => e.2.name == a 0 && e.2.ver == ver) with
                | none => ends 10 t ∧ only s t []
                | some (i, d) =>
                  let used : Prop := (d.typ = 1 ∧ ∃ n < 18, (s.reg (peImageName n) = d.name ∧ s.get (peImageVerVer n) = d.ver.toNat) ∨ (s.reg (fabWarm n) = d.name ∧ s.get (fabWarmVerVer n) = d.ver.toNat))
                    ∨ (d.typ = 3 ∧ s.sup.firmware = some (d.name, d.ver))
                  (used → ends 9 t ∧ only s t []) ∧ (¬ used → ends 0 t ∧ inCache s t ∧ t.fab = s.fab ∧ (t.cacheEnt i).name = 0 ∧ dirKept s t i ∧ MemKeptBut s t cacheBase 0x1000))
            ∧ (j.code = 3 → Gives (exec .svcDone s) fun t =>
                let copy (a : Nat) : Option (List DirEnt) :=
                  let l := s.flashRead (j.flash.getD []) a 4096
                  if leWord l 1023 = BitVec.ofNat 32 (crc32 (l.take 4092)) then some (((List.range 63).map fun i => dirOf ((l.drop (64 * i)).take 64)).filter fun d => d.name != 0) else none
                let dir := if j.flash = none then none else if copy 0 = none then copy 0x10000 else copy 0
                match dir with
                | none => ends 13 t ∧ only s t []
                | some l => match l.find? fun d => d.name == a 0 && d.ver == ver with
                  | none => ends 10 t ∧ only s t []
                  | some d => as (s.flashRead (j.flash.getD []) (16 * d.off) d.len) s t)
            ∧ (j.code = 4 → (∀ e ∈ s.cacheUsed, e.2.off % 16 = 0 ∧ 0x1000 ≤ e.2.off ∧ e.2.off + roomOf e.2.len ≤ 0x600000) →
                (∀ e ∈ s.cacheUsed, ∀ f ∈ s.cacheUsed, e.1 ≠ f.1 → e.2.off + roomOf e.2.len ≤ f.2.off ∨ f.2.off + roomOf f.2.len ≤ e.2.off) →
                Gives (exec .svcDone s) fun t => ends 0 t ∧ t.sup = { q with svc := none } ∧ OnlyRegs s { t with sup := s.sup, mem := s.mem, bank := s.bank } [supSvcStat, hdrIrqRaw pgSup, insoleCacheStat]
                  ∧ t.cacheUsed.map (·.1) = s.cacheUsed.map (·.1)
                  ∧ (∀ e ∈ s.cacheUsed, let off := 0x1000 + ((s.cacheUsed.filter fun f => decide (f.2.off < e.2.off)).map fun f => roomOf f.2.len).sum
                      off ≤ e.2.off ∧ t.cacheEnt e.1 = { e.2 with off := off } ∧ t.imageBytes { e.2 with off := off } = s.imageBytes e.2)
                  ∧ MemKeptBut s t cacheBase 0x600000)
            ∧ (j.code = 5 →
                let k := (a 0).toNat
                let v := (a 1).toNat
                (64 ≤ k ∨ 64 < v → Gives (exec .svcDone s) fun t => ends 12 t ∧ only s t [])
                ∧ (k < 64 → v ≤ 64 → v < s.svnOf k → Gives (exec .svcDone s) fun t => ends 7 t ∧ only s t [])
                ∧ (k < 64 → v ≤ 64 → s.svnOf k ≤ v → Gives (exec .svcDone s) fun t => ends 0 t ∧ t.svnOf k = v ∧ (∀ i, i ≠ k → t.svnOf i = s.svnOf i)
                    ∧ t.sup = { q with svc := none, svn := t.sup.svn } ∧ OnlyRegs s { t with sup := s.sup } [supSvcStat, hdrIrqRaw pgSup]))
            ∧ (j.code = 6 →
                let bad : Prop := 0x10000 ≤ (a 2).toNat ∨ ∃ n < 16, (a 2).getLsbD n = true ∧ s.st (pgEye n) ≠ stOff
                (bad → Gives (exec .svcDone s) fun t => ends 12 t ∧ only s t [])
                ∧ (¬ bad → Gives (exec .svcDone s) fun t =>
                    match s.cacheFind (a 0) ver 2 with
                    | none => ends 10 t ∧ only s t []
                    | some (_, d) =>
                      let ws := leWords (((s.imageBytes d).drop 256).take (bodyLen (s.imageBytes d)))
                      if s.recheck d ≠ 0 then ends (s.recheck d) t ∧ only s t []
                      else match pageRuns ws.length (ws.drop 1) with
                        | none => ends 1 t ∧ only s t []
                        | some runs =>
                          if bitsOf (ws.getD 0 0) 28 4 ≠ 1 ∨ bitsOf (ws.getD 0 0) 20 8 ≠ 1 then ends 1 t ∧ only s t []
                          else ends 0 t ∧ BlocksKept s t (((List.range 16).filter fun n => (a 2).getLsbD n).map pgEye) [supSvcStat, hdrIrqRaw pgSup]
                            ∧ ∀ n < 16, (a 2).getLsbD n = true → t.get (hdrVerImage (pgEye n)) = ver.toNat ∧ t.sup.eyeSvn.rd (0, 0) n = (d.svnIx, d.svn)
                              ∧ ((∀ x ∈ runs, 0x400 ≤ x.1 ∧ x.1 < 0x800 ∧ x.1 % 4 = 0) → ∀ i < 256,
                                let k := 0x1000 * pgEye n + 0x400 + 4 * i
                                t.reg k = match (runs.filter fun x => x.1 = 0x400 + 4 * i).getLast?, regRow k with
                                  | some x, some r => (s.reg k &&& ~~~r.rw) ||| (x.2 &&& r.rw)
                                  | _, _ => s.reg k))))))
    ∧ (∀ (p : Principal) (v : Word), s.reaches p = true → s.mayWrite p pgFlash = true → Gives (exec (.cmdGo p v) s) fun t =>
        if v.getLsbD 0 = false then t = s
        else if s.on pgFlash = false ∨ s.booted = false ∨ s.bit flashCmdStatBusy = true ∨ (∃ j, s.sup.svc = some j ∧ j.code = 3 ∧ j.early = false) then t.bit flashCmdStatRefused = true ∧ OnlyRegs s t [flashCmdStat]
        else t.bit flashCmdStatBusy = true ∧ OnlyRegs s { t with out := s.out, host := s.host } [flashCmdStat]
          ∧ let n := min (s.get flashCmdOpLen) 256
            t.host = { s.host with flashCmd := some (s.bit flashCmdOpWrite, n) }
            ∧ t.out = .flash (s.get flashCmdOpOpcode) (if s.bit flashCmdOpHasAddr then some (s.rn flashCmdAddr) else none) n
              (if s.bit flashCmdOpWrite then some ((List.range n).map fun i => BitVec.ofNat 8 (s.rn (flashData (i / 4)) / 256 ^ (i % 4))) else none) (s.reg flashCfg) :: s.out)
    ∧ (∀ data : List Byte, Gives (exec (.flashCmdDone data) s) fun t =>
        match s.host.flashCmd with
        | none => t = s
        | some (write, n) => t.bit flashCmdStatBusy = false ∧ (t.reg (hdrIrqRaw pgFlash)).getLsbD 1 = true ∧ t.host = { s.host with flashCmd := none } ∧ OnlyRegs s { t with host := s.host } ([flashCmdStat, hdrIrqRaw pgFlash] ++ (List.range 64).map flashData)
          ∧ ∀ i < 256, t.rn (flashData (i / 4)) / 256 ^ (i % 4) % 256 =
              if write = false ∧ i < n ∧ i < data.length then (data.getD i 0).toNat else s.rn (flashData (i / 4)) / 256 ^ (i % 4) % 256)
    ∧ (let isOpen : Prop := s.bit supDebugEnDebug = true ∧ s.alive = true
      let j (h : Bool × Nat) (x : Bool × Nat) (halt : Bool) : Prop := if halt = true then x = (true, 0) else if h.1 = true then x = (true, h.2 + 1) else x = h
      (¬ isOpen → ∀ (t : JtagTarget) (a : Word) (n : Nat) (w : Option (List Byte)), exec (.jtagHalt t) s = .next s ∧ exec (.jtagStep t) s = .next s ∧ (t ≠ .idcode → exec (.jtagMemory t a n w) s = .next s))
      ∧ (∀ (a : Word) (n : Nat) (w : List Byte), exec (.jtagHalt .idcode) s = .next s ∧ exec (.jtagStep .idcode) s = .next s ∧ exec (.jtagMemory .idcode a n (some w)) s = .next s
        ∧ exec (.jtagMemory .idcode a n none) s = .next (if s.chip.powered then s.emit (.jtag ((leBytes 4 Config.idcode.toNat).take n)) else s))
      ∧ (isOpen → ∀ (a : Word) (n : Nat), Gives (exec (.jtagMemory .supervisor a n none) s) fun t =>
          { t with out := s.out, free := s.free, sup := { t.sup with mem := s.sup.mem } } = s ∧ (s.sup.jtagHalt = false → t.sup.mem = s.sup.mem)
            ∧ ∃ l : List Byte, t.out = .jtag l :: s.out ∧ l.length = n ∧ (∀ k, k < a.toNat ∨ a.toNat + n ≤ k → t.sup.mem.rd none k = s.sup.mem.rd none k)
              ∧ ∀ i < n, (∀ b, s.sup.mem.rd none (a.toNat + i) = some b → l[i]? = some b) ∧ (s.sup.jtagHalt = true → t.sup.mem.rd none (a.toNat + i) = l[i]?))
      ∧ (isOpen → ∀ (a : Word) (n : Nat) (l : List Byte), Gives (exec (.jtagMemory .supervisor a n (some l)) s) fun t =>
          { t with sup := { t.sup with mem := s.sup.mem } } = s ∧ ∀ k, t.sup.mem.rd none k =
            if s.sup.jtagHalt = true ∧ a.toNat ≤ k ∧ k < a.toNat + l.length then l[k - a.toNat]? else s.sup.mem.rd none k)
      ∧ (isOpen → ∀ x ∈ [(true, exec (.jtagHalt .supervisor) s), (false, exec (.jtagStep .supervisor) s)], Gives x.2 fun t =>
          j (s.sup.jtagHalt, s.sup.jtagSteps) (t.sup.jtagHalt, t.sup.jtagSteps) x.1 ∧ t = { s with sup := { s.sup with
            jtagHalt := t.sup.jtagHalt, jtagSteps := t.sup.jtagSteps, mem := if x.1 = false ∧ s.sup.jtagHalt = true then [] else s.sup.mem } })
      ∧ (isOpen → ∀ (e : Fin 18), ∀ x ∈ [(true, exec (.jtagHalt (.engine e)) s), (false, exec (.jtagStep (.engine e)) s)], Gives x.2 fun t =>
          j ((s.peOf e.val).jtagHalt, (s.peOf e.val).jtagSteps) ((t.peOf e.val).jtagHalt, (t.peOf e.val).jtagSteps) x.1
            ∧ (t = s ∨ t = s.setPe e.val { s.peOf e.val with jtagHalt := (t.peOf e.val).jtagHalt, jtagSteps := (t.peOf e.val).jtagSteps }))
      ∧ (isOpen → ∀ (e : Fin 16), ∀ x ∈ [(true, exec (.jtagHalt (.eyelet e)) s), (false, exec (.jtagStep (.eyelet e)) s)], Gives x.2 fun t =>
          j ((s.eyeOf e.val).jtagHalt, (s.eyeOf e.val).jtagSteps) ((t.eyeOf e.val).jtagHalt, (t.eyeOf e.val).jtagSteps) x.1
            ∧ (t = s ∨ t = s.setEye e.val { s.eyeOf e.val with jtagHalt := (t.eyeOf e.val).jtagHalt, jtagSteps := (t.eyeOf e.val).jtagSteps }))
      ∧ (isOpen → ∀ (e : Fin 18) (a : Word) (l : List Byte),
          (0x20000 < a.toNat + l.length → ∀ w, exec (.jtagMemory (.engine e) a l.length w) s = .next (s.emit (.jtag [])))
          ∧ (a.toNat + l.length ≤ 0x20000 → s.reaches .sup = true → l ≠ [] →
              let addr : Word := BitVec.ofNat 32 (engBase e.val + a.toNat)
              Gives (exec (.bankAccess .sup addr l.length none) s) (fun u => Gives (exec (.jtagMemory (.engine e) a l.length none) s) fun t => t.out = .jtag u.rbytes :: s.out ∧ core t = core u)
              ∧ Gives (exec (.bankAccess .sup addr l.length (some l)) s) (fun u => Gives (exec (.jtagMemory (.engine e) a l.length (some l)) s) fun t => t.out = s.out ∧ core t = core u)))
      ∧ (isOpen → ∀ (e : Fin 16) (a : Word) (b : Byte) (l : List Byte),
          let page := 0x1000 * pgEye e.val
          (0x400 ≤ a.toNat → a.toNat + l.length ≤ 0x800 → exec (.jtagMemory (.eyelet e) a l.length none) s
              = .next (s.emit (.jtag ((List.range l.length).map fun i => BitVec.ofNat 8 ((s.shown .sup (page + (a.toNat + i) / 4 * 4)).toNat / 256 ^ ((a.toNat + i) % 4))))))
          ∧ (0x400 ≤ a.toNat → a.toNat < 0x800 → s.reaches .sup = true →
              let k := page + a.toNat / 4 * 4
              exec (.jtagMemory (.eyelet e) a 1 (some [b])) s = exec (.registerWrite .sup (BitVec.ofNat 24 k) 4 ((withBits (s.shown .sup k) (8 * (a.toNat % 4)) 8 b.toNat).setWidth 64)) s)
          ∧ (0x400 ≤ a.toNat → a.toNat + (l.length + 1) ≤ 0x800 → l ≠ [] → Gives (exec (.jtagMemory (.eyelet e) a 1 (some [b])) s) fun u => s.debugOn = true → u.debugOn = true →
              exec (.jtagMemory (.eyelet e) a (l.length + 1) (some (b :: l))) s = exec (.jtagMemory (.eyelet e) (a + 1) l.length (some l)) u)))

/-- At a watchdog expiry of a supervisor that runs or starts, RESTARTS goes up, SUP reads STARTING with its retained
fields kept and the others at reset, a service or a commit in progress is abandoned, and C1 is recorded; at a fourth
expiry within 60 s it is lost then. The restart's end makes it ON with the firmware found, or lost without any. A
loss, where its reason holds, sets LOST, drives FAULT_N low, discards proposals, held values and a commit, whose
record comes first, and records C3 with its reason. INJ_GO takes an injection only with DEBUG = 1, BUSY = 0 and a
target of Table 17-7, else it sets REFUSED and INJ_REFUSED; CLEAR ends what persists. An accepted injection acts as
Table 17-7 says; an engine or supervisor fault differs from the real one in its record's INJECTED bit alone; a
corrupted word of the switch's memories stays until it is read or written (which descriptor takes it is free,
assumption row 216). (The reason an injected loss records is a free value, assumption row 4.) FORCE is set only with
DEBUG = 1. A record stands at HEAD with SEQ, cause, class, page, instance, details and time; FLT not ON, it waits in
the boot queue. (Rests on the model's own readings and choices in assumption rows 29, 141, 142, 143, 144, 145 and
216.) -/
def Obligations.SupervisorRestartsLossAndInjectedFaults : Prop :=
  ∀ s : State,
    let recd (u t : State) (cause cls page inst d0 d1 : Nat) (inj : Bool) : Prop :=
      let r := u.get fltHeadNext
      if u.on pgFlt = true then
        t.rn (fltCountC cls) = min 0xFFFFFFFF (u.rn (fltCountC cls) + 1) ∧ (t.reg fltWorst).getLsbD cls = true ∧ (t.reg (hdrIrqRaw pgFlt)).getLsbD (1 + cls) = true
          ∧ (cls ≠ 0 ∨ u.flt.newest = none → t.reg (fltRec r 0) = u.reg fltSeqNext
            ∧ t.rn (fltRec r 1) = cause + cls * 0x100 + (if inj then 0x400 else 0) + (if u.booted then 0 else 0x800) + page * 0x1000 + inst * 0x1000000
            ∧ t.rn (fltRec r 2) = d0 ∧ t.rn (fltRec r 3) = d1 ∧ t.rn (fltRec r 4) = 0 ∧ t.rn (fltRec r 5) + t.rn (fltRec r 6) * 2 ^ 32 = u.nowStamp.toNat ∧ t.reg (fltRec r 7) = u.taiSec
            ∧ t.reg fltSeqNext = u.reg fltSeqNext + 1 ∧ t.get fltHeadNext = (r + 1) % 64 ∧ t.flt.newest = some r
            ∧ (u.recWord r 1 ≠ 0 → t.rn fltOverwritten = min 0xFFFFFFFF (u.rn fltOverwritten + 1) ∧ (t.reg (hdrIrqRaw pgFlt)).getLsbD 5 = true))
      else if u.flt.bootQ.length < 16 then t.flt.bootQ = u.flt.bootQ ++ [⟨cause, cls, inj, page, inst, BitVec.ofNat 32 d0, BitVec.ofNat 32 d1, u.nowStamp, u.taiSec⟩] ∧ t.flt.bootLost = u.flt.bootLost
      else t.flt.bootQ = u.flt.bootQ ∧ t.flt.bootLost.rd 0 cls = u.flt.bootLost.rd 0 cls + 1
    let dropped (t : State) : Prop := t.commit = none ∧ (s.commit ≠ none → t.bit insoleCommitStatBusy = false ∧ t.get insoleCommitStatRefused = 6 ∧ (t.reg (hdrIrqRaw pgInsole)).getLsbD 2 = true)
    let late : List Nat := (s.sup.expiries.filter fun a => decide (s.chip.aclk ≤ a + 1500000000)) ++ [s.chip.aclk]
    let expires (t : State) (inj : Bool) : Prop :=
      t.supRestarting = true ∧ t.st pgSup = stStarting ∧ (t.reg (hdrIrqRaw pgSup)).getLsbD 2 = true ∧ t.rn supRestarts = min 0xFFFF (s.get supRestartsCount + 1)
        ∧ t.sup = { s.sup with svc := none, firmware := none, fwSvn := (0, 0), jtagHalt := false, jtagSteps := 0, mem := [], expiries := late } ∧ t.epochOf 0x3F = s.epochOf 0x3F + 1 ∧ dropped t
        ∧ (s.commit = none → recd s t 0x10 1 pgSup 0 (t.rn supRestarts) 0 inj ∧ BlocksKept s t [pgSup, pgFlt, pgLace] [] ∧ { t with regs := s.regs, sup := s.sup, flt := s.flt, irq := s.irq } = s ∧ t.irq.msixOn = s.irq.msixOn)
        ∧ ∀ i < 0x400, let k := 0x1000 * pgSup + 4 * i
            k ∉ [supRestarts, hdrState pgSup, hdrIrqRaw pgSup, hdrErrCause pgSup, hdrSeq pgSup] → match regRow k with
              | some r => t.reg k &&& r.ret = s.reg k &&& r.ret ∧ t.reg k &&& ~~~r.ret = regReset k &&& ~~~r.ret
              | none => t.reg k = s.reg k
    let lost (t : State) (reason : Nat) (inj : Bool) : Prop :=
      t.supLost = true ∧ t.supRestarting = false ∧ t.faultNLow = true ∧ dropped t ∧ (∀ j < 16, t.stOpen j = false) ∧ t.prot.held = []
        ∧ (s.commit = none → recd s t 0x11 3 pgSup 0 reason 0 inj)
        ∧ (s.commit ≠ none → s.on pgFlt = true → t.rn (fltRec (s.get fltHeadNext) 1) % 0x100 = 0x13 ∧ t.rn (fltRec ((s.get fltHeadNext + 1) % 64) 1) % 0x100 = 0x11)
        ∧ (∀ j < 16, s.stOpen j = true → t.get (hdrLockOutcome (firstPage (s.get (protStageAddrAddr j) / 0x1000))) = ocSupLost)
        ∧ BlocksKept s t [pgProt, pgFlt] ((if s.commit = none then [] else [insoleCommitStat, hdrIrqRaw pgInsole])
            ++ ((List.range 16).map protStageAddrAddr ++ s.prot.held.map fun e => protStageAddrAddr e.1.val).map fun f => hdrLock (firstPage (s.get f / 0x1000)))
        ∧ MemKept s t ∧ t.sup = s.sup
    (let can : Prop := s.alive = true ∧ s.supLost = false ∧ (s.on pgSup = true ∨ s.st pgSup = stStarting)
     (¬ can → exec .supWatchdog s = .next s) ∧ (can → late.length < 4 → Gives (exec .supWatchdog s) fun t => expires t false)
      ∧ (can → 4 ≤ late.length → Gives (exec .supWatchdog { s with sup := { s.sup with expiries := [] } }) fun u => Gives (exec .supWatchdog s) fun t =>
          t.supLost = true ∧ t.supRestarting = false ∧ t.faultNLow = true ∧ t.commit = none ∧ (∀ j < 16, t.stOpen j = false) ∧ t.prot.held = []
            ∧ t.rn supRestarts = u.rn supRestarts ∧ t.sup = { u.sup with expiries := late } ∧ (s.commit = none → recd u t 0x11 3 pgSup 0 1 0 false)))
    ∧ (∀ fw : Bool, (s.supRestarting = false ∨ s.supLost = true ∨ fw ≠ s.firmwareFound.isSome → exec (.supRestartDone fw) s = .next s)
        ∧ (∀ f : (Word × Half) × Nat × Nat, s.supRestarting = true → s.supLost = false → s.firmwareFound = some f → Gives (exec (.supRestartDone true) s) fun t =>
            t.supRestarting = false ∧ t.on pgSup = true ∧ (t.reg (hdrIrqRaw pgSup)).getLsbD 0 = true ∧ t.sup = { s.sup with firmware := some f.1, fwSvn := f.2, svn := t.sup.svn }
              ∧ (let runs : List (Nat × Nat) := f.2 :: ((List.range 18).filter fun n => s.on (pgPe n)).map (fun n => (s.peOf n).svn) ++ ((List.range 16).filter fun n => s.on (pgEye n)).map fun n => s.sup.eyeSvn.rd (0, 0) n
                ∀ k, t.svnOf k = if s.bit supKeyPolicySvnAuto = true ∧ s.booted = true then ((runs.filter fun x => x.1 == k).map (·.2)).foldl max (s.svnOf k) else s.svnOf k)
              ∧ OnlyRegs s { t with sup := s.sup } [fltSup, hdrState pgSup, hdrIrqRaw pgSup])
        ∧ (s.supRestarting = true → s.supLost = false → s.firmwareFound = none → Gives (exec (.supRestartDone false) s) fun t => lost t 0 false))
    ∧ (∀ r : Fin 3,
        let holds : Prop := if r = 0 then s.st pgSup = stStarting ∧ s.firmwareFound = none else if r = 1 then 4 ≤ s.sup.expiries.length else s.supRestarting = true
        (s.alive = true → s.supLost = false → holds → Gives (exec (.supLost r) s) fun t => lost t r.val false)
        ∧ (s.alive = false ∨ s.supLost = true ∨ ¬holds → exec (.supLost r) s = .next s))
    ∧ (∀ (p : Principal) (v : Word), s.reaches p = true → s.mayWrite p pgFlt = true → ∀ o ∈ [exec (.injGo p v) s, exec (.clear p v) s], Gives o fun t =>
        let kind := s.get fltInjTargetKind
        let inst := s.get fltInjTargetInstance
        let arg := s.get fltInjTargetArg
        let a := s.rn fltInjAddr
        let inBank : Prop := 0x10000000 ≤ a ∧ a ≤ 0x15FFFFFF ∧ s.bit (bankBankstFailed ((a - 0x10000000) / 0x80000)) = false
        let target : Prop := (kind = 1 ∧ inBank) ∨ (kind = 2 ∧ inBank ∧ arg % 64 ≠ arg / 256 % 64) ∨ (3 ≤ kind ∧ kind ≤ 5 ∧ inst ≤ 17) ∨ kind ∈ [6, 8, 11, 12] ∨ (kind = 7 ∧ inst ≤ 63) ∨ ((kind = 9 ∨ kind = 10) ∧ inst ≤ 1)
        let takes : Prop := v.getLsbD 0 = true ∧ s.bit supDebugEnDebug = true ∧ s.bit fltInjStatBusy = false ∧ target
        (v.getLsbD 1 = true → t.injPersists = false) ∧ (v.getLsbD 1 = false → t.shank = s.shank ∧ t.welt = s.welt)
          ∧ (∀ l, s.shank.injLane = some (l, false) → t.shank.injLane = s.shank.injLane)
          ∧ (takes → t.bit fltInjStatBusy = true ∧ t.flt = { s.flt with inj := some (kind, inst, BitVec.ofNat 16 arg, s.reg fltInjAddr) } ∧ OnlyRegs s { t with flt := s.flt, shank := s.shank, welt := s.welt } [fltInjStat])
          ∧ (v.getLsbD 0 = true → ¬ takes → t.bit fltInjStatRefused = true ∧ (t.reg (hdrErrCause pgFlt)).getLsbD 8 = true ∧ OnlyRegs s { t with shank := s.shank, welt := s.welt } [fltInjStat, hdrErrCause pgFlt])
          ∧ (v.getLsbD 0 = false → { t with shank := s.shank, welt := s.welt } = s)
          ∧ { t.shank with injLane := s.shank.injLane } = s.shank ∧ ∀ n < 2, { t.weltOf n with injCrc := (s.weltOf n).injCrc, injShift := (s.weltOf n).injShift, shifted := (s.weltOf n).shifted } = s.weltOf n)
    ∧ (s.flt.inj = none → exec .injectionAct s = .next s)
    ∧ (∀ (kind inst : Nat) (arg : Half) (addr : Word), s.flt.inj = some (kind, inst, arg, addr) →
        let x := arg.toNat
        let s' : State := { s.putb fltInjStatBusy false with flt := { s.flt with inj := none } }
        let flips (t : State) (bits : List Nat) : Prop :=
          let g := addr.toNat / 8
          (∀ i < 8, t.byte (8 * g + i) = s.byte (8 * g + i) ^^^ BitVec.ofNat 8 ((List.range 8).map fun b => if bits.contains (8 * i + b) then 2 ^ b else 0).sum) ∧ MemKeptBut s t (8 * g) 8
            ∧ (s.markOf g = none → t.markOf g = some ⟨bits, true⟩) ∧ (∀ h, h ≠ g → t.markOf h = s.markOf h) ∧ { t with mem := s.mem, bank := s.bank } = s'
        let marked (u t : State) (n : Nat) : Prop := if s.on pgFlt = true then
            let ks := (List.range n).map fun i => fltRec ((s.get fltHeadNext + i) % 64) 1
            (∀ k ∈ ks, t.reg k = u.reg k ||| 0x400) ∧ OnlyRegs u t ks
          else { t with flt := u.flt } = u ∧ t.flt.bootQ = u.flt.bootQ.take s.flt.bootQ.length ++ (u.flt.bootQ.drop s.flt.bootQ.length).map fun f => { f with injected := true }
        (kind = 1 → Gives (exec .injectionAct s) fun t => flips t [x % 64])
        ∧ (kind = 2 → x % 64 ≠ x / 256 % 64 → Gives (exec .injectionAct s) fun t => flips t [x % 64, x / 256 % 64])
        ∧ (∀ e : EngIx, e.val = inst →
            (kind ∈ [3, 4, 5] → s'.canFault inst = false → exec .injectionAct s = .next s')
            ∧ (kind ∈ [3, 4] → s'.canFault inst = true → Gives (exec .injectionAct s) fun t => t.st (pgPe inst) = stFault ∧ (kind = 3 → (t.reg (hdrIrqRaw (pgPe inst))).getLsbD 2 = true)
                ∧ (s.on pgFlt = true → t.rn (fltRec (s.get fltHeadNext) 1) % 0x100 = 4 ∧ (t.reg (fltRec (s.get fltHeadNext) 1)).getLsbD 10 = true ∧ t.rn (fltRec (s.get fltHeadNext) 2) = (if kind = 3 then 0 else 1)))
            ∧ (∀ sp : Fin 4, sp.val = x % 4 → kind = 5 → s'.canFault inst = true → Gives (exec (.lockstepMismatch e sp) s') fun u => Gives (exec .injectionAct s) fun t => marked u t 1))
        ∧ (kind = 6 → exec .injectionAct s = .next { s' with shank := { s.shank with injLane := some (x % 4, arg.getLsbD 8) } })
        ∧ (kind = 7 → exec .injectionAct s = .next (s'.setChan inst { s.chanOf inst with stateErr := if arg.getLsbD 0 then 2 else 1 }))
        ∧ (kind = 8 →
            let i := addr.toNat % 0x10000
            let descs (t : State) : List Desc := t.swc.queues.flatMap fun e => e.2
            let planted : Prop := i ∈ s.swc.badDescs ∨ ∃ d ∈ descs s, d.bad = some i
            (arg.getLsbD 0 = true → exec .injectionAct s = .next { s' with swc := { s.swc with badLinks := i :: s.swc.badLinks.filter (· != i) } })
            ∧ (arg.getLsbD 0 = false → planted → exec .injectionAct s = .next s')
            ∧ (arg.getLsbD 0 = false → ¬planted → Gives (exec .injectionAct s) fun t => { t with swc := { t.swc with queues := s.swc.queues, badDescs := s.swc.badDescs }, free := s.free } = s'
                ∧ t.swc.queues.map (fun e => (e.1, e.2.length)) = s.swc.queues.map (fun e => (e.1, e.2.length))
                ∧ ((descs t = descs s ∧ t.swc.badDescs = s.swc.badDescs ++ [i])
                  ∨ (t.swc.badDescs = s.swc.badDescs ∧ ∃ k < (descs s).length, descs t = (descs s).modify k fun d => { d with bad := some i }))))
        ∧ (kind = 9 → exec .injectionAct s = .next (s'.setWelt inst { s.weltOf inst with injCrc := (s.weltOf inst).injCrc.wr 0 (x % 2) (x / 256) }))
        ∧ (kind = 10 → exec .injectionAct s = .next (s'.setWelt inst { s.weltOf inst with injShift := x % 256 }))
        ∧ (kind = 11 → Gives (exec .supWatchdog s') fun u => Gives (exec .injectionAct s) fun t => if u = s' ∨ s.commit ≠ none then u = s' → t = s' else marked u t (if late.length < 4 then 1 else 2))
        ∧ (kind = 12 → (arg ≠ 0xC3C3 ∨ s.supLost = true → exec .injectionAct s = .next s')
            ∧ (arg = 0xC3C3 → s.supLost = false → Gives (exec .injectionAct s) fun t => lost t (Config.free 7 s.free).toNat true)))
    ∧ (∀ (p : Principal) (v : Word), s.reaches p = true → s.mayWrite p pgFlt = true → Gives (exec (.faultnForce p v) s) fun t =>
        (v.getLsbD 1 = false → t.bit fltFaultnForce = false ∧ OnlyRegs s t [fltFaultn])
        ∧ (v.getLsbD 1 = true → s.bit supDebugEnDebug = true → t.bit fltFaultnForce = true ∧ t.faultNLow = true ∧ OnlyRegs s t [fltFaultn])
        ∧ (v.getLsbD 1 = true → s.bit supDebugEnDebug = false → (t.reg (hdrErrCause pgFlt)).getLsbD 8 = true ∧ OnlyRegs s t [hdrErrCause pgFlt]))
end

