-- ==== Sys2Proof/Laws/Sparse.lean ====
section
/-! SUPPORT. Laws of sparse data: what a read gives after a write, and that every operation keeps the canonical form. -/
namespace Sys2Proof.Machine

section
variable {α : Type}

theorem Sparse.rd_del_same (d : α) (m : Sparse α) (k : Nat) : (m.del k).rd d k = d := by
  induction m with
  | nil => rfl
  | cons e t ih =>
    by_cases h : e.1 = k
    · simpa [Sparse.del, h] using ih
    · simp only [Sparse.del] at ih
      simp [Sparse.del, Sparse.rd, h, ih]

theorem Sparse.rd_filter (d : α) (m : Sparse α) (f : Nat × α → Bool) (k : Nat)
    (h : ∀ v, f (k, v) = true) : Sparse.rd d (m.filter f) k = m.rd d k := by
  induction m with
  | nil => rfl
  | cons e t ih =>
    obtain ⟨k', v⟩ := e
    by_cases hk : k' = k
    · subst hk; simp [Sparse.rd, h v]
    · cases hf : f (k', v) <;> simp [Sparse.rd, hk, hf, ih]

theorem Sparse.rd_filter_out (d : α) (m : Sparse α) (f : Nat × α → Bool) (k : Nat)
    (h : ∀ v, f (k, v) = false) : Sparse.rd d (m.filter f) k = d := by
  induction m with
  | nil => rfl
  | cons e t ih =>
    obtain ⟨k', v⟩ := e
    by_cases hk : k' = k
    · subst hk; simp [h v, ih]
    · cases hf : f (k', v) <;> simp [Sparse.rd, hk, hf, ih]

theorem Sparse.rd_del_ne (d : α) (m : Sparse α) {k k' : Nat} (h : k' ≠ k) : (m.del k).rd d k' = m.rd d k' :=
  Sparse.rd_filter d m _ k' (by simp [h])

theorem Sparse.rd_put_same (d : α) (m : Sparse α) (k : Nat) (v : α) : (m.put k v).rd d k = v := by
  induction m with
  | nil => simp [Sparse.put, Sparse.rd]
  | cons e t ih =>
    by_cases h : e.1 < k
    · have : e.1 ≠ k := by omega
      simp [Sparse.put, Sparse.rd, h, this, ih]
    · simp [Sparse.put, Sparse.rd, h]

theorem Sparse.rd_put_ne (d : α) (m : Sparse α) {k k' : Nat} (v : α) (h : k' ≠ k) : (m.put k v).rd d k' = m.rd d k' := by
  induction m with
  | nil => simp [Sparse.put, Sparse.rd, Ne.symm h]
  | cons e t ih =>
    by_cases hl : e.1 < k
    · simp [Sparse.put, Sparse.rd, hl, ih]
    · simp only [Sparse.put, hl, if_false, Sparse.rd, Ne.symm h]
      exact Sparse.rd_del_ne d (e :: t) h

@[simp] theorem Sparse.rd_wr_same [DecidableEq α] (d : α) (m : Sparse α) (k : Nat) (v : α) : (m.wr d k v).rd d k = v := by
  unfold Sparse.wr
  split
  · rename_i h; rw [Sparse.rd_del_same, h]
  · exact Sparse.rd_put_same d m k v

theorem Sparse.rd_wr_ne [DecidableEq α] (d d' : α) (m : Sparse α) {k k' : Nat} (v : α) (h : k' ≠ k) :
    (m.wr d k v).rd d' k' = m.rd d' k' := by
  unfold Sparse.wr
  split
  · exact Sparse.rd_del_ne d' m h
  · exact Sparse.rd_put_ne d' m v h

/-! ## The canonical form -/

variable [DecidableEq α]

theorem Sparse.wfFrom_mono (d : Nat → α) (m : Sparse α) {a b : Nat} (h : a ≤ b) (w : m.wfFrom d b = true) :
    m.wfFrom d a = true := by
  cases m with
  | nil => rfl
  | cons e t =>
    simp only [Sparse.wfFrom, Bool.and_eq_true, decide_eq_true_eq] at w ⊢
    exact ⟨⟨by omega, w.1.2⟩, w.2⟩

theorem Sparse.wfFrom_filter (d : Nat → α) (f : Nat × α → Bool) (m : Sparse α) (a : Nat) (w : m.wfFrom d a = true) :
    Sparse.wfFrom d a (m.filter f) = true := by
  induction m generalizing a with
  | nil => rfl
  | cons e t ih =>
    simp only [Sparse.wfFrom, Bool.and_eq_true, decide_eq_true_eq] at w
    have h := ih (e.1 + 1) w.2
    cases hf : f e with
    | true => simp [hf, Sparse.wfFrom, w.1, h]
    | false => simpa [hf] using Sparse.wfFrom_mono d _ (by omega) h

/-- Taking cells away keeps the canonical form. -/
theorem Sparse.wf_filter (d : Nat → α) (f : Nat × α → Bool) (m : Sparse α) (w : m.wf d = true) :
    Sparse.wf d (m.filter f) = true := Sparse.wfFrom_filter d f m 0 w

theorem Sparse.wfFrom_drop (d : Nat → α) (m : Sparse α) (a b : Nat) (w : m.wfFrom d a = true)
    (h : ∀ e ∈ m, b ≤ e.1) : m.wfFrom d b = true := by
  cases m with
  | nil => rfl
  | cons e t =>
    simp only [Sparse.wfFrom, Bool.and_eq_true, decide_eq_true_eq] at w ⊢
    exact ⟨⟨h e (by simp), w.1.2⟩, w.2⟩

theorem Sparse.wfFrom_mem (d : Nat → α) (m : Sparse α) (a : Nat) (w : m.wfFrom d a = true) : ∀ e ∈ m, a ≤ e.1 := by
  induction m generalizing a with
  | nil => simp
  | cons x t ih =>
    simp only [Sparse.wfFrom, Bool.and_eq_true, decide_eq_true_eq] at w
    intro e he
    rcases List.mem_cons.1 he with rfl | he
    · exact w.1.1
    · have := ih _ w.2 e he; omega

theorem Sparse.wfFrom_append (d : Nat → α) (x y : Sparse α) (a b : Nat) (wx : x.wfFrom d a = true) (hx : ∀ e ∈ x, e.1 < b)
    (hab : a ≤ b) (wy : y.wfFrom d b = true) : Sparse.wfFrom d a (x ++ y) = true := by
  induction x generalizing a with
  | nil => simpa using Sparse.wfFrom_mono d y hab wy
  | cons e t ih =>
    simp only [Sparse.wfFrom, Bool.and_eq_true, decide_eq_true_eq] at wx
    have h1 : e.1 < b := hx e (by simp)
    have := ih (e.1 + 1) wx.2 (fun z hz => hx z (by simp [hz])) (by omega)
    simp [Sparse.wfFrom, wx.1, this]

theorem Sparse.wfFrom_put (d : Nat → α) (m : Sparse α) (a k : Nat) (v : α) (w : m.wfFrom d a = true) (hk : a ≤ k)
    (hv : v ≠ d k) : (m.put k v).wfFrom d a = true := by
  induction m generalizing a with
  | nil => simp [Sparse.put, Sparse.wfFrom, hk, hv]
  | cons e t ih =>
    simp only [Sparse.wfFrom, Bool.and_eq_true, decide_eq_true_eq] at w
    by_cases h : e.1 < k
    · have := ih (e.1 + 1) w.2 (by omega)
      simp [Sparse.put, Sparse.wfFrom, h, w.1, this]
    · have wd : Sparse.wfFrom d a (Sparse.del (e :: t) k) = true :=
        Sparse.wfFrom_filter d _ (e :: t) a (by simp [Sparse.wfFrom, w])
      have wk : Sparse.wfFrom d (k + 1) (Sparse.del (e :: t) k) = true := by
        refine Sparse.wfFrom_drop d _ a (k + 1) wd ?_
        intro z hz
        have hz' := List.mem_filter.1 hz
        have hne : z.1 ≠ k := by simpa using hz'.2
        have hm : e.1 ≤ z.1 := by
          rcases List.mem_cons.1 hz'.1 with rfl | ht
          · exact Nat.le_refl _
          · have := Sparse.wfFrom_mem d t _ w.2 z ht; omega
        omega
      simp [Sparse.put, h, Sparse.wfFrom, hk, hv, wk]

/-- A write keeps the canonical form. -/
theorem Sparse.wf_wr (d : Nat → α) (m : Sparse α) (k : Nat) (v : α) (w : m.wf d = true) : (m.wr (d k) k v).wf d = true := by
  unfold Sparse.wr
  split
  · exact Sparse.wf_filter d _ m w
  · rename_i h; exact Sparse.wfFrom_put d m 0 k v w (Nat.zero_le k) h

end

/-! ## Memory -/

/-- Reset memory has the canonical form. -/
theorem Memory.wf_reset : Memory.wf State.reset.mem = true := rfl

theorem Memory.wf_filter (m : Sparse Byte) (f : Nat × Byte → Bool) (w : Memory.wf m = true) :
    Memory.wf (m.filter f) = true := Sparse.wf_filter _ f m w

theorem State.setByte_wf (s : State) (a : Nat) (b : Byte) (w : Memory.wf s.mem = true) :
    Memory.wf (s.setByte a b).mem = true := Sparse.wf_wr (fun _ => 0) s.mem a b w

theorem cellsOf_zero (t : List Byte) (a : Nat) : cellsOf a (0#8 :: t) = cellsOf (a + 1) t := by
  simp [cellsOf, List.zipIdx_cons]

theorem cellsOf_pos (b : Byte) (t : List Byte) (a : Nat) (h : b ≠ 0#8) :
    cellsOf a (b :: t) = (a, b) :: cellsOf (a + 1) t := by
  simp [cellsOf, List.zipIdx_cons, h]

theorem cellsOf_wf (l : List Byte) (a : Nat) :
    Sparse.wfFrom (fun _ => (0 : Byte)) a (cellsOf a l) = true ∧ ∀ e ∈ cellsOf a l, e.1 < a + l.length := by
  induction l generalizing a with
  | nil => simp [cellsOf, Sparse.wfFrom]
  | cons b t ih =>
    have h := ih (a + 1)
    by_cases hb : b = 0#8
    · subst hb
      rw [cellsOf_zero, List.length_cons]
      exact ⟨Sparse.wfFrom_mono _ _ (Nat.le_succ a) h.1, fun z hz => by have := h.2 z hz; omega⟩
    · rw [cellsOf_pos b t a hb, List.length_cons]
      refine ⟨?_, ?_⟩
      · simp only [Sparse.wfFrom, Bool.and_eq_true, decide_eq_true_eq]
        exact ⟨⟨Nat.le_refl a, hb⟩, h.1⟩
      · intro z hz
        rcases List.mem_cons.1 hz with rfl | hz
        · simp
        · have := h.2 z hz; omega

theorem State.setBytes_wf (s : State) (a : Nat) (l : List Byte) (w : Memory.wf s.mem = true) :
    Memory.wf (s.setBytes a l).mem = true := by
  have hc := cellsOf_wf l a
  have hl : Sparse.wfFrom (fun _ => (0 : Byte)) 0 (s.mem.filter fun c => c.1 < a) = true := Sparse.wf_filter _ _ _ w
  have hh : Sparse.wfFrom (fun _ => (0 : Byte)) (a + l.length) (s.mem.filter fun c => a + l.length ≤ c.1) = true :=
    Sparse.wfFrom_drop _ _ 0 _ (Sparse.wf_filter _ _ _ w) (by
      intro e he; simpa using (List.mem_filter.1 he).2)
  simp only [State.setBytes, Memory.wf, Sparse.wf]
  rw [List.append_assoc]
  refine Sparse.wfFrom_append _ _ _ 0 a hl ?_ (Nat.zero_le a) (Sparse.wfFrom_append _ _ _ a _ hc.1 hc.2 (by omega) hh)
  intro e he; simpa using (List.mem_filter.1 he).2

theorem State.byte_setByte_same (s : State) (a : Nat) (b : Byte) : (s.setByte a b).byte a = b :=
  Sparse.rd_wr_same 0 s.mem a b

theorem State.byte_setByte_ne (s : State) {a x : Nat} (b : Byte) (h : x ≠ a) : (s.setByte a b).byte x = s.byte x :=
  Sparse.rd_wr_ne 0 0 s.mem b h

theorem Sparse.rd_append {α : Type} (d : α) (x y : Sparse α) (k : Nat) (h : ∀ e ∈ x, e.1 ≠ k) :
    Sparse.rd d (x ++ y) k = y.rd d k := by
  induction x with
  | nil => rfl
  | cons e t ih =>
    have h1 : e.1 ≠ k := h e (by simp)
    have := ih (fun z hz => h z (by simp [hz]))
    simp only [List.cons_append, Sparse.rd, h1, if_false]
    exact this

theorem Sparse.rd_append_zero (x t : Sparse Byte) (k : Nat) (h : Sparse.rd 0 t k = 0) :
    Sparse.rd 0 (x ++ t) k = Sparse.rd 0 x k := by
  induction x with
  | nil => rw [List.nil_append, h]; rfl
  | cons e u ih =>
    simp only [List.cons_append, Sparse.rd]
    split
    · rfl
    · exact ih

theorem cellsOf_keys (l : List Byte) (a : Nat) : ∀ e ∈ cellsOf a l, a ≤ e.1 ∧ e.1 < a + l.length := fun e he =>
  ⟨Sparse.wfFrom_mem _ _ a (cellsOf_wf l a).1 e he, (cellsOf_wf l a).2 e he⟩

/-- Bytes outside the stored range read as before. -/
theorem State.byte_setBytes_out (s : State) (a : Nat) (l : List Byte) (x : Nat) (h : x < a ∨ a + l.length ≤ x) :
    (s.setBytes a l).byte x = s.byte x := by
  have hf (f : Nat × Byte → Bool) (hx : ∀ v, f (x, v) = false) : ∀ e ∈ s.mem.filter f, e.1 ≠ x := by
    intro e he hk
    have := (List.mem_filter.1 he).2
    obtain ⟨k, v⟩ := e
    simp only at hk; subst hk
    rw [hx v] at this; exact absurd this (by simp)
  have hcell : ∀ e ∈ cellsOf a l, e.1 ≠ x := by
    intro e he hk
    have := cellsOf_keys l a e he
    omega
  simp only [State.setBytes, State.byte]
  rw [List.append_assoc]
  rcases h with h | h
  · have e1 : Sparse.rd (0 : Byte) (cellsOf a l ++ s.mem.filter fun c => decide (a + l.length ≤ c.1)) x = 0 := by
      rw [Sparse.rd_append 0 _ _ x hcell]
      exact Sparse.rd_filter_out 0 s.mem _ x (fun v => by simp; omega)
    rw [Sparse.rd_append_zero _ _ _ e1]
    exact Sparse.rd_filter 0 s.mem _ x (fun v => by simpa using h)
  · rw [Sparse.rd_append 0 _ _ x (hf _ (fun v => by simp; omega)), Sparse.rd_append 0 _ _ x hcell]
    exact Sparse.rd_filter 0 s.mem _ x (fun v => by simpa using h)

theorem cellsOf_rd (l : List Byte) (a i : Nat) (h : i < l.length) : (cellsOf a l).rd 0 (a + i) = l[i] := by
  induction l generalizing a i with
  | nil => simp at h
  | cons b t ih =>
    by_cases hb : b = 0#8
    · subst hb
      rw [cellsOf_zero]
      cases i with
      | zero =>
        have hn : ∀ z ∈ cellsOf (a + 1) t, z.1 ≠ a := by
          intro z hz hk; have := cellsOf_keys t (a + 1) z hz; omega
        have h0 := Sparse.rd_append (0 : Byte) (cellsOf (a + 1) t) [] a hn
        rw [List.append_nil] at h0
        exact h0
      | succ j =>
        have hj := ih (a + 1) j (by simpa using h)
        rw [show a + (j + 1) = a + 1 + j by omega, hj]; rfl
    · rw [cellsOf_pos b t a hb]
      cases i with
      | zero => simp [Sparse.rd]
      | succ j =>
        have hj := ih (a + 1) j (by simpa using h)
        rw [show a + (j + 1) = a + 1 + j by omega]
        have : ¬ a = a + 1 + j := by omega
        simp only [Sparse.rd, this, if_false]
        exact hj

/-- A stored byte reads back. -/
theorem State.byte_setBytes_in (s : State) (a : Nat) (l : List Byte) (i : Nat) (h : i < l.length) :
    (s.setBytes a l).byte (a + i) = l[i] := by
  have hlo : ∀ e ∈ s.mem.filter (fun c => decide (c.1 < a)), e.1 ≠ a + i := by
    intro e he hk
    have := (List.mem_filter.1 he).2
    simp only [decide_eq_true_eq] at this; omega
  simp only [State.setBytes, State.byte]
  rw [List.append_assoc, Sparse.rd_append 0 _ _ _ hlo]
  rw [Sparse.rd_append_zero _ _ _ (Sparse.rd_filter_out 0 s.mem _ _ (fun v => by simp; omega))]
  exact cellsOf_rd l a i h

end Sys2Proof.Machine
end

