-- ==== Sys2Proof/Laws/State.lean ====
section
/-! SUPPORT. Laws of the state's named updates: what a register or field reads after a write, and, one lemma per field and
update, that every other part of the state stands. -/
namespace Sys2Proof.Machine

/-! ## Registers -/

@[simp] theorem State.reg_setReg_same (s : State) (k : Nat) (w : Word) : (s.setReg k w).reg k = w :=
  Sparse.rd_wr_same (regReset k) s.regs k w

theorem State.reg_setReg_ne (s : State) {k k' : Nat} (w : Word) (h : k' ≠ k) : (s.setReg k w).reg k' = s.reg k' :=
  Sparse.rd_wr_ne (regReset k) (regReset k') s.regs w h

theorem State.reg_setReg (s : State) (k k' : Nat) (w : Word) :
    (s.setReg k w).reg k' = if k' = k then w else s.reg k' := by
  split
  · rename_i h; rw [h]; exact s.reg_setReg_same k w
  · rename_i h; exact s.reg_setReg_ne w h

theorem State.reg_put (s : State) (f : Field) (v k : Nat) :
    (s.put f v).reg k = if k = f.key then withBits (s.reg f.key) f.lo f.width v else s.reg k := s.reg_setReg _ _ _

theorem State.reg_orReg (s : State) (a k : Nat) (w : Word) :
    (s.orReg a w).reg k = if k = a then s.reg a ||| w else s.reg k := s.reg_setReg _ _ _

theorem State.get_setReg_ne (s : State) {k : Nat} (f : Field) (w : Word) (h : f.key ≠ k) :
    (s.setReg k w).get f = s.get f := by
  unfold State.get; rw [s.reg_setReg_ne w h]

theorem State.get_put_ne (s : State) {f g : Field} (v : Nat) (h : g.key ≠ f.key) : (s.put f v).get g = s.get g :=
  s.get_setReg_ne g _ h

theorem testBit_mask (lo width i : Nat) (hi : i < 32) :
    (BitVec.ofNat 32 ((2 ^ width - 1) <<< lo)).getLsbD i = (decide (lo ≤ i) && decide (i < lo + width)) := by
  simp only [BitVec.getLsbD_ofNat, hi, decide_true, Bool.true_and, Nat.testBit_shiftLeft, Nat.testBit_two_pow_sub_one]
  by_cases h1 : lo ≤ i
  · simp [h1]; omega
  · simp [h1]

/-- Bits of a word with a field replaced. -/
theorem withBits_bit (w : Word) (lo width v i : Nat) (hi : i < 32) :
    (withBits w lo width v).getLsbD i = if lo ≤ i ∧ i < lo + width then v.testBit (i - lo) else w.getLsbD i := by
  simp only [withBits, BitVec.getLsbD_or, BitVec.getLsbD_and, BitVec.getLsbD_not, hi, decide_true, Bool.true_and,
    testBit_mask lo width i hi]
  have hv : (BitVec.ofNat 32 ((v % 2 ^ width) <<< lo)).getLsbD i
      = (decide (lo ≤ i) && (decide (i - lo < width) && v.testBit (i - lo))) := by
    rw [BitVec.getLsbD_ofNat, Nat.testBit_shiftLeft, Nat.testBit_mod_two_pow]
    simp only [hi, decide_true, Bool.true_and]
  rw [hv]
  by_cases h1 : lo ≤ i
  · by_cases h2 : i < lo + width
    · have h3 : i - lo < width := by omega
      simp only [h1, h2, h3, decide_true, Bool.true_and, Bool.not_true, Bool.and_false, Bool.false_or, and_self, if_true]
    · have h3 : ¬ i - lo < width := by omega
      simp only [h1, h2, h3, decide_true, decide_false, Bool.true_and, Bool.false_and, Bool.not_false, Bool.and_true,
        Bool.or_false, and_false, if_false]
  · simp only [h1, decide_false, Bool.false_and, Bool.not_false, Bool.and_true, Bool.or_false, false_and, if_false]

theorem bitsOf_testBit (w : Word) (lo width i : Nat) :
    (bitsOf w lo width).testBit i = (decide (i < width) && w.getLsbD (lo + i)) := by
  simp [bitsOf, Nat.testBit_mod_two_pow, Nat.testBit_shiftRight, BitVec.getLsbD]

/-- A field reads the value put into it. -/
theorem bitsOf_withBits_same (w : Word) (lo width v : Nat) (h : lo + width ≤ 32) :
    bitsOf (withBits w lo width v) lo width = v % 2 ^ width := by
  apply Nat.eq_of_testBit_eq
  intro i
  rw [bitsOf_testBit, Nat.testBit_mod_two_pow]
  by_cases hi : i < width
  · rw [withBits_bit w lo width v (lo + i) (by omega)]
    simp [hi]
  · simp [hi]

/-- A field outside the one put reads as before. -/
theorem bitsOf_withBits_ne (w : Word) (lo width v lo' width' : Nat) (h' : lo' + width' ≤ 32)
    (d : lo' + width' ≤ lo ∨ lo + width ≤ lo') : bitsOf (withBits w lo width v) lo' width' = bitsOf w lo' width' := by
  apply Nat.eq_of_testBit_eq
  intro i
  rw [bitsOf_testBit, bitsOf_testBit]
  by_cases hi : i < width'
  · rw [withBits_bit w lo width v (lo' + i) (by omega)]
    have : ¬ (lo ≤ lo' + i ∧ lo' + i < lo + width) := by omega
    simp [this]
  · simp [hi]

theorem State.get_put_same (s : State) (f : Field) (v : Nat) (h : f.lo + f.width ≤ 32) :
    (s.put f v).get f = v % 2 ^ f.width := by
  simp only [State.get, State.put, State.reg_setReg_same]
  exact bitsOf_withBits_same _ _ _ _ h

theorem State.get_put_apart (s : State) (f g : Field) (v : Nat) (h' : g.lo + g.width ≤ 32)
    (d : g.key ≠ f.key ∨ g.lo + g.width ≤ f.lo ∨ f.lo + f.width ≤ g.lo) : (s.put f v).get g = s.get g := by
  by_cases hk : g.key = f.key
  · have d' : g.lo + g.width ≤ f.lo ∨ f.lo + f.width ≤ g.lo := d.resolve_left (by simp [hk])
    simp only [State.get, State.put, hk, State.reg_setReg_same]
    exact bitsOf_withBits_ne _ _ _ _ _ _ h' d'
  · exact s.get_put_ne v hk

/-- A one-bit field reads the value put into it. -/
theorem State.bit_putb_same (s : State) (f : Field) (v : Bool) (h : f.lo + 1 ≤ 32) (hw : f.width = 1) :
    (s.putb f v).bit f = v := by
  unfold State.bit State.putb
  rw [s.get_put_same f _ (by omega), hw]
  cases v <;> rfl

/-- STATE after a transition (R48). -/
theorem State.st_moveTo (s : State) (p st : Nat) (h : st < 8) : (s.moveTo p st).st p = st := by
  have hk : hdrState p ≠ hdrIrqRaw p := by unfold hdrState hdrIrqRaw; omega
  have e : (s.moveTo p st).reg (hdrState p) = BitVec.ofNat 32 st := by
    unfold State.moveTo State.irq'
    rw [State.reg_orReg, if_neg hk, State.reg_setReg_same]
  unfold State.st State.get
  show bitsOf ((s.moveTo p st).reg (hdrState p)) 0 3 = st
  rw [e]
  simp only [bitsOf, BitVec.toNat_ofNat, Nat.shiftRight_zero]
  omega

/-- Every transition sets STATE_CHG (R48). -/
theorem State.stateChg_moveTo (s : State) (p st : Nat) : ((s.moveTo p st).reg (hdrIrqRaw p)).getLsbD 0 = true := by
  unfold State.moveTo State.irq'
  rw [State.reg_orReg, if_pos rfl, BitVec.getLsbD_or]
  simp

/-! ## Frames of the named updates -/

@[simp] theorem State.setReg_mem (s : State) (k : Nat) (w : Word) : (s.setReg k w).mem = s.mem := rfl
@[simp] theorem State.setReg_chip (s : State) (k : Nat) (w : Word) : (s.setReg k w).chip = s.chip := rfl
@[simp] theorem State.setReg_prot (s : State) (k : Nat) (w : Word) : (s.setReg k w).prot = s.prot := rfl
@[simp] theorem State.setReg_irq (s : State) (k : Nat) (w : Word) : (s.setReg k w).irq = s.irq := rfl
@[simp] theorem State.setReg_commit (s : State) (k : Nat) (w : Word) : (s.setReg k w).commit = s.commit := rfl
@[simp] theorem State.setReg_port (s : State) (k : Nat) (w : Word) : (s.setReg k w).port = s.port := rfl
@[simp] theorem State.setReg_mdio (s : State) (k : Nat) (w : Word) : (s.setReg k w).mdio = s.mdio := rfl
@[simp] theorem State.setReg_swc (s : State) (k : Nat) (w : Word) : (s.setReg k w).swc = s.swc := rfl
@[simp] theorem State.setReg_tb (s : State) (k : Nat) (w : Word) : (s.setReg k w).tb = s.tb := rfl
@[simp] theorem State.setReg_gen (s : State) (k : Nat) (w : Word) : (s.setReg k w).gen = s.gen := rfl
@[simp] theorem State.setReg_fab (s : State) (k : Nat) (w : Word) : (s.setReg k w).fab = s.fab := rfl
@[simp] theorem State.setReg_shank (s : State) (k : Nat) (w : Word) : (s.setReg k w).shank = s.shank := rfl
@[simp] theorem State.setReg_welt (s : State) (k : Nat) (w : Word) : (s.setReg k w).welt = s.welt := rfl
@[simp] theorem State.setReg_eye (s : State) (k : Nat) (w : Word) : (s.setReg k w).eye = s.eye := rfl
@[simp] theorem State.setReg_wcap (s : State) (k : Nat) (w : Word) : (s.setReg k w).wcap = s.wcap := rfl
@[simp] theorem State.setReg_bank (s : State) (k : Nat) (w : Word) : (s.setReg k w).bank = s.bank := rfl
@[simp] theorem State.setReg_lace (s : State) (k : Nat) (w : Word) : (s.setReg k w).lace = s.lace := rfl
@[simp] theorem State.setReg_host (s : State) (k : Nat) (w : Word) : (s.setReg k w).host = s.host := rfl
@[simp] theorem State.setReg_sup (s : State) (k : Nat) (w : Word) : (s.setReg k w).sup = s.sup := rfl
@[simp] theorem State.setReg_flt (s : State) (k : Nat) (w : Word) : (s.setReg k w).flt = s.flt := rfl
@[simp] theorem State.setReg_rdata (s : State) (k : Nat) (w : Word) : (s.setReg k w).rdata = s.rdata := rfl
@[simp] theorem State.setReg_rbytes (s : State) (k : Nat) (w : Word) : (s.setReg k w).rbytes = s.rbytes := rfl
@[simp] theorem State.setReg_rstatus (s : State) (k : Nat) (w : Word) : (s.setReg k w).rstatus = s.rstatus := rfl
@[simp] theorem State.setReg_out (s : State) (k : Nat) (w : Word) : (s.setReg k w).out = s.out := rfl
@[simp] theorem State.setReg_free (s : State) (k : Nat) (w : Word) : (s.setReg k w).free = s.free := rfl
@[simp] theorem State.setReg_pending (s : State) (k : Nat) (w : Word) : (s.setReg k w).pending = s.pending := rfl
@[simp] theorem State.put_mem (s : State) (f : Field) (v : Nat) : (s.put f v).mem = s.mem := rfl
@[simp] theorem State.put_chip (s : State) (f : Field) (v : Nat) : (s.put f v).chip = s.chip := rfl
@[simp] theorem State.put_prot (s : State) (f : Field) (v : Nat) : (s.put f v).prot = s.prot := rfl
@[simp] theorem State.put_irq (s : State) (f : Field) (v : Nat) : (s.put f v).irq = s.irq := rfl
@[simp] theorem State.put_commit (s : State) (f : Field) (v : Nat) : (s.put f v).commit = s.commit := rfl
@[simp] theorem State.put_port (s : State) (f : Field) (v : Nat) : (s.put f v).port = s.port := rfl
@[simp] theorem State.put_mdio (s : State) (f : Field) (v : Nat) : (s.put f v).mdio = s.mdio := rfl
@[simp] theorem State.put_swc (s : State) (f : Field) (v : Nat) : (s.put f v).swc = s.swc := rfl
@[simp] theorem State.put_tb (s : State) (f : Field) (v : Nat) : (s.put f v).tb = s.tb := rfl
@[simp] theorem State.put_gen (s : State) (f : Field) (v : Nat) : (s.put f v).gen = s.gen := rfl
@[simp] theorem State.put_fab (s : State) (f : Field) (v : Nat) : (s.put f v).fab = s.fab := rfl
@[simp] theorem State.put_shank (s : State) (f : Field) (v : Nat) : (s.put f v).shank = s.shank := rfl
@[simp] theorem State.put_welt (s : State) (f : Field) (v : Nat) : (s.put f v).welt = s.welt := rfl
@[simp] theorem State.put_eye (s : State) (f : Field) (v : Nat) : (s.put f v).eye = s.eye := rfl
@[simp] theorem State.put_wcap (s : State) (f : Field) (v : Nat) : (s.put f v).wcap = s.wcap := rfl
@[simp] theorem State.put_bank (s : State) (f : Field) (v : Nat) : (s.put f v).bank = s.bank := rfl
@[simp] theorem State.put_lace (s : State) (f : Field) (v : Nat) : (s.put f v).lace = s.lace := rfl
@[simp] theorem State.put_host (s : State) (f : Field) (v : Nat) : (s.put f v).host = s.host := rfl
@[simp] theorem State.put_sup (s : State) (f : Field) (v : Nat) : (s.put f v).sup = s.sup := rfl
@[simp] theorem State.put_flt (s : State) (f : Field) (v : Nat) : (s.put f v).flt = s.flt := rfl
@[simp] theorem State.put_rdata (s : State) (f : Field) (v : Nat) : (s.put f v).rdata = s.rdata := rfl
@[simp] theorem State.put_rbytes (s : State) (f : Field) (v : Nat) : (s.put f v).rbytes = s.rbytes := rfl
@[simp] theorem State.put_rstatus (s : State) (f : Field) (v : Nat) : (s.put f v).rstatus = s.rstatus := rfl
@[simp] theorem State.put_out (s : State) (f : Field) (v : Nat) : (s.put f v).out = s.out := rfl
@[simp] theorem State.put_free (s : State) (f : Field) (v : Nat) : (s.put f v).free = s.free := rfl
@[simp] theorem State.put_pending (s : State) (f : Field) (v : Nat) : (s.put f v).pending = s.pending := rfl
@[simp] theorem State.putb_mem (s : State) (f : Field) (v : Bool) : (s.putb f v).mem = s.mem := rfl
@[simp] theorem State.putb_chip (s : State) (f : Field) (v : Bool) : (s.putb f v).chip = s.chip := rfl
@[simp] theorem State.putb_prot (s : State) (f : Field) (v : Bool) : (s.putb f v).prot = s.prot := rfl
@[simp] theorem State.putb_irq (s : State) (f : Field) (v : Bool) : (s.putb f v).irq = s.irq := rfl
@[simp] theorem State.putb_commit (s : State) (f : Field) (v : Bool) : (s.putb f v).commit = s.commit := rfl
@[simp] theorem State.putb_port (s : State) (f : Field) (v : Bool) : (s.putb f v).port = s.port := rfl
@[simp] theorem State.putb_mdio (s : State) (f : Field) (v : Bool) : (s.putb f v).mdio = s.mdio := rfl
@[simp] theorem State.putb_swc (s : State) (f : Field) (v : Bool) : (s.putb f v).swc = s.swc := rfl
@[simp] theorem State.putb_tb (s : State) (f : Field) (v : Bool) : (s.putb f v).tb = s.tb := rfl
@[simp] theorem State.putb_gen (s : State) (f : Field) (v : Bool) : (s.putb f v).gen = s.gen := rfl
@[simp] theorem State.putb_fab (s : State) (f : Field) (v : Bool) : (s.putb f v).fab = s.fab := rfl
@[simp] theorem State.putb_shank (s : State) (f : Field) (v : Bool) : (s.putb f v).shank = s.shank := rfl
@[simp] theorem State.putb_welt (s : State) (f : Field) (v : Bool) : (s.putb f v).welt = s.welt := rfl
@[simp] theorem State.putb_eye (s : State) (f : Field) (v : Bool) : (s.putb f v).eye = s.eye := rfl
@[simp] theorem State.putb_wcap (s : State) (f : Field) (v : Bool) : (s.putb f v).wcap = s.wcap := rfl
@[simp] theorem State.putb_bank (s : State) (f : Field) (v : Bool) : (s.putb f v).bank = s.bank := rfl
@[simp] theorem State.putb_lace (s : State) (f : Field) (v : Bool) : (s.putb f v).lace = s.lace := rfl
@[simp] theorem State.putb_host (s : State) (f : Field) (v : Bool) : (s.putb f v).host = s.host := rfl
@[simp] theorem State.putb_sup (s : State) (f : Field) (v : Bool) : (s.putb f v).sup = s.sup := rfl
@[simp] theorem State.putb_flt (s : State) (f : Field) (v : Bool) : (s.putb f v).flt = s.flt := rfl
@[simp] theorem State.putb_rdata (s : State) (f : Field) (v : Bool) : (s.putb f v).rdata = s.rdata := rfl
@[simp] theorem State.putb_rbytes (s : State) (f : Field) (v : Bool) : (s.putb f v).rbytes = s.rbytes := rfl
@[simp] theorem State.putb_rstatus (s : State) (f : Field) (v : Bool) : (s.putb f v).rstatus = s.rstatus := rfl
@[simp] theorem State.putb_out (s : State) (f : Field) (v : Bool) : (s.putb f v).out = s.out := rfl
@[simp] theorem State.putb_free (s : State) (f : Field) (v : Bool) : (s.putb f v).free = s.free := rfl
@[simp] theorem State.putb_pending (s : State) (f : Field) (v : Bool) : (s.putb f v).pending = s.pending := rfl
@[simp] theorem State.orReg_mem (s : State) (k : Nat) (w : Word) : (s.orReg k w).mem = s.mem := rfl
@[simp] theorem State.orReg_chip (s : State) (k : Nat) (w : Word) : (s.orReg k w).chip = s.chip := rfl
@[simp] theorem State.orReg_prot (s : State) (k : Nat) (w : Word) : (s.orReg k w).prot = s.prot := rfl
@[simp] theorem State.orReg_irq (s : State) (k : Nat) (w : Word) : (s.orReg k w).irq = s.irq := rfl
@[simp] theorem State.orReg_commit (s : State) (k : Nat) (w : Word) : (s.orReg k w).commit = s.commit := rfl
@[simp] theorem State.orReg_port (s : State) (k : Nat) (w : Word) : (s.orReg k w).port = s.port := rfl
@[simp] theorem State.orReg_mdio (s : State) (k : Nat) (w : Word) : (s.orReg k w).mdio = s.mdio := rfl
@[simp] theorem State.orReg_swc (s : State) (k : Nat) (w : Word) : (s.orReg k w).swc = s.swc := rfl
@[simp] theorem State.orReg_tb (s : State) (k : Nat) (w : Word) : (s.orReg k w).tb = s.tb := rfl
@[simp] theorem State.orReg_gen (s : State) (k : Nat) (w : Word) : (s.orReg k w).gen = s.gen := rfl
@[simp] theorem State.orReg_fab (s : State) (k : Nat) (w : Word) : (s.orReg k w).fab = s.fab := rfl
@[simp] theorem State.orReg_shank (s : State) (k : Nat) (w : Word) : (s.orReg k w).shank = s.shank := rfl
@[simp] theorem State.orReg_welt (s : State) (k : Nat) (w : Word) : (s.orReg k w).welt = s.welt := rfl
@[simp] theorem State.orReg_eye (s : State) (k : Nat) (w : Word) : (s.orReg k w).eye = s.eye := rfl
@[simp] theorem State.orReg_wcap (s : State) (k : Nat) (w : Word) : (s.orReg k w).wcap = s.wcap := rfl
@[simp] theorem State.orReg_bank (s : State) (k : Nat) (w : Word) : (s.orReg k w).bank = s.bank := rfl
@[simp] theorem State.orReg_lace (s : State) (k : Nat) (w : Word) : (s.orReg k w).lace = s.lace := rfl
@[simp] theorem State.orReg_host (s : State) (k : Nat) (w : Word) : (s.orReg k w).host = s.host := rfl
@[simp] theorem State.orReg_sup (s : State) (k : Nat) (w : Word) : (s.orReg k w).sup = s.sup := rfl
@[simp] theorem State.orReg_flt (s : State) (k : Nat) (w : Word) : (s.orReg k w).flt = s.flt := rfl
@[simp] theorem State.orReg_rdata (s : State) (k : Nat) (w : Word) : (s.orReg k w).rdata = s.rdata := rfl
@[simp] theorem State.orReg_rbytes (s : State) (k : Nat) (w : Word) : (s.orReg k w).rbytes = s.rbytes := rfl
@[simp] theorem State.orReg_rstatus (s : State) (k : Nat) (w : Word) : (s.orReg k w).rstatus = s.rstatus := rfl
@[simp] theorem State.orReg_out (s : State) (k : Nat) (w : Word) : (s.orReg k w).out = s.out := rfl
@[simp] theorem State.orReg_free (s : State) (k : Nat) (w : Word) : (s.orReg k w).free = s.free := rfl
@[simp] theorem State.orReg_pending (s : State) (k : Nat) (w : Word) : (s.orReg k w).pending = s.pending := rfl
@[simp] theorem State.andnReg_mem (s : State) (k : Nat) (w : Word) : (s.andnReg k w).mem = s.mem := rfl
@[simp] theorem State.andnReg_chip (s : State) (k : Nat) (w : Word) : (s.andnReg k w).chip = s.chip := rfl
@[simp] theorem State.andnReg_prot (s : State) (k : Nat) (w : Word) : (s.andnReg k w).prot = s.prot := rfl
@[simp] theorem State.andnReg_irq (s : State) (k : Nat) (w : Word) : (s.andnReg k w).irq = s.irq := rfl
@[simp] theorem State.andnReg_commit (s : State) (k : Nat) (w : Word) : (s.andnReg k w).commit = s.commit := rfl
@[simp] theorem State.andnReg_port (s : State) (k : Nat) (w : Word) : (s.andnReg k w).port = s.port := rfl
@[simp] theorem State.andnReg_mdio (s : State) (k : Nat) (w : Word) : (s.andnReg k w).mdio = s.mdio := rfl
@[simp] theorem State.andnReg_swc (s : State) (k : Nat) (w : Word) : (s.andnReg k w).swc = s.swc := rfl
@[simp] theorem State.andnReg_tb (s : State) (k : Nat) (w : Word) : (s.andnReg k w).tb = s.tb := rfl
@[simp] theorem State.andnReg_gen (s : State) (k : Nat) (w : Word) : (s.andnReg k w).gen = s.gen := rfl
@[simp] theorem State.andnReg_fab (s : State) (k : Nat) (w : Word) : (s.andnReg k w).fab = s.fab := rfl
@[simp] theorem State.andnReg_shank (s : State) (k : Nat) (w : Word) : (s.andnReg k w).shank = s.shank := rfl
@[simp] theorem State.andnReg_welt (s : State) (k : Nat) (w : Word) : (s.andnReg k w).welt = s.welt := rfl
@[simp] theorem State.andnReg_eye (s : State) (k : Nat) (w : Word) : (s.andnReg k w).eye = s.eye := rfl
@[simp] theorem State.andnReg_wcap (s : State) (k : Nat) (w : Word) : (s.andnReg k w).wcap = s.wcap := rfl
@[simp] theorem State.andnReg_bank (s : State) (k : Nat) (w : Word) : (s.andnReg k w).bank = s.bank := rfl
@[simp] theorem State.andnReg_lace (s : State) (k : Nat) (w : Word) : (s.andnReg k w).lace = s.lace := rfl
@[simp] theorem State.andnReg_host (s : State) (k : Nat) (w : Word) : (s.andnReg k w).host = s.host := rfl
@[simp] theorem State.andnReg_sup (s : State) (k : Nat) (w : Word) : (s.andnReg k w).sup = s.sup := rfl
@[simp] theorem State.andnReg_flt (s : State) (k : Nat) (w : Word) : (s.andnReg k w).flt = s.flt := rfl
@[simp] theorem State.andnReg_rdata (s : State) (k : Nat) (w : Word) : (s.andnReg k w).rdata = s.rdata := rfl
@[simp] theorem State.andnReg_rbytes (s : State) (k : Nat) (w : Word) : (s.andnReg k w).rbytes = s.rbytes := rfl
@[simp] theorem State.andnReg_rstatus (s : State) (k : Nat) (w : Word) : (s.andnReg k w).rstatus = s.rstatus := rfl
@[simp] theorem State.andnReg_out (s : State) (k : Nat) (w : Word) : (s.andnReg k w).out = s.out := rfl
@[simp] theorem State.andnReg_free (s : State) (k : Nat) (w : Word) : (s.andnReg k w).free = s.free := rfl
@[simp] theorem State.andnReg_pending (s : State) (k : Nat) (w : Word) : (s.andnReg k w).pending = s.pending := rfl
@[simp] theorem State.count_mem (s : State) (k n : Nat) : (s.count k n).mem = s.mem := rfl
@[simp] theorem State.count_chip (s : State) (k n : Nat) : (s.count k n).chip = s.chip := rfl
@[simp] theorem State.count_prot (s : State) (k n : Nat) : (s.count k n).prot = s.prot := rfl
@[simp] theorem State.count_irq (s : State) (k n : Nat) : (s.count k n).irq = s.irq := rfl
@[simp] theorem State.count_commit (s : State) (k n : Nat) : (s.count k n).commit = s.commit := rfl
@[simp] theorem State.count_port (s : State) (k n : Nat) : (s.count k n).port = s.port := rfl
@[simp] theorem State.count_mdio (s : State) (k n : Nat) : (s.count k n).mdio = s.mdio := rfl
@[simp] theorem State.count_swc (s : State) (k n : Nat) : (s.count k n).swc = s.swc := rfl
@[simp] theorem State.count_tb (s : State) (k n : Nat) : (s.count k n).tb = s.tb := rfl
@[simp] theorem State.count_gen (s : State) (k n : Nat) : (s.count k n).gen = s.gen := rfl
@[simp] theorem State.count_fab (s : State) (k n : Nat) : (s.count k n).fab = s.fab := rfl
@[simp] theorem State.count_shank (s : State) (k n : Nat) : (s.count k n).shank = s.shank := rfl
@[simp] theorem State.count_welt (s : State) (k n : Nat) : (s.count k n).welt = s.welt := rfl
@[simp] theorem State.count_eye (s : State) (k n : Nat) : (s.count k n).eye = s.eye := rfl
@[simp] theorem State.count_wcap (s : State) (k n : Nat) : (s.count k n).wcap = s.wcap := rfl
@[simp] theorem State.count_bank (s : State) (k n : Nat) : (s.count k n).bank = s.bank := rfl
@[simp] theorem State.count_lace (s : State) (k n : Nat) : (s.count k n).lace = s.lace := rfl
@[simp] theorem State.count_host (s : State) (k n : Nat) : (s.count k n).host = s.host := rfl
@[simp] theorem State.count_sup (s : State) (k n : Nat) : (s.count k n).sup = s.sup := rfl
@[simp] theorem State.count_flt (s : State) (k n : Nat) : (s.count k n).flt = s.flt := rfl
@[simp] theorem State.count_rdata (s : State) (k n : Nat) : (s.count k n).rdata = s.rdata := rfl
@[simp] theorem State.count_rbytes (s : State) (k n : Nat) : (s.count k n).rbytes = s.rbytes := rfl
@[simp] theorem State.count_rstatus (s : State) (k n : Nat) : (s.count k n).rstatus = s.rstatus := rfl
@[simp] theorem State.count_out (s : State) (k n : Nat) : (s.count k n).out = s.out := rfl
@[simp] theorem State.count_free (s : State) (k n : Nat) : (s.count k n).free = s.free := rfl
@[simp] theorem State.count_pending (s : State) (k n : Nat) : (s.count k n).pending = s.pending := rfl
@[simp] theorem State.countF_mem (s : State) (f : Field) (n : Nat) : (s.countF f n).mem = s.mem := rfl
@[simp] theorem State.countF_chip (s : State) (f : Field) (n : Nat) : (s.countF f n).chip = s.chip := rfl
@[simp] theorem State.countF_prot (s : State) (f : Field) (n : Nat) : (s.countF f n).prot = s.prot := rfl
@[simp] theorem State.countF_irq (s : State) (f : Field) (n : Nat) : (s.countF f n).irq = s.irq := rfl
@[simp] theorem State.countF_commit (s : State) (f : Field) (n : Nat) : (s.countF f n).commit = s.commit := rfl
@[simp] theorem State.countF_port (s : State) (f : Field) (n : Nat) : (s.countF f n).port = s.port := rfl
@[simp] theorem State.countF_mdio (s : State) (f : Field) (n : Nat) : (s.countF f n).mdio = s.mdio := rfl
@[simp] theorem State.countF_swc (s : State) (f : Field) (n : Nat) : (s.countF f n).swc = s.swc := rfl
@[simp] theorem State.countF_tb (s : State) (f : Field) (n : Nat) : (s.countF f n).tb = s.tb := rfl
@[simp] theorem State.countF_gen (s : State) (f : Field) (n : Nat) : (s.countF f n).gen = s.gen := rfl
@[simp] theorem State.countF_fab (s : State) (f : Field) (n : Nat) : (s.countF f n).fab = s.fab := rfl
@[simp] theorem State.countF_shank (s : State) (f : Field) (n : Nat) : (s.countF f n).shank = s.shank := rfl
@[simp] theorem State.countF_welt (s : State) (f : Field) (n : Nat) : (s.countF f n).welt = s.welt := rfl
@[simp] theorem State.countF_eye (s : State) (f : Field) (n : Nat) : (s.countF f n).eye = s.eye := rfl
@[simp] theorem State.countF_wcap (s : State) (f : Field) (n : Nat) : (s.countF f n).wcap = s.wcap := rfl
@[simp] theorem State.countF_bank (s : State) (f : Field) (n : Nat) : (s.countF f n).bank = s.bank := rfl
@[simp] theorem State.countF_lace (s : State) (f : Field) (n : Nat) : (s.countF f n).lace = s.lace := rfl
@[simp] theorem State.countF_host (s : State) (f : Field) (n : Nat) : (s.countF f n).host = s.host := rfl
@[simp] theorem State.countF_sup (s : State) (f : Field) (n : Nat) : (s.countF f n).sup = s.sup := rfl
@[simp] theorem State.countF_flt (s : State) (f : Field) (n : Nat) : (s.countF f n).flt = s.flt := rfl
@[simp] theorem State.countF_rdata (s : State) (f : Field) (n : Nat) : (s.countF f n).rdata = s.rdata := rfl
@[simp] theorem State.countF_rbytes (s : State) (f : Field) (n : Nat) : (s.countF f n).rbytes = s.rbytes := rfl
@[simp] theorem State.countF_rstatus (s : State) (f : Field) (n : Nat) : (s.countF f n).rstatus = s.rstatus := rfl
@[simp] theorem State.countF_out (s : State) (f : Field) (n : Nat) : (s.countF f n).out = s.out := rfl
@[simp] theorem State.countF_free (s : State) (f : Field) (n : Nat) : (s.countF f n).free = s.free := rfl
@[simp] theorem State.countF_pending (s : State) (f : Field) (n : Nat) : (s.countF f n).pending = s.pending := rfl
@[simp] theorem State.countWrap_mem (s : State) (k n : Nat) : (s.countWrap k n).mem = s.mem := rfl
@[simp] theorem State.countWrap_chip (s : State) (k n : Nat) : (s.countWrap k n).chip = s.chip := rfl
@[simp] theorem State.countWrap_prot (s : State) (k n : Nat) : (s.countWrap k n).prot = s.prot := rfl
@[simp] theorem State.countWrap_irq (s : State) (k n : Nat) : (s.countWrap k n).irq = s.irq := rfl
@[simp] theorem State.countWrap_commit (s : State) (k n : Nat) : (s.countWrap k n).commit = s.commit := rfl
@[simp] theorem State.countWrap_port (s : State) (k n : Nat) : (s.countWrap k n).port = s.port := rfl
@[simp] theorem State.countWrap_mdio (s : State) (k n : Nat) : (s.countWrap k n).mdio = s.mdio := rfl
@[simp] theorem State.countWrap_swc (s : State) (k n : Nat) : (s.countWrap k n).swc = s.swc := rfl
@[simp] theorem State.countWrap_tb (s : State) (k n : Nat) : (s.countWrap k n).tb = s.tb := rfl
@[simp] theorem State.countWrap_gen (s : State) (k n : Nat) : (s.countWrap k n).gen = s.gen := rfl
@[simp] theorem State.countWrap_fab (s : State) (k n : Nat) : (s.countWrap k n).fab = s.fab := rfl
@[simp] theorem State.countWrap_shank (s : State) (k n : Nat) : (s.countWrap k n).shank = s.shank := rfl
@[simp] theorem State.countWrap_welt (s : State) (k n : Nat) : (s.countWrap k n).welt = s.welt := rfl
@[simp] theorem State.countWrap_eye (s : State) (k n : Nat) : (s.countWrap k n).eye = s.eye := rfl
@[simp] theorem State.countWrap_wcap (s : State) (k n : Nat) : (s.countWrap k n).wcap = s.wcap := rfl
@[simp] theorem State.countWrap_bank (s : State) (k n : Nat) : (s.countWrap k n).bank = s.bank := rfl
@[simp] theorem State.countWrap_lace (s : State) (k n : Nat) : (s.countWrap k n).lace = s.lace := rfl
@[simp] theorem State.countWrap_host (s : State) (k n : Nat) : (s.countWrap k n).host = s.host := rfl
@[simp] theorem State.countWrap_sup (s : State) (k n : Nat) : (s.countWrap k n).sup = s.sup := rfl
@[simp] theorem State.countWrap_flt (s : State) (k n : Nat) : (s.countWrap k n).flt = s.flt := rfl
@[simp] theorem State.countWrap_rdata (s : State) (k n : Nat) : (s.countWrap k n).rdata = s.rdata := rfl
@[simp] theorem State.countWrap_rbytes (s : State) (k n : Nat) : (s.countWrap k n).rbytes = s.rbytes := rfl
@[simp] theorem State.countWrap_rstatus (s : State) (k n : Nat) : (s.countWrap k n).rstatus = s.rstatus := rfl
@[simp] theorem State.countWrap_out (s : State) (k n : Nat) : (s.countWrap k n).out = s.out := rfl
@[simp] theorem State.countWrap_free (s : State) (k n : Nat) : (s.countWrap k n).free = s.free := rfl
@[simp] theorem State.countWrap_pending (s : State) (k n : Nat) : (s.countWrap k n).pending = s.pending := rfl
@[simp] theorem State.irq_mem (s : State) (p b : Nat) : (s.irq' p b).mem = s.mem := rfl
@[simp] theorem State.irq_chip (s : State) (p b : Nat) : (s.irq' p b).chip = s.chip := rfl
@[simp] theorem State.irq_prot (s : State) (p b : Nat) : (s.irq' p b).prot = s.prot := rfl
@[simp] theorem State.irq_irq (s : State) (p b : Nat) : (s.irq' p b).irq = s.irq := rfl
@[simp] theorem State.irq_commit (s : State) (p b : Nat) : (s.irq' p b).commit = s.commit := rfl
@[simp] theorem State.irq_port (s : State) (p b : Nat) : (s.irq' p b).port = s.port := rfl
@[simp] theorem State.irq_mdio (s : State) (p b : Nat) : (s.irq' p b).mdio = s.mdio := rfl
@[simp] theorem State.irq_swc (s : State) (p b : Nat) : (s.irq' p b).swc = s.swc := rfl
@[simp] theorem State.irq_tb (s : State) (p b : Nat) : (s.irq' p b).tb = s.tb := rfl
@[simp] theorem State.irq_gen (s : State) (p b : Nat) : (s.irq' p b).gen = s.gen := rfl
@[simp] theorem State.irq_fab (s : State) (p b : Nat) : (s.irq' p b).fab = s.fab := rfl
@[simp] theorem State.irq_shank (s : State) (p b : Nat) : (s.irq' p b).shank = s.shank := rfl
@[simp] theorem State.irq_welt (s : State) (p b : Nat) : (s.irq' p b).welt = s.welt := rfl
@[simp] theorem State.irq_eye (s : State) (p b : Nat) : (s.irq' p b).eye = s.eye := rfl
@[simp] theorem State.irq_wcap (s : State) (p b : Nat) : (s.irq' p b).wcap = s.wcap := rfl
@[simp] theorem State.irq_bank (s : State) (p b : Nat) : (s.irq' p b).bank = s.bank := rfl
@[simp] theorem State.irq_lace (s : State) (p b : Nat) : (s.irq' p b).lace = s.lace := rfl
@[simp] theorem State.irq_host (s : State) (p b : Nat) : (s.irq' p b).host = s.host := rfl
@[simp] theorem State.irq_sup (s : State) (p b : Nat) : (s.irq' p b).sup = s.sup := rfl
@[simp] theorem State.irq_flt (s : State) (p b : Nat) : (s.irq' p b).flt = s.flt := rfl
@[simp] theorem State.irq_rdata (s : State) (p b : Nat) : (s.irq' p b).rdata = s.rdata := rfl
@[simp] theorem State.irq_rbytes (s : State) (p b : Nat) : (s.irq' p b).rbytes = s.rbytes := rfl
@[simp] theorem State.irq_rstatus (s : State) (p b : Nat) : (s.irq' p b).rstatus = s.rstatus := rfl
@[simp] theorem State.irq_out (s : State) (p b : Nat) : (s.irq' p b).out = s.out := rfl
@[simp] theorem State.irq_free (s : State) (p b : Nat) : (s.irq' p b).free = s.free := rfl
@[simp] theorem State.irq_pending (s : State) (p b : Nat) : (s.irq' p b).pending = s.pending := rfl
@[simp] theorem State.err_mem (s : State) (p b : Nat) : (s.err p b).mem = s.mem := rfl
@[simp] theorem State.err_chip (s : State) (p b : Nat) : (s.err p b).chip = s.chip := rfl
@[simp] theorem State.err_prot (s : State) (p b : Nat) : (s.err p b).prot = s.prot := rfl
@[simp] theorem State.err_irq (s : State) (p b : Nat) : (s.err p b).irq = s.irq := rfl
@[simp] theorem State.err_commit (s : State) (p b : Nat) : (s.err p b).commit = s.commit := rfl
@[simp] theorem State.err_port (s : State) (p b : Nat) : (s.err p b).port = s.port := rfl
@[simp] theorem State.err_mdio (s : State) (p b : Nat) : (s.err p b).mdio = s.mdio := rfl
@[simp] theorem State.err_swc (s : State) (p b : Nat) : (s.err p b).swc = s.swc := rfl
@[simp] theorem State.err_tb (s : State) (p b : Nat) : (s.err p b).tb = s.tb := rfl
@[simp] theorem State.err_gen (s : State) (p b : Nat) : (s.err p b).gen = s.gen := rfl
@[simp] theorem State.err_fab (s : State) (p b : Nat) : (s.err p b).fab = s.fab := rfl
@[simp] theorem State.err_shank (s : State) (p b : Nat) : (s.err p b).shank = s.shank := rfl
@[simp] theorem State.err_welt (s : State) (p b : Nat) : (s.err p b).welt = s.welt := rfl
@[simp] theorem State.err_eye (s : State) (p b : Nat) : (s.err p b).eye = s.eye := rfl
@[simp] theorem State.err_wcap (s : State) (p b : Nat) : (s.err p b).wcap = s.wcap := rfl
@[simp] theorem State.err_bank (s : State) (p b : Nat) : (s.err p b).bank = s.bank := rfl
@[simp] theorem State.err_lace (s : State) (p b : Nat) : (s.err p b).lace = s.lace := rfl
@[simp] theorem State.err_host (s : State) (p b : Nat) : (s.err p b).host = s.host := rfl
@[simp] theorem State.err_sup (s : State) (p b : Nat) : (s.err p b).sup = s.sup := rfl
@[simp] theorem State.err_flt (s : State) (p b : Nat) : (s.err p b).flt = s.flt := rfl
@[simp] theorem State.err_rdata (s : State) (p b : Nat) : (s.err p b).rdata = s.rdata := rfl
@[simp] theorem State.err_rbytes (s : State) (p b : Nat) : (s.err p b).rbytes = s.rbytes := rfl
@[simp] theorem State.err_rstatus (s : State) (p b : Nat) : (s.err p b).rstatus = s.rstatus := rfl
@[simp] theorem State.err_out (s : State) (p b : Nat) : (s.err p b).out = s.out := rfl
@[simp] theorem State.err_free (s : State) (p b : Nat) : (s.err p b).free = s.free := rfl
@[simp] theorem State.err_pending (s : State) (p b : Nat) : (s.err p b).pending = s.pending := rfl
@[simp] theorem State.moveTo_mem (s : State) (p b : Nat) : (s.moveTo p b).mem = s.mem := rfl
@[simp] theorem State.moveTo_chip (s : State) (p b : Nat) : (s.moveTo p b).chip = s.chip := rfl
@[simp] theorem State.moveTo_prot (s : State) (p b : Nat) : (s.moveTo p b).prot = s.prot := rfl
@[simp] theorem State.moveTo_irq (s : State) (p b : Nat) : (s.moveTo p b).irq = s.irq := rfl
@[simp] theorem State.moveTo_commit (s : State) (p b : Nat) : (s.moveTo p b).commit = s.commit := rfl
@[simp] theorem State.moveTo_port (s : State) (p b : Nat) : (s.moveTo p b).port = s.port := rfl
@[simp] theorem State.moveTo_mdio (s : State) (p b : Nat) : (s.moveTo p b).mdio = s.mdio := rfl
@[simp] theorem State.moveTo_swc (s : State) (p b : Nat) : (s.moveTo p b).swc = s.swc := rfl
@[simp] theorem State.moveTo_tb (s : State) (p b : Nat) : (s.moveTo p b).tb = s.tb := rfl
@[simp] theorem State.moveTo_gen (s : State) (p b : Nat) : (s.moveTo p b).gen = s.gen := rfl
@[simp] theorem State.moveTo_fab (s : State) (p b : Nat) : (s.moveTo p b).fab = s.fab := rfl
@[simp] theorem State.moveTo_shank (s : State) (p b : Nat) : (s.moveTo p b).shank = s.shank := rfl
@[simp] theorem State.moveTo_welt (s : State) (p b : Nat) : (s.moveTo p b).welt = s.welt := rfl
@[simp] theorem State.moveTo_eye (s : State) (p b : Nat) : (s.moveTo p b).eye = s.eye := rfl
@[simp] theorem State.moveTo_wcap (s : State) (p b : Nat) : (s.moveTo p b).wcap = s.wcap := rfl
@[simp] theorem State.moveTo_bank (s : State) (p b : Nat) : (s.moveTo p b).bank = s.bank := rfl
@[simp] theorem State.moveTo_lace (s : State) (p b : Nat) : (s.moveTo p b).lace = s.lace := rfl
@[simp] theorem State.moveTo_host (s : State) (p b : Nat) : (s.moveTo p b).host = s.host := rfl
@[simp] theorem State.moveTo_sup (s : State) (p b : Nat) : (s.moveTo p b).sup = s.sup := rfl
@[simp] theorem State.moveTo_flt (s : State) (p b : Nat) : (s.moveTo p b).flt = s.flt := rfl
@[simp] theorem State.moveTo_rdata (s : State) (p b : Nat) : (s.moveTo p b).rdata = s.rdata := rfl
@[simp] theorem State.moveTo_rbytes (s : State) (p b : Nat) : (s.moveTo p b).rbytes = s.rbytes := rfl
@[simp] theorem State.moveTo_rstatus (s : State) (p b : Nat) : (s.moveTo p b).rstatus = s.rstatus := rfl
@[simp] theorem State.moveTo_out (s : State) (p b : Nat) : (s.moveTo p b).out = s.out := rfl
@[simp] theorem State.moveTo_free (s : State) (p b : Nat) : (s.moveTo p b).free = s.free := rfl
@[simp] theorem State.moveTo_pending (s : State) (p b : Nat) : (s.moveTo p b).pending = s.pending := rfl
@[simp] theorem State.deny_mem (s : State) (p : Principal) (a : Nat) : (s.deny p a).mem = s.mem := rfl
@[simp] theorem State.deny_chip (s : State) (p : Principal) (a : Nat) : (s.deny p a).chip = s.chip := rfl
@[simp] theorem State.deny_prot (s : State) (p : Principal) (a : Nat) : (s.deny p a).prot = s.prot := rfl
@[simp] theorem State.deny_irq (s : State) (p : Principal) (a : Nat) : (s.deny p a).irq = s.irq := rfl
@[simp] theorem State.deny_commit (s : State) (p : Principal) (a : Nat) : (s.deny p a).commit = s.commit := rfl
@[simp] theorem State.deny_port (s : State) (p : Principal) (a : Nat) : (s.deny p a).port = s.port := rfl
@[simp] theorem State.deny_mdio (s : State) (p : Principal) (a : Nat) : (s.deny p a).mdio = s.mdio := rfl
@[simp] theorem State.deny_swc (s : State) (p : Principal) (a : Nat) : (s.deny p a).swc = s.swc := rfl
@[simp] theorem State.deny_tb (s : State) (p : Principal) (a : Nat) : (s.deny p a).tb = s.tb := rfl
@[simp] theorem State.deny_gen (s : State) (p : Principal) (a : Nat) : (s.deny p a).gen = s.gen := rfl
@[simp] theorem State.deny_fab (s : State) (p : Principal) (a : Nat) : (s.deny p a).fab = s.fab := rfl
@[simp] theorem State.deny_shank (s : State) (p : Principal) (a : Nat) : (s.deny p a).shank = s.shank := rfl
@[simp] theorem State.deny_welt (s : State) (p : Principal) (a : Nat) : (s.deny p a).welt = s.welt := rfl
@[simp] theorem State.deny_eye (s : State) (p : Principal) (a : Nat) : (s.deny p a).eye = s.eye := rfl
@[simp] theorem State.deny_wcap (s : State) (p : Principal) (a : Nat) : (s.deny p a).wcap = s.wcap := rfl
@[simp] theorem State.deny_bank (s : State) (p : Principal) (a : Nat) : (s.deny p a).bank = s.bank := rfl
@[simp] theorem State.deny_lace (s : State) (p : Principal) (a : Nat) : (s.deny p a).lace = s.lace := rfl
@[simp] theorem State.deny_host (s : State) (p : Principal) (a : Nat) : (s.deny p a).host = s.host := rfl
@[simp] theorem State.deny_sup (s : State) (p : Principal) (a : Nat) : (s.deny p a).sup = s.sup := rfl
@[simp] theorem State.deny_flt (s : State) (p : Principal) (a : Nat) : (s.deny p a).flt = s.flt := rfl
@[simp] theorem State.deny_rdata (s : State) (p : Principal) (a : Nat) : (s.deny p a).rdata = s.rdata := rfl
@[simp] theorem State.deny_rbytes (s : State) (p : Principal) (a : Nat) : (s.deny p a).rbytes = s.rbytes := rfl
@[simp] theorem State.deny_rstatus (s : State) (p : Principal) (a : Nat) : (s.deny p a).rstatus = s.rstatus := rfl
@[simp] theorem State.deny_out (s : State) (p : Principal) (a : Nat) : (s.deny p a).out = s.out := rfl
@[simp] theorem State.deny_free (s : State) (p : Principal) (a : Nat) : (s.deny p a).free = s.free := rfl
@[simp] theorem State.deny_pending (s : State) (p : Principal) (a : Nat) : (s.deny p a).pending = s.pending := rfl
@[simp] theorem State.unmapped_mem (s : State) (p : Principal) (a : Nat) : (s.unmapped p a).mem = s.mem := rfl
@[simp] theorem State.unmapped_chip (s : State) (p : Principal) (a : Nat) : (s.unmapped p a).chip = s.chip := rfl
@[simp] theorem State.unmapped_prot (s : State) (p : Principal) (a : Nat) : (s.unmapped p a).prot = s.prot := rfl
@[simp] theorem State.unmapped_irq (s : State) (p : Principal) (a : Nat) : (s.unmapped p a).irq = s.irq := rfl
@[simp] theorem State.unmapped_commit (s : State) (p : Principal) (a : Nat) : (s.unmapped p a).commit = s.commit := rfl
@[simp] theorem State.unmapped_port (s : State) (p : Principal) (a : Nat) : (s.unmapped p a).port = s.port := rfl
@[simp] theorem State.unmapped_mdio (s : State) (p : Principal) (a : Nat) : (s.unmapped p a).mdio = s.mdio := rfl
@[simp] theorem State.unmapped_swc (s : State) (p : Principal) (a : Nat) : (s.unmapped p a).swc = s.swc := rfl
@[simp] theorem State.unmapped_tb (s : State) (p : Principal) (a : Nat) : (s.unmapped p a).tb = s.tb := rfl
@[simp] theorem State.unmapped_gen (s : State) (p : Principal) (a : Nat) : (s.unmapped p a).gen = s.gen := rfl
@[simp] theorem State.unmapped_fab (s : State) (p : Principal) (a : Nat) : (s.unmapped p a).fab = s.fab := rfl
@[simp] theorem State.unmapped_shank (s : State) (p : Principal) (a : Nat) : (s.unmapped p a).shank = s.shank := rfl
@[simp] theorem State.unmapped_welt (s : State) (p : Principal) (a : Nat) : (s.unmapped p a).welt = s.welt := rfl
@[simp] theorem State.unmapped_eye (s : State) (p : Principal) (a : Nat) : (s.unmapped p a).eye = s.eye := rfl
@[simp] theorem State.unmapped_wcap (s : State) (p : Principal) (a : Nat) : (s.unmapped p a).wcap = s.wcap := rfl
@[simp] theorem State.unmapped_bank (s : State) (p : Principal) (a : Nat) : (s.unmapped p a).bank = s.bank := rfl
@[simp] theorem State.unmapped_lace (s : State) (p : Principal) (a : Nat) : (s.unmapped p a).lace = s.lace := rfl
@[simp] theorem State.unmapped_host (s : State) (p : Principal) (a : Nat) : (s.unmapped p a).host = s.host := rfl
@[simp] theorem State.unmapped_sup (s : State) (p : Principal) (a : Nat) : (s.unmapped p a).sup = s.sup := rfl
@[simp] theorem State.unmapped_flt (s : State) (p : Principal) (a : Nat) : (s.unmapped p a).flt = s.flt := rfl
@[simp] theorem State.unmapped_rdata (s : State) (p : Principal) (a : Nat) : (s.unmapped p a).rdata = s.rdata := rfl
@[simp] theorem State.unmapped_rbytes (s : State) (p : Principal) (a : Nat) : (s.unmapped p a).rbytes = s.rbytes := rfl
@[simp] theorem State.unmapped_rstatus (s : State) (p : Principal) (a : Nat) : (s.unmapped p a).rstatus = s.rstatus := rfl
@[simp] theorem State.unmapped_out (s : State) (p : Principal) (a : Nat) : (s.unmapped p a).out = s.out := rfl
@[simp] theorem State.unmapped_free (s : State) (p : Principal) (a : Nat) : (s.unmapped p a).free = s.free := rfl
@[simp] theorem State.unmapped_pending (s : State) (p : Principal) (a : Nat) : (s.unmapped p a).pending = s.pending := rfl
@[simp] theorem State.answer_regs (s : State) (p : Principal) (w : Word) : (s.answer p w).regs = s.regs := rfl
@[simp] theorem State.answer_mem (s : State) (p : Principal) (w : Word) : (s.answer p w).mem = s.mem := rfl
@[simp] theorem State.answer_chip (s : State) (p : Principal) (w : Word) : (s.answer p w).chip = s.chip := rfl
@[simp] theorem State.answer_prot (s : State) (p : Principal) (w : Word) : (s.answer p w).prot = s.prot := rfl
@[simp] theorem State.answer_irq (s : State) (p : Principal) (w : Word) : (s.answer p w).irq = s.irq := rfl
@[simp] theorem State.answer_commit (s : State) (p : Principal) (w : Word) : (s.answer p w).commit = s.commit := rfl
@[simp] theorem State.answer_port (s : State) (p : Principal) (w : Word) : (s.answer p w).port = s.port := rfl
@[simp] theorem State.answer_mdio (s : State) (p : Principal) (w : Word) : (s.answer p w).mdio = s.mdio := rfl
@[simp] theorem State.answer_swc (s : State) (p : Principal) (w : Word) : (s.answer p w).swc = s.swc := rfl
@[simp] theorem State.answer_tb (s : State) (p : Principal) (w : Word) : (s.answer p w).tb = s.tb := rfl
@[simp] theorem State.answer_gen (s : State) (p : Principal) (w : Word) : (s.answer p w).gen = s.gen := rfl
@[simp] theorem State.answer_fab (s : State) (p : Principal) (w : Word) : (s.answer p w).fab = s.fab := rfl
@[simp] theorem State.answer_shank (s : State) (p : Principal) (w : Word) : (s.answer p w).shank = s.shank := rfl
@[simp] theorem State.answer_welt (s : State) (p : Principal) (w : Word) : (s.answer p w).welt = s.welt := rfl
@[simp] theorem State.answer_eye (s : State) (p : Principal) (w : Word) : (s.answer p w).eye = s.eye := rfl
@[simp] theorem State.answer_wcap (s : State) (p : Principal) (w : Word) : (s.answer p w).wcap = s.wcap := rfl
@[simp] theorem State.answer_bank (s : State) (p : Principal) (w : Word) : (s.answer p w).bank = s.bank := rfl
@[simp] theorem State.answer_lace (s : State) (p : Principal) (w : Word) : (s.answer p w).lace = s.lace := rfl
@[simp] theorem State.answer_host (s : State) (p : Principal) (w : Word) : (s.answer p w).host = s.host := rfl
@[simp] theorem State.answer_sup (s : State) (p : Principal) (w : Word) : (s.answer p w).sup = s.sup := rfl
@[simp] theorem State.answer_flt (s : State) (p : Principal) (w : Word) : (s.answer p w).flt = s.flt := rfl
@[simp] theorem State.answer_rbytes (s : State) (p : Principal) (w : Word) : (s.answer p w).rbytes = s.rbytes := rfl
@[simp] theorem State.answer_rstatus (s : State) (p : Principal) (w : Word) : (s.answer p w).rstatus = s.rstatus := rfl
@[simp] theorem State.answer_out (s : State) (p : Principal) (w : Word) : (s.answer p w).out = s.out := rfl
@[simp] theorem State.answer_free (s : State) (p : Principal) (w : Word) : (s.answer p w).free = s.free := rfl
@[simp] theorem State.answer_pending (s : State) (p : Principal) (w : Word) : (s.answer p w).pending = s.pending := rfl
@[simp] theorem State.emit_regs (s : State) (e : OutEvent) : (s.emit e).regs = s.regs := rfl
@[simp] theorem State.emit_mem (s : State) (e : OutEvent) : (s.emit e).mem = s.mem := rfl
@[simp] theorem State.emit_chip (s : State) (e : OutEvent) : (s.emit e).chip = s.chip := rfl
@[simp] theorem State.emit_prot (s : State) (e : OutEvent) : (s.emit e).prot = s.prot := rfl
@[simp] theorem State.emit_irq (s : State) (e : OutEvent) : (s.emit e).irq = s.irq := rfl
@[simp] theorem State.emit_commit (s : State) (e : OutEvent) : (s.emit e).commit = s.commit := rfl
@[simp] theorem State.emit_port (s : State) (e : OutEvent) : (s.emit e).port = s.port := rfl
@[simp] theorem State.emit_mdio (s : State) (e : OutEvent) : (s.emit e).mdio = s.mdio := rfl
@[simp] theorem State.emit_swc (s : State) (e : OutEvent) : (s.emit e).swc = s.swc := rfl
@[simp] theorem State.emit_tb (s : State) (e : OutEvent) : (s.emit e).tb = s.tb := rfl
@[simp] theorem State.emit_gen (s : State) (e : OutEvent) : (s.emit e).gen = s.gen := rfl
@[simp] theorem State.emit_fab (s : State) (e : OutEvent) : (s.emit e).fab = s.fab := rfl
@[simp] theorem State.emit_shank (s : State) (e : OutEvent) : (s.emit e).shank = s.shank := rfl
@[simp] theorem State.emit_welt (s : State) (e : OutEvent) : (s.emit e).welt = s.welt := rfl
@[simp] theorem State.emit_eye (s : State) (e : OutEvent) : (s.emit e).eye = s.eye := rfl
@[simp] theorem State.emit_wcap (s : State) (e : OutEvent) : (s.emit e).wcap = s.wcap := rfl
@[simp] theorem State.emit_bank (s : State) (e : OutEvent) : (s.emit e).bank = s.bank := rfl
@[simp] theorem State.emit_lace (s : State) (e : OutEvent) : (s.emit e).lace = s.lace := rfl
@[simp] theorem State.emit_host (s : State) (e : OutEvent) : (s.emit e).host = s.host := rfl
@[simp] theorem State.emit_sup (s : State) (e : OutEvent) : (s.emit e).sup = s.sup := rfl
@[simp] theorem State.emit_flt (s : State) (e : OutEvent) : (s.emit e).flt = s.flt := rfl
@[simp] theorem State.emit_rdata (s : State) (e : OutEvent) : (s.emit e).rdata = s.rdata := rfl
@[simp] theorem State.emit_rbytes (s : State) (e : OutEvent) : (s.emit e).rbytes = s.rbytes := rfl
@[simp] theorem State.emit_rstatus (s : State) (e : OutEvent) : (s.emit e).rstatus = s.rstatus := rfl
@[simp] theorem State.emit_free (s : State) (e : OutEvent) : (s.emit e).free = s.free := rfl
@[simp] theorem State.emit_pending (s : State) (e : OutEvent) : (s.emit e).pending = s.pending := rfl
@[simp] theorem State.setByte_regs (s : State) (a : Nat) (b : Byte) : (s.setByte a b).regs = s.regs := rfl
@[simp] theorem State.setByte_chip (s : State) (a : Nat) (b : Byte) : (s.setByte a b).chip = s.chip := rfl
@[simp] theorem State.setByte_prot (s : State) (a : Nat) (b : Byte) : (s.setByte a b).prot = s.prot := rfl
@[simp] theorem State.setByte_irq (s : State) (a : Nat) (b : Byte) : (s.setByte a b).irq = s.irq := rfl
@[simp] theorem State.setByte_commit (s : State) (a : Nat) (b : Byte) : (s.setByte a b).commit = s.commit := rfl
@[simp] theorem State.setByte_port (s : State) (a : Nat) (b : Byte) : (s.setByte a b).port = s.port := rfl
@[simp] theorem State.setByte_mdio (s : State) (a : Nat) (b : Byte) : (s.setByte a b).mdio = s.mdio := rfl
@[simp] theorem State.setByte_swc (s : State) (a : Nat) (b : Byte) : (s.setByte a b).swc = s.swc := rfl
@[simp] theorem State.setByte_tb (s : State) (a : Nat) (b : Byte) : (s.setByte a b).tb = s.tb := rfl
@[simp] theorem State.setByte_gen (s : State) (a : Nat) (b : Byte) : (s.setByte a b).gen = s.gen := rfl
@[simp] theorem State.setByte_fab (s : State) (a : Nat) (b : Byte) : (s.setByte a b).fab = s.fab := rfl
@[simp] theorem State.setByte_shank (s : State) (a : Nat) (b : Byte) : (s.setByte a b).shank = s.shank := rfl
@[simp] theorem State.setByte_welt (s : State) (a : Nat) (b : Byte) : (s.setByte a b).welt = s.welt := rfl
@[simp] theorem State.setByte_eye (s : State) (a : Nat) (b : Byte) : (s.setByte a b).eye = s.eye := rfl
@[simp] theorem State.setByte_wcap (s : State) (a : Nat) (b : Byte) : (s.setByte a b).wcap = s.wcap := rfl
@[simp] theorem State.setByte_bank (s : State) (a : Nat) (b : Byte) : (s.setByte a b).bank = s.bank := rfl
@[simp] theorem State.setByte_lace (s : State) (a : Nat) (b : Byte) : (s.setByte a b).lace = s.lace := rfl
@[simp] theorem State.setByte_host (s : State) (a : Nat) (b : Byte) : (s.setByte a b).host = s.host := rfl
@[simp] theorem State.setByte_sup (s : State) (a : Nat) (b : Byte) : (s.setByte a b).sup = s.sup := rfl
@[simp] theorem State.setByte_flt (s : State) (a : Nat) (b : Byte) : (s.setByte a b).flt = s.flt := rfl
@[simp] theorem State.setByte_rdata (s : State) (a : Nat) (b : Byte) : (s.setByte a b).rdata = s.rdata := rfl
@[simp] theorem State.setByte_rbytes (s : State) (a : Nat) (b : Byte) : (s.setByte a b).rbytes = s.rbytes := rfl
@[simp] theorem State.setByte_rstatus (s : State) (a : Nat) (b : Byte) : (s.setByte a b).rstatus = s.rstatus := rfl
@[simp] theorem State.setByte_out (s : State) (a : Nat) (b : Byte) : (s.setByte a b).out = s.out := rfl
@[simp] theorem State.setByte_free (s : State) (a : Nat) (b : Byte) : (s.setByte a b).free = s.free := rfl
@[simp] theorem State.setByte_pending (s : State) (a : Nat) (b : Byte) : (s.setByte a b).pending = s.pending := rfl
@[simp] theorem State.setBytes_regs (s : State) (a : Nat) (l : List Byte) : (s.setBytes a l).regs = s.regs := rfl
@[simp] theorem State.setBytes_chip (s : State) (a : Nat) (l : List Byte) : (s.setBytes a l).chip = s.chip := rfl
@[simp] theorem State.setBytes_prot (s : State) (a : Nat) (l : List Byte) : (s.setBytes a l).prot = s.prot := rfl
@[simp] theorem State.setBytes_irq (s : State) (a : Nat) (l : List Byte) : (s.setBytes a l).irq = s.irq := rfl
@[simp] theorem State.setBytes_commit (s : State) (a : Nat) (l : List Byte) : (s.setBytes a l).commit = s.commit := rfl
@[simp] theorem State.setBytes_port (s : State) (a : Nat) (l : List Byte) : (s.setBytes a l).port = s.port := rfl
@[simp] theorem State.setBytes_mdio (s : State) (a : Nat) (l : List Byte) : (s.setBytes a l).mdio = s.mdio := rfl
@[simp] theorem State.setBytes_swc (s : State) (a : Nat) (l : List Byte) : (s.setBytes a l).swc = s.swc := rfl
@[simp] theorem State.setBytes_tb (s : State) (a : Nat) (l : List Byte) : (s.setBytes a l).tb = s.tb := rfl
@[simp] theorem State.setBytes_gen (s : State) (a : Nat) (l : List Byte) : (s.setBytes a l).gen = s.gen := rfl
@[simp] theorem State.setBytes_fab (s : State) (a : Nat) (l : List Byte) : (s.setBytes a l).fab = s.fab := rfl
@[simp] theorem State.setBytes_shank (s : State) (a : Nat) (l : List Byte) : (s.setBytes a l).shank = s.shank := rfl
@[simp] theorem State.setBytes_welt (s : State) (a : Nat) (l : List Byte) : (s.setBytes a l).welt = s.welt := rfl
@[simp] theorem State.setBytes_eye (s : State) (a : Nat) (l : List Byte) : (s.setBytes a l).eye = s.eye := rfl
@[simp] theorem State.setBytes_wcap (s : State) (a : Nat) (l : List Byte) : (s.setBytes a l).wcap = s.wcap := rfl
@[simp] theorem State.setBytes_bank (s : State) (a : Nat) (l : List Byte) : (s.setBytes a l).bank = s.bank := rfl
@[simp] theorem State.setBytes_lace (s : State) (a : Nat) (l : List Byte) : (s.setBytes a l).lace = s.lace := rfl
@[simp] theorem State.setBytes_host (s : State) (a : Nat) (l : List Byte) : (s.setBytes a l).host = s.host := rfl
@[simp] theorem State.setBytes_sup (s : State) (a : Nat) (l : List Byte) : (s.setBytes a l).sup = s.sup := rfl
@[simp] theorem State.setBytes_flt (s : State) (a : Nat) (l : List Byte) : (s.setBytes a l).flt = s.flt := rfl
@[simp] theorem State.setBytes_rdata (s : State) (a : Nat) (l : List Byte) : (s.setBytes a l).rdata = s.rdata := rfl
@[simp] theorem State.setBytes_rbytes (s : State) (a : Nat) (l : List Byte) : (s.setBytes a l).rbytes = s.rbytes := rfl
@[simp] theorem State.setBytes_rstatus (s : State) (a : Nat) (l : List Byte) : (s.setBytes a l).rstatus = s.rstatus := rfl
@[simp] theorem State.setBytes_out (s : State) (a : Nat) (l : List Byte) : (s.setBytes a l).out = s.out := rfl
@[simp] theorem State.setBytes_free (s : State) (a : Nat) (l : List Byte) : (s.setBytes a l).free = s.free := rfl
@[simp] theorem State.setBytes_pending (s : State) (a : Nat) (l : List Byte) : (s.setBytes a l).pending = s.pending := rfl
@[simp] theorem State.setWord_regs (s : State) (a : Nat) (w : Word) : (s.setWord a w).regs = s.regs := rfl
@[simp] theorem State.setWord_chip (s : State) (a : Nat) (w : Word) : (s.setWord a w).chip = s.chip := rfl
@[simp] theorem State.setWord_prot (s : State) (a : Nat) (w : Word) : (s.setWord a w).prot = s.prot := rfl
@[simp] theorem State.setWord_irq (s : State) (a : Nat) (w : Word) : (s.setWord a w).irq = s.irq := rfl
@[simp] theorem State.setWord_commit (s : State) (a : Nat) (w : Word) : (s.setWord a w).commit = s.commit := rfl
@[simp] theorem State.setWord_port (s : State) (a : Nat) (w : Word) : (s.setWord a w).port = s.port := rfl
@[simp] theorem State.setWord_mdio (s : State) (a : Nat) (w : Word) : (s.setWord a w).mdio = s.mdio := rfl
@[simp] theorem State.setWord_swc (s : State) (a : Nat) (w : Word) : (s.setWord a w).swc = s.swc := rfl
@[simp] theorem State.setWord_tb (s : State) (a : Nat) (w : Word) : (s.setWord a w).tb = s.tb := rfl
@[simp] theorem State.setWord_gen (s : State) (a : Nat) (w : Word) : (s.setWord a w).gen = s.gen := rfl
@[simp] theorem State.setWord_fab (s : State) (a : Nat) (w : Word) : (s.setWord a w).fab = s.fab := rfl
@[simp] theorem State.setWord_shank (s : State) (a : Nat) (w : Word) : (s.setWord a w).shank = s.shank := rfl
@[simp] theorem State.setWord_welt (s : State) (a : Nat) (w : Word) : (s.setWord a w).welt = s.welt := rfl
@[simp] theorem State.setWord_eye (s : State) (a : Nat) (w : Word) : (s.setWord a w).eye = s.eye := rfl
@[simp] theorem State.setWord_wcap (s : State) (a : Nat) (w : Word) : (s.setWord a w).wcap = s.wcap := rfl
@[simp] theorem State.setWord_bank (s : State) (a : Nat) (w : Word) : (s.setWord a w).bank = s.bank := rfl
@[simp] theorem State.setWord_lace (s : State) (a : Nat) (w : Word) : (s.setWord a w).lace = s.lace := rfl
@[simp] theorem State.setWord_host (s : State) (a : Nat) (w : Word) : (s.setWord a w).host = s.host := rfl
@[simp] theorem State.setWord_sup (s : State) (a : Nat) (w : Word) : (s.setWord a w).sup = s.sup := rfl
@[simp] theorem State.setWord_flt (s : State) (a : Nat) (w : Word) : (s.setWord a w).flt = s.flt := rfl
@[simp] theorem State.setWord_rdata (s : State) (a : Nat) (w : Word) : (s.setWord a w).rdata = s.rdata := rfl
@[simp] theorem State.setWord_rbytes (s : State) (a : Nat) (w : Word) : (s.setWord a w).rbytes = s.rbytes := rfl
@[simp] theorem State.setWord_rstatus (s : State) (a : Nat) (w : Word) : (s.setWord a w).rstatus = s.rstatus := rfl
@[simp] theorem State.setWord_out (s : State) (a : Nat) (w : Word) : (s.setWord a w).out = s.out := rfl
@[simp] theorem State.setWord_free (s : State) (a : Nat) (w : Word) : (s.setWord a w).free = s.free := rfl
@[simp] theorem State.setWord_pending (s : State) (a : Nat) (w : Word) : (s.setWord a w).pending = s.pending := rfl
@[simp] theorem State.setPort_regs (s : State) (n : Nat) (v : Port) : (s.setPort n v).regs = s.regs := rfl
@[simp] theorem State.setPort_mem (s : State) (n : Nat) (v : Port) : (s.setPort n v).mem = s.mem := rfl
@[simp] theorem State.setPort_chip (s : State) (n : Nat) (v : Port) : (s.setPort n v).chip = s.chip := rfl
@[simp] theorem State.setPort_prot (s : State) (n : Nat) (v : Port) : (s.setPort n v).prot = s.prot := rfl
@[simp] theorem State.setPort_irq (s : State) (n : Nat) (v : Port) : (s.setPort n v).irq = s.irq := rfl
@[simp] theorem State.setPort_commit (s : State) (n : Nat) (v : Port) : (s.setPort n v).commit = s.commit := rfl
@[simp] theorem State.setPort_mdio (s : State) (n : Nat) (v : Port) : (s.setPort n v).mdio = s.mdio := rfl
@[simp] theorem State.setPort_swc (s : State) (n : Nat) (v : Port) : (s.setPort n v).swc = s.swc := rfl
@[simp] theorem State.setPort_tb (s : State) (n : Nat) (v : Port) : (s.setPort n v).tb = s.tb := rfl
@[simp] theorem State.setPort_gen (s : State) (n : Nat) (v : Port) : (s.setPort n v).gen = s.gen := rfl
@[simp] theorem State.setPort_fab (s : State) (n : Nat) (v : Port) : (s.setPort n v).fab = s.fab := rfl
@[simp] theorem State.setPort_shank (s : State) (n : Nat) (v : Port) : (s.setPort n v).shank = s.shank := rfl
@[simp] theorem State.setPort_welt (s : State) (n : Nat) (v : Port) : (s.setPort n v).welt = s.welt := rfl
@[simp] theorem State.setPort_eye (s : State) (n : Nat) (v : Port) : (s.setPort n v).eye = s.eye := rfl
@[simp] theorem State.setPort_wcap (s : State) (n : Nat) (v : Port) : (s.setPort n v).wcap = s.wcap := rfl
@[simp] theorem State.setPort_bank (s : State) (n : Nat) (v : Port) : (s.setPort n v).bank = s.bank := rfl
@[simp] theorem State.setPort_lace (s : State) (n : Nat) (v : Port) : (s.setPort n v).lace = s.lace := rfl
@[simp] theorem State.setPort_host (s : State) (n : Nat) (v : Port) : (s.setPort n v).host = s.host := rfl
@[simp] theorem State.setPort_sup (s : State) (n : Nat) (v : Port) : (s.setPort n v).sup = s.sup := rfl
@[simp] theorem State.setPort_flt (s : State) (n : Nat) (v : Port) : (s.setPort n v).flt = s.flt := rfl
@[simp] theorem State.setPort_rdata (s : State) (n : Nat) (v : Port) : (s.setPort n v).rdata = s.rdata := rfl
@[simp] theorem State.setPort_rbytes (s : State) (n : Nat) (v : Port) : (s.setPort n v).rbytes = s.rbytes := rfl
@[simp] theorem State.setPort_rstatus (s : State) (n : Nat) (v : Port) : (s.setPort n v).rstatus = s.rstatus := rfl
@[simp] theorem State.setPort_out (s : State) (n : Nat) (v : Port) : (s.setPort n v).out = s.out := rfl
@[simp] theorem State.setPort_free (s : State) (n : Nat) (v : Port) : (s.setPort n v).free = s.free := rfl
@[simp] theorem State.setPort_pending (s : State) (n : Nat) (v : Port) : (s.setPort n v).pending = s.pending := rfl
@[simp] theorem State.setHtb_regs (s : State) (n : Nat) (v : Htb) : (s.setHtb n v).regs = s.regs := rfl
@[simp] theorem State.setHtb_mem (s : State) (n : Nat) (v : Htb) : (s.setHtb n v).mem = s.mem := rfl
@[simp] theorem State.setHtb_chip (s : State) (n : Nat) (v : Htb) : (s.setHtb n v).chip = s.chip := rfl
@[simp] theorem State.setHtb_prot (s : State) (n : Nat) (v : Htb) : (s.setHtb n v).prot = s.prot := rfl
@[simp] theorem State.setHtb_irq (s : State) (n : Nat) (v : Htb) : (s.setHtb n v).irq = s.irq := rfl
@[simp] theorem State.setHtb_commit (s : State) (n : Nat) (v : Htb) : (s.setHtb n v).commit = s.commit := rfl
@[simp] theorem State.setHtb_port (s : State) (n : Nat) (v : Htb) : (s.setHtb n v).port = s.port := rfl
@[simp] theorem State.setHtb_mdio (s : State) (n : Nat) (v : Htb) : (s.setHtb n v).mdio = s.mdio := rfl
@[simp] theorem State.setHtb_swc (s : State) (n : Nat) (v : Htb) : (s.setHtb n v).swc = s.swc := rfl
@[simp] theorem State.setHtb_gen (s : State) (n : Nat) (v : Htb) : (s.setHtb n v).gen = s.gen := rfl
@[simp] theorem State.setHtb_fab (s : State) (n : Nat) (v : Htb) : (s.setHtb n v).fab = s.fab := rfl
@[simp] theorem State.setHtb_shank (s : State) (n : Nat) (v : Htb) : (s.setHtb n v).shank = s.shank := rfl
@[simp] theorem State.setHtb_welt (s : State) (n : Nat) (v : Htb) : (s.setHtb n v).welt = s.welt := rfl
@[simp] theorem State.setHtb_eye (s : State) (n : Nat) (v : Htb) : (s.setHtb n v).eye = s.eye := rfl
@[simp] theorem State.setHtb_wcap (s : State) (n : Nat) (v : Htb) : (s.setHtb n v).wcap = s.wcap := rfl
@[simp] theorem State.setHtb_bank (s : State) (n : Nat) (v : Htb) : (s.setHtb n v).bank = s.bank := rfl
@[simp] theorem State.setHtb_lace (s : State) (n : Nat) (v : Htb) : (s.setHtb n v).lace = s.lace := rfl
@[simp] theorem State.setHtb_host (s : State) (n : Nat) (v : Htb) : (s.setHtb n v).host = s.host := rfl
@[simp] theorem State.setHtb_sup (s : State) (n : Nat) (v : Htb) : (s.setHtb n v).sup = s.sup := rfl
@[simp] theorem State.setHtb_flt (s : State) (n : Nat) (v : Htb) : (s.setHtb n v).flt = s.flt := rfl
@[simp] theorem State.setHtb_rdata (s : State) (n : Nat) (v : Htb) : (s.setHtb n v).rdata = s.rdata := rfl
@[simp] theorem State.setHtb_rbytes (s : State) (n : Nat) (v : Htb) : (s.setHtb n v).rbytes = s.rbytes := rfl
@[simp] theorem State.setHtb_rstatus (s : State) (n : Nat) (v : Htb) : (s.setHtb n v).rstatus = s.rstatus := rfl
@[simp] theorem State.setHtb_out (s : State) (n : Nat) (v : Htb) : (s.setHtb n v).out = s.out := rfl
@[simp] theorem State.setHtb_free (s : State) (n : Nat) (v : Htb) : (s.setHtb n v).free = s.free := rfl
@[simp] theorem State.setHtb_pending (s : State) (n : Nat) (v : Htb) : (s.setHtb n v).pending = s.pending := rfl
@[simp] theorem State.setView_regs (s : State) (n : Nat) (v : View) : (s.setView n v).regs = s.regs := rfl
@[simp] theorem State.setView_mem (s : State) (n : Nat) (v : View) : (s.setView n v).mem = s.mem := rfl
@[simp] theorem State.setView_chip (s : State) (n : Nat) (v : View) : (s.setView n v).chip = s.chip := rfl
@[simp] theorem State.setView_prot (s : State) (n : Nat) (v : View) : (s.setView n v).prot = s.prot := rfl
@[simp] theorem State.setView_irq (s : State) (n : Nat) (v : View) : (s.setView n v).irq = s.irq := rfl
@[simp] theorem State.setView_commit (s : State) (n : Nat) (v : View) : (s.setView n v).commit = s.commit := rfl
@[simp] theorem State.setView_port (s : State) (n : Nat) (v : View) : (s.setView n v).port = s.port := rfl
@[simp] theorem State.setView_mdio (s : State) (n : Nat) (v : View) : (s.setView n v).mdio = s.mdio := rfl
@[simp] theorem State.setView_swc (s : State) (n : Nat) (v : View) : (s.setView n v).swc = s.swc := rfl
@[simp] theorem State.setView_gen (s : State) (n : Nat) (v : View) : (s.setView n v).gen = s.gen := rfl
@[simp] theorem State.setView_fab (s : State) (n : Nat) (v : View) : (s.setView n v).fab = s.fab := rfl
@[simp] theorem State.setView_shank (s : State) (n : Nat) (v : View) : (s.setView n v).shank = s.shank := rfl
@[simp] theorem State.setView_welt (s : State) (n : Nat) (v : View) : (s.setView n v).welt = s.welt := rfl
@[simp] theorem State.setView_eye (s : State) (n : Nat) (v : View) : (s.setView n v).eye = s.eye := rfl
@[simp] theorem State.setView_wcap (s : State) (n : Nat) (v : View) : (s.setView n v).wcap = s.wcap := rfl
@[simp] theorem State.setView_bank (s : State) (n : Nat) (v : View) : (s.setView n v).bank = s.bank := rfl
@[simp] theorem State.setView_lace (s : State) (n : Nat) (v : View) : (s.setView n v).lace = s.lace := rfl
@[simp] theorem State.setView_host (s : State) (n : Nat) (v : View) : (s.setView n v).host = s.host := rfl
@[simp] theorem State.setView_sup (s : State) (n : Nat) (v : View) : (s.setView n v).sup = s.sup := rfl
@[simp] theorem State.setView_flt (s : State) (n : Nat) (v : View) : (s.setView n v).flt = s.flt := rfl
@[simp] theorem State.setView_rdata (s : State) (n : Nat) (v : View) : (s.setView n v).rdata = s.rdata := rfl
@[simp] theorem State.setView_rbytes (s : State) (n : Nat) (v : View) : (s.setView n v).rbytes = s.rbytes := rfl
@[simp] theorem State.setView_rstatus (s : State) (n : Nat) (v : View) : (s.setView n v).rstatus = s.rstatus := rfl
@[simp] theorem State.setView_out (s : State) (n : Nat) (v : View) : (s.setView n v).out = s.out := rfl
@[simp] theorem State.setView_free (s : State) (n : Nat) (v : View) : (s.setView n v).free = s.free := rfl
@[simp] theorem State.setView_pending (s : State) (n : Nat) (v : View) : (s.setView n v).pending = s.pending := rfl
@[simp] theorem State.setEv_regs (s : State) (n : Nat) (v : Ev) : (s.setEv n v).regs = s.regs := rfl
@[simp] theorem State.setEv_mem (s : State) (n : Nat) (v : Ev) : (s.setEv n v).mem = s.mem := rfl
@[simp] theorem State.setEv_chip (s : State) (n : Nat) (v : Ev) : (s.setEv n v).chip = s.chip := rfl
@[simp] theorem State.setEv_prot (s : State) (n : Nat) (v : Ev) : (s.setEv n v).prot = s.prot := rfl
@[simp] theorem State.setEv_irq (s : State) (n : Nat) (v : Ev) : (s.setEv n v).irq = s.irq := rfl
@[simp] theorem State.setEv_commit (s : State) (n : Nat) (v : Ev) : (s.setEv n v).commit = s.commit := rfl
@[simp] theorem State.setEv_port (s : State) (n : Nat) (v : Ev) : (s.setEv n v).port = s.port := rfl
@[simp] theorem State.setEv_mdio (s : State) (n : Nat) (v : Ev) : (s.setEv n v).mdio = s.mdio := rfl
@[simp] theorem State.setEv_swc (s : State) (n : Nat) (v : Ev) : (s.setEv n v).swc = s.swc := rfl
@[simp] theorem State.setEv_gen (s : State) (n : Nat) (v : Ev) : (s.setEv n v).gen = s.gen := rfl
@[simp] theorem State.setEv_fab (s : State) (n : Nat) (v : Ev) : (s.setEv n v).fab = s.fab := rfl
@[simp] theorem State.setEv_shank (s : State) (n : Nat) (v : Ev) : (s.setEv n v).shank = s.shank := rfl
@[simp] theorem State.setEv_welt (s : State) (n : Nat) (v : Ev) : (s.setEv n v).welt = s.welt := rfl
@[simp] theorem State.setEv_eye (s : State) (n : Nat) (v : Ev) : (s.setEv n v).eye = s.eye := rfl
@[simp] theorem State.setEv_wcap (s : State) (n : Nat) (v : Ev) : (s.setEv n v).wcap = s.wcap := rfl
@[simp] theorem State.setEv_bank (s : State) (n : Nat) (v : Ev) : (s.setEv n v).bank = s.bank := rfl
@[simp] theorem State.setEv_lace (s : State) (n : Nat) (v : Ev) : (s.setEv n v).lace = s.lace := rfl
@[simp] theorem State.setEv_host (s : State) (n : Nat) (v : Ev) : (s.setEv n v).host = s.host := rfl
@[simp] theorem State.setEv_sup (s : State) (n : Nat) (v : Ev) : (s.setEv n v).sup = s.sup := rfl
@[simp] theorem State.setEv_flt (s : State) (n : Nat) (v : Ev) : (s.setEv n v).flt = s.flt := rfl
@[simp] theorem State.setEv_rdata (s : State) (n : Nat) (v : Ev) : (s.setEv n v).rdata = s.rdata := rfl
@[simp] theorem State.setEv_rbytes (s : State) (n : Nat) (v : Ev) : (s.setEv n v).rbytes = s.rbytes := rfl
@[simp] theorem State.setEv_rstatus (s : State) (n : Nat) (v : Ev) : (s.setEv n v).rstatus = s.rstatus := rfl
@[simp] theorem State.setEv_out (s : State) (n : Nat) (v : Ev) : (s.setEv n v).out = s.out := rfl
@[simp] theorem State.setEv_free (s : State) (n : Nat) (v : Ev) : (s.setEv n v).free = s.free := rfl
@[simp] theorem State.setEv_pending (s : State) (n : Nat) (v : Ev) : (s.setEv n v).pending = s.pending := rfl
@[simp] theorem State.setGen_regs (s : State) (n : Nat) (v : Gen) : (s.setGen n v).regs = s.regs := rfl
@[simp] theorem State.setGen_mem (s : State) (n : Nat) (v : Gen) : (s.setGen n v).mem = s.mem := rfl
@[simp] theorem State.setGen_chip (s : State) (n : Nat) (v : Gen) : (s.setGen n v).chip = s.chip := rfl
@[simp] theorem State.setGen_prot (s : State) (n : Nat) (v : Gen) : (s.setGen n v).prot = s.prot := rfl
@[simp] theorem State.setGen_irq (s : State) (n : Nat) (v : Gen) : (s.setGen n v).irq = s.irq := rfl
@[simp] theorem State.setGen_commit (s : State) (n : Nat) (v : Gen) : (s.setGen n v).commit = s.commit := rfl
@[simp] theorem State.setGen_port (s : State) (n : Nat) (v : Gen) : (s.setGen n v).port = s.port := rfl
@[simp] theorem State.setGen_mdio (s : State) (n : Nat) (v : Gen) : (s.setGen n v).mdio = s.mdio := rfl
@[simp] theorem State.setGen_swc (s : State) (n : Nat) (v : Gen) : (s.setGen n v).swc = s.swc := rfl
@[simp] theorem State.setGen_tb (s : State) (n : Nat) (v : Gen) : (s.setGen n v).tb = s.tb := rfl
@[simp] theorem State.setGen_fab (s : State) (n : Nat) (v : Gen) : (s.setGen n v).fab = s.fab := rfl
@[simp] theorem State.setGen_shank (s : State) (n : Nat) (v : Gen) : (s.setGen n v).shank = s.shank := rfl
@[simp] theorem State.setGen_welt (s : State) (n : Nat) (v : Gen) : (s.setGen n v).welt = s.welt := rfl
@[simp] theorem State.setGen_eye (s : State) (n : Nat) (v : Gen) : (s.setGen n v).eye = s.eye := rfl
@[simp] theorem State.setGen_wcap (s : State) (n : Nat) (v : Gen) : (s.setGen n v).wcap = s.wcap := rfl
@[simp] theorem State.setGen_bank (s : State) (n : Nat) (v : Gen) : (s.setGen n v).bank = s.bank := rfl
@[simp] theorem State.setGen_lace (s : State) (n : Nat) (v : Gen) : (s.setGen n v).lace = s.lace := rfl
@[simp] theorem State.setGen_host (s : State) (n : Nat) (v : Gen) : (s.setGen n v).host = s.host := rfl
@[simp] theorem State.setGen_sup (s : State) (n : Nat) (v : Gen) : (s.setGen n v).sup = s.sup := rfl
@[simp] theorem State.setGen_flt (s : State) (n : Nat) (v : Gen) : (s.setGen n v).flt = s.flt := rfl
@[simp] theorem State.setGen_rdata (s : State) (n : Nat) (v : Gen) : (s.setGen n v).rdata = s.rdata := rfl
@[simp] theorem State.setGen_rbytes (s : State) (n : Nat) (v : Gen) : (s.setGen n v).rbytes = s.rbytes := rfl
@[simp] theorem State.setGen_rstatus (s : State) (n : Nat) (v : Gen) : (s.setGen n v).rstatus = s.rstatus := rfl
@[simp] theorem State.setGen_out (s : State) (n : Nat) (v : Gen) : (s.setGen n v).out = s.out := rfl
@[simp] theorem State.setGen_free (s : State) (n : Nat) (v : Gen) : (s.setGen n v).free = s.free := rfl
@[simp] theorem State.setGen_pending (s : State) (n : Nat) (v : Gen) : (s.setGen n v).pending = s.pending := rfl
@[simp] theorem State.setPe_regs (s : State) (n : Nat) (v : Pe) : (s.setPe n v).regs = s.regs := rfl
@[simp] theorem State.setPe_mem (s : State) (n : Nat) (v : Pe) : (s.setPe n v).mem = s.mem := rfl
@[simp] theorem State.setPe_chip (s : State) (n : Nat) (v : Pe) : (s.setPe n v).chip = s.chip := rfl
@[simp] theorem State.setPe_prot (s : State) (n : Nat) (v : Pe) : (s.setPe n v).prot = s.prot := rfl
@[simp] theorem State.setPe_irq (s : State) (n : Nat) (v : Pe) : (s.setPe n v).irq = s.irq := rfl
@[simp] theorem State.setPe_commit (s : State) (n : Nat) (v : Pe) : (s.setPe n v).commit = s.commit := rfl
@[simp] theorem State.setPe_port (s : State) (n : Nat) (v : Pe) : (s.setPe n v).port = s.port := rfl
@[simp] theorem State.setPe_mdio (s : State) (n : Nat) (v : Pe) : (s.setPe n v).mdio = s.mdio := rfl
@[simp] theorem State.setPe_swc (s : State) (n : Nat) (v : Pe) : (s.setPe n v).swc = s.swc := rfl
@[simp] theorem State.setPe_tb (s : State) (n : Nat) (v : Pe) : (s.setPe n v).tb = s.tb := rfl
@[simp] theorem State.setPe_gen (s : State) (n : Nat) (v : Pe) : (s.setPe n v).gen = s.gen := rfl
@[simp] theorem State.setPe_shank (s : State) (n : Nat) (v : Pe) : (s.setPe n v).shank = s.shank := rfl
@[simp] theorem State.setPe_welt (s : State) (n : Nat) (v : Pe) : (s.setPe n v).welt = s.welt := rfl
@[simp] theorem State.setPe_eye (s : State) (n : Nat) (v : Pe) : (s.setPe n v).eye = s.eye := rfl
@[simp] theorem State.setPe_wcap (s : State) (n : Nat) (v : Pe) : (s.setPe n v).wcap = s.wcap := rfl
@[simp] theorem State.setPe_bank (s : State) (n : Nat) (v : Pe) : (s.setPe n v).bank = s.bank := rfl
@[simp] theorem State.setPe_lace (s : State) (n : Nat) (v : Pe) : (s.setPe n v).lace = s.lace := rfl
@[simp] theorem State.setPe_host (s : State) (n : Nat) (v : Pe) : (s.setPe n v).host = s.host := rfl
@[simp] theorem State.setPe_sup (s : State) (n : Nat) (v : Pe) : (s.setPe n v).sup = s.sup := rfl
@[simp] theorem State.setPe_flt (s : State) (n : Nat) (v : Pe) : (s.setPe n v).flt = s.flt := rfl
@[simp] theorem State.setPe_rdata (s : State) (n : Nat) (v : Pe) : (s.setPe n v).rdata = s.rdata := rfl
@[simp] theorem State.setPe_rbytes (s : State) (n : Nat) (v : Pe) : (s.setPe n v).rbytes = s.rbytes := rfl
@[simp] theorem State.setPe_rstatus (s : State) (n : Nat) (v : Pe) : (s.setPe n v).rstatus = s.rstatus := rfl
@[simp] theorem State.setPe_out (s : State) (n : Nat) (v : Pe) : (s.setPe n v).out = s.out := rfl
@[simp] theorem State.setPe_free (s : State) (n : Nat) (v : Pe) : (s.setPe n v).free = s.free := rfl
@[simp] theorem State.setPe_pending (s : State) (n : Nat) (v : Pe) : (s.setPe n v).pending = s.pending := rfl
@[simp] theorem State.setLane_regs (s : State) (n : Nat) (v : Lane) : (s.setLane n v).regs = s.regs := rfl
@[simp] theorem State.setLane_mem (s : State) (n : Nat) (v : Lane) : (s.setLane n v).mem = s.mem := rfl
@[simp] theorem State.setLane_chip (s : State) (n : Nat) (v : Lane) : (s.setLane n v).chip = s.chip := rfl
@[simp] theorem State.setLane_prot (s : State) (n : Nat) (v : Lane) : (s.setLane n v).prot = s.prot := rfl
@[simp] theorem State.setLane_irq (s : State) (n : Nat) (v : Lane) : (s.setLane n v).irq = s.irq := rfl
@[simp] theorem State.setLane_commit (s : State) (n : Nat) (v : Lane) : (s.setLane n v).commit = s.commit := rfl
@[simp] theorem State.setLane_port (s : State) (n : Nat) (v : Lane) : (s.setLane n v).port = s.port := rfl
@[simp] theorem State.setLane_mdio (s : State) (n : Nat) (v : Lane) : (s.setLane n v).mdio = s.mdio := rfl
@[simp] theorem State.setLane_swc (s : State) (n : Nat) (v : Lane) : (s.setLane n v).swc = s.swc := rfl
@[simp] theorem State.setLane_tb (s : State) (n : Nat) (v : Lane) : (s.setLane n v).tb = s.tb := rfl
@[simp] theorem State.setLane_gen (s : State) (n : Nat) (v : Lane) : (s.setLane n v).gen = s.gen := rfl
@[simp] theorem State.setLane_shank (s : State) (n : Nat) (v : Lane) : (s.setLane n v).shank = s.shank := rfl
@[simp] theorem State.setLane_welt (s : State) (n : Nat) (v : Lane) : (s.setLane n v).welt = s.welt := rfl
@[simp] theorem State.setLane_eye (s : State) (n : Nat) (v : Lane) : (s.setLane n v).eye = s.eye := rfl
@[simp] theorem State.setLane_wcap (s : State) (n : Nat) (v : Lane) : (s.setLane n v).wcap = s.wcap := rfl
@[simp] theorem State.setLane_bank (s : State) (n : Nat) (v : Lane) : (s.setLane n v).bank = s.bank := rfl
@[simp] theorem State.setLane_lace (s : State) (n : Nat) (v : Lane) : (s.setLane n v).lace = s.lace := rfl
@[simp] theorem State.setLane_host (s : State) (n : Nat) (v : Lane) : (s.setLane n v).host = s.host := rfl
@[simp] theorem State.setLane_sup (s : State) (n : Nat) (v : Lane) : (s.setLane n v).sup = s.sup := rfl
@[simp] theorem State.setLane_flt (s : State) (n : Nat) (v : Lane) : (s.setLane n v).flt = s.flt := rfl
@[simp] theorem State.setLane_rdata (s : State) (n : Nat) (v : Lane) : (s.setLane n v).rdata = s.rdata := rfl
@[simp] theorem State.setLane_rbytes (s : State) (n : Nat) (v : Lane) : (s.setLane n v).rbytes = s.rbytes := rfl
@[simp] theorem State.setLane_rstatus (s : State) (n : Nat) (v : Lane) : (s.setLane n v).rstatus = s.rstatus := rfl
@[simp] theorem State.setLane_out (s : State) (n : Nat) (v : Lane) : (s.setLane n v).out = s.out := rfl
@[simp] theorem State.setLane_free (s : State) (n : Nat) (v : Lane) : (s.setLane n v).free = s.free := rfl
@[simp] theorem State.setLane_pending (s : State) (n : Nat) (v : Lane) : (s.setLane n v).pending = s.pending := rfl
@[simp] theorem State.setChan_regs (s : State) (n : Nat) (v : Chan) : (s.setChan n v).regs = s.regs := rfl
@[simp] theorem State.setChan_mem (s : State) (n : Nat) (v : Chan) : (s.setChan n v).mem = s.mem := rfl
@[simp] theorem State.setChan_chip (s : State) (n : Nat) (v : Chan) : (s.setChan n v).chip = s.chip := rfl
@[simp] theorem State.setChan_prot (s : State) (n : Nat) (v : Chan) : (s.setChan n v).prot = s.prot := rfl
@[simp] theorem State.setChan_irq (s : State) (n : Nat) (v : Chan) : (s.setChan n v).irq = s.irq := rfl
@[simp] theorem State.setChan_commit (s : State) (n : Nat) (v : Chan) : (s.setChan n v).commit = s.commit := rfl
@[simp] theorem State.setChan_port (s : State) (n : Nat) (v : Chan) : (s.setChan n v).port = s.port := rfl
@[simp] theorem State.setChan_mdio (s : State) (n : Nat) (v : Chan) : (s.setChan n v).mdio = s.mdio := rfl
@[simp] theorem State.setChan_swc (s : State) (n : Nat) (v : Chan) : (s.setChan n v).swc = s.swc := rfl
@[simp] theorem State.setChan_tb (s : State) (n : Nat) (v : Chan) : (s.setChan n v).tb = s.tb := rfl
@[simp] theorem State.setChan_gen (s : State) (n : Nat) (v : Chan) : (s.setChan n v).gen = s.gen := rfl
@[simp] theorem State.setChan_fab (s : State) (n : Nat) (v : Chan) : (s.setChan n v).fab = s.fab := rfl
@[simp] theorem State.setChan_welt (s : State) (n : Nat) (v : Chan) : (s.setChan n v).welt = s.welt := rfl
@[simp] theorem State.setChan_eye (s : State) (n : Nat) (v : Chan) : (s.setChan n v).eye = s.eye := rfl
@[simp] theorem State.setChan_wcap (s : State) (n : Nat) (v : Chan) : (s.setChan n v).wcap = s.wcap := rfl
@[simp] theorem State.setChan_bank (s : State) (n : Nat) (v : Chan) : (s.setChan n v).bank = s.bank := rfl
@[simp] theorem State.setChan_lace (s : State) (n : Nat) (v : Chan) : (s.setChan n v).lace = s.lace := rfl
@[simp] theorem State.setChan_host (s : State) (n : Nat) (v : Chan) : (s.setChan n v).host = s.host := rfl
@[simp] theorem State.setChan_sup (s : State) (n : Nat) (v : Chan) : (s.setChan n v).sup = s.sup := rfl
@[simp] theorem State.setChan_flt (s : State) (n : Nat) (v : Chan) : (s.setChan n v).flt = s.flt := rfl
@[simp] theorem State.setChan_rdata (s : State) (n : Nat) (v : Chan) : (s.setChan n v).rdata = s.rdata := rfl
@[simp] theorem State.setChan_rbytes (s : State) (n : Nat) (v : Chan) : (s.setChan n v).rbytes = s.rbytes := rfl
@[simp] theorem State.setChan_rstatus (s : State) (n : Nat) (v : Chan) : (s.setChan n v).rstatus = s.rstatus := rfl
@[simp] theorem State.setChan_out (s : State) (n : Nat) (v : Chan) : (s.setChan n v).out = s.out := rfl
@[simp] theorem State.setChan_free (s : State) (n : Nat) (v : Chan) : (s.setChan n v).free = s.free := rfl
@[simp] theorem State.setChan_pending (s : State) (n : Nat) (v : Chan) : (s.setChan n v).pending = s.pending := rfl
@[simp] theorem State.setWelt_regs (s : State) (n : Nat) (v : Welt) : (s.setWelt n v).regs = s.regs := rfl
@[simp] theorem State.setWelt_mem (s : State) (n : Nat) (v : Welt) : (s.setWelt n v).mem = s.mem := rfl
@[simp] theorem State.setWelt_chip (s : State) (n : Nat) (v : Welt) : (s.setWelt n v).chip = s.chip := rfl
@[simp] theorem State.setWelt_prot (s : State) (n : Nat) (v : Welt) : (s.setWelt n v).prot = s.prot := rfl
@[simp] theorem State.setWelt_irq (s : State) (n : Nat) (v : Welt) : (s.setWelt n v).irq = s.irq := rfl
@[simp] theorem State.setWelt_commit (s : State) (n : Nat) (v : Welt) : (s.setWelt n v).commit = s.commit := rfl
@[simp] theorem State.setWelt_port (s : State) (n : Nat) (v : Welt) : (s.setWelt n v).port = s.port := rfl
@[simp] theorem State.setWelt_mdio (s : State) (n : Nat) (v : Welt) : (s.setWelt n v).mdio = s.mdio := rfl
@[simp] theorem State.setWelt_swc (s : State) (n : Nat) (v : Welt) : (s.setWelt n v).swc = s.swc := rfl
@[simp] theorem State.setWelt_tb (s : State) (n : Nat) (v : Welt) : (s.setWelt n v).tb = s.tb := rfl
@[simp] theorem State.setWelt_gen (s : State) (n : Nat) (v : Welt) : (s.setWelt n v).gen = s.gen := rfl
@[simp] theorem State.setWelt_fab (s : State) (n : Nat) (v : Welt) : (s.setWelt n v).fab = s.fab := rfl
@[simp] theorem State.setWelt_shank (s : State) (n : Nat) (v : Welt) : (s.setWelt n v).shank = s.shank := rfl
@[simp] theorem State.setWelt_eye (s : State) (n : Nat) (v : Welt) : (s.setWelt n v).eye = s.eye := rfl
@[simp] theorem State.setWelt_wcap (s : State) (n : Nat) (v : Welt) : (s.setWelt n v).wcap = s.wcap := rfl
@[simp] theorem State.setWelt_bank (s : State) (n : Nat) (v : Welt) : (s.setWelt n v).bank = s.bank := rfl
@[simp] theorem State.setWelt_lace (s : State) (n : Nat) (v : Welt) : (s.setWelt n v).lace = s.lace := rfl
@[simp] theorem State.setWelt_host (s : State) (n : Nat) (v : Welt) : (s.setWelt n v).host = s.host := rfl
@[simp] theorem State.setWelt_sup (s : State) (n : Nat) (v : Welt) : (s.setWelt n v).sup = s.sup := rfl
@[simp] theorem State.setWelt_flt (s : State) (n : Nat) (v : Welt) : (s.setWelt n v).flt = s.flt := rfl
@[simp] theorem State.setWelt_rdata (s : State) (n : Nat) (v : Welt) : (s.setWelt n v).rdata = s.rdata := rfl
@[simp] theorem State.setWelt_rbytes (s : State) (n : Nat) (v : Welt) : (s.setWelt n v).rbytes = s.rbytes := rfl
@[simp] theorem State.setWelt_rstatus (s : State) (n : Nat) (v : Welt) : (s.setWelt n v).rstatus = s.rstatus := rfl
@[simp] theorem State.setWelt_out (s : State) (n : Nat) (v : Welt) : (s.setWelt n v).out = s.out := rfl
@[simp] theorem State.setWelt_free (s : State) (n : Nat) (v : Welt) : (s.setWelt n v).free = s.free := rfl
@[simp] theorem State.setWelt_pending (s : State) (n : Nat) (v : Welt) : (s.setWelt n v).pending = s.pending := rfl
@[simp] theorem State.setEye_regs (s : State) (n : Nat) (v : Eye) : (s.setEye n v).regs = s.regs := rfl
@[simp] theorem State.setEye_mem (s : State) (n : Nat) (v : Eye) : (s.setEye n v).mem = s.mem := rfl
@[simp] theorem State.setEye_chip (s : State) (n : Nat) (v : Eye) : (s.setEye n v).chip = s.chip := rfl
@[simp] theorem State.setEye_prot (s : State) (n : Nat) (v : Eye) : (s.setEye n v).prot = s.prot := rfl
@[simp] theorem State.setEye_irq (s : State) (n : Nat) (v : Eye) : (s.setEye n v).irq = s.irq := rfl
@[simp] theorem State.setEye_commit (s : State) (n : Nat) (v : Eye) : (s.setEye n v).commit = s.commit := rfl
@[simp] theorem State.setEye_port (s : State) (n : Nat) (v : Eye) : (s.setEye n v).port = s.port := rfl
@[simp] theorem State.setEye_mdio (s : State) (n : Nat) (v : Eye) : (s.setEye n v).mdio = s.mdio := rfl
@[simp] theorem State.setEye_swc (s : State) (n : Nat) (v : Eye) : (s.setEye n v).swc = s.swc := rfl
@[simp] theorem State.setEye_tb (s : State) (n : Nat) (v : Eye) : (s.setEye n v).tb = s.tb := rfl
@[simp] theorem State.setEye_gen (s : State) (n : Nat) (v : Eye) : (s.setEye n v).gen = s.gen := rfl
@[simp] theorem State.setEye_fab (s : State) (n : Nat) (v : Eye) : (s.setEye n v).fab = s.fab := rfl
@[simp] theorem State.setEye_shank (s : State) (n : Nat) (v : Eye) : (s.setEye n v).shank = s.shank := rfl
@[simp] theorem State.setEye_welt (s : State) (n : Nat) (v : Eye) : (s.setEye n v).welt = s.welt := rfl
@[simp] theorem State.setEye_wcap (s : State) (n : Nat) (v : Eye) : (s.setEye n v).wcap = s.wcap := rfl
@[simp] theorem State.setEye_bank (s : State) (n : Nat) (v : Eye) : (s.setEye n v).bank = s.bank := rfl
@[simp] theorem State.setEye_lace (s : State) (n : Nat) (v : Eye) : (s.setEye n v).lace = s.lace := rfl
@[simp] theorem State.setEye_host (s : State) (n : Nat) (v : Eye) : (s.setEye n v).host = s.host := rfl
@[simp] theorem State.setEye_sup (s : State) (n : Nat) (v : Eye) : (s.setEye n v).sup = s.sup := rfl
@[simp] theorem State.setEye_flt (s : State) (n : Nat) (v : Eye) : (s.setEye n v).flt = s.flt := rfl
@[simp] theorem State.setEye_rdata (s : State) (n : Nat) (v : Eye) : (s.setEye n v).rdata = s.rdata := rfl
@[simp] theorem State.setEye_rbytes (s : State) (n : Nat) (v : Eye) : (s.setEye n v).rbytes = s.rbytes := rfl
@[simp] theorem State.setEye_rstatus (s : State) (n : Nat) (v : Eye) : (s.setEye n v).rstatus = s.rstatus := rfl
@[simp] theorem State.setEye_out (s : State) (n : Nat) (v : Eye) : (s.setEye n v).out = s.out := rfl
@[simp] theorem State.setEye_free (s : State) (n : Nat) (v : Eye) : (s.setEye n v).free = s.free := rfl
@[simp] theorem State.setEye_pending (s : State) (n : Nat) (v : Eye) : (s.setEye n v).pending = s.pending := rfl
@[simp] theorem State.setWchan_regs (s : State) (n : Nat) (v : WChan) : (s.setWchan n v).regs = s.regs := rfl
@[simp] theorem State.setWchan_mem (s : State) (n : Nat) (v : WChan) : (s.setWchan n v).mem = s.mem := rfl
@[simp] theorem State.setWchan_chip (s : State) (n : Nat) (v : WChan) : (s.setWchan n v).chip = s.chip := rfl
@[simp] theorem State.setWchan_prot (s : State) (n : Nat) (v : WChan) : (s.setWchan n v).prot = s.prot := rfl
@[simp] theorem State.setWchan_irq (s : State) (n : Nat) (v : WChan) : (s.setWchan n v).irq = s.irq := rfl
@[simp] theorem State.setWchan_commit (s : State) (n : Nat) (v : WChan) : (s.setWchan n v).commit = s.commit := rfl
@[simp] theorem State.setWchan_port (s : State) (n : Nat) (v : WChan) : (s.setWchan n v).port = s.port := rfl
@[simp] theorem State.setWchan_mdio (s : State) (n : Nat) (v : WChan) : (s.setWchan n v).mdio = s.mdio := rfl
@[simp] theorem State.setWchan_swc (s : State) (n : Nat) (v : WChan) : (s.setWchan n v).swc = s.swc := rfl
@[simp] theorem State.setWchan_tb (s : State) (n : Nat) (v : WChan) : (s.setWchan n v).tb = s.tb := rfl
@[simp] theorem State.setWchan_gen (s : State) (n : Nat) (v : WChan) : (s.setWchan n v).gen = s.gen := rfl
@[simp] theorem State.setWchan_fab (s : State) (n : Nat) (v : WChan) : (s.setWchan n v).fab = s.fab := rfl
@[simp] theorem State.setWchan_shank (s : State) (n : Nat) (v : WChan) : (s.setWchan n v).shank = s.shank := rfl
@[simp] theorem State.setWchan_welt (s : State) (n : Nat) (v : WChan) : (s.setWchan n v).welt = s.welt := rfl
@[simp] theorem State.setWchan_eye (s : State) (n : Nat) (v : WChan) : (s.setWchan n v).eye = s.eye := rfl
@[simp] theorem State.setWchan_bank (s : State) (n : Nat) (v : WChan) : (s.setWchan n v).bank = s.bank := rfl
@[simp] theorem State.setWchan_lace (s : State) (n : Nat) (v : WChan) : (s.setWchan n v).lace = s.lace := rfl
@[simp] theorem State.setWchan_host (s : State) (n : Nat) (v : WChan) : (s.setWchan n v).host = s.host := rfl
@[simp] theorem State.setWchan_sup (s : State) (n : Nat) (v : WChan) : (s.setWchan n v).sup = s.sup := rfl
@[simp] theorem State.setWchan_flt (s : State) (n : Nat) (v : WChan) : (s.setWchan n v).flt = s.flt := rfl
@[simp] theorem State.setWchan_rdata (s : State) (n : Nat) (v : WChan) : (s.setWchan n v).rdata = s.rdata := rfl
@[simp] theorem State.setWchan_rbytes (s : State) (n : Nat) (v : WChan) : (s.setWchan n v).rbytes = s.rbytes := rfl
@[simp] theorem State.setWchan_rstatus (s : State) (n : Nat) (v : WChan) : (s.setWchan n v).rstatus = s.rstatus := rfl
@[simp] theorem State.setWchan_out (s : State) (n : Nat) (v : WChan) : (s.setWchan n v).out = s.out := rfl
@[simp] theorem State.setWchan_free (s : State) (n : Nat) (v : WChan) : (s.setWchan n v).free = s.free := rfl
@[simp] theorem State.setWchan_pending (s : State) (n : Nat) (v : WChan) : (s.setWchan n v).pending = s.pending := rfl
@[simp] theorem State.setLaceQ_regs (s : State) (m d : Nat) (q : List LWord) : (s.setLaceQ m d q).regs = s.regs := rfl
@[simp] theorem State.setLaceQ_mem (s : State) (m d : Nat) (q : List LWord) : (s.setLaceQ m d q).mem = s.mem := rfl
@[simp] theorem State.setLaceQ_chip (s : State) (m d : Nat) (q : List LWord) : (s.setLaceQ m d q).chip = s.chip := rfl
@[simp] theorem State.setLaceQ_prot (s : State) (m d : Nat) (q : List LWord) : (s.setLaceQ m d q).prot = s.prot := rfl
@[simp] theorem State.setLaceQ_irq (s : State) (m d : Nat) (q : List LWord) : (s.setLaceQ m d q).irq = s.irq := rfl
@[simp] theorem State.setLaceQ_commit (s : State) (m d : Nat) (q : List LWord) : (s.setLaceQ m d q).commit = s.commit := rfl
@[simp] theorem State.setLaceQ_port (s : State) (m d : Nat) (q : List LWord) : (s.setLaceQ m d q).port = s.port := rfl
@[simp] theorem State.setLaceQ_mdio (s : State) (m d : Nat) (q : List LWord) : (s.setLaceQ m d q).mdio = s.mdio := rfl
@[simp] theorem State.setLaceQ_swc (s : State) (m d : Nat) (q : List LWord) : (s.setLaceQ m d q).swc = s.swc := rfl
@[simp] theorem State.setLaceQ_tb (s : State) (m d : Nat) (q : List LWord) : (s.setLaceQ m d q).tb = s.tb := rfl
@[simp] theorem State.setLaceQ_gen (s : State) (m d : Nat) (q : List LWord) : (s.setLaceQ m d q).gen = s.gen := rfl
@[simp] theorem State.setLaceQ_fab (s : State) (m d : Nat) (q : List LWord) : (s.setLaceQ m d q).fab = s.fab := rfl
@[simp] theorem State.setLaceQ_shank (s : State) (m d : Nat) (q : List LWord) : (s.setLaceQ m d q).shank = s.shank := rfl
@[simp] theorem State.setLaceQ_welt (s : State) (m d : Nat) (q : List LWord) : (s.setLaceQ m d q).welt = s.welt := rfl
@[simp] theorem State.setLaceQ_eye (s : State) (m d : Nat) (q : List LWord) : (s.setLaceQ m d q).eye = s.eye := rfl
@[simp] theorem State.setLaceQ_wcap (s : State) (m d : Nat) (q : List LWord) : (s.setLaceQ m d q).wcap = s.wcap := rfl
@[simp] theorem State.setLaceQ_bank (s : State) (m d : Nat) (q : List LWord) : (s.setLaceQ m d q).bank = s.bank := rfl
@[simp] theorem State.setLaceQ_host (s : State) (m d : Nat) (q : List LWord) : (s.setLaceQ m d q).host = s.host := rfl
@[simp] theorem State.setLaceQ_sup (s : State) (m d : Nat) (q : List LWord) : (s.setLaceQ m d q).sup = s.sup := rfl
@[simp] theorem State.setLaceQ_flt (s : State) (m d : Nat) (q : List LWord) : (s.setLaceQ m d q).flt = s.flt := rfl
@[simp] theorem State.setLaceQ_rdata (s : State) (m d : Nat) (q : List LWord) : (s.setLaceQ m d q).rdata = s.rdata := rfl
@[simp] theorem State.setLaceQ_rbytes (s : State) (m d : Nat) (q : List LWord) : (s.setLaceQ m d q).rbytes = s.rbytes := rfl
@[simp] theorem State.setLaceQ_rstatus (s : State) (m d : Nat) (q : List LWord) : (s.setLaceQ m d q).rstatus = s.rstatus := rfl
@[simp] theorem State.setLaceQ_out (s : State) (m d : Nat) (q : List LWord) : (s.setLaceQ m d q).out = s.out := rfl
@[simp] theorem State.setLaceQ_free (s : State) (m d : Nat) (q : List LWord) : (s.setLaceQ m d q).free = s.free := rfl
@[simp] theorem State.setLaceQ_pending (s : State) (m d : Nat) (q : List LWord) : (s.setLaceQ m d q).pending = s.pending := rfl
@[simp] theorem State.setQueue_regs (s : State) (q : Nat) (l : List Desc) : (s.setQueue q l).regs = s.regs := rfl
@[simp] theorem State.setQueue_mem (s : State) (q : Nat) (l : List Desc) : (s.setQueue q l).mem = s.mem := rfl
@[simp] theorem State.setQueue_chip (s : State) (q : Nat) (l : List Desc) : (s.setQueue q l).chip = s.chip := rfl
@[simp] theorem State.setQueue_prot (s : State) (q : Nat) (l : List Desc) : (s.setQueue q l).prot = s.prot := rfl
@[simp] theorem State.setQueue_irq (s : State) (q : Nat) (l : List Desc) : (s.setQueue q l).irq = s.irq := rfl
@[simp] theorem State.setQueue_commit (s : State) (q : Nat) (l : List Desc) : (s.setQueue q l).commit = s.commit := rfl
@[simp] theorem State.setQueue_port (s : State) (q : Nat) (l : List Desc) : (s.setQueue q l).port = s.port := rfl
@[simp] theorem State.setQueue_mdio (s : State) (q : Nat) (l : List Desc) : (s.setQueue q l).mdio = s.mdio := rfl
@[simp] theorem State.setQueue_tb (s : State) (q : Nat) (l : List Desc) : (s.setQueue q l).tb = s.tb := rfl
@[simp] theorem State.setQueue_gen (s : State) (q : Nat) (l : List Desc) : (s.setQueue q l).gen = s.gen := rfl
@[simp] theorem State.setQueue_fab (s : State) (q : Nat) (l : List Desc) : (s.setQueue q l).fab = s.fab := rfl
@[simp] theorem State.setQueue_shank (s : State) (q : Nat) (l : List Desc) : (s.setQueue q l).shank = s.shank := rfl
@[simp] theorem State.setQueue_welt (s : State) (q : Nat) (l : List Desc) : (s.setQueue q l).welt = s.welt := rfl
@[simp] theorem State.setQueue_eye (s : State) (q : Nat) (l : List Desc) : (s.setQueue q l).eye = s.eye := rfl
@[simp] theorem State.setQueue_wcap (s : State) (q : Nat) (l : List Desc) : (s.setQueue q l).wcap = s.wcap := rfl
@[simp] theorem State.setQueue_bank (s : State) (q : Nat) (l : List Desc) : (s.setQueue q l).bank = s.bank := rfl
@[simp] theorem State.setQueue_lace (s : State) (q : Nat) (l : List Desc) : (s.setQueue q l).lace = s.lace := rfl
@[simp] theorem State.setQueue_host (s : State) (q : Nat) (l : List Desc) : (s.setQueue q l).host = s.host := rfl
@[simp] theorem State.setQueue_sup (s : State) (q : Nat) (l : List Desc) : (s.setQueue q l).sup = s.sup := rfl
@[simp] theorem State.setQueue_flt (s : State) (q : Nat) (l : List Desc) : (s.setQueue q l).flt = s.flt := rfl
@[simp] theorem State.setQueue_rdata (s : State) (q : Nat) (l : List Desc) : (s.setQueue q l).rdata = s.rdata := rfl
@[simp] theorem State.setQueue_rbytes (s : State) (q : Nat) (l : List Desc) : (s.setQueue q l).rbytes = s.rbytes := rfl
@[simp] theorem State.setQueue_rstatus (s : State) (q : Nat) (l : List Desc) : (s.setQueue q l).rstatus = s.rstatus := rfl
@[simp] theorem State.setQueue_out (s : State) (q : Nat) (l : List Desc) : (s.setQueue q l).out = s.out := rfl
@[simp] theorem State.setQueue_free (s : State) (q : Nat) (l : List Desc) : (s.setQueue q l).free = s.free := rfl
@[simp] theorem State.setQueue_pending (s : State) (q : Nat) (l : List Desc) : (s.setQueue q l).pending = s.pending := rfl
@[simp] theorem State.reg_answer (s : State) (p : Principal) (w : Word) (k' : Nat) : (s.answer p w).reg k' = s.reg k' := rfl
@[simp] theorem State.reg_emit (s : State) (e : OutEvent) (k' : Nat) : (s.emit e).reg k' = s.reg k' := rfl
@[simp] theorem State.reg_setByte (s : State) (a : Nat) (b : Byte) (k' : Nat) : (s.setByte a b).reg k' = s.reg k' := rfl
@[simp] theorem State.reg_setBytes (s : State) (a : Nat) (l : List Byte) (k' : Nat) : (s.setBytes a l).reg k' = s.reg k' := rfl
@[simp] theorem State.reg_setWord (s : State) (a : Nat) (w : Word) (k' : Nat) : (s.setWord a w).reg k' = s.reg k' := rfl
@[simp] theorem State.reg_setPort (s : State) (n : Nat) (v : Port) (k' : Nat) : (s.setPort n v).reg k' = s.reg k' := rfl
@[simp] theorem State.reg_setHtb (s : State) (n : Nat) (v : Htb) (k' : Nat) : (s.setHtb n v).reg k' = s.reg k' := rfl
@[simp] theorem State.reg_setView (s : State) (n : Nat) (v : View) (k' : Nat) : (s.setView n v).reg k' = s.reg k' := rfl
@[simp] theorem State.reg_setEv (s : State) (n : Nat) (v : Ev) (k' : Nat) : (s.setEv n v).reg k' = s.reg k' := rfl
@[simp] theorem State.reg_setGen (s : State) (n : Nat) (v : Gen) (k' : Nat) : (s.setGen n v).reg k' = s.reg k' := rfl
@[simp] theorem State.reg_setPe (s : State) (n : Nat) (v : Pe) (k' : Nat) : (s.setPe n v).reg k' = s.reg k' := rfl
@[simp] theorem State.reg_setLane (s : State) (n : Nat) (v : Lane) (k' : Nat) : (s.setLane n v).reg k' = s.reg k' := rfl
@[simp] theorem State.reg_setChan (s : State) (n : Nat) (v : Chan) (k' : Nat) : (s.setChan n v).reg k' = s.reg k' := rfl
@[simp] theorem State.reg_setWelt (s : State) (n : Nat) (v : Welt) (k' : Nat) : (s.setWelt n v).reg k' = s.reg k' := rfl
@[simp] theorem State.reg_setEye (s : State) (n : Nat) (v : Eye) (k' : Nat) : (s.setEye n v).reg k' = s.reg k' := rfl
@[simp] theorem State.reg_setWchan (s : State) (n : Nat) (v : WChan) (k' : Nat) : (s.setWchan n v).reg k' = s.reg k' := rfl
@[simp] theorem State.reg_setLaceQ (s : State) (m d : Nat) (q : List LWord) (k' : Nat) : (s.setLaceQ m d q).reg k' = s.reg k' := rfl
@[simp] theorem State.reg_setQueue (s : State) (q : Nat) (l : List Desc) (k' : Nat) : (s.setQueue q l).reg k' = s.reg k' := rfl

/-! ## Repeated updates -/

/-- What each update of a repetition keeps, the repetition keeps. -/
theorem forEach_keeps {α β : Type} (f : State → α → State) (g : State → β) (h : ∀ s x, g (f s x) = g s) (l : List α) (s : State) :
    g (forEach l f s) = g s := by
  unfold forEach
  induction l generalizing s with
  | nil => rfl
  | cons x t ih => simp only [List.foldl_cons]; rw [ih, h]

/-- What holds before and is kept by each update holds after the repetition. -/
theorem forEach_inv {α : Type} (f : State → α → State) (P : State → Prop) (h : ∀ s x, P s → P (f s x)) (l : List α) (s : State)
    (h0 : P s) : P (forEach l f s) := by
  unfold forEach
  induction l generalizing s with
  | nil => exact h0
  | cons x t ih => exact ih (f s x) (h s x h0)

end Sys2Proof.Machine
end

