-- ==== Sys2Proof/Laws/Access.lean ====
section
/-! SUPPORT. What a register access that nothing refuses does, and what a stretch of memory reads as. -/
namespace Sys2Proof.Machine

/-- A write that nothing refuses is exactly what its register does with the word written. -/
theorem State.access_letsIn (s : State) (p : Principal) (k : Nat) (v : Word) (act : State → Word → State)
    (h : s.letsIn p (keyAddr k) = true) (hr : (regRow (keyAddr k)).isSome = true) : s.access p k v act = act s v := by
  obtain ⟨r, hr⟩ := Option.isSome_iff_exists.mp hr
  simp only [State.letsIn, Bool.and_eq_true, Bool.not_eq_true'] at h
  obtain ⟨⟨⟨h1, h2⟩, h3⟩, h4⟩ := h
  simp [State.access, h1, h2, h3, h4, hr, State.retLocked]

/-- A write by a principal that does not reach the device does nothing. -/
theorem State.access_away (s : State) (p : Principal) (k : Nat) (v : Word) (act : State → Word → State)
    (h : s.reaches p = false) : s.access p k v act = s := by
  simp [State.access, h]

theorem cellsRead_eq (n : Nat) (m : Sparse Byte) (a b : Nat) (w : m.wfFrom (fun _ => 0) b = true)
    (hm : ∀ e ∈ m, a ≤ e.1) : cellsRead n m a = (List.range n).map fun i => m.rd 0 (a + i) := by
  induction n generalizing m a b with
  | zero => rfl
  | succ n ih =>
    rw [List.range_succ_eq_map, List.map_cons, List.map_map]
    cases m with
    | nil =>
      simp only [cellsRead]
      rw [ih [] (a + 1) b rfl (by simp)]
      rfl
    | cons e t =>
      have hw := w
      obtain ⟨k, x⟩ := e
      have hk : a ≤ k := hm (k, x) (by simp)
      simp only [Sparse.wfFrom, Bool.and_eq_true, decide_eq_true_eq] at w
      have ht := Sparse.wfFrom_mem _ t _ w.2
      by_cases h : k = a
      · subst h
        simp only [cellsRead, if_true]
        rw [ih t (k + 1) (k + 1) w.2 ht]
        congr 1
        · simp [Sparse.rd]
        · apply List.map_congr_left
          intro i _
          simp only [Function.comp, Sparse.rd]
          rw [if_neg (by omega)]
          congr 1; omega
      · simp only [cellsRead, if_neg h]
        rw [ih ((k, x) :: t) (a + 1) b hw (by
          intro e he
          rcases List.mem_cons.mp he with rfl | he
          · show a + 1 ≤ k; omega
          · have := ht e he; omega)]
        congr 1
        · symm
          show Sparse.rd 0 ((k, x) :: t) (a + 0) = 0
          have : ∀ e ∈ ((k, x) :: t : Sparse Byte), e.1 ≠ a := by
            intro e he
            rcases List.mem_cons.mp he with rfl | he
            · exact h
            · have := ht e he; omega
          simpa [Sparse.rd] using Sparse.rd_append (0 : Byte) ((k, x) :: t) [] a this
        · apply List.map_congr_left
          intro i _
          simp only [Function.comp]
          congr 1; omega

theorem dropWhile_keeps (m : Sparse Byte) (a b : Nat) (w : m.wfFrom (fun _ => 0) b = true) :
    (∃ c, Sparse.wfFrom (fun _ => 0) c (m.dropWhile fun c => c.1 < a) = true) ∧ (∀ e ∈ m.dropWhile (fun c => c.1 < a), a ≤ e.1)
      ∧ ∀ k, a ≤ k → Sparse.rd 0 (m.dropWhile fun c => c.1 < a) k = m.rd 0 k := by
  induction m generalizing b with
  | nil => exact ⟨⟨b, rfl⟩, by simp, fun _ _ => rfl⟩
  | cons e t ih =>
    have hw := w
    simp only [Sparse.wfFrom, Bool.and_eq_true, decide_eq_true_eq] at w
    by_cases h : e.1 < a
    · rw [List.dropWhile_cons_of_pos (by simpa using h)]
      obtain ⟨h1, h2, h3⟩ := ih _ w.2
      refine ⟨h1, h2, fun k hk => ?_⟩
      rw [h3 k hk]
      simp [Sparse.rd, show ¬ e.1 = k by omega]
    · rw [List.dropWhile_cons_of_neg (by simpa using h)]
      refine ⟨⟨b, hw⟩, fun x hx => ?_, fun _ _ => rfl⟩
      rcases List.mem_cons.mp hx with rfl | hx
      · omega
      · have := Sparse.wfFrom_mem _ t _ w.2 x hx; omega

/-- A stretch of canonical memory reads as its bytes do one by one. -/
theorem State.bytes_eq (s : State) (a n : Nat) (w : Memory.wf s.mem = true) :
    s.bytes a n = (List.range n).map fun i => s.byte (a + i) := by
  obtain ⟨⟨c, h1⟩, h2, h3⟩ := dropWhile_keeps s.mem a 0 w
  rw [State.bytes, cellsRead_eq n _ a c h1 h2]
  exact List.map_congr_left fun i _ => h3 (a + i) (by omega)

end Sys2Proof.Machine
end

