-- ==== Sys2Proof/Laws/Ops.lean ====
section
/-! SUPPORT. What the shared operations leave alone, and what the issue of an engine's instruction comes to. -/
namespace Sys2Proof.Machine

/-! ## Operations that only write registers -/

theorem State.irq'_rest (s : State) (p b : Nat) : { s.irq' p b with regs := s.regs } = s := rfl
theorem State.err_rest (s : State) (p b : Nat) : { s.err p b with regs := s.regs } = s := rfl
theorem State.count_rest (s : State) (k n : Nat) : { s.count k n with regs := s.regs } = s := rfl
theorem State.moveTo_rest (s : State) (p st : Nat) : { s.moveTo p st with regs := s.regs } = s := rfl
theorem State.unmapped_rest (s : State) (p : Principal) (a : Nat) : { s.unmapped p a with regs := s.regs } = s := rfl
theorem State.clearPage_rest (s : State) (p : Nat) (f : Nat → Bool) : { s.clearPage p f with regs := s.regs } = s := rfl
theorem State.faultSeen_rest (s : State) (c n : Nat) : { s.faultSeen c n with regs := s.regs } = s := rfl

/-! ## Engines -/

@[simp] theorem State.peOf_setPe_same (s : State) (e : Nat) (v : Pe) : (s.setPe e v).peOf e = v :=
  Sparse.rd_wr_same _ _ _ _

theorem State.peOf_setPe_ne (s : State) {e f : Nat} (v : Pe) (h : f ≠ e) : (s.setPe e v).peOf f = s.peOf f :=
  Sparse.rd_wr_ne _ _ _ _ h

/-- An engine that cannot issue stands still. -/
theorem State.issue_still (s : State) (e : EngIx) (d : Nat) (i : Instr) (b l : Bool) (body : State → AwlRes)
    (h : s.issues e.val = false) : s.issue e d i b l body = s := by
  simp [State.issue, h]

/-- An engine whose waiting instruction is another one stands still (R302). -/
theorem State.issue_behind (s : State) (e : EngIx) (d : Nat) (i : Instr) (b l : Bool) (body : State → AwlRes)
    (h : (s.peOf e.val).mayIssue i = false) : s.issue e d i b l body = s := by
  simp [State.issue, h]

/-- The issue of a steady engine comes to its instruction's own effect, and the move past it. -/
theorem State.issue_steady (s : State) (x : EngIx) (d : Nat) (i : Instr) (b l : Bool) (body : State → AwlRes)
    (h : s.steady x.val d = true) (hi : s.spells x i = true)
    (ho : awlWordOk (s.fetched x.val (s.peOf x.val).ibank (s.peOf x.val).pc) = true) :
    s.issue x d i b l body =
      match body (s.ageE x.val d) with
      | .wait => s.setPe x.val { s.peOf x.val with waiting := some i }
      | .trap c t => t.trapTo x.val c (s.peOf x.val).ibank (s.peOf x.val).pc
      | .done t => t.advance x.val none (s.peOf x.val).pc ((s.peOf x.val).pc + 1) l
      | .after t f => f (t.advance x.val none (s.peOf x.val).pc ((s.peOf x.val).pc + 1) l)
      | .slots t y =>
        let t := t.setPe x.val { t.peOf x.val with xfer := some y }
        t.setPe x.val { t.peOf x.val with pc := (s.peOf x.val).pc + 1 }
      | .skipTo t to' => t.advance x.val none (s.peOf x.val).pc to' l := by
  have hp := h
  simp only [State.steady, State.poised, Bool.and_eq_true, decide_eq_true_eq, Bool.not_eq_true', Option.isNone_iff_eq_none,
    Bool.or_eq_true, Bool.and_eq_false_iff] at hp
  obtain ⟨⟨⟨⟨⟨⟨⟨⟨h1, h2⟩, h3⟩, h4⟩, h5⟩, h6⟩, hw⟩, h7⟩, h8⟩ := hp
  have hd : (d == 0) = false := by simp; omega
  have hage : (s.ageE x.val d).peOf x.val = { s.peOf x.val with
      hazards := ((s.peOf x.val).hazards.map fun h => { h with left := h.left - d }).filter Hazard.live
      justW := [], prevW := if d < 2 then (s.peOf x.val).justW else []
      spHaz := none, spPrev := none, waiting := none
      cycle := (s.peOf x.val).cycle + BitVec.ofNat 32 d
      wdog := (s.peOf x.val).wdog + d } := by
    rw [State.ageE, State.peOf_setPe_same]
    rcases h5 with h5 | h5
    · rw [h5]; simp
    · rw [if_neg (show ¬ d < 2 by omega) (t := (s.peOf x.val).spHaz)]
  have hmem : ∀ ib pc, (s.ageE x.val d).fetched x.val ib pc = s.fetched x.val ib pc := fun _ _ => rfl
  have hm : (s.peOf x.val).mayIssue i = true := by simp [Pe.mayIssue, hw]
  have hj : ((s.ageE x.val d).peOf x.val).jtagHalt = false := by rw [hage]; exact h6
  have hs : (s.ageE x.val d).stepUsed x.val = s.ageE x.val d := by simp [State.stepUsed, hj]
  have hsp (n : Nat) : (s.ageE x.val d).useSpecial x.val n = ((s.ageE x.val d).special x.val n, s.ageE x.val d) := by
    simp only [State.useSpecial, hage]
  have h3' : (((s.ageE x.val d).special x.val 3).setWidth 3 : BitVec 3) = (s.peOf x.val).ibank := by
    simp only [State.special, hage]
    apply BitVec.eq_of_toNat_eq
    simp only [BitVec.toNat_setWidth, BitVec.toNat_ofNat]
    have := (s.peOf x.val).ibank.isLt
    omega
  have hl : ((s.ageE x.val d).peOf x.val).loopAt (s.peOf x.val).ibank (s.peOf x.val).pc = none := by rw [hage]; exact h7
  have hpc : ((s.ageE x.val d).peOf x.val).pc = (s.peOf x.val).pc := by rw [hage]
  have hx : ((s.ageE x.val d).peOf x.val).xfer = none := by rw [hage]; exact h4
  have hfp : ((s.ageE x.val d).peOf x.val).farPending = (s.peOf x.val).farPending := by rw [hage]
  have hbit : ((s.ageE x.val d).special x.val 0).getLsbD 1 = (s.peOf x.val).farTrap := by
    simp only [State.special, hage]
    cases (s.peOf x.val).rsopt <;> cases (s.peOf x.val).farTrap <;> rfl
  have hf : ((s.peOf x.val).farPending && (s.peOf x.val).farTrap) = false := Bool.and_eq_false_iff.mpr h8
  have he : (s.ageE x.val d).encodes x (s.peOf x.val).ibank (s.peOf x.val).pc i = true := hi
  rw [State.issue, h1, hd, hm]
  cases hb : body (s.ageE x.val d) <;>
    simp only [Bool.not_true, Bool.or_self, Bool.false_eq_true, if_false, hs, hsp, h3', hpc, hl, hfp, hbit, hf, hx, hmem, ho, he,
      Bool.false_and, if_neg h3, Option.isSome_none, Bool.and_false, hb]

end Sys2Proof.Machine
end

