-- ==== Sys2Proof/WellFormed.lean ====
section
/-! DEFINITION. Which command terms a sender can form: what an operand's type does not already say. -/
namespace Sys2Proof

/-- A register access is of 8, 16, 32 or 64 bits (R40). -/
def okWidth (n : Nat) : Bool := n == 1 || n == 2 || n == 4 || n == 8

/-- An engine issues at most one instruction in an E cycle, so two issues are at least one cycle apart (R303). -/
def okGap (d : Nat) : Bool := decide (1 ≤ d)

/-- An access is of at least one byte, and a write brings as many bytes as it says. -/
def okBytes (n : Nat) (w : Option (List Byte)) : Bool := decide (1 ≤ n) && w.all fun l => l.length == n

/-- A Host B frame carries 1 to 64 words (R509). -/
def okWords (n : Nat) : Bool := decide (1 ≤ n ∧ n ≤ 64)

/-- A descriptor's data from host memory is as long as it says, unless the host's read failed (Table 16-2). -/
def okHost (d : DmaDesc) (host : List Byte) (err : Bool) : Bool := !d.toDevice || err || host.length == d.length

/-- A command a sender can form. -/
def Instr.wf : Instr → Bool
  | .registerWrite _ _ n _ => okWidth n
  | .rcRead _ r => okWidth r.bytes
  | .bankAccess _ _ n w => okBytes n w
  | .jtagMemory _ _ n w => okBytes n w
  | .bar2Read _ n => okBytes n Option.none
  | .bar2Write _ l => okBytes l.length (some l)
  | .dmaDescriptor _ d host err => okHost d host err
  | .write _ ws _ => okWords ws.length
  | .read _ n _ _ => okWords n
  | .nop _ d => okGap d
  | .halt _ d => okGap d
  | .sync _ d => okGap d
  | .trap _ d _ => okGap d
  | .ckpt _ d => okGap d
  | .waitf _ d _ => okGap d
  | .ret _ d => okGap d
  | .lpop _ d => okGap d
  | .mfs _ d _ _ => okGap d
  | .mts _ d _ _ => okGap d
  | .tsr _ d _ => okGap d
  | .add _ d _ _ _ => okGap d
  | .sub _ d _ _ _ => okGap d
  | .and _ d _ _ _ => okGap d
  | .or _ d _ _ _ => okGap d
  | .xor _ d _ _ _ => okGap d
  | .nor _ d _ _ _ => okGap d
  | .slt _ d _ _ _ => okGap d
  | .sltu _ d _ _ _ => okGap d
  | .shl _ d _ _ _ => okGap d
  | .shr _ d _ _ _ => okGap d
  | .sar _ d _ _ _ => okGap d
  | .shli _ d _ _ _ => okGap d
  | .shri _ d _ _ _ => okGap d
  | .sari _ d _ _ _ => okGap d
  | .min _ d _ _ _ => okGap d
  | .max _ d _ _ _ => okGap d
  | .mul _ d _ _ _ => okGap d
  | .mulh _ d _ _ _ => okGap d
  | .mulhu _ d _ _ _ => okGap d
  | .ext _ d _ _ _ _ => okGap d
  | .exts _ d _ _ _ _ => okGap d
  | .ins _ d _ _ _ _ => okGap d
  | .clz _ d _ _ => okGap d
  | .popc _ d _ _ => okGap d
  | .bswap _ d _ _ => okGap d
  | .bswaph _ d _ _ => okGap d
  | .crc _ d _ _ _ _ => okGap d
  | .hash _ d _ _ _ => okGap d
  | .cams _ d _ _ _ => okGap d
  | .camw _ d _ _ => okGap d
  | .camr _ d _ _ => okGap d
  | .ddq _ d _ _ _ _ _ => okGap d
  | .addi _ d _ _ _ => okGap d
  | .andi _ d _ _ _ => okGap d
  | .ori _ d _ _ _ => okGap d
  | .xori _ d _ _ _ => okGap d
  | .lui _ d _ _ => okGap d
  | .slti _ d _ _ _ => okGap d
  | .sltiu _ d _ _ _ => okGap d
  | .ldb _ d _ _ _ => okGap d
  | .ldbs _ d _ _ _ => okGap d
  | .ldh _ d _ _ _ => okGap d
  | .ldhs _ d _ _ _ => okGap d
  | .ld _ d _ _ _ => okGap d
  | .stb _ d _ _ _ => okGap d
  | .sth _ d _ _ _ => okGap d
  | .st _ d _ _ _ => okGap d
  | .ldd _ d _ _ => okGap d
  | .std _ d _ _ => okGap d
  | .fld _ d _ _ _ _ _ => okGap d
  | .fst _ d _ _ _ _ _ => okGap d
  | .rld _ d _ _ _ _ _ => okGap d
  | .rst _ d _ _ _ _ _ => okGap d
  | .bCond _ d _ _ _ _ => okGap d
  | .call _ d _ => okGap d
  | .jr _ d _ => okGap d
  | .loop _ d _ _ => okGap d
  | .loopr _ d _ _ => okGap d
  | .lpost _ d _ _ _ _ _ => okGap d
  | .lread _ d _ _ _ => okGap d
  | .dbr _ d _ _ => okGap d
  | .srd _ d _ _ _ _ => okGap d
  | .speek _ d _ _ _ _ => okGap d
  | .swr _ d _ _ _ _ _ _ => okGap d
  | .sins _ d _ _ _ _ _ _ => okGap d
  | .sdel _ d _ _ _ _ _ _ => okGap d
  | .sskip _ d _ _ _ _ _ _ => okGap d
  | .seof _ d _ _ => okGap d
  | .snxt _ d _ => okGap d
  | _ => true

end Sys2Proof
end

