-- ==== Sys2Proof/Tests/Slice0.lean ====
section
/-! SUPPORT. Tests: ill-formed commands refused, single commands against values of the spec's examples and tables, and a
state for the hypotheses of every statement. -/
namespace Sys2Proof.Tests
open Sys2Proof Sys2Proof.Machine
set_option Elab.async false

/-- A state with registers set. -/
def withRegs (s : State) (l : List (Nat × Word)) : State := l.foldl (fun s e => s.setReg e.1 e.2) s
/-- The device after boot, its blocks still off. -/
def up : State := State.reset.putb devBootDone true
/-- The pages of a list read ON. -/
def withOn (s : State) (l : List Nat) : State := l.foldl (fun s p => s.setReg (hdrState p) 2) s
/-- A device whose engine 3 runs, with values in K1, K2, K3 and the current frame. -/
def eng : State :=
  (withOn up [pgPe 3, pgFab, pgLace, pgBank]).setPe 3
    { regs := [(1, 0x80000005), (2, 3), (3, 0xFFFFFFFF), (8, 0x12345678), (16, 0x10)] }
theorem sub_floor (x : Nat) (_ : x < 2 ^ 72) : (2 ^ 72 - x / 2 ^ 32 * 2 ^ 32 % 2 ^ 72 + x) % 2 ^ 72 = x % 2 ^ 32 := by omega
/-- The whole nanoseconds of a time have been reached at that time. -/
theorem past_reached (t : BitVec 72) : 0 ≤ past t (t.toNat / 2 ^ 32) := by
  have h : (t - BitVec.ofNat 72 (t.toNat / 2 ^ 32 * 2 ^ 32)).toNat = t.toNat % 2 ^ 32 := by
    rw [BitVec.toNat_sub, BitVec.toNat_ofNat]; exact sub_floor _ t.isLt
  rw [past, BitVec.toInt_eq_toNat_of_lt (by rw [h]; omega)]
  exact Int.natCast_nonneg _

/-! ## Ill-formed commands -/

theorem test_wf_width : (Instr.registerWrite .hb 0 3 0).wf = false := rfl
theorem test_wf_width_ok : (Instr.registerWrite .hb 0 8 0).wf = true := rfl
theorem test_wf_gap : (Instr.nop 0 0).wf = false := rfl
theorem test_wf_gap_alu : (Instr.add 0 0 1 2 3).wf = false := rfl
theorem test_wf_gap_ok : (Instr.snxt 0 1 0).wf = true := rfl
theorem test_wf_access_empty : (Instr.bankAccess .hb 0x10000000 0 none).wf = false := rfl
theorem test_wf_access_length : (Instr.bankAccess .hb 0x10000000 2 (some [1])).wf = false := rfl
theorem test_wf_bar2_read : (Instr.bar2Read 0 0).wf = false := rfl
theorem test_wf_bar2_write : (Instr.bar2Write 0 []).wf = false := rfl
theorem test_wf_jtag : (Instr.jtagMemory .supervisor 0 1 (some [])).wf = false := rfl
theorem test_wf_descriptor : (Instr.dmaDescriptor 0 ⟨0, 0x10000000, 4, true, false, true, 0, 0⟩ [1] false).wf = false := rfl
theorem test_wf_words : (Instr.write 0 [] 0).wf = false := rfl
theorem test_wf_words_many : (Instr.read 0 65 0 true).wf = false := rfl
theorem test_wf_words_ok : (Instr.read 0 64 0 true).wf = true := rfl

/-- The table gives no row bits, so no word spells a command. -/
theorem test_no_word_decodes : decodeTableWord 32 0 = none := rfl
theorem test_no_word_is_placed : State.reset.withFetchWord 32 0xFFFFFFFF = State.reset := rfl

/-! ## Checksums, against the published check values of their polynomials -/

/-- CRC-32 of "123456789" (R83). -/
theorem test_crc32 : crc32 [0x31, 0x32, 0x33, 0x34, 0x35, 0x36, 0x37, 0x38, 0x39] = 0xCBF43926 := by decide +kernel
/-- CRC-16 of "123456789" with polynomial 0x1021 and seed 0xFFFF (R65). -/
theorem test_crc16 :
    ([0x31, 0x32, 0x33, 0x34, 0x35, 0x36, 0x37, 0x38, 0x39] : List Byte).foldl (crc16Byte 0x1021) 0xFFFF = 0x29B1 := by
  decide +kernel
/-- SHA-384 of "abc" (R515). -/
theorem test_sha384 : beNat (sha384 [0x61, 0x62, 0x63]) =
    0xcb00753f45a35e8bb5a03d699ac65007272c32ab0eded1631a8b605a43ff5bed8086072ba1e7cc2358baeca134c825a7 := by decide +kernel

/-! ## Single commands against the spec's examples -/

/-- What a register of an engine holds after a command. -/
def regAfter (o : Out) (e q : Nat) : Option Word := match o with
  | .next t => some ((t.peOf e).regs.rd 0 q)
  | _ => none

/-- Example 9.1's engine at a WBASE and a pc, with an instruction word of Table 10-2 there; its windowed register W(n) is
physical register 8 + n. -/
def ex9 (wbase : BitVec 4) (regs : Sparse Word) (w : Nat) (pc : BitVec 13 := 0) : State :=
  ((withOn up [pgPe 3, pgFab]).setPe 3 { wbase := wbase, regs := regs, pc := pc }).setBytes
    (0x18060000 + 4 * pc.toNat) (leBytes 4 w)

/-- Cycle 0: ADDI h0, k0, 7 writes 7 to W56. -/
theorem test_example_9_1_addi : regAfter (execAddi 3 1 24 0 7 (ex9 3 [] 0x23000007)) 3 (8 + 56) = some 7 := by decide +kernel
/-- Cycle 5: MUL v0, p0, p1 at WBASE 4 reads W56 and W57 and writes W64. -/
theorem test_example_9_1_mul :
    regAfter (execMul 3 1 16 8 9 (ex9 4 [(8 + 56, 7), (8 + 57, 6)] 0x0A084800)) 3 (8 + 64) = some 42 := by decide +kernel
/-- Cycle 8: ADD p0, v0, p2 at WBASE 4 writes W64 + W58 to W56. -/
theorem test_example_9_1_add :
    regAfter (execAdd 3 1 8 16 10 (ex9 4 [(8 + 58, 5), (8 + 64, 42)] 0x05105000)) 3 (8 + 56) = some 47 := by decide +kernel
/-- Cycle 2: CALL at 0x0102 pushes bank 0 and 0x0105, and DEPTH reads 1. -/
theorem test_example_9_1_call : (match execCall 3 1 0x0200 (ex9 3 [] 0x84000200 0x0102) with
    | .next t => some ((t.peOf 3).depth, (t.peOf 3).rstack.rd none 0)
    | _ => none) = some (1, some 0x0105) := by decide +kernel

/-- Example 6.1: OFFSET 1,760,000,000 s 999,990,000 ns, 25 ppm, and a stamp 250,000,000 ticks and 3 fine units on. -/
theorem test_example_6_1 : (match execViewConvertDone .hb { withOn up [pgView] with tb := {
      view := [(5, { cur := some ⟨(1760000000 * 1000000000 + 999990000) * 2 ^ 16, 0, 7036874418⟩ })]
      conv := [(1, some ⟨5, 250000000 * 32 + 3⟩)] } } with
    | .next t => some (t.rn (viewConvSecLo 1), t.rn (viewConvNs 1), t.rn (viewConvFrac 1) % 0x10000)
    | _ => none) = some (1760000002, 15000, 24576) := by decide +kernel

/-- A read of an address no page defines answers 0 and leaves address and principal 0x31 in UNMAPPED_ADDR (R41). -/
theorem test_unmapped_read : (match execUnmappedAccess .hb 0x500FF0 up with
    | .next t => some (t.readData .hb, t.rn devUnmappedAddr)
    | _ => none) = some (0, 0x31500FF0) := by decide +kernel

/-- Example 2.1: Host B proposes DEBUG = 1; the window of 100 ms is 2,500,000 A. -/
theorem test_example_2_1 : (match execProposal .hb (BitVec.ofNat 24 supDebugEn) 1 up with
    | .next t => some (t.get (protStageRemainACycles 0), t.stOpen 0, t.bit supDebugEnDebug)
    | _ => none) = some (2500000, true, false) := by decide +kernel

/-- No command waits after reset. -/
theorem test_reset_queue : State.reset.pending = [] := rfl

/-! ## States for the statements' hypotheses -/

theorem witness_EmptyQueueLetsOneCycleOfTheADomainPass_1 :
    State.reset.pending = [] ∧ State.reset.alive = true := by decide +kernel

theorem witness_EmptyQueueLetsOneCycleOfTheADomainPass_2 :
    ({ State.reset with chip := { State.reset.chip with clockLost := true } } : State).pending = [] ∧ ({ State.reset with chip := { State.reset.chip with clockLost := true } } : State).alive = false := by decide +kernel

theorem witness_EveryStepKeepsStoredDataCanonical_1 :
    State.reset.tidy = true ∧ ∃ t, step State.reset = .next t := ⟨by decide, _, rfl⟩

theorem witness_EveryStepKeepsRevokedKeysRevoked_1 :
    (1 < 4) ∧ ({ State.reset with sup := { revoked := 2 } }.sup.revoked.getLsbD 1 = true) := by decide +kernel

theorem witness_ResetsKeepTheInsoleAndNameTheirCause_1 :
    State.reset.alive = true := by decide +kernel

theorem witness_ResetsKeepTheInsoleAndNameTheirCause_2 :
    ({ State.reset with chip := { clockLost := true } } : State).chip.powered = true ∧ ({ State.reset with chip := { clockLost := true } } : State).chip.clockLost = true := by decide +kernel

theorem witness_ResetsKeepTheInsoleAndNameTheirCause_3 :
    up.letsIn .sup rstDevice = true ∧ bitsOf (0xD5 : Word) 0 8 = 0xD5 ∧ up.commit = none := by decide +kernel

theorem witness_HostLinkResets_1 :
    State.reset.alive = true ∧ State.reset.chip.perst = false := by decide +kernel

theorem witness_HostLinkResets_2 :
    ({ State.reset with chip := { perst := true } } : State).chip.perst = true ∧ ({ State.reset with chip := { perst := true } } : State).chip.clockLost = false := by decide +kernel

theorem witness_HostLinkResets_3 :
    let s := { State.reset with chip := { State.reset.chip with clockLost := true } }
    s.chip.powered = true ∧ s.chip.clockLost = true ∧ s.chip.perst = false := by decide +kernel

theorem witness_HostLinkResets_4 :
    let s := { State.reset with chip := { State.reset.chip with clockLost := true, perst := true } }
    s.chip.powered = true ∧ s.chip.clockLost = true ∧ s.chip.perst = true := by decide +kernel

theorem witness_HostLinkResets_5 :
    (withOn State.reset [pgPcie]).alive = true ∧ (withOn State.reset [pgPcie]).chip.perst = false ∧ (withOn State.reset [pgPcie]).on pgPcie = true ∧ 1 ≤ (withOn State.reset [pgPcie]).get pcieCfgMaxSpeed ∧ 1 ≤ (withOn State.reset [pgPcie]).get pcieCfgMaxWidth := by decide +kernel

theorem witness_BootStepsFollowOneAnother_1 :
    State.reset.bootReady = true ∧ State.reset.bootStep ≤ 14 ∧ State.reset.bootStep = 1 := by decide +kernel

theorem witness_BootStepsFollowOneAnother_2 :
    (State.reset.put devBootStep 14).bootReady = true ∧ (State.reset.put devBootStep 14).bootStep = 14 := by decide +kernel

theorem witness_BootStepsFollowOneAnother_3 :
    (State.reset.put devBootStep 2).bootReady = true ∧ (State.reset.put devBootStep 2).bootStep = 2 := by decide +kernel

theorem witness_BootStepsFollowOneAnother_4 :
    (State.reset.put devBootStep 3).bootReady = true ∧ (State.reset.put devBootStep 3).bootStep = 3 := by decide +kernel

theorem witness_BootStepsFollowOneAnother_5 :
    (State.reset.put devBootStep 4).bootReady = true ∧ (State.reset.put devBootStep 4).bootStep = 4 ∧ pgBank ∈ restoreOrder := by decide +kernel

theorem witness_EnableWritesFollowTable24_1 :
    pgMac 2 ∈ headerPages ∧ 5 ≤ pgMac 2 ∧ up.letsIn .sup (hdrCtrl (pgMac 2)) = true ∧ (1 : Word).getLsbD 1 = false ∧ up.st (pgMac 2) = stOff := by decide +kernel

theorem witness_EnableWritesFollowTable24_2 :
    (up.setReg (hdrState (pgEye 3)) 2).letsIn .sup (hdrCtrl (pgEye 3)) = true ∧ (up.setReg (hdrState (pgEye 3)) 2).st (pgEye 3) = stOn := by decide +kernel

theorem witness_EnableWritesFollowTable24_3 :
    (up.setReg (hdrState pgTread) 1).st pgTread = stStarting ∧ (up.setReg (hdrState pgTread) 1).letsIn .sup (hdrCtrl pgTread) = true := by decide +kernel

theorem witness_EnableWritesFollowTable24_4 :
    (up.setReg (hdrState pgSup) 3).st pgSup = stStopping ∧ (up.setReg (hdrState pgSup) 3).letsIn .sup (hdrCtrl pgSup) = true := by decide +kernel

theorem witness_SoftResetsActAtOnceOrAreHeld_1 :
    pgMac 2 ∈ headerPages ∧ up.letsIn .sup (hdrCtrl (pgMac 2)) = true ∧ (3 : Word).getLsbD 1 = true ∧ up.st (pgMac 2) = stOff := by decide +kernel

theorem witness_SoftResetsActAtOnceOrAreHeld_2 :
    (up.setReg (hdrState pgTread) 1).st pgTread = stStarting ∧ (up.setReg (hdrState pgTread) 1).letsIn .sup (hdrCtrl pgTread) = true := by decide +kernel

theorem witness_SequencesEndAsTable24Says_1 :
    pgEyep ∈ headerPages ∧ ((withOn State.reset [pgTb]).setReg (hdrState pgEyep) 1).clocked pgEyep = true ∧ ((withOn State.reset [pgTb]).setReg (hdrState pgEyep) 1).st pgEyep = stStarting ∧ ((withOn State.reset [pgTb]).setReg (hdrState pgEyep) 1).prereqs pgEyep = true ∧ ((withOn State.reset [pgTb]).setReg (hdrState pgEyep) 1).chip.heldSrst.rd false pgEyep = false ∧ (pgEyep < pgPe 0 ∨ pgPe 17 < pgEyep) := by decide +kernel

theorem witness_SequencesEndAsTable24Says_2 :
    (State.reset.setReg (hdrState pgLace) 3).st pgLace = stStopping ∧ (State.reset.setReg (hdrState pgLace) 3).stopReady pgLace = true ∧ (State.reset.setReg (hdrState pgLace) 3).clocked pgLace = true ∧ (State.reset.setReg (hdrState pgLace) 3).alive = true := by decide +kernel

theorem witness_SequencesEndAsTable24Says_3 :
    ((withOn State.reset [pgFab, pgBank]).setReg (hdrState (pgPe 3)) 1).st (pgPe 3) = stStarting ∧ ((withOn State.reset [pgFab, pgBank]).setReg (hdrState (pgPe 3)) 1).prereqs (pgPe 3) = true ∧ pgPe 3 ∈ headerPages := by decide +kernel

theorem witness_RegisterWritesActByAccessCodes_1 :
    (regRow (hdrIrqEn (pgMac 1))).isSome = true ∧ up.letsIn .sup (hdrIrqEn (pgMac 1)) = true ∧ isRws (hdrIrqEn (pgMac 1)) = false := by decide +kernel

theorem witness_RegisterWritesActByAccessCodes_2 :
    (regRow (peTrapFatal 2)).isSome = true ∧ up.letsIn .sup (peTrapFatal 2) = true ∧ isRws (peTrapFatal 2) = false := by decide +kernel

theorem witness_RegisterWritesActByAccessCodes_3 :
    up.reaches .hb = true ∧ (0x10014 : Nat) % 8 = 4 ∧ (0x10010 : Nat) % 8 = 0 := by decide +kernel

theorem witness_RegisterWritesActByAccessCodes_4 :
    (regRow (hdrId pgDev)).map RegRow.writable = some 0 ∧ up.letsIn .sup (hdrId pgDev) = true := by decide +kernel

theorem witness_RegisterWritesActByAccessCodes_5 :
    pgProt ∈ [pgDev, pgClk, pgRst, pgInsole, pgProt] ∧ up.letsIn .sup (hdrCtrl pgProt) = true := by decide +kernel

theorem witness_RegisterWritesActByAccessCodes_6 :
    pgBank ∈ headerPages ∧ up.letsIn .sup (hdrErrClr pgBank) = true := by decide +kernel

theorem witness_RegisterWritesActByAccessCodes_7 :
    State.reset.reaches (.pe 1) = true ∧ (regRow fltDegradedEvt).isSome = true ∧ State.reset.readEffect (.pe 1) fltDegradedEvt = none ∧ State.reset.convHolds (.pe 1) fltDegradedEvt = false ∧ State.reset.convHolds (.pe 1) (fltDegradedEvt + 4) = false := by decide +kernel

theorem witness_UnmappedAccesses_1 :
    State.reset.reaches .hb = true ∧ regRow (0x130000 / 4 * 4) = none := by decide +kernel

theorem witness_RefusedWritesAreIgnoredAndRecorded_1 :
    State.reset.reaches (.pe 3) = true ∧ State.reset.mayWrite (.pe 3) (pgMac 0) = false ∧ (regRow (hdrIrqEn (pgMac 0))).isSome = true := by decide +kernel

theorem witness_RefusedWritesAreIgnoredAndRecorded_2 :
    State.reset.reaches (.pe 3) = true ∧ State.reset.booted = false ∧ (regRow (hdrIrqEn pgLace)).map (fun r => decide (r.ret &&& r.writable ≠ 0) && decide (r.writable &&& ~~~r.ret = 0)) = some true := by decide +kernel

theorem witness_RefusedWritesAreIgnoredAndRecorded_3 :
    (up.putb fltSupLost true).reaches .sup = true ∧ (up.putb fltSupLost true).supLost = true ∧ (regRow (hdrCtrl (pgMac 0))).isSome = true ∧ hdrCtrl (pgMac 0) ∈ headerPages.map hdrCtrl ∧ isRws (hdrCtrl (pgMac 0)) = false := by decide +kernel

theorem witness_ReadsAnswerAndClearReadClearedFields_1 :
    State.reset.reaches .ha = false ∧ State.reset.reaches (.pe 1) = true ∧ (regRow fltDegradedEvt).isSome = true ∧ State.reset.readEffect (.pe 1) fltDegradedEvt = none ∧ State.reset.convHolds (.pe 1) fltDegradedEvt = false := by decide +kernel

theorem witness_InterruptSetActsOnlyUnderTest_1 :
    pgBank ∈ headerPages ∧ up.letsIn .sup (hdrIrqSet pgBank) = true ∧ up.bit devTestIrqSetEn = false := by decide +kernel

theorem witness_InterruptSetActsOnlyUnderTest_2 :
    (up.putb devTestIrqSetEn true).letsIn .sup (hdrIrqSet pgBank) = true ∧ (up.putb devTestIrqSetEn true).bit devTestIrqSetEn = true := by decide +kernel

theorem witness_InterruptMessages_1 :
    (withOn State.reset [pgIrqa]).on pgIrqa = true ∧ (withOn State.reset [pgIrqa]).chip.perst = false := by decide +kernel

theorem witness_InterruptMessages_2 :
    let s := withRegs { ((withOn up [pgIrqa]).putb (irqaRouteToHa 0x10) true).put (irqaRouteVector 0x10) 0 with irq := { msixOn := true } } [(hdrIrqRaw 0x10, 1), (hdrIrqEn 0x10, 1)]
    s.on pgIrqa = true ∧ s.srcReq (.page 0x10) = true ∧ s.srcVector (.page 0x10) = some 0
      ∧ (∀ y ∈ irqSources, s.srcVector y = some 0 → s.srcReq y = true → s.irq.seen.rd false (srcKey y) = false)
      ∧ (s.reg (msixCtl 0)).getLsbD 0 = false ∧ s.vecPending 0 = true := by decide +kernel

theorem witness_InterruptMessages_3 :
    (withOn (up.put pcieLinkSpeed 1) [pgIrqa]).letsIn .ha irqaVecEoi0 = true := by decide +kernel

theorem witness_ProposalsWaitForApproval_1 :
    isRws (bankAllow 3) = true ∧ up.letsIn .sup (bankAllow 3) = true ∧ up.openAt (bankAllow 3) = none ∧ up.freeEntry = some 0 ∧ up.letsIn .sup protApproveCrc = true := by decide +kernel

theorem witness_ProposalsWaitForApproval_2 :
    (withRegs up ((List.range 16).map fun j => (protStageInfo j, 0x130))).freeEntry = none := by decide +kernel

theorem witness_ProposalsWaitForApproval_3 :
    (withRegs up [(protStageInfo 0, 0x130), (protStageAddr 0, BitVec.ofNat 32 (bankAllow 3))]).openAt (bankAllow 3) = some 0 := by decide +kernel

theorem witness_ApprovalsDecideByTheFirstCheckThatFails_1 :
    let s := { withRegs up [(protStageInfo 0, 0x130), (protStageAddr 0, BitVec.ofNat 32 (protAcl 0 3)), (protStageValue 0, 0x55), (protStageRemain 0, 9)] with prot := { approvals := [⟨.sup, BitVec.ofNat 24 (protAcl 0 3), BitVec.ofNat 16 (crc16Stage 0x55)⟩] } }
    s.supRestarting = false ∧ s.openAt (protAcl 0 3) = some 0 ∧ s.mayWrite .sup 4 = true ∧ codePrincipal (s.get (protStageInfoProposer 0)) = some .ha
      ∧ s.mayWrite .ha 4 = true ∧ crc16Stage 0x55 < 0x10000 ∧ crc16Stage (s.reg (protStageValue 0)) = crc16Stage 0x55 ∧ s.get (protStageRemainACycles 0) ≠ 0 ∧ s.commit = none ∧ (regRow (protAcl 0 3)).isSome = true := by decide +kernel

theorem witness_ApprovalsDecideByTheFirstCheckThatFails_2 :
    (withRegs up [(protStageInfo 2, 0x130)]).stOpen 2 = true ∧ (withRegs up [(protStageInfo 2, 0x130)]).get (protStageRemainACycles 2) = 0 := by decide +kernel

theorem witness_CommitsWriteTheSlotThatIsNotTheLast_1 :
    let s := withRegs up (headerPages.map fun p => (hdrCtrl p, 1))
    s.letsIn .sup insoleCommit = true ∧ s.commitBar = 0 ∧ 72 + 4 * s.snapshot.flatten.length ≤ 0x100000 := by decide +kernel

theorem witness_CommitsWriteTheSlotThatIsNotTheLast_2 :
    up.letsIn .sup insoleRevert = true ∧ bitsOf (0xA5 : Word) 0 8 = 0xA5 ∧ up.bit insoleRevertEnHost = true := by decide +kernel

theorem witness_CommitsWriteTheSlotThatIsNotTheLast_3 :
    ({ State.reset with commit := some ⟨true, 5, [], 0, [pgMac 3], false⟩ } : State).prot.held = [] := by decide +kernel

theorem witness_CommitsWriteTheSlotThatIsNotTheLast_4 :
    State.reset.reaches .sup = true ∧ State.reset.mayWrite .sup pgInsole = true ∧ State.reset.booted = false := by decide +kernel

theorem witness_CommitsWriteTheSlotThatIsNotTheLast_5 :
    let s := { withRegs up [(protStageInfo 2, 0x230), (protStageAddr 2, BitVec.ofNat 32 (protAcl 0 3))] with commit := some ⟨true, 5, [], 0, [pgMac 3], false⟩, prot := { held := [(2, .hb)] } }
    s.get (protStageAddrAddr 2) = protAcl 0 3 ∧ (regRow (protAcl 0 3)).isSome = true ∧ protAcl 0 3 / 0x1000 = pgProt ∧ s.prot.held = [(2, .hb)] := by decide +kernel

theorem witness_RegisterOperationsOfTwoSources_1 :
    eng.steady 3 1 = true ∧ eng.landed 3 1 1 = true ∧ eng.landed 3 1 9 = true := by decide +kernel

theorem witness_RegisterOperationsOfTwoSources_words1 : ∀ x ∈ [
    ((0x04810000 : Word), (.add 3 0 4 1 0 : Instr)),
    ((0x04810001 : Word), (.sub 3 0 4 1 0 : Instr)),
    ((0x04810002 : Word), (.and 3 0 4 1 0 : Instr)),
    ((0x04810003 : Word), (.or 3 0 4 1 0 : Instr)),
    ((0x04810004 : Word), (.xor 3 0 4 1 0 : Instr)),
    ((0x04810005 : Word), (.nor 3 0 4 1 0 : Instr)),
    ((0x04810006 : Word), (.slt 3 0 4 1 0 : Instr)),
    ((0x04810007 : Word), (.sltu 3 0 4 1 0 : Instr))],
    (let s := eng.setBytes 0x18060000 (leBytes 4 x.1.toNat)
    s.spells 3 x.2 && s.steady 3 1 && s.landed 3 1 0 && s.landed 3 1 1 && s.landed 3 1 4) = true := by decide +kernel

theorem witness_RegisterOperationsOfTwoSources_words2 : ∀ x ∈ [
    ((0x04810008 : Word), (.shl 3 0 4 1 0 : Instr)),
    ((0x04810009 : Word), (.shr 3 0 4 1 0 : Instr)),
    ((0x0481000A : Word), (.sar 3 0 4 1 0 : Instr)),
    ((0x0481000E : Word), (.min 3 0 4 1 0 : Instr)),
    ((0x0481000F : Word), (.max 3 0 4 1 0 : Instr)),
    ((0x08810000 : Word), (.mul 3 0 4 1 0 : Instr)),
    ((0x08810001 : Word), (.mulh 3 0 4 1 0 : Instr)),
    ((0x08810002 : Word), (.mulhu 3 0 4 1 0 : Instr))],
    (let s := eng.setBytes 0x18060000 (leBytes 4 x.1.toNat)
    s.spells 3 x.2 && s.steady 3 1 && s.landed 3 1 0 && s.landed 3 1 1 && s.landed 3 1 4) = true := by decide +kernel

theorem witness_RegisterOperationsOfOneSource_1 :
    eng.steady 3 1 = true ∧ eng.landed 3 1 1 = true ∧ eng.landed 3 1 9 = true := by decide +kernel

theorem witness_RegisterOperationsOfOneSource_words1 : ∀ x ∈ [
    ((0x20810000 : Word), (.addi 3 0 4 1 0 : Instr)),
    ((0x24810000 : Word), (.andi 3 0 4 1 0 : Instr)),
    ((0x28810000 : Word), (.ori 3 0 4 1 0 : Instr)),
    ((0x2C810000 : Word), (.xori 3 0 4 1 0 : Instr)),
    ((0x30000000 : Word), (.lui 3 0 0 0 : Instr)),
    ((0x34810000 : Word), (.slti 3 0 4 1 0 : Instr)),
    ((0x38810000 : Word), (.sltiu 3 0 4 1 0 : Instr)),
    ((0x0481000B : Word), (.shli 3 0 4 1 0 : Instr))],
    (let s := eng.setBytes 0x18060000 (leBytes 4 x.1.toNat)
    s.spells 3 x.2 && s.steady 3 1 && s.landed 3 1 0 && s.landed 3 1 1 && s.landed 3 1 4) = true := by decide +kernel

theorem witness_RegisterOperationsOfOneSource_words2 : ∀ x ∈ [
    ((0x0481000C : Word), (.shri 3 0 4 1 0 : Instr)),
    ((0x0481000D : Word), (.sari 3 0 4 1 0 : Instr)),
    ((0x0C810000 : Word), (.ext 3 0 4 1 0 0 : Instr)),
    ((0x0C810001 : Word), (.exts 3 0 4 1 0 0 : Instr)),
    ((0x0C810002 : Word), (.ins 3 0 4 1 0 0 : Instr)),
    ((0x0C810003 : Word), (.clz 3 0 4 1 : Instr)),
    ((0x0C810004 : Word), (.popc 3 0 4 1 : Instr)),
    ((0x0C810005 : Word), (.bswap 3 0 4 1 : Instr))],
    (let s := eng.setBytes 0x18060000 (leBytes 4 x.1.toNat)
    s.spells 3 x.2 && s.steady 3 1 && s.landed 3 1 0 && s.landed 3 1 1 && s.landed 3 1 4) = true := by decide +kernel

theorem witness_RegisterOperationsOfOneSource_words3 : ∀ x ∈ [
    ((0x0C810006 : Word), (.bswaph 3 0 4 1 : Instr))],
    (let s := eng.setBytes 0x18060000 (leBytes 4 x.1.toNat)
    s.spells 3 x.2 && s.steady 3 1 && s.landed 3 1 0 && s.landed 3 1 1 && s.landed 3 1 4) = true := by decide +kernel

theorem witness_ChecksumAndCamInstructions_1 :
    eng.steady 3 1 = true ∧ eng.landed 3 1 2 = true ∧ eng.landed 3 1 3 = true ∧ (eng.fieldVal 3 0).toNat % 0x10000 % 4 = 0 := by decide +kernel

theorem witness_ChecksumAndCamInstructions_words1 : ∀ x ∈ [
    ((0x10810040 : Word), (.crc 3 0 4 1 1 0 : Instr)),
    ((0x14810000 : Word), (.hash 3 0 4 1 0 : Instr)),
    ((0x18810000 : Word), (.cams 3 0 4 1 0 : Instr)),
    ((0x18010001 : Word), (.camw 3 0 1 0 : Instr)),
    ((0x18010002 : Word), (.camr 3 0 1 0 : Instr))],
    (let s := eng.setBytes 0x18060000 (leBytes 4 x.1.toNat)
    s.spells 3 x.2 && s.steady 3 1 && s.landed 3 1 0 && s.landed 3 1 1 && s.landed 3 1 4) = true := by decide +kernel

theorem witness_LocalLoadsAndStores_1 :
    Memory.wf eng.mem = true ∧ eng.steady 3 2 = true ∧ eng.landed 3 2 16 = true ∧ (0x6002 : Half).getLsbD 12 = false ∧ (0x6002 : Half).toNat / 0x4000 < 2 ∧ (0 * 4096 + (0x6002 : Half).toNat % 4096) % 2 ^ 1 = 0 ∧ (0x8004 : Half).toNat / 0x4000 < 3 := by decide +kernel

theorem witness_LocalLoadsAndStores_2 :
    eng.steady 3 2 = true ∧ eng.landed 3 2 16 = true ∧ (0x4002 : Half).toNat / 0x1000 % 4 = 0 ∧ (0x4002 : Half).toNat / 0x4000 < 3 ∧ (0x4002 : Half).toNat % 4096 % 2 ^ 1 = 0 := by decide +kernel

theorem witness_LocalLoadsAndStores_words1 : ∀ x ∈ [
    ((0x40810000 : Word), (.ldb 3 0 4 1 0 : Instr)),
    ((0x44810000 : Word), (.ldbs 3 0 4 1 0 : Instr)),
    ((0x48810000 : Word), (.ldh 3 0 4 1 0 : Instr)),
    ((0x4C810000 : Word), (.ldhs 3 0 4 1 0 : Instr)),
    ((0x50810000 : Word), (.ld 3 0 4 1 0 : Instr)),
    ((0x60000000 : Word), (.ldd 3 0 0 0 : Instr)),
    ((0x54810000 : Word), (.stb 3 0 4 1 0 : Instr)),
    ((0x58810000 : Word), (.sth 3 0 4 1 0 : Instr))],
    (let s := eng.setBytes 0x18060000 (leBytes 4 x.1.toNat)
    s.spells 3 x.2 && s.steady 3 1 && s.landed 3 1 0 && s.landed 3 1 1 && s.landed 3 1 4) = true := by decide +kernel

theorem witness_LocalLoadsAndStores_words2 : ∀ x ∈ [
    ((0x5C810000 : Word), (.st 3 0 4 1 0 : Instr)),
    ((0x64000000 : Word), (.std 3 0 0 0 : Instr))],
    (let s := eng.setBytes 0x18060000 (leBytes 4 x.1.toNat)
    s.spells 3 x.2 && s.steady 3 1 && s.landed 3 1 0 && s.landed 3 1 1 && s.landed 3 1 4) = true := by decide +kernel

theorem witness_FarAccessesIssue_1 :
    eng.steady 3 1 = true ∧ (∀ f ∈ [(4 : RegF), 5, 6, 7], eng.landed 3 1 f = true) ∧ (eng.peOf 3).fflag.getLsbD 0 = true ∧ (eng.peOf 3).fflag.getLsbD 7 = true ∧ (eng.peOf 3).stq.length < 16 := by decide +kernel

theorem witness_FarAccessesIssue_words1 : ∀ x ∈ [
    ((0x70810000 : Word), (.fld 3 0 4 1 0 0 0 : Instr)),
    ((0x78810000 : Word), (.rld 3 0 4 1 0 0 0 : Instr)),
    ((0x1C810000 : Word), (.ddq 3 0 4 1 0 0 0 : Instr)),
    ((0x74810000 : Word), (.fst 3 0 4 1 0 0 0 : Instr)),
    ((0x7C810000 : Word), (.rst 3 0 4 1 0 0 0 : Instr))],
    (let s := eng.setBytes 0x18060000 (leBytes 4 x.1.toNat)
    s.spells 3 x.2 && s.steady 3 1 && s.landed 3 1 0 && s.landed 3 1 1 && s.landed 3 1 4) = true := by decide +kernel

theorem witness_FarAccessesArePerformed_1 :
    let s := eng.setPe 3 { eng.peOf 3 with far := [⟨2, [5], 0x10000002, 1, 0, 0, 3⟩], hazards := [⟨5, 0, some 2, false⟩], stq := [⟨0x10000014, [9, 8], false, 0, 2⟩] }
    Memory.wf s.mem = true ∧ s.reaches (.pe 3) = true ∧ s.bank.ecc = [] ∧ s.loadBlocked 3 ⟨2, [5], 0x10000002, 1, 0, 0, 3⟩ = false
      ∧ (s.peOf 3).far.find? (fun x => x.tag == 2 && x.kind != 2) = some ⟨2, [5], 0x10000002, 1, 0, 0, 3⟩ ∧ s.storeBlocked 3 ⟨0x10000014, [9, 8], false, 0, 2⟩ = false := by decide +kernel

theorem witness_ControlTransfersAfterTwoSlots_1 :
    eng.steady 3 1 = true ∧ eng.landed 3 1 1 = true ∧ regionOf ((eng.peOf 3).pc + 2) ≠ 2 ∧ (eng.peOf 3).loopAt (eng.peOf 3).ibank ((eng.peOf 3).pc + 2) = none ∧ (eng.peOf 3).rsopt = false := by decide +kernel

theorem witness_ControlTransfersAfterTwoSlots_2 :
    (eng.setPe 3 { eng.peOf 3 with sp := 2, depth := 2, rstack := [(1, some 0x4123)] }).steady 3 1 = true ∧ ((eng.setPe 3 { eng.peOf 3 with sp := 2, depth := 2, rstack := [(1, some 0x4123)] }).peOf 3).rstack.rd none (2 - 1 : BitVec 4).toNat = some 0x4123 := by decide +kernel

theorem witness_ControlTransfersAfterTwoSlots_words1 : ∀ x ∈ [
    ((0x00000000 : Word), (.nop 3 0 : Instr)),
    ((0x80810000 : Word), (.bCond 3 0 4 1 0 0 : Instr)),
    ((0x88000000 : Word), (.jr 3 0 0 : Instr)),
    ((0x84000000 : Word), (.call 3 0 0 : Instr)),
    ((0x00000006 : Word), (.ret 3 0 : Instr))],
    (let s := eng.setBytes 0x18060000 (leBytes 4 x.1.toNat)
    s.spells 3 x.2 && s.steady 3 1 && s.landed 3 1 0 && s.landed 3 1 1 && s.landed 3 1 4) = true := by decide +kernel

theorem witness_LoopsAndSystemInstructions_1 :
    eng.poised 3 1 = true ∧ eng.landed 3 1 2 = true ∧ eng.steady 3 1 = true ∧ ((eng.put (peTrapFatalMask 3) 0).get (peTrapFatalMask ((eng.put (peTrapFatalMask 3) 0).roleOf 3))).testBit 10 = false ∧ (eng.put (peTrapFatalMask 3) 0).steady 3 1 = true ∧ (eng.peOf 3).tactive = false ∧ eng.physOf 3 2 ∉ (eng.peOf 3).justW ∧ regionOf ((eng.peOf 3).pc + 4) = regionOf ((eng.peOf 3).pc + 1) := by decide +kernel

theorem witness_LoopsAndSystemInstructions_2 :
    (eng.setPe 3 { eng.peOf 3 with loops := [⟨0, 0, 0, 2⟩] }).poised 3 1 = true := by decide +kernel

theorem witness_LoopsAndSystemInstructions_3 :
    (eng.setPe 3 { eng.peOf 3 with loops := [⟨0, 7, 0, 2⟩] }).steady 3 1 = true := by decide +kernel

theorem witness_LoopsAndSystemInstructions_words1 : ∀ x ∈ [
    ((0x00000000 : Word), (.nop 3 0 : Instr)),
    ((0x90810000 : Word), (.loop 3 0 129 0 : Instr)),
    ((0x94810000 : Word), (.loopr 3 0 129 0 : Instr)),
    ((0x00000007 : Word), (.lpop 3 0 : Instr)),
    ((0x00000001 : Word), (.halt 3 0 : Instr)),
    ((0x00000002 : Word), (.sync 3 0 : Instr)),
    ((0x00000003 : Word), (.trap 3 0 0 : Instr)),
    ((0x00000005 : Word), (.waitf 3 0 0 : Instr))],
    (let s := eng.setBytes 0x18060000 (leBytes 4 x.1.toNat)
    s.spells 3 x.2 && s.steady 3 1 && s.landed 3 1 0 && s.landed 3 1 1 && s.landed 3 1 4) = true := by decide +kernel

theorem witness_LoopsAndSystemInstructions_words2 : ∀ x ∈ [
    ((0x00800008 : Word), (.mfs 3 0 4 0 : Instr)),
    ((0x00010009 : Word), (.mts 3 0 0 1 : Instr))],
    (let s := eng.setBytes 0x18060000 (leBytes 4 x.1.toNat)
    s.spells 3 x.2 && s.steady 3 1 && s.landed 3 1 0 && s.landed 3 1 1 && s.landed 3 1 4) = true := by decide +kernel

theorem witness_CheckpointTimeStampLaceAndDoorbellInstructions_1 :
    eng.steady 3 1 = true ∧ eng.landed 3 1 4 = true ∧ eng.landed 3 1 (4 + 1) = true ∧ eng.on pgLace = true ∧ (eng.peOf 3).hazards = [] ∧ (eng.fab.ckptCopy.rd none 3).isSome = false := by decide +kernel

theorem witness_CheckpointTimeStampLaceAndDoorbellInstructions_words1 : ∀ x ∈ [
    ((0x00000004 : Word), (.ckpt 3 0 : Instr)),
    ((0x0080000A : Word), (.tsr 3 0 4 : Instr)),
    ((0xA0810000 : Word), (.lpost 3 0 4 1 0 false false : Instr)),
    ((0xA4000000 : Word), (.lread 3 0 0 0 false : Instr)),
    ((0xA8000000 : Word), (.dbr 3 0 0 0 : Instr))],
    (let s := eng.setBytes 0x18060000 (leBytes 4 x.1.toNat)
    s.spells 3 x.2 && s.steady 3 1 && s.landed 3 1 0 && s.landed 3 1 1 && s.landed 3 1 4) = true := by decide +kernel

theorem witness_PreciseTrapsEnterTheHandler_1 :
    let s := eng.put (peTrapFatalMask 3) 0
    s.poised 3 1 = true ∧ s.landed 3 1 1 = true ∧ (s.peOf 3).tactive = false ∧ (s.peOf 3).farTrap = false ∧ (s.peOf 3).loops = [] ∧ regionOf (s.peOf 3).pc ≠ 2
      ∧ (s.get (peTrapFatalMask (s.roleOf 3))).testBit 4 = false := by decide +kernel

theorem witness_PreciseTrapsEnterTheHandler_2 :
    let s := eng.setPe 3 { eng.peOf 3 with pc := 0x1300 }
    (s.peOf 3).pc.toNat ≥ 0x1200 ∧ s.issues 3 = true ∧ regionOf (s.peOf 3).pc = 2 := by decide +kernel

theorem witness_PreciseTrapsEnterTheHandler_3 :
    (eng.setPe 3 { eng.peOf 3 with rsopt := true, depth := 14, fflag := 0, stq := List.replicate 16 ⟨0, [], false, 0, 0⟩ }).poised 3 1 = true := by decide +kernel

theorem witness_PreciseTrapsEnterTheHandler_words1 : ∀ x ∈ [
    ((0x48810000 : Word), (.ldh 3 0 4 1 0 : Instr)),
    ((0x4C810000 : Word), (.ldhs 3 0 4 1 0 : Instr)),
    ((0x58810000 : Word), (.sth 3 0 4 1 0 : Instr)),
    ((0x50810000 : Word), (.ld 3 0 4 1 0 : Instr)),
    ((0x5C810000 : Word), (.st 3 0 4 1 0 : Instr)),
    ((0x60000000 : Word), (.ldd 3 0 0 0 : Instr)),
    ((0x64000000 : Word), (.std 3 0 0 0 : Instr)),
    ((0x70810000 : Word), (.fld 3 0 4 1 0 0 0 : Instr))],
    (let s := eng.setBytes 0x18060000 (leBytes 4 x.1.toNat)
    s.spells 3 x.2 && s.steady 3 1 && s.landed 3 1 0 && s.landed 3 1 1 && s.landed 3 1 4) = true := by decide +kernel

theorem witness_PreciseTrapsEnterTheHandler_words2 : ∀ x ∈ [
    ((0x74810000 : Word), (.fst 3 0 4 1 0 0 0 : Instr)),
    ((0x78810000 : Word), (.rld 3 0 4 1 0 0 0 : Instr)),
    ((0x7C810000 : Word), (.rst 3 0 4 1 0 0 0 : Instr)),
    ((0x18010001 : Word), (.camw 3 0 1 0 : Instr)),
    ((0x18010002 : Word), (.camr 3 0 1 0 : Instr)),
    ((0x00000003 : Word), (.trap 3 0 0 : Instr)),
    ((0x10810040 : Word), (.crc 3 0 4 1 1 0 : Instr)),
    ((0x18810000 : Word), (.cams 3 0 4 1 0 : Instr))],
    (let s := eng.setBytes 0x18060000 (leBytes 4 x.1.toNat)
    s.spells 3 x.2 && s.steady 3 1 && s.landed 3 1 0 && s.landed 3 1 1 && s.landed 3 1 4) = true := by decide +kernel

theorem witness_PreciseTrapsEnterTheHandler_words3 : ∀ x ∈ [
    ((0x0080000A : Word), (.tsr 3 0 4 : Instr)),
    ((0xA4000000 : Word), (.lread 3 0 0 0 false : Instr)),
    ((0x90810000 : Word), (.loop 3 0 129 0 : Instr)),
    ((0x94810000 : Word), (.loopr 3 0 129 0 : Instr)),
    ((0x1C810000 : Word), (.ddq 3 0 4 1 0 0 0 : Instr)),
    ((0x84000000 : Word), (.call 3 0 0 : Instr)),
    ((0x00000006 : Word), (.ret 3 0 : Instr)),
    ((0x00000007 : Word), (.lpop 3 0 : Instr))],
    (let s := eng.setBytes 0x18060000 (leBytes 4 x.1.toNat)
    s.spells 3 x.2 && s.steady 3 1 && s.landed 3 1 0 && s.landed 3 1 1 && s.landed 3 1 4) = true := by decide +kernel

theorem witness_InstructionsThatDoNotIssueAndUndefinedValues_1 :
    State.reset.issues 3 = false := by decide +kernel

theorem witness_InstructionsThatDoNotIssueAndUndefinedValues_2 :
    let s := eng.setPe 3 { eng.peOf 3 with hazards := [⟨1, 3, none, false⟩] }
    s.steady 3 1 = true ∧ s.landed 3 1 1 = false ∧ s.landed 3 1 2 = true ∧ s.rxBind 3 0 = (kindNone, 0) := by decide +kernel

theorem witness_InstructionsThatDoNotIssueAndUndefinedValues_words1 : ∀ x ∈ [
    ((0xC0000001 : Word), (.srd 3 0 0 0 false 1 : Instr)),
    ((0x04810000 : Word), (.add 3 0 4 1 0 : Instr)),
    ((0x30000000 : Word), (.lui 3 0 0 0 : Instr))],
    (let s := eng.setBytes 0x18060000 (leBytes 4 x.1.toNat)
    s.spells 3 x.2 && s.steady 3 1 && s.landed 3 1 0 && s.landed 3 1 1 && s.landed 3 1 4) = true := by decide +kernel

theorem witness_StreamReads_1 :
    let s := (eng.setReg (fabBind 3) 0x00000101).setPe 3 { eng.peOf 3 with s0 := { frames := [⟨[1, 2, 3, 4, 5], none, false, none, none⟩] }, s1 := { frames := [⟨[1], some false, false, none, none⟩] } }
    s.steady 3 1 = true ∧ s.landed 3 1 17 = true ∧ (s.rxBind 3 0).1 = kindQueue ∧ (s.strm 3 0).skips = [] ∧ ((s.strm 3 1).frames.head?.map (·.ended.isSome)) = some true ∧ (s.rxBind 3 1).1 = kindQueue := by decide +kernel

theorem witness_StreamReads_2 :
    let s := (eng.setReg (fabBind 3) 0x0A).setEye 2 { fin := [5] }
    s.steady 3 1 = true ∧ s.rxBind 3 0 = (kindEyelet, 2) ∧ s.bit (eyeSinkWcap 2) = false ∧ (s.eyeOf 2).fin = [5] := by decide +kernel

theorem witness_StreamReads_words1 : ∀ x ∈ [
    ((0xC0000001 : Word), (.srd 3 0 0 0 false 1 : Instr)),
    ((0xC4000001 : Word), (.speek 3 0 0 0 false 1 : Instr)),
    ((0xD8000000 : Word), (.seof 3 0 0 0 : Instr)),
    ((0xDC000000 : Word), (.snxt 3 0 0 : Instr))],
    (let s := eng.setBytes 0x18060000 (leBytes 4 x.1.toNat)
    s.spells 3 x.2 && s.steady 3 1 && s.landed 3 1 0 && s.landed 3 1 1 && s.landed 3 1 4) = true := by decide +kernel

theorem witness_StreamWritesAndSkips_1 :
    let s := ((withOn eng [pgSwc]).setReg (fabBind 3) 0x0B01).setPe 3 { eng.peOf 3 with s0 := { frames := [⟨[1, 2, 3, 4, 5], none, false, none, none⟩] } }
    s.steady 3 1 = true ∧ s.landed 3 1 17 = true ∧ (s.txBind 3 0).1 = kindNone ∧ (s.strm 3 0).outDone = false ∧ s.on pgSwc = true ∧ s.on (pgMac (s.get (fabLaneCfgDst (s.rxBind 3 0).2))) = false := by decide +kernel

theorem witness_StreamWritesAndSkips_2 :
    let s := (eng.setReg (fabBind 3) 0x01010F0F).setLane 3 { out := [⟨[], 0, false, false, false, false, false⟩] }
    (s.txBind 3 0).1 = kindQueue ∧ (s.rxBind 3 0).1 = kindLane ∧ (s.laneOf 3).out ≠ [] := by decide +kernel

theorem witness_StreamWritesAndSkips_words1 : ∀ x ∈ [
    ((0xC8000001 : Word), (.swr 3 0 0 0 false 1 false false : Instr)),
    ((0xCC000001 : Word), (.sins 3 0 0 0 false 1 false false : Instr)),
    ((0xD0000000 : Word), (.sdel 3 0 0 0 false 0 false false : Instr)),
    ((0xD4000000 : Word), (.sskip 3 0 0 0 false 0 false false : Instr))],
    (let s := eng.setBytes 0x18060000 (leBytes 4 x.1.toNat)
    s.spells 3 x.2 && s.steady 3 1 && s.landed 3 1 0 && s.landed 3 1 1 && s.landed 3 1 4) = true := by decide +kernel

theorem witness_FabricConfigurationWrites_1 :
    up.letsIn .sup (fabBind 2) = true ∧ up.letsIn .sup (fabLaneCfg 5) = true ∧ up.letsIn .sup fabSpareMask = true ∧ up.bit (fabLaneCfgEn 5) = false ∧ (0x101#32).getLsbD 0 = true := by decide +kernel

theorem witness_FabricConfigurationWrites_2 :
    let s := withRegs (withOn up [pgFab]) [(fabSpareMask, 0x20000), (fabWarm 17, 0x1234)]
    s.on pgFab = true ∧ s.idleSpare 17 = true ∧ s.reg (fabWarm 17) ≠ 0 := by decide +kernel

theorem witness_FabricConfigurationWrites_3 :
    let s := withRegs (withOn up [pgFab]) [(fabSpareMask, 0x20000), (fabWarm 17, 0x1234)]
    let d := (s.setBytes (dirEntry 0) (dirBytes ⟨0x1234, 0, 1, 0, 0, 0x1000, 0, 4, []⟩)).setWord (cacheBase + 0x1004) 0x2144DF1C
    let t := { d with fab := { d.fab with authentic := [(0x1234, 0)] } }
    (t.warmImage 17).isSome = true ∧ t.idleSpare 17 = true := by decide +kernel

theorem witness_LaneFramesAndTheirEnds_1 :
    let s := withRegs (withOn up [pgFab, pgPe 4, pgMac 0, pgMac 3]) [(fabLaneCfg 0, 0x107), (fabBind 4, 0x00030003)]
    s.laneTakes 0 = true ∧ s.laneBypassed 0 = false ∧ s.laneAt 0 = (4, 0) ∧ s.rxBind 4 0 = (kindLane, 0) ∧ (s.laneOf 0).arriving = false
      ∧ (s.strm 4 0).frames = [] ∧ (s.strm 4 0).skips = [] ∧ (s.setReg (hdrState (pgPe 4)) 4).laneBypassed 0 = true
      ∧ (s.setReg (hdrState (pgPe 4)) 4).laneTakes 0 = true := by decide +kernel

theorem witness_LaneFramesAndTheirEnds_2 :
    let s := withRegs (withOn up [pgFab, pgPe 4, pgMac 0, pgMac 3]) [(fabLaneCfg 0, 0x107), (fabBind 4, 0x00030003)]
    let t := (s.setStrm 4 0 { frames := [⟨[1, 2], none, false, none, none⟩], skips := [⟨some 2, 0, 2, true, false, false⟩] }).setLane 0
      { arriving := true, out := [⟨[], 0, false, false, false, false, false⟩] }
    (t.laneOf 0).arriving = true ∧ (t.laneOf 0).bypass = false ∧ t.laneTakes 0 = true
      ∧ (t.strm 4 0).frames = [⟨[1, 2], none, false, none, none⟩] ∧ (t.strm 4 0).outDone = false ∧ (t.strm 4 0).outEnd = false
      ∧ (t.strm 4 0).skips = [⟨some 2, 0, 2, true, false, false⟩] ∧ t.laneFull 0 = false
      ∧ (t.setStrm 4 0 { frames := [⟨[1, 2, 3, 4], some false, false, none, none⟩] }).laneOutLen 0 = 0
      ∧ ({ frames := [⟨[1, 2, 3, 4], some false, false, none, none⟩] } : Stream).dataEnd 4 = 0 := by decide +kernel

theorem witness_LaneFramesAndTheirEnds_3 :
    let s := (withRegs up [(fabLaneCfg 0, 0x107)]).setLane 0
      { out := [⟨[1], 0, false, false, false, false, true⟩], arriving := true, bypass := true }
    s.laneFull 0 = true ∧ s.laneNow 0 = some ⟨[1], 0, false, false, false, false, true⟩ ∧ (s.laneOf 0).bypass = true := by decide +kernel

theorem witness_LaneFramesAndTheirEnds_4 :
    let s := (withRegs up [(fabLaneCfg 0, 0x107)]).setStrm 4 0
      { frames := [⟨[1, 2, 3, 4, 5], none, false, none, none⟩], declared := true, outEnd := true, endAt := some 1 }
    (s.strm 4 0).declared = true ∧ (s.strm 4 0).endAt = some 1 ∧ s.laneFull 0 = false ∧ s.laneAt 0 = (4, 0) := by decide +kernel

theorem witness_LinksComeUpAndGoDown_1 :
    let s := withRegs (withOn up [pgMac 0, pgLane 0]) [(laneCfg 0, 1), (laneStatus 0, 4), (macLink 0, 0x20)]
    s.mode 0 = 1 ∧ s.on (pgMac 0) = true ∧ s.on (pgLane 0) = true ∧ s.bit (laneStatusAligned 0) = true ∧ s.bit (macLinkPhyPresent 0) = true
      ∧ s.bit (macLinkRemoteFault 0) = false ∧ s.bit (macLinkUp 0) = false ∧ s.letsIn .sup (laneCfg 0) = true := by decide +kernel

theorem witness_LinksComeUpAndGoDown_2 :
    up.st (pgLane 0) = stOff ∧ modeAllowed 0 1 = true ∧ up.mode 0 ≠ 1 := by decide +kernel

theorem witness_LinksComeUpAndGoDown_3 :
    let s := withRegs (withOn up [pgMac 0, pgLane 0]) [(laneCfg 0, 3), (laneStatus 0, 4)]
    s.linkCan 0 = true ∧ s.bit (macLinkUp 0) = false := by decide +kernel

theorem witness_LinksComeUpAndGoDown_4 :
    let s := (withRegs (withOn up [pgMac 0, pgLane 0]) [(laneCfg 0, 1), (laneStatus 0, 4)]).setPort 0 { sgmiiUp := true, sgmiiSpeed := 2 }
    let t := { s with mdio := [(0, [⟨0, false, 0, 0, 3, 1, 0, true⟩])] }
    t.bit (macLinkPhyPresent 0) = false ∧ (t.portOf 0).sgmiiUp = true ∧ t.mode 0 = 1 ∧ t.bit (laneStatusAligned 0) = true
      ∧ (t.portOf 0).phyAnswered = true := by decide +kernel

theorem witness_LinksComeUpAndGoDown_5 :
    let s := withRegs (withOn up [pgMac 0, pgLane 0]) [(laneCfg 0, 2), (laneStatus 0, 4)]
    s.mode 0 = 2 ∧ s.bit (macCfgAnEn 0) = true ∧ s.bit (laneStatusAligned 0) = true := by decide +kernel

theorem witness_LinksComeUpAndGoDown_6 :
    let s := withRegs (withOn up [pgMac 20]) [(macLink 20, 0xB)]
    s.mode 20 = 5 ∧ s.on (pgMac 20) = true ∧ s.bit (macLinkUp 20) = true := by decide +kernel

theorem witness_ReceivedFramesAreClassedAndCounted_1 :
    let s := withRegs (withOn up [pgMac 0, pgSwc]) [(macLink 0, 9)]
    s.macReceives 0 = true ∧ modeEth (s.mode 0) = true ∧ s.bit (macLinkUp 0) = true ∧ s.laneTakes 0 = false ∧ s.on pgSwc = true
      ∧ (∀ i ∈ s.swc.ingress, i.src ≠ 0) ∧ s.on (pgMac 0) = true ∧ s.bit (macCfgPauseRxEn 0) = false ∧ s.laneEgress 0 = false := by decide +kernel

theorem witness_FramesAreSelectedAndSent_1 :
    let d : Desc := ⟨[5], 100, 3, 0, 0, 0, none, none, 0, false, 0, none, none, false, false, 3, none⟩
    let s := (withRegs (withOn up [pgMac 0, pgSwc]) [(macLink 0, 9)]).setQueue 3 [d]
    s.txReady 0 = true ∧ s.queueOf 3 = [d] ∧ (∀ k < 8, 3 < k → s.queueOf (8 * 0 + k) = []) ∧ (∀ q < 8, s.bit (macShapeQCfgCbsEn 0 q) = false) := by decide +kernel

theorem witness_FramesAreSelectedAndSent_2 :
    let d : Desc := ⟨[5], 100, 3, 0, 0, 0, none, none, 0, false, 0, none, none, false, false, 3, none⟩
    let s := ((withRegs (withOn up [pgMac 0, pgSwc]) [(macLink 0, 9), (macShapeQCfg 0 3, 0x80000100)]).setQueue 3 [d]).setPort 0 { credit := [(3, -9000000)] }
    s.txReady 0 = true ∧ s.creditLo 0 3 ≤ s.creditOf 0 3 ∧ s.bit (macShapeQCfgCbsEn 0 3) = true
      ∧ s.creditOf 0 3 + (min (s.get (macShapeQCfgIdleSlope 0 3)) (s.portRate 0) * 8 * 1 : Nat) < 0 := by decide +kernel

theorem witness_FramesAreSelectedAndSent_3 :
    let l := (up.pinTime 0).toNat / 2 ^ 32
    let d : Desc := ⟨[5], 100, 3, 0, 0, 0, none, none, 0, false, 0, some l, none, false, false, 3, none⟩
    (up.setQueue 3 [d]).queueOf 3 = [d] ∧ 0 ≤ past ((up.setQueue 3 [d]).pinTime 0) l := ⟨rfl, past_reached (up.pinTime 0)⟩

theorem witness_FramesAreSelectedAndSent_4 :
    let d : Desc := ⟨[5], 20, 3, 0, 0, 0, none, none, 0, false, 0, none, some 7, false, false, 3, none⟩
    let s := { up.setPort 0 { tx := some ⟨d, 2, [], false, false⟩ } with swc := { cellBanks := [128] } }
    (s.portOf 0).tx = some ⟨d, 2, [], false, false⟩ ∧ (s.loadFrame d.cells d.length).2.1 = false ∧ s.on pgPtpa = false ∧ s.laneInto 0 = none := by decide +kernel

theorem witness_FramesAreSelectedAndSent_5 :
    let d : Desc := ⟨[5], 100, 3, 0, 0, 0, none, none, 0, false, 0, none, none, false, false, 3, none⟩
    let s := ((withRegs (withOn up [pgMac 0, pgSwc]) [(macLink 0, 9), (fabLaneCfg 1, 1)]).setQueue 230 [d]).setLane 1 { out := [{ bytes := [1], fin := true }] }
    (s.portOf 0).tx = none ∧ s.laneInto 0 = some 1 ∧ (s.laneOf 1).out = [{ bytes := [1], fin := true }] ∧ s.laneAt 1 = (0, 0)
      ∧ (s.strm 0 0).frames = [] ∧ s.laneSends 0 { bytes := [1], fin := true } = true ∧ s.on pgSwc = true ∧ s.queueOf 230 = [d] ∧ s.queueOf 235 = [] := by decide +kernel

theorem witness_CountersSnapshotsStampsAndMdio_1 :
    up.reaches .sup = true ∧ up.letsIn .sup (macStatSnap 0) = true ∧ up.letsIn .sup (macMdioCmd 0) = true ∧ up.bit (macMdioCmdBusy 0) = false := by decide +kernel

theorem witness_CountersSnapshotsStampsAndMdio_2 :
    (up.setPort 0 { latch := [(2, (3, 7))] }).reaches .sup = true ∧ ((up.setPort 0 { latch := [(2, (3, 7))] }).portOf 0).latch.rd (42, 0) (pIdx .sup) = (3, 7) := by decide +kernel

theorem witness_CountersSnapshotsStampsAndMdio_3 :
    let s := { up with mdio := [(0, [⟨3, false, 7, 0, 1, 2, 3, false⟩])] }
    s.mdio.rd [] false.toNat = [⟨3, false, 7, 0, 1, 2, 3, false⟩] := by decide +kernel

theorem witness_LearningAndAgeing_1 :
    let s := { withOn up [pgFdb] with swc := { learns := [⟨1, 2, 3⟩] } }
    s.on pgFdb = true ∧ s.swc.learns = [⟨1, 2, 3⟩] ∧ s.fdbFind 1 2 = none ∧ (s.fdbFree 1 2).isSome = true ∧ s.bit fdbCfgAgeEn = true ∧ s.tidy = true := by decide +kernel

theorem witness_LearningAndAgeing_2 :
    let s := { withOn up [pgFdb] with swc := { learns := [⟨1, 2, 3⟩], fdb := [((fdbWays 1 2).getD 0 0, some ⟨1, 2, 7, false, false, 1⟩)] } }
    s.fdbFind 1 2 = some ((fdbWays 1 2).getD 0 0) ∧ s.fdbAt ((fdbWays 1 2).getD 0 0) = some ⟨1, 2, 7, false, false, 1⟩ ∧ s.tidy = true := by decide +kernel

theorem witness_ForwardingDatabaseCommands_1 :
    up.letsIn .sup fdbCmd = true ∧ up.tidy = true ∧ up.bit fdbCmdBusy = false ∧ up.fdbFind 0 0 = none ∧ (up.fdbFree 0 0).isSome = true ∧ up.get fdbIndexIndex < 65792 ∧ up.genFull = false := by decide +kernel

theorem witness_ForwardingDatabaseCommands_2 :
    (up.putb fdbCmdBusy true).bit fdbCmdBusy = true ∧ (up.putb fdbCmdBusy true).letsIn .sup fdbCmd = true := by decide +kernel

theorem witness_ForwardingDatabaseCommands_3 :
    let s := { up with swc := { fdb := [((fdbWays 0 0).getD 0 0, some ⟨0, 0, 7, false, false, 1⟩)], fdbJob := some ⟨3, 0, 0, some 0, some (⟨0, 0, 7, false, false, 1⟩, 5), none⟩ } }
    s.tidy = true ∧ s.fdbFind 0 0 = some ((fdbWays 0 0).getD 0 0) ∧ s.fdbAt ((fdbWays 0 0).getD 0 0) = some ⟨0, 0, 7, false, false, 1⟩ := by decide +kernel

theorem witness_SwitchTablesMetersAndGenerations_1 :
    up.letsIn .sup swcTblCmd = true ∧ up.letsIn .sup strmCmd = true ∧ up.letsIn .sup swcGenBarrier = true ∧ up.genFull = false ∧ up.bit strmSelTable = false := by decide +kernel

theorem witness_SwitchTablesMetersAndGenerations_2 :
    (up.setReg strmSel 0x02000001).bit strmSelTable = true ∧ 512 ≤ (up.setReg strmSel 0x02000001).get strmSelIndex := by decide +kernel

theorem witness_SwitchTablesMetersAndGenerations_3 :
    let s := { withOn up [pgStrm] with swc := { meter := [(5, { w0 := 5, w2 := 9, c := 3 })] } }
    s.on pgStrm = true ∧ s.tidy = true := by decide +kernel

theorem witness_SwitchTablesMetersAndGenerations_4 :
    (up.setQueue 3 [⟨[5], 100, 3, 0, 0, 0x7FFF, none, none, 0, false, 0, none, none, false, false, 3, none⟩]).genFull = true := by decide +kernel

theorem witness_FramesAreLookedUpAndQueued_1 :
    let s := (withOn up [pgSwc, pgSwq 5]).putb (hdrCtrlEn (pgSwq 5)) true
    s.on pgSwc = true ∧ s.swqOpen 5 = true ∧ s.swc.ingress = [] ∧ injLengthOk [20, 0, 0, 0] (List.replicate 20 1) = true ∧ isDirect 24 [20, 0, 0, 0] = false := by decide +kernel

theorem witness_FramesAreLookedUpAndQueued_2 :
    let r : Lookup := ⟨0x20, none, 0, 0, 1, 0, 0, false, 0, none, none, [], 0, false, none⟩
    let i : Ingress := ⟨3, [], List.replicate 64 1, some r, some (true, 7)⟩
    let s := { withRegs (withOn up [pgSwc]) [(swcBufCells, 65536), (swqSharedMax 5 0, 100), (swqPortMax 5, 100), (swqSharedLim 5, 7)] with swc := { ingress := [i], cellBanks := [128] } }
    s.swc.ingress.find? (·.src == 3) = some i ∧ s.on pgSwc = true ∧ r.queues = [40] ∧ s.descs.all (·.fid != s.swc.nextFid) = true
      ∧ s.refusal 40 1 0 s.cellsFree 0 0 = 0 := by decide +kernel

theorem witness_FramesAreLookedUpAndQueued_3 :
    let r : Lookup := ⟨0, none, 0, 0, 1, 0, 0, false, 0, none, none, [], 0, false, some 2⟩
    let s := { up with swc := { ingress := [⟨3, [], [], some r, some (true, 7)⟩] } }
    (s.swc.ingress.find? (·.src == 3)).isSome = true ∧ s.swc.barrier = false := by decide +kernel

theorem witness_EventUnitsArmFireAndEnd_1 :
    let s := withRegs (withOn up [pgEvt]) [(evtEvCfg 3, 1)]
    s.letsIn .sup (evtEvCtrl 3) = true ∧ s.on pgEvt = true ∧ s.evMode 3 = 1 ∧ (s.evOf 3).active = false := by decide +kernel

theorem witness_EventUnitsArmFireAndEnd_2 :
    let s := withRegs (withOn up [pgEvt]) [(evtEvCfg 3, 0x22), (evtEvPeriodFrac 3, 1)]
    s.evMode 3 = 2 ∧ s.bit (evtEvCfgAlign 3) = true ∧ s.rn (evtEvPeriodFrac 3) ≠ 0 := by decide +kernel

theorem witness_EventUnitsArmFireAndEnd_3 :
    let s := (withRegs up [(evtEvCfg 3, 1), (evtEvStat 3, 2), (treadStat 0, 4)]).setEv 3 { aligning := some 7, active := true }
    (s.evOf 3).aligning = some 7 ∧ s.bit (evtEvStatWaiting 3) = true ∧ s.locked (s.evHtb 3) = true ∧ (s.evOf 3).active = true
      ∧ 0 ≤ evDiff (s.htbOf 0).v (s.evOf 3).pulseEnd := by decide +kernel

theorem witness_EventUnitsArmFireAndEnd_4 :
    let s := (withRegs (withOn up [pgEvt, pgHtb 0]) [(evtEvCfg 3, 1), (evtEvStat 3, 1)]).setHtb 0 { v := 9, prev := 5, base := 5, e := 4 }
    (s.setEv 3 { age := 2, tgt := 7 }).evFires 3 = some false ∧ (s.setEv 3 { age := 1, tgt := 4 }).evFires 3 = some true := by decide +kernel

theorem witness_ViewsCapturesAndLatches_1 :
    let s := withOn up [pgView, pgEvt]
    s.letsIn .sup (viewCtrl 3) = true ∧ s.on pgView = true ∧ (1#32).getLsbD 0 = true ∧ s.letsIn .sup (viewConvInHi 2) = true
      ∧ s.letsIn .sup (evtEcCtrl 3) = true ∧ s.on pgEvt = true ∧ s.reaches .sup = true ∧ (s.viewOf 3).cur = none := by decide +kernel

theorem witness_ViewsCapturesAndLatches_2 :
    let s := (withRegs (withOn up [pgView]) [(viewCtrl 3, 2)]).setView 3 { pend := some (⟨5, 6, 7⟩, 0) }
    (s.viewOf 3).pend = some (⟨5, 6, 7⟩, 0) ∧ 0 ≤ (s.tb.frc - 0).toInt ∧ s.get (viewCtrlTrack 3) ≠ 0 := by decide +kernel

theorem witness_ViewsCapturesAndLatches_3 :
    let s := { up with tb := { view := [(3, { cur := some ⟨5, 6, 7⟩ })], conv := [(2, some ⟨3, 9⟩)] } }
    s.tb.conv.rd none (pIdx .sup) = some ⟨3, 9⟩ ∧ (s.viewOf 3).choose 9 = (1, some ⟨5, 6, 7⟩) := by decide +kernel

theorem witness_ViewsCapturesAndLatches_4 :
    let s := { withRegs (withOn up [pgEvt]) [(evtEcCfg 3, 0x70)] with tb := { view := [(3, { cur := some ⟨5, 0, 7⟩ })], frc := 0x400000000000 } }
    s.viewIsAged 3 = true ∧ (s.viewOf 3).aged = false ∧ s.bit (evtEcCfgEn 3) = true ∧ s.get (evtEcCfgSrc 3) = 0 ∧ s.get (evtEcCfgEdge 3) = 3 := by decide +kernel

theorem witness_TicksLeapSecondsAndTheOscillator_1 :
    let s := (withRegs (withOn up [pgTb]) [(tbLeap, 1), (tbUtcOffset, 0)]).setHtb 2 { base := BitVec.ofNat 96 (86400000000000 * 2 ^ 32 - 1), v := BitVec.ofNat 96 (86400000000000 * 2 ^ 32) }
    s.on pgTb = true ∧ s.bit tbLeapLeap61 = true ∧ s.bit tbLeapLeap59 = false
      ∧ dayBoundary (s.htbOf 2).base.toNat (s.htbOf 2).v.toNat (-s.geti tbUtcOffsetSeconds) = true := by decide +kernel

theorem witness_TicksLeapSecondsAndTheOscillator_2 :
    let s := { withRegs (withOn up [pgTb]) [(tbOcxCfg, 1)] with tb := { ocxPending := true } }
    s.on pgTb = true ∧ s.bit tbOcxCfgEn = true ∧ s.tb.ocxPending = true ∧ s.tb.ocxLast = none ∧ up.letsIn .sup tbOcxValue = true ∧ up.get tbOcxCfgSrc = 0 := by decide +kernel

theorem witness_TicksLeapSecondsAndTheOscillator_3 :
    (withOn up [pgHtb 0, pgTread]).on (pgHtb 0) = true ∧ (withOn up [pgHtb 0, pgTread]).on pgTread = true ∧ up.on (pgHtb 0) = false ∧ up.chip.clockLost = false := by decide +kernel

theorem witness_ReferencesAndStagesOfTread_1 :
    let s := withRegs (withOn up [pgHtb 0, pgTread]) [(treadCtrl 0, 0), (treadRef 0, 1), (treadQual 0, 0), (treadStat 0, 5)]
    s.genRuns 0 = true ∧ s.treadSrc 0 = 0 ∧ s.bit (treadRefValid 0) = true ∧ s.bit (treadStatRefOk 0) = false
      ∧ s.get (treadQualStableMs 0) * 250000 ≤ (s.genOf 0).validTicks ∧ s.bit (treadStatRefChatter 0) = false ∧ s.stage 0 = 5 ∧ s.letsIn .sup (treadRef 0) = true := by decide +kernel

theorem witness_ReferencesAndStagesOfTread_2 :
    let s := (withRegs (withOn up [pgHtb 0, pgTread]) [(treadCtrl 0, 0), (treadRef 0, 0), (treadQual 0, 0), (treadTimeout 0, 0), (treadChatter 0, 0), (treadStat 0, 0x24)]).setGen 0 { chatTicks := 250000 }
    s.genRuns 0 = true ∧ s.bit (treadStatRefOk 0) = true ∧ s.bit (treadRefValid 0) = false ∧ s.get (treadQualDropMs 0) * 250000 ≤ (s.genOf 0).dropTicks
      ∧ s.get (treadTimeoutMs 0) * 250000 ≤ (s.genOf 0).sampleTicks ∧ max (s.get (treadChatterWinMs 0)) 1 * 250000 ≤ (s.genOf 0).chatTicks ∧ s.stage 0 = 4 := by decide +kernel

theorem witness_ReferencesAndStagesOfTread_3 :
    let s := withRegs (withOn up [pgHtb 0, pgTread]) [(treadCtrl 0, 0), (treadStat 0, 0x21), (evtEvStat 0, 0)]
    s.letsIn .sup (treadSeekOfsHi 0) = true ∧ s.stage 0 = 1 ∧ s.bit (treadStatRefOk 0) = true ∧ s.stepsBarred 0 = false := by decide +kernel

theorem witness_ReferencesAndStagesOfTread_4 :
    let s := (withRegs (withOn up [pgHtb 0, pgTread]) [(treadCtrl 0, 0), (treadStat 0, 0x22)]).setGen 0 { samples := [9], outs := [8], lastErr := some (5, 0) }
    (s.genOf 0).samples = [9] ∧ (s.genOf 0).outs = [8] ∧ s.genRuns 0 = true ∧ s.treadSrc 0 = 0 ∧ s.bit (treadStatRefOk 0) = true
      ∧ s.bit (treadStatRefChatter 0) = false ∧ s.stage 0 = 2 ∧ (s.genOf 0).lastErr = some (5, 0) := by decide +kernel

theorem witness_TreadTablesControlAndFollower_1 :
    let s := withRegs (withOn up [pgHtb 0, pgTread]) [(treadCtrl 0, 1), (treadSeg 0 0 0, 5), (treadStat 0, 0x400)]
    s.on pgTread = true ∧ s.letsIn .sup (treadCtrl 0) = true ∧ (s.reg (treadCtrl 0)).toNat < 8 ∧ s.bit (treadStatTableRun 0) = true ∧ s.treadSrc 0 = 1
      ∧ s.bit (treadStatRefOk 0) = false ∧ s.on (pgHtb 0) = true ∧ s.chip.clockLost = false
      ∧ ((s.setGen 0 { due := [(1, 0x100)] }).genOf 0).due = [(1, 0x100)] := by decide +kernel

theorem witness_TreadTablesControlAndFollower_2 :
    let s := (withRegs (withOn up [pgHtb 0, pgHtb 2, pgTread]) [(treadStat 0, 0x400), (treadFollow 2, 2)]).setGen 2 { autoTicks := 100000000000 }
    s.rn (treadSeg 0 (s.get (treadStatSeg 0)) 0) * 250 ≤ (s.genOf 0).segTicks ∧ s.letsIn .sup (treadFollow 2) = true ∧ s.bit (treadFollowAuto 2) = true
      ∧ 0 < (s.genOf 2).autoTicks ∧ s.get (treadFollowSwitchDelayMs 2) * 250000 ≤ (s.genOf 2).autoTicks ∧ s.autoDue.isSome = true := by decide +kernel

theorem witness_DuplicateDiscard_1 :
    let s := { withOn up [pgDdu] with fab := { dduQ := [⟨3, 2, 5, 9, 7, 2⟩], ddu := [(7, some ⟨5, 9, 7, 1, 3, 0⟩)], dduFlush := some (none, 4) } }
    s.tidy = true ∧ s.on pgDdu = true ∧ s.fab.dduQ = [⟨3, 2, 5, 9, 7, 2⟩] ∧ (s.dduAt 7).isSome = true ∧ s.letsIn .sup dduFlush = true
      ∧ s.bit dduFlushBusy = false ∧ s.fab.dduFlush = some (none, 4) := by decide +kernel

theorem witness_DuplicateDiscard_2 :
    let s := { withRegs (withOn up [pgDdu]) [(dduCfg, 1), (dduForgetMs, 1)] with tb := { up.tb with frc := 250000 }, fab := { ddu := [(7, some ⟨5, 9, 7, 1, 3, 0⟩)] } }
    s.tidy = true ∧ s.on pgDdu = true ∧ s.bit dduCfgAgeEn = true
      ∧ ((s.dduAt 7).any fun x => decide (max 1 (s.get dduForgetMsMs) * 250000 ≤ (s.tb.frc - x.made).toNat)) = true := by decide +kernel

theorem witness_CheckpointsFaultsAndTakeover_1 :
    let s := { withOn up [pgFab, pgPe 3] with fab := { ckptCopy := [(3, some ⟨{}, 5, 6, [(4, [1, 2, 3])], []⟩)], pe := [(3, { wdog := 100000 })] } }
    s.tidy = true ∧ (s.fab.ckptCopy.rd none 3).isSome = true ∧ s.roleOf 3 = 3 ∧ s.get fabCkptBaseBank ≤ 188 ∧ s.canFault 3 = true ∧ s.isSpare 3 = false
      ∧ s.takeoverBy 3 = none ∧ s.on (pgPe 3) = true ∧ s.get (peWdogUs 3) ≠ 0 ∧ s.get (peWdogUs 3) * 1000 ≤ (s.peOf 3).wdog + 0
      ∧ s.fab.takeover.rd none 3 = none ∧ s.ckptBest 3 = none ∧ (s.roleImage 3).2 ≠ 0 := by decide +kernel

theorem witness_CheckpointsFaultsAndTakeover_2 :
    ({ up with fab := { takeover := [(3, some ⟨16, true, 3⟩)] } }.fab.takeover.rd none 3 = some ⟨16, true, 3⟩) ∧ up.roleOf 3 = 3 := by decide +kernel

theorem witness_ShankPostsTriggersAndOutputs_1 :
    let s := { withOn up [pgShank] with shank := { outQ := [⟨5, 7, false, false, false, 0, 0⟩], dcq := [⟨5, 3, 9, 1, false, false⟩] } }
    s.on pgShank = true ∧ s.letsIn .sup (shchPost 5 3) = true ∧ s.letsIn .sup shankTrigLo = true ∧ s.letsIn .sup shankTrigHi = true
      ∧ s.shank.dcq = [⟨5, 3, 9, 1, false, false⟩] ∧ s.shank.outQ = [⟨5, 7, false, false, false, 0, 0⟩] ∧ s.shank.outWait = []
      ∧ s.letsIn .sup (shchCfg (s.selOf .sup)) = true ∧ s.reserved = false ∧ s.letsIn .sup (shankGroupCfg 7) = true := by decide +kernel

theorem witness_ShankPostsTriggersAndOutputs_2 :
    let s := { withOn up [pgShank] with shank := { outWait := [⟨5, 7, false, false, false, 0, 0⟩] } }
    s.on pgShank = true ∧ s.shank.outWait = [] ++ ⟨5, 7, false, false, false, 0, 0⟩ :: []
      ∧ (((⟨5, 7, false, false, false, 0, 0⟩ : ShOut).dest.extractLsb' 0 3).toNat == 3) = false := by decide +kernel

theorem witness_ShankJobsAndLanes_1 :
    let s := { withRegs (withOn up [pgShank, pgShch]) [(shankLaneStat, 0x64), (shchCfg 5, 1)] with shank := { pend := [5] } }
    s.shRuns = true ∧ s.shank.job = none ∧ s.shank.pend = [] ++ 5 :: [] ∧ s.mayTrigger 5 = true ∧ s.reserved = false ∧ (s.chanOf 5).stateErr = 0
      ∧ s.groupOf' 5 = none ∧ (∀ f ∈ [shchInPvKind 5, shchInSpKind 5, shchInFfKind 5], s.get f ≠ 1) ∧ (s.chanOf 5).fresh = true := by decide +kernel

theorem witness_ShankJobsAndLanes_2 :
    let s := { withRegs (withOn up [pgShank, pgShch]) [(shankLaneStat, 0x64), (shchCfg 48, 1), (shankGroupCfg 0, 0x80000001)] with shank := { pend := [48] } }
    s.mayTrigger 48 = true ∧ s.groupOf' 48 = some 0 := by decide +kernel

theorem witness_ShankJobsAndLanes_3 :
    let s := { withRegs (withOn up [pgShank, pgShch]) [(shankLaneStat, 0x64)] with shank := { job := some ⟨[], 5, none, 5, 7, 24⟩ } }
    s.compared = true ∧ s.shank.injLane = none ∧ s.shank.job = some ⟨[], 5, none, 5, 7, 24⟩ ∧ s.bit shankLaneStatSpareOk = true := by decide +kernel

theorem witness_ShankJobsAndLanes_4 :
    let s := { withRegs (withOn up [pgShank]) [(shankLaneStat, 0x864)] with shank := { spareTest := some 2 } }
    s.shank.spareTest = some 2 ∧ s.on pgShank = true ∧ s.letsIn .sup shankLaneTest = true := by decide +kernel

theorem witness_WeltReceptionTransmissionAndStates_1 :
    let s := withOn up [pgWelt 0]
    s.on (pgWelt 0) = true ∧ s.letsIn .sup (patApply 0) = true ∧ s.letsIn .sup (weltPublish 0) = true ∧ s.isHub 0 = false := by decide +kernel

theorem witness_WeltReceptionTransmissionAndStates_2 :
    let s := withRegs (withOn up [pgWelt 0]) [(weltCfg 0, 0x704), (weltUp 0, 0x8080), (patActive 0 0 0, 0x801003E8), (patActive 0 0 1, 9), (patActive 0 2 0, 0x80101388), (patActive 0 2 1, 7), (weltState 0, 4)]
    s.upLane 0 false = some 0 ∧ s.node 0 = nodeActive ∧ (s.pat 0 0 0).valid = true ∧ (s.pat 0 0 0).owner ≠ s.nodeId 0 ∧ (s.pat 0 0 2).owner = s.nodeId 0 ∧ s.nodeId 0 ≠ 255
      ∧ (s.pat 0 0 2).typ ≠ 2 ∧ (s.pat 0 0 2).mirror = false ∧ s.usesCh 0 false = true ∧ s.usesCh 0 true = true ∧ s.get (weltBufFirst 0) ≤ 188 := by decide +kernel

theorem witness_WeltReceptionTransmissionAndStates_3 :
    let s := { withRegs (withOn up [pgWelt 0]) [(weltCfg 0, 0x705), (weltDownA 0, 4), (weltState 0, 0x34)] with welt := [(0, { rejoin := some 1, lossCount := 255, passCount := 255, quiet := 255, chanLoss := [(0, 255)], csQuiet := [(0, 255)] })] }
    s.isHub 0 = true ∧ 2 ∈ s.downLanes 0 false ∧ s.hub 0 false = hubGuarded ∧ (s.weltOf 0).rejoin = some 1 ∧ s.node 0 ≠ nodeIntegrating
      ∧ s.get (weltTimersSyncLossMax 0) ≤ (s.weltOf 0).lossCount ∧ s.get (weltTimersPassiveHold 0) ≤ (s.weltOf 0).passCount ∧ s.get (weltTimersListenTo 0) ≤ (s.weltOf 0).quiet
      ∧ s.get (weltTimersSyncLossMax 0) ≤ (s.weltOf 0).chanLoss.rd 0 0 ∧ s.get (weltTimersCsHold 0) ≤ (s.weltOf 0).csQuiet.rd 0 0 := by decide +kernel

theorem witness_EyeletStepsActionsAndStarts_1 :
    let s := (withRegs (withOn up [pgEye 3]) [(eyeRowSel 3 1, 0x8786)]).putb (eyeCfgRun 3) true
    s.eyeRuns 3 = true ∧ (s.eyeOf 3).jtagHalt = false ∧ (s.eyeOf 3).stall = none ∧ s.on (pgEye 3) = true ∧ s.letsIn .sup (eyeCircuit 3) = true
      ∧ s.letsIn .sup (eyeRowCommit 3) = true ∧ s.letsIn .sup (eyeOnce 3) = true ∧ s.letsIn .sup (eyeCfg 3) = true ∧ s.letsIn .sup eyepStart = true := by decide +kernel

theorem witness_EyeletStepsActionsAndStarts_2 :
    let s := ((withOn up [pgEye 3]).putb (eyeCfgRun 3) true).setEye 3 { stall := some 0x9007, stallAct := 3, rxh := some 5, fout := [7] }
    s.eyeRuns 3 = true ∧ (s.eyeOf 3).stall = some 0x9007 ∧ (s.eyeOf 3).stallAct = 3 ∧ (s.eyeOf 3).waitLeft = 0 ∧ (s.eyeOf 3).rxh = some 5 ∧ (s.eyeOf 3).txh = none := by decide +kernel

theorem witness_EyeletStepsActionsAndStarts_3 :
    let s := (((withOn up [pgEye 3]).putb (eyeCfgRun 3) true).setReg eyepBootSync 8).setEye 3 { stall := some 0x1007, stallAct := 1, wordReady := some 5, waitsBootSync := true }
    (s.eyeOf 3).stallAct = 1 ∧ (s.eyeOf 3).rxh = none ∧ (s.eyeOf 3).wordReady = some 5 ∧ (s.eyeOf 3).waitsBootSync = true
      ∧ ∀ j ∈ (List.range 16).filter (fun j => (s.get eyepBootSyncMask).testBit j && s.bit (hdrCtrlEn (pgEye j))), s.on (pgEye j) = true ∨ s.st (pgEye j) = stFault := by decide +kernel

theorem witness_WaveCaptureDetectsRecordsAndExports_1 :
    let s := (withRegs (withOn up [pgWcap, pgLace]) [(evtEvFired 0, 7), (wcapChCfg 0, 1), (eyeSink 0, 1)]).setEye 0 { fin := [5] }
    let s := { s with wcap := { s.wcap with due := [some (0, false)] } }
    s.wcap.trigPend = false ∧ s.on pgWcap = true ∧ s.wcap.due = some (0, false) :: []
      ∧ s.wEn 0 = true ∧ s.bit (eyeSinkWcap (s.get (wcapChCfgSrc 0))) = true ∧ (s.eyeOf 0).fin = 5 :: [] ∧ s.letsIn .sup wcapTrig = true
      ∧ s.letsIn .sup wcapRelease = true ∧ s.letsIn .sup wcapExportCtrl = true ∧ s.bit wcapExportCtrlBusy = false ∧ s.wDests = [] := by decide +kernel

theorem witness_WaveCaptureDetectsRecordsAndExports_2 :
    let s := { withOn up [pgWcap] with wcap := {
      reports := [[1, 2, 3, 4, 5, 6, 7, 8]], capturing := true, due := [none], exporting := some (3, 0x10000000), trigPend := true
      recs := [(3, some ⟨1, 2, 0, 3, 0, 0, false, true, false, false, false, false, 0, 5⟩)] } }
    s.wcap.capturing = true ∧ s.wcap.due = none :: [] ∧ (s.wcap.reports.headD []).length = 8 ∧ (s.recOf 3).isSome = true ∧ s.bank.ecc = [] ∧ s.wcap.trigPend = true := by decide +kernel

theorem witness_BanksChangeHandsAndLaceCarriesWords_1 :
    let s := withRegs (withOn up [pgBank, pgLace]) [(bankBankst 71, 0x40030), (bankCfg, 1)]
    let s := { s with bank := { s.bank with scrubOn := true } }
    s.reaches .sup = true ∧ s.bit (bankBankstScrubbing 71) = true ∧ s.on pgBank = true ∧ s.bit bankCfgScrubEn = true ∧ s.bank.scrubPos < 192 * 32768 ∧ s.bank.scrubOn = true ∧ s.st pgBank ≠ stStopping ∧ s.tidy = true
      ∧ s.on pgLace = true ∧ s.letsIn .sup (laceTx 63 1) = true ∧ s.letsIn .sup (laceTxlast 63 1) = true ∧ s.letsIn .sup (laceDbSet 63) = true ∧ s.letsIn .sup (laceDb 63) = true := by decide +kernel

theorem witness_BanksChangeHandsAndLaceCarriesWords_2 :
    let w : LWord := ⟨9, true, 3⟩
    let s := { withRegs (withOn up [pgLace, pgBank]) [(laceChStat 5, 0xC00), (bankRetGroup, 0x100)] with lace := { q := [(10, [w, w, w, w, w, w, w, w]), (11, [w, w, w, w, w, w, w, w])] }, bank := { writeback := [7] } }
    8 ≤ (s.laceQ 5 0).length ∧ 8 ≤ (s.laceQ 5 1).length ∧ s.bit (laceChStatWait0 5) = true ∧ s.bit (laceChStatWait1 5) = true ∧ 7 ∈ s.bank.writeback ∧ s.retHonoured 70 = true := by decide +kernel

theorem witness_HostAccessesDmaAndFrames_1 :
    let s := withRegs (withOn up [pgPcie, pgHostb]) [(pcieLink, 0x11), (pcieDmaRingSize 7, 4096), (pcieDmaTail 7, 4095), (pcieDmaCtrl 7, 1)]
    s.reaches .ha = true ∧ s.tidy = true ∧ s.on pgPcie = true ∧ s.bit (pcieDmaCtrlEn 7) = true ∧ s.bit (pcieDmaStatHalted 7) = false ∧ s.host.dma.rd none 7 = none
      ∧ (∃ i < 12, s.get (pcieDmaRingSizeEntries 7) = 2 ^ (i + 1)) ∧ s.get (pcieDmaHeadIndex 7) ≠ s.get (pcieDmaTailIndex 7) % s.get (pcieDmaRingSizeEntries 7)
      ∧ s.letsIn .sup (pcieDmaTail 7) = true ∧ s.letsIn .sup (pcieDmaCtrl 7) = true ∧ s.reaches .hb = true ∧ s.on pgHostb = true ∧ s.host.hbRead = none := by decide +kernel

theorem witness_HostAccessesDmaAndFrames_2 :
    let s := { withRegs up [(pcieDmaRingSize 7, 2)] with host := { dma := [(7, some ⟨⟨0, 0x10000000, 4, true, false, true, 0, 0⟩, [9, 9, 9, 9], false, 0, 0, false⟩)], hbRead := some (0x40, 64) } }
    (s.host.dma.rd none 7).isSome = true ∧ s.tidy = true ∧ (∀ i < 1, s.portBErr .ha 0x10000000 4 true ≠ 0) ∧ s.get (pcieDmaRingSizeEntries 7) ≠ 0 ∧ s.get (pcieDmaRingSizeEntries 7) ≤ 4096 ∧ s.host.hbRead = some (0x40, 64) := by decide +kernel

theorem witness_ServicesFlashCommandsAndJtag_1 :
    let s := withRegs up [(bankBankst 71, 0x3F)]
    s.reaches .hb = true ∧ s.mayWrite .sup pgSup = true ∧ s.mayWrite .sup pgFlash = true ∧ s.reaches .sup = true ∧ s.supLost = false ∧ s.supRestarting = false ∧ s.tidy = true
      ∧ (∀ k < 192, bankOf 0x12380000 ≤ k → k ≤ bankOf (0x12380000 + 19) → s.ownerOf k = pCode .sup) := by decide +kernel

theorem witness_ServicesFlashCommandsAndJtag_2 :
    let s := up.setBytes (dirEntry 62) (dirBytes ⟨0x77, 2, 2, 1, 3, 0x2000, 2, 40, List.replicate 48 7⟩)
    s.cacheUsed.length = 1 ∧ (∀ e ∈ s.cacheUsed, e.2.off % 16 = 0 ∧ 0x1000 ≤ e.2.off ∧ e.2.off + roomOf e.2.len ≤ 0x600000) := by decide +kernel

theorem witness_ServicesFlashCommandsAndJtag_3 :
    let s := up.putb supDebugEnDebug true
    s.alive = true ∧ s.bit supDebugEnDebug = true ∧ s.debugOn = true ∧ s.reaches .sup = true ∧ s.bit flashCmdStatBusy = false := by decide +kernel

theorem witness_SupervisorRestartsLossAndInjectedFaults_1 :
    let s := up.setReg (hdrState pgSup) 2
    s.alive = true ∧ s.supLost = false ∧ s.on pgSup = true ∧ s.reaches .sup = true ∧ s.mayWrite .sup pgFlt = true ∧ s.commit = none ∧ (s.putb fltSupRestarting true).supRestarting = true := by decide +kernel

theorem witness_SupervisorRestartsLossAndInjectedFaults_2 :
    let s := { up.setReg (hdrState (pgPe 17)) 2 with flt := { inj := some (5, 17, 3, 0) } }
    s.canFault 17 = true ∧ s.on (pgPe 17) = true := by decide +kernel

end Sys2Proof.Tests
end

section
/-! Startup and retained state (chapter 3): what a reset leaves, and the statements about resets, the boot sequence and
the slots of the Insole. -/
namespace Sys2Proof.Machine
open Sys2Proof

/-! ## What a reset leaves -/

/-- STATE of every block is 0 after reset, which is OFF (Table 2-1). -/
theorem regReset_hdrState : ∀ p ∈ headerPages, regReset (hdrState p) = 0 := by decide +kernel

theorem State.st_of_reg_zero (s : State) (p : Nat) (h : s.reg (hdrState p) = 0) : s.st p = stOff := by
  show bitsOf (s.reg (hdrState p)) 0 3 = 0
  rw [h]; rfl

theorem State.reg_reset (k : Nat) : State.reset.reg k = regReset k := rfl

/-- Of registers filtered by key, a kept one reads as before and any other at its value after reset. -/
theorem Sparse.rd_filter_key {α : Type} (d : α) (m : Sparse α) (f : Nat → Bool) (k : Nat) :
    Sparse.rd d (m.filter fun e => f e.1) k = if f k then m.rd d k else d := by
  cases h : f k
  · exact Sparse.rd_filter_out d m _ k fun _ => h
  · exact Sparse.rd_filter d m _ k fun _ => h

theorem State.reg_restart (s : State) (cause : Nat) (since time : Bool) {k : Nat} (hc : k ≠ rstCause) (ht : k ≠ clkStatus) :
    (s.restart cause since time).reg k = if regKept since time k then s.reg k else regReset k := by
  calc (s.restart cause since time).reg k = _ := State.reg_setReg_ne _ _ ht
    _ = _ := State.reg_setReg_ne _ _ hc
    _ = _ := Sparse.rd_filter_key _ s.regs _ k

/-- A register that the reset does not keep reads as after reset. -/
theorem State.reg_restart_lost (s : State) (cause : Nat) (since time : Bool) {k : Nat} (hc : k ≠ rstCause)
    (ht : k ≠ clkStatus) (hk : regKept since time k = false) : (s.restart cause since time).reg k = regReset k := by
  rw [s.reg_restart cause since time hc ht, hk, if_neg Bool.false_ne_true]

theorem State.cause_restart (s : State) (cause : Nat) (since time : Bool) (h : cause < 8) :
    (s.restart cause since time).get rstCauseLast = cause := by
  simp only [State.restart, State.putb]
  rw [State.get_put_ne _ _ (by decide), State.get_put_same _ _ _ (by decide)]
  exact Nat.mod_eq_of_lt h

theorem State.byte_restart (s : State) (cause : Nat) (since time : Bool) (a : Nat) :
    (s.restart cause since time).byte a = if insoleBase ≤ a then s.byte a else 0 := by
  have h := Sparse.rd_filter_key (0 : Byte) s.mem (fun k => decide (insoleBase ≤ k)) a
  simp only [decide_eq_true_eq] at h
  exact h

/-- The Insole stands over a reset (R73). -/
theorem State.insole_restart (s : State) (cause : Nat) (since time : Bool) {a : Nat} (h : insoleBase ≤ a) :
    (s.restart cause since time).byte a = s.byte a := by
  rw [s.byte_restart, if_pos h]

/-- No reset keeps BOOT: the boot sequence stands at its beginning. -/
theorem State.boot_restart (s : State) (cause : Nat) (since time : Bool) :
    (s.restart cause since time).reg devBoot = 0 :=
  s.reg_restart_lost cause since time (by decide) (by decide) (by cases since <;> cases time <;> decide +kernel)

theorem State.bootStep_restart (s : State) (cause : Nat) (since time : Bool) :
    (s.restart cause since time).get devBootStep = 0 := by
  unfold State.get
  rw [show devBootStep.key = devBoot from rfl, s.boot_restart]; rfl

theorem State.booted_restart (s : State) (cause : Nat) (since time : Bool) :
    (s.restart cause since time).booted = false := by
  unfold State.booted State.bit State.get
  rw [show devBootDone.key = devBoot from rfl, s.boot_restart]; rfl

/-- A counter field counts one on, up to its limit. -/
theorem State.get_countF_same (s : State) (f : Field) (h : f.lo + f.width ≤ 32) :
    (s.countF f).get f = min (s.get f + 1) (2 ^ f.width - 1) := by
  have hpos : 0 < 2 ^ f.width := Nat.two_pow_pos _
  rw [State.countF, State.get_put_same _ _ _ h, Nat.mod_eq_of_lt (by unfold satAdd; split <;> omega)]
  unfold satAdd
  split <;> omega

/-! ## The T domain over a reset that keeps it (R226) -/

/-- First pages of the blocks of the T domain. -/
def timePages : List Nat := [pgTb, pgHtb 0, pgHtb 1, pgHtb 2, pgView, pgEvt]

theorem isTime_of_mem_timePages : ∀ p ∈ timePages, isTime p = true := by decide

/-- A register of the T domain's pages is none of the always-on logic. -/
theorem ne_of_mem_timePages {k a : Nat} (hk : firstPage (keyAddr k / 0x1000) ∈ timePages)
    (ha : firstPage (keyAddr a / 0x1000) ∉ timePages) : k ≠ a := fun h => ha (h ▸ hk)

theorem State.reg_restart_time (s : State) (cause : Nat) (since : Bool) {k : Nat}
    (hk : firstPage (keyAddr k / 0x1000) ∈ timePages) (hl : isLatch k = false) :
    (s.restart cause since true).reg k = s.reg k := by
  rw [s.reg_restart cause since true (ne_of_mem_timePages hk (by decide)) (ne_of_mem_timePages hk (by decide))]
  simp [regKept, isTime_of_mem_timePages _ hk, hl]

/-- A reset that does not keep the T domain leaves every block OFF. -/
theorem State.st_restart_off (s : State) (cause : Nat) (since : Bool) {p : Nat} (hp : p ∈ headerPages) :
    (s.restart cause since false).st p = stOff := by
  have hne (o : Nat) (ho : o % 0x1000 ≠ 0xC) : hdrState p ≠ o := by unfold hdrState; omega
  have hk : regKept since false (hdrState p) = false := by
    simp [regKept, hne insoleCommits (by decide), hne clkLossCount (by decide)]
  refine State.st_of_reg_zero _ _ ?_
  rw [State.reg_restart_lost _ _ _ _ (hne _ (by decide)) (hne _ (by decide)) hk, regReset_hdrState p hp]

/-- What stands of the T domain over a reset that keeps it: its pages but the readers' latches, and the time base but
the capture FIFOs and held reads (R226). -/
def TimeKept (s t : State) : Prop :=
  t.tb = s.tb.emptied
    ∧ ∀ k, firstPage (keyAddr k / 0x1000) ∈ timePages → isLatch k = false → t.reg k = s.reg k

theorem State.timeKept_restart (s : State) (cause : Nat) (since : Bool) : TimeKept s (s.restart cause since true) :=
  ⟨rfl, fun _ hk hl => s.reg_restart_time cause since hk hl⟩

/-- A change of registers of other pages, ahead of the reset, does not show in what the reset keeps of the T domain. -/
theorem TimeKept.of_before {s s' t : State} (h : TimeKept s' t) (htb : s'.tb = s.tb)
    (hreg : ∀ k, firstPage (keyAddr k / 0x1000) ∈ timePages → s'.reg k = s.reg k) : TimeKept s t :=
  ⟨htb ▸ h.1, fun k hk hl => (h.2 k hk hl).trans (hreg k hk)⟩

/-! ## The resets -/

/-- The state at a power-on reset with REFCLK_25 present (R73, R102). -/
theorem powerOnReset_gives (s : State) (pin rev : Bool) : Gives (exec (.powerOnReset pin rev true) s) fun t =>
    t.get rstCauseLast = (if pin then 1 else 0) ∧ t.chip.revertPin = rev ∧ t.get devBootStep = 0 ∧ t.booted = false
      ∧ (∀ p ∈ headerPages, t.st p = stOff) ∧ t.commit = none ∧ t.prot = {} ∧ t.flt.bootQ = []
      ∧ (∀ a, t.byte a = if insoleBase ≤ a then s.byte a else 0) := by
  refine ⟨_, rfl, ?cause, rfl, ?step, ?booted, ?off, rfl, rfl, rfl, ?bytes⟩
  case cause => exact s.cause_restart (if pin then 1 else 0) false false (by cases pin <;> decide)
  case step => exact s.bootStep_restart (if pin then 1 else 0) false false
  case booted => exact s.booted_restart (if pin then 1 else 0) false false
  case off => exact fun p hp => s.st_restart_off (if pin then 1 else 0) false hp
  case bytes => exact s.byte_restart (if pin then 1 else 0) false false

/-- LOSS_COUNT counts a loss of REFCLK_25 up to its limit, and the reset keeps it (R78). -/
theorem State.lossCount_clockLose (s : State) :
    s.clockLose.get clkLossCountCount = min (s.get clkLossCountCount + 1) 0xFFFF := by
  have hkept : ((s.countF clkLossCountCount).restart 2 true true).get clkLossCountCount
      = (s.countF clkLossCountCount).get clkLossCountCount := by
    unfold State.get
    rw [State.reg_restart _ _ _ _ (by decide) (by decide), if_pos (by decide)]
  calc s.clockLose.get clkLossCountCount = _ := hkept
    _ = _ := s.get_countF_same clkLossCountCount (by decide)

/-- A loss of REFCLK_25 holds the device and keeps the Insole, LOSS_COUNT and the T domain (R77, R78). -/
theorem refclkLost_gives (s : State) (h : s.alive = true) : Gives (exec .refclkLost s) fun t =>
    t.get rstCauseLast = 2 ∧ t.chip.clockLost = true ∧ t.booted = false ∧ (t.flt.bootQ.map (·.cause)) = [0x12]
      ∧ t.get clkLossCountCount = min (s.get clkLossCountCount + 1) 0xFFFF
      ∧ (∀ a, insoleBase ≤ a → t.byte a = s.byte a) ∧ TimeKept s t := by
  have hex : exec .refclkLost s = .next s.clockLose := congrArg Host.Outcome.next (if_pos h)
  refine ⟨_, hex, ?cause, rfl, ?booted, rfl, s.lossCount_clockLose, ?insole, ?time⟩
  case cause => exact State.cause_restart _ 2 true true (by decide)
  case booted => exact State.booted_restart _ 2 true true
  case insole => exact fun a ha => State.insole_restart (s.countF clkLossCountCount) 2 true true ha
  case time =>
    refine (State.timeKept_restart (s.countF clkLossCountCount) 2 true).of_before rfl fun k hk => ?_
    exact State.reg_setReg_ne _ _ (ne_of_mem_timePages hk (by decide))

/-- A field of one bit reads as that bit of its register. -/
theorem bitsOf_one (w : Word) (i : Nat) : (bitsOf w i 1 != 0) = w.getLsbD i := by
  simp only [bitsOf, BitVec.getLsbD, Nat.testBit, Nat.one_and_eq_mod_two, Nat.pow_one]

/-- The row of RST.DEVICE (Table 3-11). -/
def rstDeviceRow : RegRow := ⟨0x40, 0, 1, 0, 1, 0, 1, 0x100, 0, 0, 0xFF, 0, 0, 0x100, 0x100⟩

theorem regRow_rstDevice : regRow rstDevice = some rstDeviceRow := by decide

@[simp] theorem State.fell_regs (s : State) (p : Nat) : (s.fell p).regs = s.regs := by unfold State.fell; split <;> rfl
@[simp] theorem State.fell_mem (s : State) (p : Nat) : (s.fell p).mem = s.mem := by unfold State.fell; split <;> rfl
@[simp] theorem State.fell_tb (s : State) (p : Nat) : (s.fell p).tb = s.tb := by unfold State.fell; split <;> rfl
@[simp] theorem State.fell_commit (s : State) (p : Nat) : (s.fell p).commit = s.commit := by unfold State.fell; split <;> rfl

/-- A write of RST.DEVICE by its access codes alone: KEEP_TIME takes the value written. -/
theorem State.byCodes_rstDevice (s : State) (v : Word) : s.byCodes rstDevice v
    = ((s.unkeep rstDevice).setReg rstDevice ((s.reg rstDevice &&& ~~~0x100) ||| (v &&& 0x100))).fell pgRst := by
  have hw : rstDeviceRow.writable ≠ 0 := by decide
  have hv : ∀ x : Word, x &&& ~~~(v &&& rstDeviceRow.w1c) = x := fun x => by
    simpa [rstDeviceRow] using BitVec.and_allOnes (x := x)
  simp only [State.byCodes, show keyAddr rstDevice = rstDevice from rfl, regRow_rstDevice, if_neg hw, hv]
  rfl

theorem State.keepTime_byCodes (s : State) (v : Word) : (s.byCodes rstDevice v).bit rstDeviceKeepTime = v.getLsbD 8 := by
  have hreg : (s.byCodes rstDevice v).reg rstDevice = (s.reg rstDevice &&& ~~~0x100) ||| (v &&& 0x100) := by
    rw [s.byCodes_rstDevice, State.reg, State.fell_regs]
    exact State.reg_setReg_same _ _ _
  calc (s.byCodes rstDevice v).bit rstDeviceKeepTime
      = ((s.byCodes rstDevice v).reg rstDevice).getLsbD 8 := bitsOf_one _ 8
    _ = v.getLsbD 8 := by rw [hreg]; simp

theorem State.deviceWrite_accepted (s : State) (v : Word) (hv : bitsOf v 0 8 = 0xD5) (hc : s.commit = none) :
    s.deviceWrite v = (s.byCodes rstDevice v).restart 3 true (v.getLsbD 8) := by
  have hc' : (s.byCodes rstDevice v).commit = none := by rw [s.byCodes_rstDevice, State.fell_commit]; exact hc
  simp [State.deviceWrite, hv, hc', s.keepTime_byCodes]

/-- A device reset accepted with its key keeps the Insole, and the T domain as KEEP_TIME is written (R75). -/
theorem deviceReset_gives (s : State) (p : Principal) (v : Word) (hp : s.letsIn p rstDevice = true)
    (hv : bitsOf v 0 8 = 0xD5) (hc : s.commit = none) : Gives (exec (.deviceReset p v) s) fun t =>
      t.get rstCauseLast = 3 ∧ t.booted = false ∧ t.get devBootStep = 0
        ∧ (∀ a, insoleBase ≤ a → t.byte a = s.byte a)
        ∧ (if v.getLsbD 8 then TimeKept s t else t.tb = {} ∧ ∀ q ∈ timePages, t.st q = stOff) := by
  have hacc : s.access p rstDevice v (fun s w => s.deviceWrite w) = _ :=
    (s.access_letsIn p rstDevice v _ hp (by decide)).trans (s.deviceWrite_accepted v hv hc)
  refine ⟨_, congrArg Host.Outcome.next hacc, ?cause, ?booted, ?step, ?insole, ?time⟩
  case cause => exact State.cause_restart _ 3 true _ (by decide)
  case booted => exact State.booted_restart _ 3 true _
  case step => exact State.bootStep_restart _ 3 true _
  case insole =>
    intro a ha
    rw [State.insole_restart _ 3 true _ ha, s.byCodes_rstDevice, State.byte, State.fell_mem]
    rfl
  case time =>
    cases v.getLsbD 8 with
    | true =>
      refine (State.timeKept_restart (s.byCodes rstDevice v) 3 true).of_before ?_ fun k hk => ?_
      · rw [s.byCodes_rstDevice, State.fell_tb]; rfl
      · rw [s.byCodes_rstDevice, State.reg, State.fell_regs]
        exact State.reg_setReg_ne _ _ (ne_of_mem_timePages hk (by decide))
    | false =>
      have hsub : ∀ q ∈ timePages, q ∈ headerPages := by decide
      exact ⟨rfl, fun q hq => State.st_restart_off _ 3 true (hsub q hq)⟩

/-- Settles O6: every reset goes through `State.restart`, which keeps the Insole, and the T domain where it is told to. -/
theorem resetsKeepTheInsoleAndNameTheirCause : Obligations.ResetsKeepTheInsoleAndNameTheirCause := by
  unfold Obligations.ResetsKeepTheInsoleAndNameTheirCause
  intro s
  refine ⟨powerOnReset_gives s, refclkLost_gives s, fun hpow hlost => ?present, deviceReset_gives s, ?fail⟩
  case present =>
    exact congrArg Host.Outcome.next (if_pos (by rw [hpow, hlost]; rfl))
  case fail => exact ⟨_, rfl, rfl, fun a ha => s.insole_restart 0 false false ha⟩

/-- Settles O3: the state after reset lists no register, so each reads at its value after reset. -/
theorem resetStateIsPowerOn : Obligations.ResetStateIsPowerOn := by
  unfold Obligations.ResetStateIsPowerOn
  refine ⟨rfl, by decide, by decide, by decide, fun p hp => ?_, by decide, rfl, rfl⟩
  exact State.st_of_reg_zero _ _ ((State.reg_reset _).trans (regReset_hdrState p hp))

/-! ## A register listed twice -/

/-- A running device whose list of registers holds PCIE.CFG twice: it reads the first value, which is its factory value. -/
def doubleCfg : State := { regs := [(pcieCfg, 0x44), (pcieCfg, 0x11)] }

theorem regRow_pcieCfg : regRow pcieCfg = some ⟨0x40, 0, 1, 0, 1, 0, 1, 0x77, 0, 0, 0, 0, 0, 0x77, 0x44⟩ := by decide

/-- Refutes O8: the reset of PCIE drops the listed factory value of CFG in `doubleCfg`, and the value listed behind it
comes to light, though CFG is retained. The statement does not ask that a register be listed once. -/
theorem not_hostLinkResets : ¬ Obligations.HostLinkResets := by
  unfold Obligations.HostLinkResets
  intro h
  obtain ⟨-, hreset, -⟩ := h doubleCfg
  obtain ⟨t, ht, -, -, -, -, -, -, -, -, -, hretained⟩ := hreset (by decide) (by decide)
  have hcfg : t.reg pcieCfg = 0x11 := by
    cases ht
    decide +kernel
  have hstands := hretained pcieCfg _ regRow_pcieCfg (by decide)
  rw [hcfg] at hstands
  exact absurd hstands (by decide)

/-! ## A held value for a register of the log -/

/-- A device that commits while an entry is held whose address is LOG_HEAD of PROT, which no two-party change protects. -/
def heldLogHead : State := {
  regs := [(protStageAddr 0, BitVec.ofNat 32 protLogHead)], prot := { held := [(0, .ha)] }
  commit := some ⟨false, 1, [], 0, [], false⟩ }

theorem regRow_protLogHead : regRow protLogHead = some ⟨0xA00, 0, 1, 0, 1, 0, 1, 0, 0, 0, 0, 0, 0x1F, 0, 0⟩ := by
  decide +kernel

/-- Refutes O21: LOG_HEAD has no RWS bits, so that the held value of `heldLogHead` would leave it as it is; the entry of
the log that APPLIED makes moves it on. The statement asks that a row covers the held entry's address, not that the row
has RWS bits. -/
theorem not_commitsWriteTheSlotThatIsNotTheLast : ¬ Obligations.CommitsWriteTheSlotThatIsNotTheLast := by
  unfold Obligations.CommitsWriteTheSlotThatIsNotTheLast
  intro h
  obtain ⟨-, -, -, hheld, -⟩ := h heldLogHead
  obtain ⟨t, ht, -, -, hvalue, -⟩ :=
    hheld _ 0 .ha _ false rfl rfl rfl regRow_protLogHead (by decide) (by decide) (by decide) (by decide)
  have hlog : t.reg protLogHead = 1 := by
    cases ht
    decide +kernel
  have hstands : t.reg protLogHead = 0 := hvalue
  rw [hlog] at hstands
  exact absurd hstands (by decide)

/-! ## Boot steps without a Last -/

theorem forEach_id {α : Type} (l : List α) (s : State) : forEach l (fun s _ => s) s = s :=
  forEach_keeps (fun s _ => s) id (fun _ _ => rfl) l s

/-- Without a record of the Last, RETAIN alone takes a value, its factory value (R99, R100). -/
theorem State.restoreBlock_nil (s : State) (seq : Word) (p : Nat) :
    s.restoreBlock [] seq p = s.putb (hdrCtrlRetain p) true := by
  have hret : recRetain [] p = true := rfl
  have hval : ∀ q o, recVal [] q o = none := fun _ _ => rfl
  simp only [State.restoreBlock, hret, hval, forEach_id]
  rfl

/-- What step 4 writes of a page without a Last: RETAIN, and the EN that its block's step will apply (R94, R99). -/
def State.restoreFactory (s : State) (p : Nat) : State :=
  let s := s.putb (hdrCtrlRetain p) true
  match blkOf p with
  | some (b, _, _) =>
    if isControl b then s
    else { s with chip := { s.chip with bootEn := s.chip.bootEn.wr false p (recEn [] p) } }
  | none => s

/-- Two updates that agree on the states of an invariant agree when they are repeated from one of them. -/
theorem forEach_congr {α : Type} (f g : State → α → State) (P : State → Prop) (hP : ∀ s x, P s → P (g s x))
    (hfg : ∀ s x, P s → f s x = g s x) (l : List α) (s : State) (hs : P s) : forEach l f s = forEach l g s := by
  unfold forEach
  induction l generalizing s with
  | nil => rfl
  | cons x t ih =>
    simp only [List.foldl_cons]
    rw [hfg s x hs]
    exact ih (g s x) (hP s x hs)

theorem State.restoreFactory_keptTime (s : State) (p : Nat) : (s.restoreFactory p).chip.keptTime = s.chip.keptTime := by
  unfold State.restoreFactory
  split
  · split <;> rfl
  · rfl

/-- Step 4 without a Last, in a boot that did not keep the T domain. -/
theorem State.step4_of_no_last (s : State) (hlast : s.chip.last = none) (htime : s.chip.keptTime = false) :
    s.step4 = (forEach restoreOrder State.restoreFactory s).contradictions.startStep 4 := by
  have hrecs : s.bootRecs = ([], none) := by simp only [State.bootRecs, hlast]
  simp only [State.step4, hrecs]
  rw [forEach_congr _ State.restoreFactory (fun u => u.chip.keptTime = false)
    (fun u p h => (u.restoreFactory_keptTime p).trans h) ?_ _ s htime]
  intro u p hu
  simp only [hu, Bool.false_and, Bool.false_eq_true, if_false, State.restoreBlock_nil]
  rfl

/-- Step 3 without an image named in the Last. -/
theorem State.step3_of_no_images (s : State) (flash : Flash) (h : namedImages s.bootRecs.1 = []) :
    s.step3 flash = ({ s with sup := { s.sup with flash := flash } }).putb devBootCold false := by
  have h' : namedImages ({ s with sup := { s.sup with flash := flash } } : State).bootRecs.1 = [] := h
  simp only [State.step3, h']
  rfl

theorem bootStepComplete_ready (s : State) (r : BootReport) (hready : s.bootReady = true) (hk : s.bootStep ≠ 14) :
    exec (.bootStepComplete r) s = .next ((s.supStep.stepEnd s.bootStep r).put devBootStep (s.bootStep + 1)) := by
  show execBootStepComplete r s = _
  simp [execBootStepComplete, hready, hk]

/-! ## A newest record outside the ring -/

/-- A device in step 3 of its boot, without a Last, FLT reading ON, five members in Shank group 0, and a name in WARM of
FAB. FLT takes for its newest record one outside its ring of 64: the words at which that record would stand are WARM of
engines 0 to 7, and they read as a record of the conflict that the group is about to raise. -/
def strayRecord : State := {
  regs := [(devBoot, 3), (hdrState pgFlt, 2), (fabWarm 1, 0xB0015), (shankGroupCfg 0, 0x1F)]
  flt := { newest := some 20676 } }

/-- The device at the end of that step. -/
def strayRecordBooted : State :=
  (((forEach restoreOrder State.restoreFactory (strayRecord.putb devBootCold false)).contradictions).startStep 4).put devBootStep 4

theorem strayRecord_ready : strayRecord.bootReady = true ∧ strayRecord.bootStep = 3 := by decide +kernel

theorem bootStepComplete_strayRecord : exec (.bootStepComplete ⟨false, []⟩) strayRecord = .next strayRecordBooted := by
  obtain ⟨hready, hstep⟩ := strayRecord_ready
  have himages : namedImages strayRecord.bootRecs.1 = [] := by decide +kernel
  rw [bootStepComplete_ready _ _ hready (by rw [hstep]; decide), hstep]
  show Host.Outcome.next (((strayRecord.step3 []).step4).put devBootStep 4) = _
  rw [strayRecord.step3_of_no_images [] himages, State.step4_of_no_last _ rfl rfl]
  rfl

/-- The conflict has been merged into the record outside the ring: WARM of engine 4, which no slot restored, reads 1. -/
theorem strayRecordBooted_warm : strayRecordBooted.chip.last = none ∧ strayRecordBooted.keptReg (fabWarm 4) = 1 := by
  decide +kernel

/-- Refutes O9: in `strayRecord` the newest fault record stands outside the ring, so that a conflict met in step 3 is
merged into WARM of engine 4: a retained register that the Last records no value of does not stand. The statement does
not ask that the newest record be one of the ring's 64. -/
theorem not_bootStepsFollowOneAnother : ¬ Obligations.BootStepsFollowOneAnother := by
  unfold Obligations.BootStepsFollowOneAnother
  intro h
  obtain ⟨hready, hstep⟩ := strayRecord_ready
  obtain ⟨hlast, hwarm⟩ := strayRecordBooted_warm
  obtain ⟨t, ht, -, -, -, -, hstep3, -⟩ := h ⟨false, []⟩ strayRecord hready (by rw [hstep]; decide)
  obtain rfl : strayRecordBooted = t := Host.Outcome.next.inj (bootStepComplete_strayRecord.symm.trans ht)
  obtain ⟨-, htaken⟩ := (hstep3 hstep).1 pgFab (by decide) (by decide)
  have hkept := htaken pgFab (by decide) 0x90 (by decide +kernel) (by decide) rfl
  simp only [hlast] at hkept
  have hstands : strayRecordBooted.keptReg (fabWarm 4) &&& retBits pgFab 0x90
      = strayRecord.reg (fabWarm 4) &&& retBits pgFab 0x90 := hkept
  rw [hwarm] at hstands
  exact absurd hstands (by decide +kernel)

end Sys2Proof.Machine
end

section
/-! Ports and MACs (chapter 4): why the statements about links, received frames and transmission do not hold of every
state of the model. -/
namespace Sys2Proof.Machine
open Sys2Proof

/-! ## A speed that LINK.SPEED cannot hold -/

/-- SPEED has three bits: of a value it takes the low three. -/
theorem State.macLinkSpeed_put (s : State) (n v : Nat) : (s.put (macLinkSpeed n) v).get (macLinkSpeed n) = v % 8 :=
  State.get_put_same s (macLinkSpeed n) v (by decide : 1 + 3 ≤ 32)

theorem State.macLinkSpeed_setPort (s : State) (n : Nat) (p : Port) :
    (s.setPort n p).get (macLinkSpeed n) = s.get (macLinkSpeed n) := rfl

theorem macLinkSpeed_key_ne_irqRaw (n : Nat) : (macLinkSpeed n).key ≠ hdrIrqRaw (pgMac n) := by
  simp only [macLinkSpeed, macLink, hdrIrqRaw, pgMac]
  omega

/-- What LINK_UP does to a link that is down (R111-R113, R129). -/
theorem State.linkUp_of_down (s : State) (n : Nat) (h : s.bit (macLinkUp n) = false) :
    s.linkUp n = (((s.putb (macLinkUp n) true).put (macLinkSpeed n) (s.speedCode n)).setPort n
      { s.portOf n with credit := [] }).irq' (pgMac n) 1 := by
  simp only [State.linkUp, h, Bool.false_eq_true, false_and, if_false]
  rfl

/-- SPEED of a link that comes up: the low three bits of the port's speed code. -/
theorem State.macLinkSpeed_linkUp (s : State) (n : Nat) (h : s.bit (macLinkUp n) = false) :
    (s.linkUp n).get (macLinkSpeed n) = s.speedCode n % 8 := by
  rw [s.linkUp_of_down n h, State.irq', State.orReg, State.get_setReg_ne _ _ _ (macLinkSpeed_key_ne_irqRaw n),
    State.macLinkSpeed_setPort, State.macLinkSpeed_put]

/-- P0 in SGMII mode, its link able to come up, with a speed of 8 recorded from the SGMII control word. -/
def straySpeed : State := {
  regs := [(hdrState (pgMac 0), 2), (macLink 0, 0x20), (hdrState (pgLane 0), 2), (laneCfg 0, 1), (laneStatus 0, 4)]
  port := [(0, { sgmiiUp := true, sgmiiSpeed := 8 })] }

theorem straySpeed_can : straySpeed.linkCan 0 = true ∧ straySpeed.bit (macLinkUp 0) = false := by decide +kernel

/-- Refutes O37: the link of `straySpeed` comes up with SPEED 0, for the recorded speed 8 does not fit its three bits. The
statement does not ask that the speed recorded of an SGMII control word be one that such a word reports. -/
theorem not_linksComeUpAndGoDown : ¬ Obligations.LinksComeUpAndGoDown := by
  unfold Obligations.LinksComeUpAndGoDown
  intro h
  obtain ⟨hcan, hdown⟩ := straySpeed_can
  obtain ⟨-, -, hup, -⟩ := h .sup 0 0 straySpeed
  obtain ⟨t, ht, -, ⟨-, hspeed⟩, -⟩ := hup hcan hdown
  have hex : exec (.linkUp 0) straySpeed = .next (straySpeed.linkUp 0) := congrArg Host.Outcome.next (if_pos hcan)
  obtain rfl : straySpeed.linkUp 0 = t := Host.Outcome.next.inj (hex.symm.trans ht)
  have hreads : (straySpeed.linkUp 0).get (macLinkSpeed 0) = 0 := straySpeed.macLinkSpeed_linkUp 0 hdown
  have hcode : (straySpeed.linkUp 0).speedCode 0 = 8 := by decide +kernel
  exact absurd (hreads.symm.trans (hspeed.trans hcode)) (by decide)

/-! ## A lane disabled under a frame -/

/-- A running device with a through-lane from P0 to P1 whose engine is off, so that its frames pass under bypass, where they
are discarded. -/
def bypassedLane : State := {
  regs := [(devBoot, 0x1F), (hdrState (pgMac 0), 2), (macLink 0, 7), (hdrState (pgMac 1), 2), (hdrState pgSwc, 2),
    (fabLaneCfg 0, 0x1003)] }

/-- That device after its lane was disabled with a frame in it: the lane takes no frame of P0 any more, and still knows that
the one in reception has entered it. -/
def disabledMidFrame : State := {
  regs := [(devBoot, 0x1F), (hdrState (pgMac 0), 2), (macLink 0, 7), (hdrState (pgMac 1), 2), (hdrState pgSwc, 2),
    (fabLaneFrames 0, 1)]
  fab := { lane := [(0, { line := 8, entered := true })] } }

/-- A frame begins to arrive, and a write of LANE[0].CFG clears EN: but for the stamp of the frame, which rests on the design,
the device is in `disabledMidFrame`. -/
theorem disabledMidFrame_reached : ∃ u v, exec (.laneFrame 0 (some ⟨0, 0, 0⟩) ⟨List.replicate 8 0, 0⟩) bypassedLane = .next u
    ∧ exec (.laneCfgWrite .sup 0 0) u = .next v ∧ { v with port := [] } = disabledMidFrame :=
  ⟨_, _, rfl, rfl, by decide +kernel⟩

theorem disabledMidFrame_receives : disabledMidFrame.macReceives 0 = true ∧ modeEth (disabledMidFrame.mode 0) = true
    ∧ disabledMidFrame.bit (macLinkUp 0) = true ∧ disabledMidFrame.on pgSwc = true ∧ disabledMidFrame.laneTakes 0 = false := by
  decide +kernel

theorem length_pauseBytes (sa : BitVec 48) (quanta : Half) : (pauseBytes sa quanta).length = 64 := rfl

/-- Refutes O38: the frame that `disabledMidFrame` receives has entered the lane, and so is withheld from the switch core
(R144, R281), though no lane takes the port's frames at its end. The statement asks for TAP only where the lane takes the
port's frames as the frame ends. -/
theorem not_receivedFramesAreClassedAndCounted : ¬ Obligations.ReceivedFramesAreClassedAndCounted := by
  unfold Obligations.ReceivedFramesAreClassedAndCounted
  intro h
  obtain ⟨hmac, heth, hlink, hswc, htakes⟩ := disabledMidFrame_receives
  obtain ⟨-, hpause, -⟩ := h 0 disabledMidFrame
  obtain ⟨t, ht, -, -, -, -, -, -, -, -, hingress⟩ := hpause ⟨0, 0, ⟨0, 0, 0⟩⟩ hmac heth hlink
  have hex : exec (.pauseFrame 0 ⟨0, 0, ⟨0, 0, 0⟩⟩) disabledMidFrame
      = .next (disabledMidFrame.rxTake 0 (pauseBytes 0 0) 0 0 ⟨0, 0, 0⟩) := congrArg Host.Outcome.next (if_pos (by decide +kernel))
  obtain rfl : disabledMidFrame.rxTake 0 (pauseBytes 0 0) 0 0 ⟨0, 0, 0⟩ = t := Host.Outcome.next.inj (hex.symm.trans ht)
  have hwithheld : (disabledMidFrame.rxTake 0 (pauseBytes 0 0) 0 0 ⟨0, 0, 0⟩).swc.ingress = [] := by decide +kernel
  have htap : disabledMidFrame.laneTakes 0 = true → disabledMidFrame.bit (fabLaneCfgTap 0) = true := fun hlane =>
    absurd (htakes.symm.trans hlane) Bool.false_ne_true
  have henters := hingress htap hswc (fun i hi => absurd hi List.not_mem_nil)
  rw [hwithheld, if_neg fun hrunt => absurd hrunt.2 (by rw [length_pauseBytes]; decide)] at henters
  exact List.cons_ne_nil _ _ henters.symm

/-! ## Credit while a lane frame is in transmission -/

/-- A frame from P1 has begun to pass under bypass through a lane to P0, whose queue 3 is shaped and has its credit below 0. -/
def unfinishedLaneFrame : State := {
  regs := [(hdrState (pgMac 0), 2), (macLink 0, 7), (macShapeQCfg 0 3, 0x80000100), (hdrState (pgMac 1), 2), (macLink 1, 7),
    (fabLaneCfg 1, 1)]
  port := [(0, { credit := [(3, -4096)] })]
  fab := { lane := [(1, ⟨[{ bytes := [1], raw := true }], true, true, 1, true⟩)] } }

theorem unfinishedLaneFrame_waits : (unfinishedLaneFrame.portOf 0).tx = none ∧ unfinishedLaneFrame.laneInto 0 = some 1
    ∧ (unfinishedLaneFrame.laneOf 1).out = [{ bytes := [1], raw := true }]
    ∧ (unfinishedLaneFrame.strm (unfinishedLaneFrame.laneAt 1).1 (unfinishedLaneFrame.laneAt 1).2).frames = [] := by
  decide +kernel

theorem unfinishedLaneFrame_credit : unfinishedLaneFrame.creditOf 0 3 = -4096
    ∧ ((unfinishedLaneFrame.creditRun 0 1 [] none).laneLeave 1 0 ⟨0, 0, 0⟩).creditOf 0 3 = -2048 := by decide +kernel

/-- TX_FRAME_END with no queue frame in transmission: the queues gain credit, and the lane's foremost frame may leave (R126,
R278). -/
theorem txFrameEnd_of_lane (n : PortIx) (bt : Nat) (waited : List Nat) (x : Strobe) (s : State) (k : Nat)
    (htx : (s.portOf n.val).tx = none) (hk : s.laneInto n.val = some k) :
    exec (.txFrameEnd n bt waited x) s = .next ((s.creditRun n.val bt waited none).laneLeave k n.val x) := by
  show execTxFrameEnd n bt waited x s = _
  simp only [execTxFrameEnd, htx, hk]

/-- Refutes O39: in one byte time of `unfinishedLaneFrame` the shaped queue gains 2,048 of credit, though the lane frame is not
at its end and does not leave. The statement has TX_FRAME_END change nothing there, and does not ask that no queue be
shaped. -/
theorem not_framesAreSelectedAndSent : ¬ Obligations.FramesAreSelectedAndSent := by
  unfold Obligations.FramesAreSelectedAndSent
  intro h
  obtain ⟨htx, hinto, hout, hframes⟩ := unfinishedLaneFrame_waits
  obtain ⟨-, -, -, -, hlane, -⟩ := h 0 1 [] ⟨0, 0, 0⟩ unfinishedLaneFrame
  have hstands := (hlane htx).2 1 _ [] hinto hout (.inl hframes)
  rw [if_neg fun hends => absurd hends.1 Bool.false_ne_true, txFrameEnd_of_lane 0 1 [] ⟨0, 0, 0⟩ _ 1 htx hinto] at hstands
  obtain ⟨hbefore, hafter⟩ := unfinishedLaneFrame_credit
  have hsame := congrArg (·.creditOf 0 3) (Host.Outcome.next.inj hstands)
  exact absurd (hafter.symm.trans (hsame.trans hbefore)) (by decide)

end Sys2Proof.Machine
end

section
/-! The time base (chapter 6): why the statements about event units, views and ticks do not hold of every state of the
model. -/
namespace Sys2Proof.Machine
open Sys2Proof

/-! ## A disarming that wave capture waits for -/

/-- Ending a pulse concerns the time base and the pin alone. -/
theorem State.evCut_frame (s : State) (n : Nat) : (s.evCut n).regs = s.regs ∧ (s.evCut n).wcap = s.wcap := by
  unfold State.evCut State.teEdge
  dsimp only
  split
  · split <;> exact ⟨rfl, rfl⟩
  · exact ⟨rfl, rfl⟩

/-- The disarming of the armed sample unit is on its way to wave capture (R457, R458). -/
theorem State.wcapDue_evDisarm (s : State) (n : Nat) (hon : s.on pgWcap = true) (hev : s.get wcapCfgEv = n)
    (harm : s.bit (evtEvStatArmed n) = true) : (s.evDisarm n).wcap.due = s.wcap.due ++ [none] := by
  obtain ⟨hregs, hwcap⟩ := s.evCut_frame n
  have hget (f : Field) : (s.evCut n).get f = s.get f := by unfold State.get State.reg; rw [hregs]
  have harm' : (s.evCut n).bit (evtEvStatArmed n) = true := by unfold State.bit at harm ⊢; rw [hget]; exact harm
  have hsample : (s.evCut n).on pgWcap = true ∧ n = (s.evCut n).get wcapCfgEv := by
    unfold State.on State.st at hon ⊢
    rw [hget, hget]
    exact ⟨hon, hev.symm⟩
  simp only [State.evDisarm, harm', if_true, State.sampleDue, if_pos hsample, State.putb_wcap, State.setEv_wcap, hwcap]

theorem keyAddr_evtEvCtrl : ∀ n : OctIx, keyAddr (evtEvCtrl n.val) = evtEvCtrl n.val := by decide

theorem regRow_evtEvCtrl : ∀ n : OctIx, (regRow (keyAddr (evtEvCtrl n.val))).isSome = true := by decide

/-- A write of 2 to EV[n].CTRL that nothing refuses disarms the unit (R206). -/
theorem evDisarm_of_letsIn (s : State) (p : Principal) (n : OctIx) (h : s.letsIn p (evtEvCtrl n.val) = true) :
    exec (.evDisarm p n) s = .next (s.evDisarm n.val) :=
  congrArg Host.Outcome.next
    (s.access_letsIn p _ 2 (fun s w => s.evCtrl n.val w) ((keyAddr_evtEvCtrl n).symm ▸ h) (regRow_evtEvCtrl n))

/-- A booted device with EVT and WCAP reading ON, whose sample unit EV0 is armed. -/
def armedSampler : State := {
  regs := [(devBoot, 0x10), (hdrState pgEvt, 2), (evtEvStat 0, 1), (hdrState pgWcap, 2)] }

theorem armedSampler_disarms : armedSampler.letsIn .sup (evtEvCtrl 0) = true ∧ armedSampler.on pgEvt = true
    ∧ armedSampler.on pgWcap = true ∧ armedSampler.get wcapCfgEv = 0 ∧ armedSampler.bit (evtEvStatArmed 0) = true := by
  decide +kernel

/-- Refutes O45: EV0 is the sample unit of wave capture in `armedSampler`, so that its DISARM is on its way to WCAP
(R457, R458). The statement has a DISARM change nothing but the unit, its STAT and the pin. -/
theorem not_eventUnitsArmFireAndEnd : ¬ Obligations.EventUnitsArmFireAndEnd := by
  unfold Obligations.EventUnitsArmFireAndEnd
  intro h
  obtain ⟨hin, hevt, hwcap, hev, harm⟩ := armedSampler_disarms
  obtain ⟨hctrl, -⟩ := h .sup 0 armedSampler
  obtain ⟨-, t, ht, -, -, -, -, -, ⟨-, hrest, -⟩, -⟩ := hctrl hin hevt
  obtain rfl : armedSampler.evDisarm 0 = t := Host.Outcome.next.inj ((evDisarm_of_letsIn _ .sup 0 hin).symm.trans ht)
  have hdue := armedSampler.wcapDue_evDisarm 0 hwcap hev harm
  have hstands : (armedSampler.evDisarm 0).wcap.due = armedSampler.wcap.due := congrArg (·.wcap.due) hrest
  exact absurd (hdue.symm.trans hstands) (by decide)

/-! ## A switch to a set that is itself aged -/

theorem State.viewOf_setView_same (s : State) (n : Nat) (v : View) : (s.setView n v).viewOf n = v :=
  Sparse.rd_wr_same _ _ _ _

theorem State.viewOf_setView_ne (s : State) {n m : Nat} (v : View) (h : m ≠ n) : (s.setView n v).viewOf m = s.viewOf m :=
  Sparse.rd_wr_ne _ _ _ _ h

/-- View `n` is aged, and has been reported so (R197). -/
def State.agedReported (s : State) (n : Nat) : Prop := (s.viewOf n).aged = true ∧ s.viewIsAged n = true

/-- A reported AGED that has not fallen stays reported (R197). -/
theorem State.agedReported_viewsFresh (s : State) (n : Nat) (h : s.agedReported n) : s.viewsFresh.agedReported n := by
  refine forEach_inv _ (State.agedReported · n) (fun u m hu => ?_) _ _ h
  obtain ⟨hrep, hage⟩ := hu
  split
  · rename_i hfallen
    have hne : n ≠ m := by
      rintro rfl
      simp [hage] at hfallen
    have hview := u.viewOf_setView_ne { u.viewOf m with aged := false } hne
    unfold State.agedReported State.viewIsAged
    rw [hview]
    exact ⟨hrep, hage⟩
  · exact ⟨hrep, hage⟩

/-- A view whose ACT_AT has come, with its armed set put into use (R193). -/
def View.switched (x : View) (c : ViewSet) (a : BitVec 48) : View := { x.install c (frcStamp a) with pend := none }

theorem viewSwitch_of_due (s : State) (w : ViewIx) (c : ViewSet) (a : BitVec 48)
    (hpend : (s.viewOf w.val).pend = some (c, a)) (hact : 0 ≤ (s.tb.frc - a).toInt) :
    exec (.viewSwitch w) s = .next (s.setView w.val ((s.viewOf w.val).switched c a)).viewsFresh := by
  show execViewSwitch w s = _
  simp only [execViewSwitch, hpend, if_pos hact, View.switched]

/-- A switch to a set that is aged leaves a reported AGED reported (R193, R197). -/
theorem State.agedReported_switched (s : State) (n : Nat) (c : ViewSet) (a : BitVec 48) (hrep : (s.viewOf n).aged = true)
    (hage : 2 ^ 46 ≤ (s.tb.frc - stampFrc c.anchor).toInt) :
    (s.setView n ((s.viewOf n).switched c a)).viewsFresh.agedReported n := by
  refine State.agedReported_viewsFresh _ n ?_
  unfold State.agedReported State.viewIsAged
  rw [s.viewOf_setView_same]
  exact ⟨hrep, decide_eq_true hage⟩

/-- Of view 0 the set in use is aged, which has been reported, and so is the armed one; ACT_AT has come. -/
def agedSwitch : State := {
  regs := [(hdrState pgTb, 2), (hdrState pgView, 2), (hdrIrqRaw pgView, 2)]
  tb := { frc := 0x400000000000, view := [(0, { cur := some ⟨0, 0, 0⟩, pend := some (⟨5, 0, 0⟩, 0x400000000000), aged := true })] } }

theorem agedSwitch_due : (agedSwitch.viewOf 0).pend = some (⟨5, 0, 0⟩, 0x400000000000)
    ∧ 0 ≤ (agedSwitch.tb.frc - 0x400000000000).toInt ∧ (agedSwitch.viewOf 0).aged = true
    ∧ 2 ^ 46 ≤ (agedSwitch.tb.frc - stampFrc 0).toInt := by decide +kernel

/-- Refutes O46: the set that VIEW_SWITCH puts into use in `agedSwitch` has an anchor as old as the last one's, so that
AGED does not fall and stays reported (R197). The statement has every switch end the report. -/
theorem not_viewsCapturesAndLatches : ¬ Obligations.ViewsCapturesAndLatches := by
  unfold Obligations.ViewsCapturesAndLatches
  intro h
  obtain ⟨hpend, hact, hrep, hage⟩ := agedSwitch_due
  obtain ⟨-, hswitch, -⟩ := h .sup 0 0 agedSwitch
  obtain ⟨t, ht, hview, -⟩ := hswitch _ _ hpend hact
  obtain rfl := Host.Outcome.next.inj ((viewSwitch_of_due agedSwitch 0 _ _ hpend hact).symm.trans ht)
  obtain ⟨hreported, -⟩ := agedSwitch.agedReported_switched (0 : ViewIx).val ⟨5, 0, 0⟩ 0x400000000000 hrep hage
  rw [hview] at hreported
  exact Bool.false_ne_true hreported

/-! ## A tick that ends a degraded operation -/

/-- HTB0 and TREAD read ON, generator 0 is in HOLDOVER, and a REACQUIRE waits for its next tick. DEGRADED states the
holdover, and that no spare is idle. -/
def heldReacquire : State := {
  regs := [(fltDegraded, 9), (hdrState (pgHtb 0), 2), (hdrState pgTread, 2), (treadStat 0, 5)]
  gen := [(0, { due := [(0, 0x400)] })] }

/-- The REACQUIRE takes generator 0 out of HOLDOVER, and DEGRADED is brought up to date (R259, R531). -/
theorem heldReacquire_ticks : heldReacquire.degradedNow = heldReacquire.get fltDegradedBits
    ∧ Gives (exec .htbTick heldReacquire) fun t => t.stage 0 = stSeek ∧ t.reg fltDegraded = 1 := by
  refine ⟨by decide +kernel, _, rfl, ?_, ?_⟩ <;> decide +kernel

/-- Refutes O47: the tick at which REACQUIRE acts in `heldReacquire` ends the holdover of generator 0, and with it a bit
of DEGRADED in FLT (R531). The statement has a tick change no register but those of TREAD and the HTBs, OCX_VALUE and
STAT of two Shank channels. -/
theorem not_ticksLeapSecondsAndTheOscillator : ¬ Obligations.TicksLeapSecondsAndTheOscillator := by
  unfold Obligations.TicksLeapSecondsAndTheOscillator
  intro h
  obtain ⟨⟨t, ht, -, -, -, -, -, hkept, -⟩, -⟩ := h .sup heldReacquire
  obtain ⟨-, t', ht', -, hdegraded⟩ := heldReacquire_ticks
  obtain rfl : t' = t := Host.Outcome.next.inj (ht'.symm.trans ht)
  have hstands := hkept fltDegraded (by decide) (by decide)
  rw [hdegraded] at hstands
  exact absurd hstands (by decide +kernel)

end Sys2Proof.Machine
end
